-- ==== Sys2Proof/Word.lean ====
section
/-! DEFINITION. The word types: a 32-bit word of the register window (20_memory.md R61) and a byte of the
compressed streams (20_memory.md R60). -/

namespace Sys2Proof

/-- A 32-bit bus word, command word or register (R61, R80). -/
abbrev Word := BitVec 32

/-- A byte of a compressed stream, or a literal symbol 0 to 255 (R8, R60). -/
abbrev Byte := BitVec 8

end Sys2Proof
end

