-- ==== Sys2Proof/Syntax.lean ====
section
/-! DEFINITION. The commands (30_encoding.md R86) and the reasons a command word is none of them (R87). -/

namespace Sys2Proof

/-- The ten commands of R86 with the fields of their IMM (R81 to R84). The RAW commands take their operands
from ARG0 to ARG2 and so have no field (R85). -/
inductive Instr where
  /-- ENC_START (0x01): format S, `order` is sext_8 ORDER, `alpha` is zext_9 ALPHA, `rawf` is RAWF. -/
  | encStart (order : Int) (alpha : Nat) (rawf : Bool)
  /-- DEC_START (0x02): format S. -/
  | decStart (order : Int) (alpha : Nat) (rawf : Bool)
  /-- ENC_BYTE (0x03): format B, the literal byte. -/
  | encByte (b : Byte)
  /-- ENC_FINISH (0x04): format N. -/
  | encFinish
  /-- DEC_SYMBOL (0x05): format N. -/
  | decSymbol
  /-- RAW_ENC (0x06): format N. -/
  | rawEnc
  /-- RAW_DEC_TARGET (0x07): format N. -/
  | rawDecTarget
  /-- RAW_DEC_APPLY (0x08): format N. -/
  | rawDecApply
  /-- RAW_DEC_END (0x09): format N. -/
  | rawDecEnd
  /-- ABORT (0x0F): format A, IMM carried but ignored. -/
  | abort (imm : BitVec 24)
  deriving DecidableEq, Repr

/-- Why a command word is no command (R87), with the word's OPC, which ERR records (R243). -/
inductive Reject where
  /-- OPC is not one of R86's: ILLEGAL_COMMAND subcause 1. -/
  | undefinedOpcode (opc : BitVec 8)
  /-- OPC is defined and a reserved IMM bit is set: ILLEGAL_COMMAND subcause 2. -/
  | reservedBits (opc : BitVec 8)
  deriving DecidableEq, Repr

end Sys2Proof
end

