-- ==== Sys2Proof/WellFormed.lean ====
section
/-! DEFINITION. Which commands have an encoding: the ranges of the fields of 30_encoding.md R81. -/

namespace Sys2Proof

/-- ORDER is an 8-bit two's complement field (R81). -/
def orderFits (order : Int) : Bool := decide (-128 ≤ order ∧ order ≤ 127)

/-- ALPHA is a 9-bit unsigned field (R81). -/
def alphaFits (alpha : Nat) : Bool := decide (alpha < 512)

/-- The command's fields fit its format. Whether the core accepts them is the meaning's concern (R202). -/
def Instr.wellFormed : Instr → Bool
  | .encStart order alpha _ => orderFits order && alphaFits alpha
  | .decStart order alpha _ => orderFits order && alphaFits alpha
  | .encByte _ => true
  | .encFinish => true
  | .decSymbol => true
  | .rawEnc => true
  | .rawDecTarget => true
  | .rawDecApply => true
  | .rawDecEnd => true
  | .abort _ => true

end Sys2Proof
end

