-- ==== Sys2Proof/Decode.lean ====
section
/-! DEFINITION. The decoder of command words (30_encoding.md R80 to R88) and, after it, the encoder written from
the same tables. -/

namespace Sys2Proof

/-- Field OPC, bits 31 to 24 (R80). -/
def opcOf (w : Word) : BitVec 8 := w.extractLsb' 24 8

/-- Field IMM, bits 23 to 0 (R80). -/
def immOf (w : Word) : BitVec 24 := w.extractLsb' 0 24

/-- IMM[7:0], the ORDER field of format S and the BYTE field of format B (R81, R82). -/
def imm7to0 (w : Word) : BitVec 8 := w.extractLsb' 0 8

/-- sext_8 of IMM[7:0] (R81). -/
def orderOf (w : Word) : Int := (imm7to0 w).toInt

/-- zext_9 of IMM[16:8] (R81). -/
def alphaOf (w : Word) : Nat := (w.extractLsb' 8 9).toNat

/-- RAWF, IMM[17] (R81). -/
def rawfOf (w : Word) : Bool := w.getLsbD 17

/-- IMM[23:18], reserved in format S (R81). -/
def reservedS (w : Word) : BitVec 6 := w.extractLsb' 18 6

/-- IMM[23:8], reserved in format B (R82). -/
def reservedB (w : Word) : BitVec 16 := w.extractLsb' 8 16

/-- Format S: a set reserved bit is refused (R81, R87). -/
def decodeS (mk : Int → Nat → Bool → Instr) (w : Word) : Except Reject Instr :=
  if reservedS w = 0 then .ok (mk (orderOf w) (alphaOf w) (rawfOf w)) else .error (.reservedBits (opcOf w))

/-- Format B (R82). -/
def decodeB (w : Word) : Except Reject Instr :=
  if reservedB w = 0 then .ok (.encByte (imm7to0 w)) else .error (.reservedBits (opcOf w))

/-- Format N: all of IMM is reserved (R83). -/
def decodeN (i : Instr) (w : Word) : Except Reject Instr :=
  if immOf w = 0 then .ok i else .error (.reservedBits (opcOf w))

/-- The opcode map of R86. Every word has one outcome: a command, or the reason it is none. -/
def decode (w : Word) : Except Reject Instr :=
  match (opcOf w).toNat with
  | 0x01 => decodeS .encStart w
  | 0x02 => decodeS .decStart w
  | 0x03 => decodeB w
  | 0x04 => decodeN .encFinish w
  | 0x05 => decodeN .decSymbol w
  | 0x06 => decodeN .rawEnc w
  | 0x07 => decodeN .rawDecTarget w
  | 0x08 => decodeN .rawDecApply w
  | 0x09 => decodeN .rawDecEnd w
  | 0x0F => .ok (.abort (immOf w))
  | _ => .error (.undefinedOpcode (opcOf w))

/-- The opcode of a command, column OPC of R86. -/
def opcode : Instr → BitVec 8
  | .encStart _ _ _ => 0x01#8
  | .decStart _ _ _ => 0x02#8
  | .encByte _ => 0x03#8
  | .encFinish => 0x04#8
  | .decSymbol => 0x05#8
  | .rawEnc => 0x06#8
  | .rawDecTarget => 0x07#8
  | .rawDecApply => 0x08#8
  | .rawDecEnd => 0x09#8
  | .abort _ => 0x0F#8

/-- Format S: reserved, RAWF, ALPHA, ORDER from the high bits down (R81). -/
def immS (order : Int) (alpha : Nat) (rawf : Bool) : BitVec 24 :=
  (0#6 ++ BitVec.ofBool rawf) ++ BitVec.ofNat 9 alpha ++ BitVec.ofInt 8 order

/-- The IMM field of a command (R81 to R84). -/
def immediate : Instr → BitVec 24
  | .encStart order alpha rawf => immS order alpha rawf
  | .decStart order alpha rawf => immS order alpha rawf
  | .encByte b => 0#16 ++ b
  | .encFinish => 0
  | .decSymbol => 0
  | .rawEnc => 0
  | .rawDecTarget => 0
  | .rawDecApply => 0
  | .rawDecEnd => 0
  | .abort imm => imm

/-- The word of a command: OPC in the high byte, IMM below it (R80). -/
def encode (i : Instr) : Word := opcode i ++ immediate i

/-- The word the opcode table numbers `w` with `nbits` bits; bits above `nbits` are 0. A command is one 32-bit
word, bit 0 its least significant bit in the table and in R80 alike. -/
def tableWord (nbits w : Nat) : Word := BitVec.ofNat 32 (w % 2 ^ nbits)

/-- What `decode` gives for a word of the opcode table. -/
def decodeTableWord (nbits w : Nat) : Option Instr :=
  match decode (tableWord nbits w) with
  | .ok i => some i
  | .error _ => none

end Sys2Proof
end

