-- ==== Sys2Proof/Config.lean ====
section
/-! DEFINITION. What a build of the block fixes (00_scope.md R8 to R13) and the values the spec leaves free
(93_implementation_defined.md U10, U15; log 9, log 12). -/

namespace Sys2Proof

/-- The build-time parameters of 00_scope.md R9 to R12. They are held in `State.build` so that a claim about
every state is a claim about every build (log 1). -/
structure Build where
  /-- W (STATE_BITS), the width of LOW, HIGH and CODE (R9). -/
  width : Nat
  /-- T (RESCALE_THRESHOLD), the largest total of a table (R10). -/
  threshold : Nat
  /-- MAX_ORDER, the largest model order (R11). -/
  maxOrder : Nat
  /-- NODE_CAPACITY, `none` for UNBOUNDED (R12). -/
  nodeCapacity : Option Nat
  /-- PENDING_WIDTH, the width of the pending-bit counter (R12). -/
  pendingWidth : Nat
  deriving DecidableEq, Repr

/-- FULL = 2^W (R13). -/
def Build.full (b : Build) : Nat := 2 ^ b.width

/-- HALF = 2^(W-1) (R13). -/
def Build.half (b : Build) : Nat := 2 ^ (b.width - 1)

/-- QUARTER = 2^(W-2) (R13). -/
def Build.quarter (b : Build) : Nat := 2 ^ (b.width - 2)

/-- MASK = 2^W - 1 (R13). -/
def Build.mask (b : Build) : Nat := 2 ^ b.width - 1

/-- MAX_TOTAL = QUARTER + 2, the largest total the coder accepts (R13). -/
def Build.maxTotal (b : Build) : Nat := b.quarter + 2

/-- 2^PENDING_WIDTH - 1, the largest value of the pending-bit counter (R12, R157). -/
def Build.pendingMax (b : Build) : Nat := 2 ^ b.pendingWidth - 1

/-- NODE_CAPACITY is UNBOUNDED or an integer from 1 to 2^32 - 1 (R12, R61). -/
def capacityLegal : Option Nat → Bool
  | none => true
  | some c => decide (1 ≤ c ∧ c < 2 ^ 32)

/-- The bounds of R9 to R12 on the build parameters. -/
def Build.legal (b : Build) : Bool :=
  decide (10 ≤ b.width ∧ b.width ≤ 32 ∧ 258 ≤ b.threshold ∧ b.threshold ≤ b.maxTotal ∧
    3 ≤ b.maxOrder ∧ b.maxOrder ≤ 127 ∧ 1 ≤ b.pendingWidth ∧ b.pendingWidth ≤ 32) &&
  capacityLegal b.nodeCapacity

/-- The reference values of 92_eei_decisions.md's table of open parameters. -/
def Build.reference : Build :=
  { width := 32, threshold := 65536, maxOrder := 3, nodeCapacity := none, pendingWidth := 32 }

/-- ALPHABET_SIZE (R8). -/
def alphabetSize : Nat := 257

/-- ESC, the escape/EOF symbol (R8). -/
def esc : Nat := 256

/-- The constant of the ID register (R3). -/
def idConstant : Word := 0x50504D07#32

/-- The n-th value the spec leaves to chance: what a register reads while BUSY = 1 (R65, U10), and what became
of a port transaction that reset abandoned (R270, U15). It has no body, so no proof can know a value of it. -/
opaque Config.freeWord : Nat → Word

/-- What the NODES register reads when the store holds that many contexts and the number does not fit 32 bits;
R42 and R61 state no value there (log 12). -/
opaque Config.freeNodes : Nat → Word

end Sys2Proof
end

