-- ==== Sys2Proof/Machine/State.lean ====
section
/-! DEFINITION. The state of the block (10_state.md R20 to R43), the outside world it meets (20_memory.md R68 to
R70, R77), the reasons a step can stop, and the state after reset (70_reset_and_hazards.md R270). -/

namespace Sys2Proof.Machine

/-- STATE (R23). -/
inductive SessionState where
  | idle | enc | dec | done | error
  deriving DecidableEq, Repr

/-- DIR (R41). -/
inductive Direction where
  | encode | decode
  deriving DecidableEq, Repr

/-- ERR.CODE (R28, R241). -/
inductive ErrCode where
  | none | ioFailure | modelCorruption | configurationError | resourceExhausted | illegalCommand
  deriving DecidableEq, Repr

/-- The ERR register's three fields; all its other bits read 0 (R28). -/
structure ErrReg where
  code : ErrCode
  sub : BitVec 4
  opc : BitVec 8
  deriving DecidableEq, Repr

/-- The causes of a session error: the (CODE, SUB) pairs of R242. -/
inductive Cause where
  /-- IO_FAILURE 1: `SrcRead` answered `Fail`. -/
  | sourceFail
  /-- IO_FAILURE 2: `SnkWrite` answered `Fail`. -/
  | sinkFail
  /-- MODEL_CORRUPTION 1: total 0 or above MAX_TOTAL. -/
  | badTotal
  /-- MODEL_CORRUPTION 2: interval not 0 ≤ cl < ch ≤ tot. -/
  | badInterval
  /-- MODEL_CORRUPTION 3: narrowing would give a zero-width range. -/
  | collapsedRange
  /-- MODEL_CORRUPTION 4: CODE outside [LOW, HIGH]. -/
  | codeOutside
  /-- MODEL_CORRUPTION 5: the target value lies in no interval, or outside [ARG0, ARG1). -/
  | targetOutside
  /-- CONFIGURATION_ERROR 1: model order below -1 or above MAX_ORDER. -/
  | badOrder
  /-- CONFIGURATION_ERROR 2: alphabet size other than 257. -/
  | badAlphabet
  /-- RESOURCE_EXHAUSTED 1: a context must be created while NODES = NODE_CAPACITY. -/
  | storeFull
  /-- RESOURCE_EXHAUSTED 2: PENDING would pass 2^PENDING_WIDTH - 1. -/
  | pendingFull
  /-- ILLEGAL_COMMAND 1: undefined OPC. -/
  | undefinedOpc
  /-- ILLEGAL_COMMAND 2: reserved IMM bit set. -/
  | reservedBit
  /-- ILLEGAL_COMMAND 3: command not valid in the current STATE and RAW. -/
  | wrongState
  deriving DecidableEq, Repr

/-- A Frequency Table: the counts c[0..256], in symbol order (R38). -/
structure Table where
  counts : List Nat
  deriving DecidableEq, Repr

/-- The key of a context: its history suffix, most recent byte first (R171). -/
abbrev Key := List Byte

/-- The context store, a finite partial map from keys to tables (R37), listed by rising key (log 14). -/
abbrev Store := List (Key × Table)

/-- What the source answers to one `SrcRead` (R69). `silent` is a port that never answers (R277). -/
inductive SrcAnswer where
  | byte (b : Byte)
  | endOfInput
  | fail
  | silent
  deriving DecidableEq, Repr

/-- What the sink answers to one `SnkWrite` (R70). `silent` is a port that never answers (R277). -/
inductive SnkAnswer where
  | accept
  | fail
  | silent
  deriving DecidableEq, Repr

/-- A port transaction (R68). -/
inductive PortRequest where
  | srcRead
  | snkWrite (b : Byte)
  deriving DecidableEq, Repr

/-- The transaction that is outstanding and gets no answer (R277), and the STATE the command in flight started
in, which a STATUS read shows meanwhile (R65). -/
structure PortWait where
  request : PortRequest
  startedIn : SessionState
  deriving DecidableEq, Repr

/-- One host access to the register window: byte offset, width in bytes, and the value written (R62). -/
inductive Access where
  | read (offset : BitVec 8) (bytes : Nat)
  | write (offset : BitVec 8) (bytes : Nat) (value : Word)
  deriving DecidableEq, Repr

/-- When an access reaches the block, if a command is in flight (R64, R65, R274; log 3). -/
inductive Landing where
  /-- The host polled first: the access waits until BUSY = 0. -/
  | whenIdle
  /-- While BUSY = 1, before the command's first effect. -/
  | whileBusy
  /-- While BUSY = 1, after the command's last effect. -/
  | asBusyEnds
  deriving DecidableEq, Repr

/-- What the outside world does to the block next (R77, R270, R273). Only an access says which turn it takes against a
command in flight; the others come before its next effect (DESIGN CHOICE, log 27). -/
inductive Arrival where
  | access (a : Access) (l : Landing)
  | assertReset
  | releaseReset
  | connectSource (answers : List SrcAnswer)
  | connectSink (answers : List SnkAnswer)
  deriving DecidableEq, Repr

/-- The outside world: no part of the core's state by R20, but what a run of the core depends on and leaves. -/
structure Env where
  /-- The source's future answers; after the last of them it answers `End` (R69; log 5). -/
  source : List SrcAnswer
  /-- The sink's future answers; after the last of them it answers `Ok` (R70; log 6). -/
  sink : List SnkAnswer
  /-- The bytes the sink has accepted, in order (R70). -/
  sunk : List Byte
  /-- What the outside world will do, oldest first (R77; log 2). -/
  arrivals : List Arrival
  /-- The values the host's reads returned, in order (R89). -/
  reads : List Word
  /-- How many free values have been drawn (log 9). -/
  draws : Nat
  deriving DecidableEq, Repr

/-- The state of the block. Numbers the spec computes with are `Nat` or `Int` (R16, R155); the widths of LOW,
HIGH, CODE and PENDING are those of `build` (log 15). BUSY is `State.busy` (R24; log 4). -/
structure State where
  /-- The build parameters: configuration, changed by no step (R9 to R12; log 1). -/
  build : Build
  /-- STATE (R23). -/
  st : SessionState
  /-- EOF (R25). -/
  eof : Bool
  /-- CMD_DROPPED (R26). -/
  cmdDropped : Bool
  /-- ERR (R28). -/
  err : ErrReg
  /-- RESULT (R29). -/
  result : Word
  /-- ARG0, cumLow (R21, R85). -/
  arg0 : Word
  /-- ARG1, cumHigh (R21, R85). -/
  arg1 : Word
  /-- ARG2, total (R21, R85). -/
  arg2 : Word
  /-- M, the model order (R41). -/
  order : Int
  /-- DIR (R41). -/
  dir : Direction
  /-- RAW (R41). -/
  raw : Bool
  /-- LOW (R30). -/
  low : Nat
  /-- HIGH (R30). -/
  high : Nat
  /-- CODE (R32). -/
  code : Nat
  /-- PENDING (R31). -/
  pending : Nat
  /-- OUT_BUF (R35). -/
  outBuf : Byte
  /-- OUT_N (R35). -/
  outN : Nat
  /-- IN_BUF (R36). -/
  inBuf : Byte
  /-- IN_N (R36). -/
  inN : Nat
  /-- IN_EOF (R36). -/
  inEof : Bool
  /-- The context store (R37). -/
  store : Store
  /-- H, most recent byte first; HIST_LEN is its length (R40). -/
  hist : List Byte
  /-- BITS_OUT (R42). -/
  bitsOut : Word
  /-- BYTES_OUT (R42). -/
  bytesOut : Word
  /-- BYTES_IN (R42). -/
  bytesIn : Word
  /-- SYMS (R42). -/
  syms : Word
  /-- NODES, which never wraps (R42; log 12). -/
  nodes : Nat
  /-- PENDING_CMD (R24). -/
  pendingCmd : Option Word
  /-- The outstanding port transaction (R68, R277; log 7). -/
  portWait : Option PortWait
  /-- The reset input is asserted (R270; log 8). -/
  inReset : Bool
  /-- The outside world. -/
  env : Env
  deriving DecidableEq, Repr

/-- Why the machine stops. -/
inductive Fault where
  /-- Raised by `step` when the command in flight waits on a port that never answers and nothing arrives from
  outside: "the core being stuck, with no step" (R277, U12). Safe: only reset leaves that state, and a reset
  that arrives is a step. -/
  | portSilent
  deriving DecidableEq, Repr

/-- Why an instruction has no meaning. -/
inductive Refusal where
  /-- Raised by an arm of `exec` for an instruction that is not modelled. Safe: nothing follows from it. No arm
  raises it in this model. -/
  | notModelled (mnemonic : String)
  deriving DecidableEq, Repr

/-- How a micro-operation ends: with a value; with a session error raised; or waiting on a port that never
answers (R201, R244, R277). The state is the one at that point: effects before it stay (R245). -/
inductive Res (α : Type) where
  | ok (a : α) (s : State)
  | raised (c : Cause) (s : State)
  | waiting (q : PortRequest) (s : State)
  deriving DecidableEq, Repr

/-- ERR with no error recorded (R28). -/
def ErrReg.clear : ErrReg := { code := .none, sub := 0, opc := 0 }

/-- The outside world before anything has happened (log 19). -/
def Env.initial : Env := { source := [], sink := [], sunk := [], arrivals := [], reads := [], draws := 0 }

/-- The "after reset" column of R43, for a build. -/
def State.resetOf (b : Build) : State :=
  { build := b
    st := .idle, eof := false, cmdDropped := false, err := .clear, result := 0
    arg0 := 0, arg1 := 0, arg2 := 0
    order := -1, dir := .encode, raw := false
    low := 0, high := b.mask, code := 0, pending := 0
    outBuf := 0, outN := 0, inBuf := 0, inN := 0, inEof := false
    store := [], hist := []
    bitsOut := 0, bytesOut := 0, bytesIn := 0, syms := 0, nodes := 0
    pendingCmd := none, portWait := none, inReset := false
    env := .initial }

/-- The machine right after reset (R270), in the reference build (log 1). -/
def State.reset : State := State.resetOf .reference

end Sys2Proof.Machine
end

