-- ==== Sys2Proof/Machine/Flags.lean ====
section
/-! DEFINITION. The status, error, session and parameter words as the host reads them (10_state.md R23 to R28,
R41; 20_memory.md R61). -/

namespace Sys2Proof.Machine

/-- The 3-bit code of STATE (R23). -/
def SessionState.bits : SessionState → BitVec 3
  | .idle => 0#3
  | .enc => 1#3
  | .dec => 2#3
  | .done => 3#3
  | .error => 4#3

/-- The 4-bit code of ERR.CODE (R241). -/
def ErrCode.bits : ErrCode → BitVec 4
  | .none => 0#4
  | .ioFailure => 1#4
  | .modelCorruption => 2#4
  | .configurationError => 3#4
  | .resourceExhausted => 4#4
  | .illegalCommand => 5#4

/-- DIR as a bit: 0 encode, 1 decode (R41). -/
def Direction.bit : Direction → BitVec 1
  | .encode => 0#1
  | .decode => 1#1

/-- BUSY: a command is in flight (R24; log 4). -/
def State.busy (s : State) : Bool := s.pendingCmd.isSome

/-- STATUS: STATE in [2:0], BUSY [3], EOF [4], CMD_DROPPED [5], the rest 0 (R23 to R27). -/
def statusWord (st : SessionState) (busy eof dropped : Bool) : Word :=
  0#26 ++ BitVec.ofBool dropped ++ BitVec.ofBool eof ++ BitVec.ofBool busy ++ st.bits

/-- ERR: CODE in [3:0], SUB [11:8], OPC [23:16], the rest 0 (R28). -/
def errWord (e : ErrReg) : Word := 0#8 ++ e.opc ++ 0#4 ++ e.sub ++ 0#4 ++ e.code.bits

/-- SESSION: M in [7:0] as two's complement, DIR [8], RAW [9], HIST_LEN [23:16], the rest 0 (R61). -/
def sessionWord (order : Int) (dir : Direction) (raw : Bool) (histLen : Nat) : Word :=
  0#8 ++ BitVec.ofNat 8 histLen ++ 0#6 ++ BitVec.ofBool raw ++ dir.bit ++ BitVec.ofInt 8 order

/-- PARAM0: W in [5:0], PENDING_WIDTH [13:8], MAX_ORDER [22:16], the rest 0 (R61). -/
def param0Word (b : Build) : Word :=
  0#9 ++ BitVec.ofNat 7 b.maxOrder ++ 0#2 ++ BitVec.ofNat 6 b.pendingWidth ++ 0#2 ++ BitVec.ofNat 6 b.width

/-- PARAM1: T (R61). -/
def param1Word (b : Build) : Word := BitVec.ofNat 32 b.threshold

/-- PARAM2: NODE_CAPACITY, 0 for UNBOUNDED (R12, R61). -/
def param2Word (b : Build) : Word := BitVec.ofNat 32 (b.nodeCapacity.getD 0)

/-- NODES as a 32-bit word; where the number does not fit, the spec states no value (R42; log 12). -/
def nodesWord (nodes : Nat) : Word :=
  if nodes < 2 ^ 32 then BitVec.ofNat 32 nodes else Config.freeNodes nodes

end Sys2Proof.Machine
end

