-- ==== Sys2Proof/Machine/Operands.lean ====
section
/-! DEFINITION. Where commands take their operands from (30_encoding.md R81, R82, R85). -/

namespace Sys2Proof.Machine

/-- cumLow of a RAW command: ARG0 as an unsigned integer (R85). -/
def cumLow (s : State) : Nat := s.arg0.toNat

/-- cumHigh of a RAW command: ARG1 as an unsigned integer (R85). -/
def cumHigh (s : State) : Nat := s.arg1.toNat

/-- total of a RAW command: ARG2 as an unsigned integer (R85). -/
def rawTotal (s : State) : Nat := s.arg2.toNat

/-- The symbol of a literal byte (R82). -/
def literal (b : Byte) : Nat := b.toNat

/-- IMM[16:0] of a START is 0: both ALPHA and ORDER are (R81, R202). -/
def startImmZero (order : Int) (alpha : Nat) : Bool := decide (order = 0 ∧ alpha = 0)

end Sys2Proof.Machine
end

