-- ==== Sys2Proof/Machine/Ops.lean ====
section
/-! DEFINITION. The operations every command shares: sequencing of micro-operations, the two ports (20_memory.md
R68 to R70), raising an error (60_exceptions.md R244), completing a command (44_commands.md R200), and the
clearing of a session (10_state.md R43). -/

namespace Sys2Proof.Machine

/-- Micro-operations in sequence: the second runs only if the first completes (R201). -/
def Res.andThen {α β : Type} (r : Res α) (f : α → State → Res β) : Res β :=
  match r with
  | .ok a s => f a s
  | .raised c s => .raised c s
  | .waiting q s => .waiting q s

/-! ## Errors -/

/-- The CODE of a cause (R242). -/
def Cause.code : Cause → ErrCode
  | .sourceFail => .ioFailure
  | .sinkFail => .ioFailure
  | .badTotal => .modelCorruption
  | .badInterval => .modelCorruption
  | .collapsedRange => .modelCorruption
  | .codeOutside => .modelCorruption
  | .targetOutside => .modelCorruption
  | .badOrder => .configurationError
  | .badAlphabet => .configurationError
  | .storeFull => .resourceExhausted
  | .pendingFull => .resourceExhausted
  | .undefinedOpc => .illegalCommand
  | .reservedBit => .illegalCommand
  | .wrongState => .illegalCommand

/-- The SUB of a cause (R242). -/
def Cause.sub : Cause → BitVec 4
  | .sourceFail => 1#4
  | .sinkFail => 2#4
  | .badTotal => 1#4
  | .badInterval => 2#4
  | .collapsedRange => 3#4
  | .codeOutside => 4#4
  | .targetOutside => 5#4
  | .badOrder => 1#4
  | .badAlphabet => 2#4
  | .storeFull => 1#4
  | .pendingFull => 2#4
  | .undefinedOpc => 1#4
  | .reservedBit => 2#4
  | .wrongState => 3#4

/-- What ERR holds after `raise` in STATE `st`: the first error is kept (R244, R246). -/
def recordError (opc : BitVec 8) (c : Cause) (st : SessionState) (old : ErrReg) : ErrReg :=
  if st = .error then old else { code := c.code, sub := c.sub, opc := opc }

/-- The command in flight completes: BUSY and PENDING_CMD are cleared (R200). -/
def complete (s : State) : State := { s with pendingCmd := none }

/-- `raise` (R244): ERR is recorded unless STATE is ERROR, STATE becomes ERROR, the command completes, and no
other state is touched. This is the block's whole exception mechanism (R250). -/
def enterError (opc : BitVec 8) (c : Cause) (s : State) : State :=
  { s with err := recordError opc c s.st s.err, st := .error, pendingCmd := none }

/-- How a command ends: completed (R200), with an error (R244), or waiting on a port with BUSY = 1 (R277). -/
def finishCommand (opc : BitVec 8) (startedIn : SessionState) (r : Res Unit) :
    Host.Outcome State Fault Refusal :=
  match r with
  | .ok _ s => .next (complete s)
  | .raised c s => .next (enterError opc c s)
  | .waiting q s => .next { s with portWait := some { request := q, startedIn := startedIn } }

/-- The acceptance checks of R200 for the commands 0x03 to 0x09, then the command's own rule: in ERROR the
command is ignored; where it is not valid it raises ILLEGAL_COMMAND 3. -/
def dispatchSession (opc : BitVec 8) (valid : Bool) (body : State → Res Unit) (s : State) :
    Host.Outcome State Fault Refusal :=
  if s.st = .error then .next (complete s)
  else if valid then finishCommand opc s.st (body s)
  else .next (enterError opc .wrongState s)

/-- The opcodes looked at while STATE = ERROR: ENC_START, DEC_START and ABORT (R200). -/
def runsInError (opc : BitVec 8) : Bool := opc == 0x01#8 || opc == 0x02#8 || opc == 0x0F#8

/-- A word that is no command (R87), under the order of checks of R200: ignored in ERROR unless its opcode is
looked at there; otherwise ILLEGAL_COMMAND 1 or 2. -/
def rejectWord (r : Reject) (s : State) : State :=
  match r with
  | .undefinedOpcode opc =>
    if s.st = .error && !runsInError opc then complete s else enterError opc .undefinedOpc s
  | .reservedBits opc =>
    if s.st = .error && !runsInError opc then complete s else enterError opc .reservedBit s

/-! ## Ports -/

/-- `SnkWrite(b)` (R70). An accepted byte is appended to the sink's bytes and the answer is `true`; a rejected
one is not and the answer is `false`; a silent sink never answers, and its transaction stays outstanding. -/
def snkWrite (b : Byte) (s : State) : Res Bool :=
  match s.env.sink with
  | [] => .ok true { s with env := { s.env with sunk := s.env.sunk ++ [b] } }
  | .accept :: rest => .ok true { s with env := { s.env with sink := rest, sunk := s.env.sunk ++ [b] } }
  | .fail :: rest => .ok false { s with env := { s.env with sink := rest } }
  | .silent :: _ => .waiting (.snkWrite b) s

/-- `SrcRead()` (R69): `Byte(b)`, `End`, or `Fail`; after its last listed answer the source answers `End`. A
silent source never answers. -/
def srcRead (s : State) : Res SrcAnswer :=
  match s.env.source with
  | [] => .ok .endOfInput s
  | .silent :: _ => .waiting .srcRead s
  | a :: rest => .ok a { s with env := { s.env with source := rest } }

/-! ## Sessions -/

/-- The "after ABORT" column of R43, which is also the clearing step of START (R202): everything but ARG0 to
ARG2, PENDING_CMD, the build and the outside world. -/
def clearSession (s : State) : State :=
  { s with
    st := .idle, eof := false, cmdDropped := false, err := .clear, result := 0
    order := -1, dir := .encode, raw := false
    low := 0, high := s.build.mask, code := 0, pending := 0
    outBuf := 0, outN := 0, inBuf := 0, inN := 0, inEof := false
    store := [], hist := []
    bitsOut := 0, bytesOut := 0, bytesIn := 0, syms := 0, nodes := 0 }

/-- SYMS + 1, mod 2^32 (R42). -/
def countSymbol (s : State) : State := { s with syms := s.syms + 1 }

end Sys2Proof.Machine
end

