-- ==== Sys2Proof/Machine/BitStream.lean ====
section
/-! DEFINITION. BitStream I/O (40_bitstream.md R101 to R103). A bit is a `Bool`, 1 being `true`. -/

namespace Sys2Proof.Machine

/-- OUT_BUF with one more bit at its right end (R101). -/
def pushBit (buf : Byte) (b : Bool) : Byte := (buf <<< 1) ||| BitVec.setWidth 8 (BitVec.ofBool b)

/-- OUT_BUF goes to the sink: if accepted, BYTES_OUT counts it and the buffer is empty; if rejected,
IO_FAILURE 2 (R101, R102). -/
def sendOutBuf (s : State) : Res Unit :=
  (snkWrite s.outBuf s).andThen fun accepted s =>
    if accepted then .ok () { s with bytesOut := s.bytesOut + 1, outBuf := 0, outN := 0 }
    else .raised .sinkFail s

/-- `writeBit(b)` (R101). -/
def writeBit (b : Bool) (s : State) : Res Unit :=
  let s := { s with outBuf := pushBit s.outBuf b, outN := s.outN + 1, bitsOut := s.bitsOut + 1 }
  if s.outN = 8 then sendOutBuf s else .ok () s

/-- `closeOut()` (R102): pads the last byte with zero bits and sends it. -/
def closeOut (s : State) : Res Unit :=
  if s.outN > 0 then sendOutBuf { s with outBuf := s.outBuf <<< (8 - s.outN) } else .ok () s

/-- The next bit of IN_BUF, which holds at least one unread bit (R103's last two lines). -/
def takeBit (s : State) : Res Bool := .ok (s.inBuf.getLsbD (s.inN - 1)) { s with inN := s.inN - 1 }

/-- `readBit()` (R103): a byte is fetched only when its first bit is needed; after `End` every bit is 0. -/
def readBit (s : State) : Res Bool :=
  if s.inN = 0 then
    if s.inEof then .ok false s
    else (srcRead s).andThen fun answer s =>
      match answer with
      | .byte v => takeBit { s with inBuf := v, inN := 8, bytesIn := s.bytesIn + 1 }
      | .endOfInput => .ok false { s with inEof := true }
      | .fail => .raised .sourceFail s
      | .silent => .waiting .srcRead s
  else takeBit s

end Sys2Proof.Machine
end

