-- ==== Sys2Proof/Machine/FreqTable.lean ====
section
/-! DEFINITION. The Frequency Table (41_frequency_table.md R121 to R130). -/

namespace Sys2Proof.Machine

/-- `get(t, s)` (R121). -/
def tableGet (t : Table) (sym : Nat) : Nat := t.counts.getD sym 0

/-- `getLow(t, s)`: the sum of the counts below `sym` (R122). -/
def tableLow (t : Table) (sym : Nat) : Nat := (t.counts.take sym).sum

/-- `getHigh(t, s)`: the sum of the counts up to `sym` (R122). -/
def tableHigh (t : Table) (sym : Nat) : Nat := tableLow t sym + tableGet t sym

/-- `getTotal(t)` (R123). -/
def tableTotal (t : Table) : Nat := t.counts.sum

/-- A count under a rescale: halved, but a count of 1 or more stays at least 1 (R125). -/
def halveCount (c : Nat) : Nat := if c ≥ 1 then max 1 (c / 2) else 0

/-- `increment(t, s)` under threshold T (R125): count first, then one rescale if the new total exceeds T. -/
def tableIncrement (threshold : Nat) (t : Table) (sym : Nat) : Table :=
  let t' : Table := { counts := t.counts.set sym (tableGet t sym + 1) }
  if tableTotal t' > threshold then { counts := t'.counts.map halveCount } else t'

/-- The first symbol from `sym` on whose interval holds offset `v`, counted from the low end of `sym`. -/
def findFrom (counts : List Nat) (sym v : Nat) : Option Nat :=
  match counts with
  | [] => none
  | c :: rest => if v < c then some sym else findFrom rest (sym + 1) (v - c)

/-- `find(t, v)` (R130): the symbol s with getLow(t, s) ≤ v < getHigh(t, s); none if v ≥ getTotal(t). -/
def tableFind (t : Table) (v : Nat) : Option Nat := findFrom t.counts 0 v

/-- A fresh table: the escape count is 1, every literal count 0 (R127). -/
def freshTable : Table := { counts := List.replicate 256 0 ++ [1] }

/-- The order -1 table: count 1 for every symbol (R128, R39). -/
def uniformTable : Table := { counts := List.replicate 257 1 }

end Sys2Proof.Machine
end

