-- ==== Sys2Proof/Machine/Coder.lean ====
section
/-! DEFINITION. The arithmetic coder (42_arith_coder.md R142 to R154). Arithmetic is exact (R155); LOW, HIGH and
CODE are cut to W bits where they are stored (R16; log 15). -/

namespace Sys2Proof.Machine

/-- NOT v on a W-bit value: MASK - v (R16). -/
def notW (b : Build) (v : Nat) : Nat := b.mask - v

/-- The bit as a number. -/
def bitVal (b : Bool) : Nat := if b then 1 else 0

/-- `rng` (R142): HIGH - LOW + 1. -/
def rangeOf (low high : Nat) : Nat := high + 1 - low

/-- The total check of R142 and R150: 1 ≤ tot ≤ MAX_TOTAL. -/
def totalOk (b : Build) (tot : Nat) : Bool := decide (1 ≤ tot ∧ tot ≤ b.maxTotal)

/-- newLow of R142. -/
def narrowLow (low high cl tot : Nat) : Nat := low + rangeOf low high * cl / tot

/-- newHigh + 1 of R142; newHigh itself could be -1 before the check that refuses it (log 15). -/
def narrowHighSucc (low high ch tot : Nat) : Nat := low + rangeOf low high * ch / tot

/-- `narrow(cl, ch, tot)` (R142). All checks run before LOW and HIGH are written. -/
def narrow (cl ch tot : Nat) (s : State) : Res Unit :=
  if !totalOk s.build tot then .raised .badTotal s
  else if ¬ (cl < ch ∧ ch ≤ tot) then .raised .badInterval s
  else if narrowHighSucc s.low s.high ch tot ≤ narrowLow s.low s.high cl tot then .raised .collapsedRange s
  else .ok () { s with
    low := narrowLow s.low s.high cl tot % s.build.full
    high := (narrowHighSucc s.low s.high ch tot - 1) % s.build.full }

/-! ## Bit emitter and underflow handler -/

/-- `writeBit(bit)` n times (R144). -/
def writeBits : Nat → Bool → State → Res Unit
  | 0, _, s => .ok () s
  | n + 1, b, s => (writeBit b s).andThen fun _ s => writeBits n b s

/-- `emit(bit)` (R144): the bit, then PENDING opposite bits, then PENDING = 0. -/
def emit (b : Bool) (s : State) : Res Unit :=
  (writeBit b s).andThen fun _ s =>
    (writeBits s.pending (!b) s).andThen fun _ s => .ok () { s with pending := 0 }

/-- The top bits of LOW and HIGH agree: ((LOW XOR HIGH) AND HALF) = 0 (R145). -/
def topBitsAgree (b : Build) (low high : Nat) : Bool := ((low ^^^ high) &&& b.half) == 0

/-- The E3 condition: (LOW AND (NOT HIGH) AND QUARTER) ≠ 0 (R145). -/
def underflow (b : Build) (low high : Nat) : Bool := (low &&& notW b high &&& b.quarter) != 0

/-- LOW[W-1] (R145). -/
def topBit (b : Build) (low : Nat) : Bool := low.testBit (b.width - 1)

/-- LOW under a shift step: (LOW << 1) AND MASK (R145). -/
def shiftLow (b : Build) (low : Nat) : Nat := (low <<< 1) &&& b.mask

/-- HIGH under a shift step: ((HIGH << 1) AND MASK) OR 1 (R145). -/
def shiftHigh (b : Build) (high : Nat) : Nat := ((high <<< 1) &&& b.mask) ||| 1

/-- LOW under an E3 step: (LOW << 1) XOR HALF (R145). -/
def e3Low (b : Build) (low : Nat) : Nat := ((low <<< 1) ^^^ b.half) % b.full

/-- HIGH under an E3 step: ((HIGH XOR HALF) << 1) OR HALF OR 1 (R145). -/
def e3High (b : Build) (high : Nat) : Nat := (((high ^^^ b.half) <<< 1) ||| b.half ||| 1) % b.full

/-- CODE under a shift step: ((CODE << 1) AND MASK) OR bit (R152). -/
def shiftCode (b : Build) (code : Nat) (bit : Bool) : Nat := ((code <<< 1) &&& b.mask) ||| bitVal bit

/-- CODE under an E3 step: (CODE AND HALF) OR ((CODE << 1) AND (MASK >> 1)) OR bit (R152). -/
def e3Code (b : Build) (code : Nat) (bit : Bool) : Nat :=
  (code &&& b.half) ||| ((code <<< 1) &&& (b.mask >>> 1)) ||| bitVal bit

/-- The encoder's shift loop (R145), at most `n` steps; W are enough (R146; log 16). -/
def shiftLoopEnc : Nat → State → Res Unit
  | 0, s => .ok () s
  | n + 1, s =>
    if topBitsAgree s.build s.low s.high then
      (emit (topBit s.build s.low) s).andThen fun _ s =>
        shiftLoopEnc n { s with low := shiftLow s.build s.low, high := shiftHigh s.build s.high }
    else .ok () s

/-- PENDING + 1, or RESOURCE_EXHAUSTED 2 where it would pass its width (R145, R149, R157). -/
def bumpPending (s : State) : Res Unit :=
  if s.pending = s.build.pendingMax then .raised .pendingFull s
  else .ok () { s with pending := s.pending + 1 }

/-- The encoder's E3 loop (R145), at most `n` steps; W are enough (R146; log 16). -/
def e3LoopEnc : Nat → State → Res Unit
  | 0, s => .ok () s
  | n + 1, s =>
    if underflow s.build s.low s.high then
      (bumpPending s).andThen fun _ s =>
        e3LoopEnc n { s with low := e3Low s.build s.low, high := e3High s.build s.high }
    else .ok () s

/-- `normEnc()` (R145): the shift loop to its end, then the E3 loop to its end. -/
def normEnc (s : State) : Res Unit :=
  (shiftLoopEnc s.build.width s).andThen fun _ s => e3LoopEnc s.build.width s

/-- `encodeInterval(cl, ch, tot)` (R147). -/
def encodeInterval (cl ch tot : Nat) (s : State) : Res Unit :=
  (narrow cl ch tot s).andThen fun _ s => normEnc s

/-- `encodeSymbol(t, s)` (R147). -/
def encodeSymbol (t : Table) (sym : Nat) (s : State) : Res Unit :=
  encodeInterval (tableLow t sym) (tableHigh t sym) (tableTotal t) s

/-- `finish()` (R149). -/
def finish (s : State) : Res Unit :=
  (bumpPending s).andThen fun _ s => emit (decide (¬ s.low < s.build.quarter)) s

/-! ## Decoder -/

/-- The value of `target(tot)` (R150). -/
def targetValue (low high code tot : Nat) : Nat := ((code + 1 - low) * tot - 1) / rangeOf low high

/-- `target(tot)` (R150). -/
def target (tot : Nat) (s : State) : Res Nat :=
  if !totalOk s.build tot then .raised .badTotal s
  else if ¬ (s.low ≤ s.code ∧ s.code ≤ s.high) then .raised .codeOutside s
  else .ok (targetValue s.low s.high s.code tot) s

/-- n bits into CODE (R151). -/
def fillCode : Nat → State → Res Unit
  | 0, s => .ok () s
  | n + 1, s => (readBit s).andThen fun bit s => fillCode n { s with code := shiftCode s.build s.code bit }

/-- `decInit()` (R151): W bits. -/
def decInit (s : State) : Res Unit := fillCode s.build.width s

/-- The decoder's shift loop (R152). R152 writes LOW and HIGH before it reads the bit. -/
def shiftLoopDec : Nat → State → Res Unit
  | 0, s => .ok () s
  | n + 1, s =>
    if topBitsAgree s.build s.low s.high then
      (readBit { s with low := shiftLow s.build s.low, high := shiftHigh s.build s.high }).andThen
        fun bit s => shiftLoopDec n { s with code := shiftCode s.build s.code bit }
    else .ok () s

/-- The decoder's E3 loop (R152). -/
def e3LoopDec : Nat → State → Res Unit
  | 0, s => .ok () s
  | n + 1, s =>
    if underflow s.build s.low s.high then
      (readBit { s with low := e3Low s.build s.low, high := e3High s.build s.high }).andThen
        fun bit s => e3LoopDec n { s with code := e3Code s.build s.code bit }
    else .ok () s

/-- `normDec()` (R152). -/
def normDec (s : State) : Res Unit :=
  (shiftLoopDec s.build.width s).andThen fun _ s => e3LoopDec s.build.width s

/-- `decodeSymbol(t)` from the target value on (R153): where no symbol's interval holds it, MODEL_CORRUPTION 5. -/
def decodeOffset (t : Table) (v : Nat) (s : State) : Res Nat :=
  match tableFind t v with
  | none => .raised .targetOutside s
  | some sym =>
    (narrow (tableLow t sym) (tableHigh t sym) (tableTotal t) s).andThen fun _ s =>
      (normDec s).andThen fun _ s => .ok sym s

/-- `decodeSymbol(t)` (R153). -/
def decodeSymbol (t : Table) (s : State) : Res Nat :=
  (target (tableTotal t) s).andThen fun v s => decodeOffset t v s

/-- `decodeApply(cl, ch, tot)` (R154). -/
def decodeApply (cl ch tot : Nat) (s : State) : Res Unit :=
  (target tot s).andThen fun v s =>
    if ¬ (cl ≤ v ∧ v < ch) then .raised .targetOutside s
    else (narrow cl ch tot s).andThen fun _ s => normDec s

end Sys2Proof.Machine
end

