-- ==== Sys2Proof/Machine/Model.lean ====
section
/-! DEFINITION. The PPM context model (43_ppm_model.md R172 to R184). -/

namespace Sys2Proof.Machine

/-! ## The context store -/

/-- The order of keys in the store's list: lexicographic, a prefix first (log 14). -/
def keyBefore : Key → Key → Bool
  | [], [] => false
  | [], _ :: _ => true
  | _ :: _, [] => false
  | a :: as, b :: bs => decide (a.toNat < b.toNat) || (a == b && keyBefore as bs)

/-- The table of a key, if the store holds it (R37). -/
def storeGet (m : Store) (key : Key) : Option Table :=
  match m with
  | [] => none
  | (k, t) :: rest => if k = key then some t else storeGet rest key

/-- The store with `key` bound to `t`, in its place in the list (R37; log 14). -/
def storePut (m : Store) (key : Key) (t : Table) : Store :=
  match m with
  | [] => [(key, t)]
  | (k, u) :: rest =>
    if k = key then (key, t) :: rest
    else if keyBefore key k then (key, t) :: (k, u) :: rest
    else (k, u) :: storePut rest key t

/-- The key of the order-k context for the current history (R171). -/
def contextKey (s : State) (k : Nat) : Key := s.hist.take k

/-- `lookup(k)` (R172). -/
def lookup (s : State) (k : Nat) : Option Table := storeGet s.store (contextKey s k)

/-- The store is full: NODE_CAPACITY is not UNBOUNDED and NODES has reached it (R181). -/
def storeIsFull (s : State) : Bool := s.build.nodeCapacity == some s.nodes

/-- `create(key)` (R181). -/
def create (key : Key) (s : State) : Res Unit :=
  if storeIsFull s then .raised .storeFull s
  else .ok () { s with store := storePut s.store key freshTable, nodes := s.nodes + 1 }

/-! ## Escape descent -/

/-- The descent of `ppmEncode` through orders n - 1 down to 0, then order -1 (R176). It answers the order at
which `sym` was coded. -/
def ppmEncodeFrom (sym : Nat) : Nat → State → Res Int
  | 0, s => (encodeSymbol uniformTable sym s).andThen fun _ s => .ok (-1) s
  | n + 1, s =>
    match lookup s n with
    | none => ppmEncodeFrom sym n s
    | some t =>
      if sym ≠ esc ∧ tableGet t sym > 0 then (encodeSymbol t sym s).andThen fun _ s => .ok (n : Int) s
      else (encodeSymbol t esc s).andThen fun _ s => ppmEncodeFrom sym n s

/-- How many orders of contexts the descent looks at: HIST_LEN + 1, or none where M = -1 (R174, R176). -/
def descentOrders (s : State) : Nat := if s.order ≥ 0 then s.hist.length + 1 else 0

/-- `ppmEncode(s)` (R176). -/
def ppmEncode (sym : Nat) (s : State) : Res Int := ppmEncodeFrom sym (descentOrders s) s

/-- The descent of `ppmDecode` (R177). -/
def ppmDecodeFrom : Nat → State → Res Nat
  | 0, s => decodeSymbol uniformTable s
  | n + 1, s =>
    match lookup s n with
    | none => ppmDecodeFrom n s
    | some t =>
      (decodeSymbol t s).andThen fun sym s => if sym ≠ esc then .ok sym s else ppmDecodeFrom n s

/-- `ppmDecode()` (R177). -/
def ppmDecode (s : State) : Res Nat := ppmDecodeFrom (descentOrders s) s

/-! ## Update and history -/

/-- The context of `key`, created if it is missing (R180). -/
def ensureContext (key : Key) (s : State) : Res Unit :=
  if (storeGet s.store key).isNone then create key s else .ok () s

/-- `increment(store[key], sym)` (R180, R125). -/
def incrementAt (key : Key) (sym : Nat) (s : State) : State :=
  match storeGet s.store key with
  | none => s
  | some t => { s with store := storePut s.store key (tableIncrement s.build.threshold t sym) }

/-- The update's loop over n orders from k up (R180). -/
def updateFrom (sym : Nat) : (n k : Nat) → State → Res Unit
  | 0, _, s => .ok () s
  | n + 1, k, s =>
    (ensureContext (contextKey s k) s).andThen fun _ s =>
      updateFrom sym n (k + 1) (incrementAt (contextKey s k) sym s)

/-- `update(s)` (R180): every order from 0 to HIST_LEN; nothing where M = -1. -/
def update (sym : Nat) (s : State) : Res Unit := updateFrom sym (descentOrders s) 0 s

/-- H with a new byte in front, the oldest dropped once the length exceeds M (R184). -/
def pushed (order : Int) (b : Byte) (hist : List Byte) : List Byte :=
  if ((b :: hist).length : Int) > order then (b :: hist).dropLast else b :: hist

/-- `pushHistory(s)` (R184): only where M ≥ 1. -/
def pushHistory (b : Byte) (s : State) : State :=
  if s.order ≥ 1 then { s with hist := pushed s.order b s.hist } else s

end Sys2Proof.Machine
end

