-- ==== Sys2Proof/Machine/Session.lean ====
section
/-! DEFINITION. The session commands ENC_START, DEC_START and ABORT (44_commands.md R202, R203, R211). -/

namespace Sys2Proof.Machine

/-- STATE after a START in direction `d` (R202). -/
def openState : Direction → SessionState
  | .encode => .enc
  | .decode => .dec

/-- The end of START (R202): RAW, DIR and STATE are set, and a decode session fills CODE. -/
def openSession (d : Direction) (rawf : Bool) (s : State) : Res Unit :=
  let s := { s with raw := rawf, dir := d, st := openState d }
  match d with
  | .encode => .ok () s
  | .decode => decInit s

/-- The model order of a PPM start (R202): M, and the root context where M ≥ 0 (R173). -/
def openModel (order : Int) (s : State) : Res Unit :=
  if 0 ≤ order then create [] { s with order := order } else .ok () { s with order := order }

/-- The order check of R202: order < -1 or order > MAX_ORDER is refused. -/
def orderOk (b : Build) (order : Int) : Bool := decide (-1 ≤ order ∧ order ≤ (b.maxOrder : Int))

/-- START after its clearing step (R202). -/
def startCleared (d : Direction) (order : Int) (alpha : Nat) (rawf : Bool) (s : State) : Res Unit :=
  if rawf then openSession d rawf s
  else if alpha ≠ alphabetSize then .raised .badAlphabet s
  else if !orderOk s.build order then .raised .badOrder s
  else (openModel order s).andThen fun _ s => openSession d rawf s

/-- START (R202), for both directions. The check of a RAW start's IMM[16:0] comes before the clearing step; that
of IMM[23:18] is made by the decoder (`rejectWord`). -/
def start (d : Direction) (order : Int) (alpha : Nat) (rawf : Bool) (s : State) : Res Unit :=
  if rawf && !startImmZero order alpha then .raised .reservedBit s
  else startCleared d order alpha rawf (clearSession s)

/-- ENC_START (R202): valid in every STATE. -/
def execEncStart (order : Int) (alpha : Nat) (rawf : Bool) (s : State) : Host.Outcome State Fault Refusal :=
  finishCommand 0x01#8 s.st (start .encode order alpha rawf s)

/-- DEC_START (R203): START, which ends with decInit. -/
def execDecStart (order : Int) (alpha : Nat) (rawf : Bool) (s : State) : Host.Outcome State Fault Refusal :=
  finishCommand 0x02#8 s.st (start .decode order alpha rawf s)

/-- ABORT (R211): valid in every STATE, IMM ignored (R84). -/
def execAbort (_imm : BitVec 24) (s : State) : Host.Outcome State Fault Refusal :=
  .next (complete (clearSession s))

end Sys2Proof.Machine
end

