-- ==== Sys2Proof/Machine/PpmCommands.lean ====
section
/-! DEFINITION. The PPM session commands ENC_BYTE, ENC_FINISH and DEC_SYMBOL (44_commands.md R204 to R206). -/

namespace Sys2Proof.Machine

/-- The end of a literal's coding step (R204, R206): update, then pushHistory. -/
def learn (b : Byte) (s : State) : Res Unit :=
  (update (literal b) s).andThen fun _ s => .ok () (pushHistory b s)

/-- ENC_BYTE's rule (R204). -/
def encByteBody (b : Byte) (s : State) : Res Unit :=
  (ppmEncode (literal b) s).andThen fun _ s =>
    (learn b s).andThen fun _ s => .ok () (countSymbol s)

/-- EOF at the end of a PPM encode session (R205); a RAW session has none. -/
def encodeEof (s : State) : Res Unit :=
  if s.raw then .ok () s else (ppmEncode esc s).andThen fun _ s => .ok () (countSymbol s)

/-- ENC_FINISH's rule (R205). -/
def encFinishBody (s : State) : Res Unit :=
  (encodeEof s).andThen fun _ s =>
    (finish s).andThen fun _ s =>
      (closeOut s).andThen fun _ s => .ok () { s with st := .done }

/-- DEC_SYMBOL's last lines (R206): SYMS, RESULT, and at EOF the end of the session. -/
def deliverSymbol (sym : Nat) (s : State) : State :=
  let s := { countSymbol s with result := BitVec.ofNat 32 sym }
  if sym = esc then { s with eof := true, st := .done } else s

/-- A decoded literal is learned; EOF is not (R183, R206). -/
def learnDecoded (sym : Nat) (s : State) : Res Unit :=
  if sym ≠ esc then learn (BitVec.ofNat 8 sym) s else .ok () s

/-- DEC_SYMBOL's rule (R206). -/
def decSymbolBody (s : State) : Res Unit :=
  (ppmDecode s).andThen fun sym s =>
    (learnDecoded sym s).andThen fun _ s => .ok () (deliverSymbol sym s)

/-- ENC_BYTE (R204): valid in STATE = ENC with RAW = 0 (R86). -/
def execEncByte (b : Byte) (s : State) : Host.Outcome State Fault Refusal :=
  dispatchSession 0x03#8 (decide (s.st = .enc) && !s.raw) (encByteBody b) s

/-- ENC_FINISH (R205): valid in STATE = ENC, PPM or RAW (R86). -/
def execEncFinish (s : State) : Host.Outcome State Fault Refusal :=
  dispatchSession 0x04#8 (decide (s.st = .enc)) encFinishBody s

/-- DEC_SYMBOL (R206): valid in STATE = DEC with RAW = 0 (R86). -/
def execDecSymbol (s : State) : Host.Outcome State Fault Refusal :=
  dispatchSession 0x05#8 (decide (s.st = .dec) && !s.raw) decSymbolBody s

end Sys2Proof.Machine
end

