-- ==== Sys2Proof/Machine/RawCommands.lean ====
section
/-! DEFINITION. The RAW coder commands RAW_ENC, RAW_DEC_TARGET, RAW_DEC_APPLY and RAW_DEC_END (44_commands.md
R207 to R210). -/

namespace Sys2Proof.Machine

/-- RAW_ENC's rule (R207). -/
def rawEncBody (s : State) : Res Unit :=
  (encodeInterval (cumLow s) (cumHigh s) (rawTotal s) s).andThen fun _ s => .ok () (countSymbol s)

/-- RAW_DEC_TARGET's rule (R208). -/
def rawDecTargetBody (s : State) : Res Unit :=
  (target (rawTotal s) s).andThen fun v s => .ok () { s with result := BitVec.ofNat 32 v }

/-- RAW_DEC_APPLY's rule (R209). -/
def rawDecApplyBody (s : State) : Res Unit :=
  (decodeApply (cumLow s) (cumHigh s) (rawTotal s) s).andThen fun _ s => .ok () (countSymbol s)

/-- RAW_DEC_END's rule (R210). -/
def rawDecEndBody (s : State) : Res Unit := .ok () { s with st := .done }

/-- A RAW decode command is valid in STATE = DEC with RAW = 1 (R86). -/
def rawDecValid (s : State) : Bool := decide (s.st = .dec) && s.raw

/-- RAW_ENC (R207): valid in STATE = ENC with RAW = 1 (R86). -/
def execRawEnc (s : State) : Host.Outcome State Fault Refusal :=
  dispatchSession 0x06#8 (decide (s.st = .enc) && s.raw) rawEncBody s

/-- RAW_DEC_TARGET (R208). -/
def execRawDecTarget (s : State) : Host.Outcome State Fault Refusal :=
  dispatchSession 0x07#8 (rawDecValid s) rawDecTargetBody s

/-- RAW_DEC_APPLY (R209). -/
def execRawDecApply (s : State) : Host.Outcome State Fault Refusal :=
  dispatchSession 0x08#8 (rawDecValid s) rawDecApplyBody s

/-- RAW_DEC_END (R210). -/
def execRawDecEnd (s : State) : Host.Outcome State Fault Refusal :=
  dispatchSession 0x09#8 (rawDecValid s) rawDecEndBody s

end Sys2Proof.Machine
end

