-- ==== Sys2Proof/Machine/Dispatch.lean ====
section
/-! DEFINITION. One arm per command (30_encoding.md R86): the meaning `exec` gives it. -/

namespace Sys2Proof.Machine

def exec (i : Instr) (s : State) : Host.Outcome State Fault Refusal :=
  match i with
  | .encStart order alpha rawf => Sys2Proof.Machine.execEncStart order alpha rawf s
  | .decStart order alpha rawf => Sys2Proof.Machine.execDecStart order alpha rawf s
  | .encByte b => Sys2Proof.Machine.execEncByte b s
  | .encFinish => Sys2Proof.Machine.execEncFinish s
  | .decSymbol => Sys2Proof.Machine.execDecSymbol s
  | .rawEnc => Sys2Proof.Machine.execRawEnc s
  | .rawDecTarget => Sys2Proof.Machine.execRawDecTarget s
  | .rawDecApply => Sys2Proof.Machine.execRawDecApply s
  | .rawDecEnd => Sys2Proof.Machine.execRawDecEnd s
  | .abort imm => Sys2Proof.Machine.execAbort imm s

end Sys2Proof.Machine
end

