-- ==== Sys2Proof/Machine/Window.lean ====
section
/-! DEFINITION. The host's side of the block: the register window (20_memory.md R61 to R65), the reset input
(70_reset_and_hazards.md R270), and how what arrives from outside lands (log 2, log 3). -/

namespace Sys2Proof.Machine

/-- The registers of the map of R61. -/
inductive Reg where
  | id | cmd | status | err | result | arg0 | arg1 | arg2 | session | param0 | param1 | param2
  | bitsOut | bytesOut | bytesIn | syms | nodes | dbgLow | dbgHigh | dbgCode | dbgPending
  deriving DecidableEq, Repr

/-- The map of R61: the register at a byte offset; none where the offset is misaligned or unmapped. -/
def regAt (offset : BitVec 8) : Option Reg :=
  match offset.toNat with
  | 0x00 => some .id
  | 0x04 => some .cmd
  | 0x08 => some .status
  | 0x0C => some .err
  | 0x10 => some .result
  | 0x14 => some .arg0
  | 0x18 => some .arg1
  | 0x1C => some .arg2
  | 0x20 => some .session
  | 0x24 => some .param0
  | 0x28 => some .param1
  | 0x2C => some .param2
  | 0x30 => some .bitsOut
  | 0x34 => some .bytesOut
  | 0x38 => some .bytesIn
  | 0x3C => some .syms
  | 0x40 => some .nodes
  | 0x44 => some .dbgLow
  | 0x48 => some .dbgHigh
  | 0x4C => some .dbgCode
  | 0x50 => some .dbgPending
  | _ => none

/-- The register an access reaches: only an aligned access of 4 bytes to a mapped offset reaches one (R62). -/
def reached (offset : BitVec 8) (bytes : Nat) : Option Reg := if bytes = 4 then regAt offset else none

/-- What a register reads while BUSY = 0 (R61). -/
def regValue (r : Reg) (s : State) : Word :=
  match r with
  | .id => idConstant
  | .cmd => 0
  | .status => statusWord s.st s.busy s.eof s.cmdDropped
  | .err => errWord s.err
  | .result => s.result
  | .arg0 => s.arg0
  | .arg1 => s.arg1
  | .arg2 => s.arg2
  | .session => sessionWord s.order s.dir s.raw s.hist.length
  | .param0 => param0Word s.build
  | .param1 => param1Word s.build
  | .param2 => param2Word s.build
  | .bitsOut => s.bitsOut
  | .bytesOut => s.bytesOut
  | .bytesIn => s.bytesIn
  | .syms => s.syms
  | .nodes => nodesWord s.nodes
  | .dbgLow => BitVec.ofNat 32 s.low
  | .dbgHigh => BitVec.ofNat 32 s.high
  | .dbgCode => BitVec.ofNat 32 s.code
  | .dbgPending => BitVec.ofNat 32 s.pending

/-- The host's read returned `v` (R89). -/
def logRead (v : Word) (s : State) : State := { s with env := { s.env with reads := s.env.reads ++ [v] } }

/-- A read that returns a free value: the next draw (R65; log 9). -/
def logFree (s : State) : State :=
  { s with env :=
    { s.env with reads := s.env.reads ++ [Config.freeWord s.env.draws], draws := s.env.draws + 1 } }

/-- A read while BUSY = 0 (R61, R62). -/
def idleRead (offset : BitVec 8) (bytes : Nat) (s : State) : State :=
  match reached offset bytes with
  | none => logRead 0 s
  | some r => logRead (regValue r s) s

/-- A write while BUSY = 0 (R61 to R63): CMD accepts a command word (R200), ARG0 to ARG2 store it, and every
other write has no effect. -/
def idleWrite (offset : BitVec 8) (bytes : Nat) (v : Word) (s : State) : State :=
  match reached offset bytes with
  | some .cmd => { s with pendingCmd := some v }
  | some .arg0 => { s with arg0 := v }
  | some .arg1 => { s with arg1 := v }
  | some .arg2 => { s with arg2 := v }
  | _ => s

/-- A read while BUSY = 1 (R65): STATUS shows BUSY = 1 and the STATE the command started in, ID and PARAM0 to
PARAM2 their constants, every other register a free value; an access that reaches no register reads 0. -/
def busyRead (startedIn : SessionState) (offset : BitVec 8) (bytes : Nat) (s : State) : State :=
  match reached offset bytes with
  | none => logRead 0 s
  | some .status => logRead (statusWord startedIn true s.eof s.cmdDropped) s
  | some .id => logRead idConstant s
  | some .param0 => logRead (param0Word s.build) s
  | some .param1 => logRead (param1Word s.build) s
  | some .param2 => logRead (param2Word s.build) s
  | some _ => logFree s

/-- A write while BUSY = 1 (R64): to CMD or ARG0 to ARG2 it is dropped and sets CMD_DROPPED; any other has no
effect (R62). -/
def busyWrite (offset : BitVec 8) (bytes : Nat) (s : State) : State :=
  match reached offset bytes with
  | some .cmd => { s with cmdDropped := true }
  | some .arg0 => { s with cmdDropped := true }
  | some .arg1 => { s with cmdDropped := true }
  | some .arg2 => { s with cmdDropped := true }
  | _ => s

/-- An access while BUSY = 0. -/
def idleAccess (a : Access) (s : State) : State :=
  match a with
  | .read offset bytes => idleRead offset bytes s
  | .write offset bytes v => idleWrite offset bytes v s

/-- An access while BUSY = 1 by a command that started in `startedIn`. -/
def busyAccess (startedIn : SessionState) (a : Access) (s : State) : State :=
  match a with
  | .read offset bytes => busyRead startedIn offset bytes s
  | .write offset bytes _ => busyWrite offset bytes s

/-- The STATE the command in flight started in: once it waits on a port its own effects may have changed STATE,
so the wait remembers it (R65; log 10). -/
def startedIn (s : State) : SessionState :=
  match s.portWait with
  | none => s.st
  | some w => w.startedIn

/-- An access lands. -/
def landAccess (a : Access) (s : State) : State :=
  if s.busy then busyAccess (startedIn s) a s else idleAccess a s

/-! ## Reset -/

/-- The bit of chance in the n-th free value. -/
def freeBit (n : Nat) : Bool := (Config.freeWord n).getLsbD 0

/-- The source after its outstanding `SrcRead` was abandoned: whether it gave up its next byte is its own
business (R270, U15), so a free bit says (log 8). DESIGN CHOICE (log 8): a source connected while the read hangs is
told from the one that hangs by its first answer alone. Where that is not `silent` it has lost nothing; where it is,
that `silent` counts as the abandoned answer and is dropped, and the free bit may take the byte after it. -/
def abandonRead (e : Env) : Env :=
  match e.source with
  | .silent :: .byte b :: more =>
    { e with source := if freeBit e.draws then more else .byte b :: more, draws := e.draws + 1 }
  | .silent :: rest => { e with source := rest }
  | _ => e

/-- The sink's answers without the one that never came. DESIGN CHOICE (log 8): a sink connected while the write hangs
loses a `silent` at the head of its own answers, as the one that hangs does. -/
def dropSilent : List SnkAnswer → List SnkAnswer
  | .silent :: rest => rest
  | l => l

/-- The sink after an outstanding `SnkWrite(b)` was abandoned: whether the byte reached it is its own business
(R270, U15), so a free bit says (log 8). -/
def abandonWrite (b : Byte) (e : Env) : Env :=
  { e with
    sink := dropSilent e.sink
    sunk := if freeBit e.draws then e.sunk ++ [b] else e.sunk
    draws := e.draws + 1 }

/-- The outside world when reset abandons the outstanding transaction, if there is one (R270). -/
def abandonPort (w : Option PortWait) (e : Env) : Env :=
  match w with
  | none => e
  | some { request := .srcRead, startedIn := _ } => abandonRead e
  | some { request := .snkWrite b, startedIn := _ } => abandonWrite b e

/-- Reset is asserted (R270): a command in flight and its transaction are abandoned, and every piece of the
core's state takes its reset value. How far the command has got is what its step has left: nothing, or its effects up
to the transaction it waits on (log 27). -/
def assertReset (s : State) : State :=
  { State.resetOf s.build with inReset := true, env := abandonPort s.portWait s.env }

/-- Reset is released (R270). -/
def releaseReset (s : State) : State := { s with inReset := false }

/-! ## Arrivals -/

/-- What arrives from outside takes effect; the arrival itself is already off the list. While reset is asserted,
register accesses are ignored (R270). -/
def land (a : Arrival) (s : State) : State :=
  match a with
  | .access a _ => if s.inReset then s else landAccess a s
  | .assertReset => assertReset s
  | .releaseReset => releaseReset s
  | .connectSource answers => { s with env := { s.env with source := answers } }
  | .connectSink answers => { s with env := { s.env with sink := answers } }

/-- An access reaches the block while BUSY = 1 (R274): the early ones before the command has run, both kinds
while it waits on a port, none that the host makes only once BUSY = 0. -/
def landsInFlight (waiting : Bool) : Landing → Bool
  | .whenIdle => false
  | .whileBusy => true
  | .asBusyEnds => waiting

/-- The arrival takes effect before the core's next move (log 3). DESIGN CHOICE (log 27): R270 abandons a command in
flight 'mid-way' and does not say how far it has got. An edge of reset, like a newly connected port, has no turn of its
own: at the head of the list it comes before the command's first effect, or, where the command waits on a port, at that
transaction. A reset between two transactions of a command whose ports answer is written as a port silent at the second. -/
def landsNow (s : State) (a : Arrival) : Bool :=
  match a with
  | .access _ l => s.inReset || !s.busy || landsInFlight s.portWait.isSome l
  | .assertReset => true
  | .releaseReset => true
  | .connectSource _ => true
  | .connectSink _ => true

/-- The arrival at the head of the list, if it takes effect before the core's next move, and those after it. -/
def nextArrival (s : State) : Option (Arrival × List Arrival) :=
  match s.env.arrivals with
  | [] => none
  | a :: rest => if landsNow s a then some (a, rest) else none

/-- The state without the arrivals before `rest`. -/
def dropArrivals (rest : List Arrival) (s : State) : State := { s with env := { s.env with arrivals := rest } }

/-- The accesses at the head of the list that reach the block while BUSY is still 1 after the last effect of a
command that started in `startedIn` (R64, R65; log 3). -/
def landLate (startedIn : SessionState) : List Arrival → State → State
  | .access a .asBusyEnds :: rest, s => landLate startedIn rest (busyAccess startedIn a (dropArrivals rest s))
  | _, s => s

/-- The command that started in `startedIn` has completed: its late accesses land. One that waits on a port has
not completed, and its accesses land in later steps. -/
def afterCommand (startedIn : SessionState) (o : Host.Outcome State Fault Refusal) :
    Host.Outcome State Fault Refusal :=
  match o with
  | .next s => if s.busy then .next s else .next (landLate startedIn s.env.arrivals s)
  | .fault f => .fault f
  | .refused r => .refused r

end Sys2Proof.Machine
end

