-- ==== Sys2Proof/Machine/Step.lean ====
section
/-! DEFINITION. One step of the machine (44_commands.md R200, R201; log 2, log 3). -/

namespace Sys2Proof.Machine

/-- The accepted word runs (R200): a command by its meaning, any other word by `rejectWord`. -/
def runWord (w : Word) (s : State) : Host.Outcome State Fault Refusal :=
  match decode w with
  | .ok i => exec i s
  | .error r => .next (rejectWord r s)

/-- The core's move: it runs the command in flight (R201), is stuck while a port does not answer (R277), and
waits while there is none (R15, R271). -/
def coreMove (s : State) : Host.Outcome State Fault Refusal :=
  match s.pendingCmd with
  | none => .next s
  | some w =>
    match s.portWait with
    | some _ => .fault .portSilent
    | none => afterCommand s.st (runWord w s)

/-- One step: what arrives from outside and takes effect now, or else the core's move. -/
def step (s : State) : Host.Outcome State Fault Refusal :=
  match nextArrival s with
  | some (a, rest) => .next (land a (dropArrivals rest s))
  | none => coreMove s

/-- The arrival could take effect before or with the command in flight: everything but an access of a host that
polls first. -/
def mayOvertake : Arrival → Bool
  | .access _ .whenIdle => false
  | _ => true

/-- The state with the table's word accepted as the command in flight, so that the next step runs it: the block
fetches nothing (R22), a command runs once its word is in PENDING_CMD (R200). Of the rest only what would come
before the command or land with it is taken away (log 2). -/
def State.withFetchWord (s : State) (nbits w : Nat) : State :=
  { s with
    pendingCmd := some (tableWord nbits w)
    portWait := none
    inReset := false
    env := { s.env with arrivals := s.env.arrivals.dropWhile mayOvertake } }

end Sys2Proof.Machine
end

