-- ==== Sys2Proof/Safety.lean ====
section
/-! DEFINITION. The terms claims are made in: what stays unchanged (frames), what the ports may answer, and the
invariants of the block (10_state.md R33 to R41, 41_frequency_table.md R126, R127). -/

namespace Sys2Proof.Machine

/-! ## Frames: `t` is `s` but for the named fields -/

/-- Only the bit writer and the sink differ (R101, R102). -/
def WriterOnly (s t : State) : Prop :=
  t = { s with
    outBuf := t.outBuf, outN := t.outN, bitsOut := t.bitsOut, bytesOut := t.bytesOut
    env := { s.env with sink := t.env.sink, sunk := t.env.sunk } }

/-- Only the encoder's coder registers, the bit writer and the sink differ (R213, "coder; writer"). -/
def EncoderOnly (s t : State) : Prop :=
  t = { s with
    low := t.low, high := t.high, pending := t.pending
    outBuf := t.outBuf, outN := t.outN, bitsOut := t.bitsOut, bytesOut := t.bytesOut
    env := { s.env with sink := t.env.sink, sunk := t.env.sunk } }

/-- Only the bit reader and the source differ (R103). -/
def ReaderOnly (s t : State) : Prop :=
  t = { s with
    inBuf := t.inBuf, inN := t.inN, inEof := t.inEof, bytesIn := t.bytesIn
    env := { s.env with source := t.env.source } }

/-- Only the decoder's coder registers, the bit reader and the source differ (R213, "coder; reader"). -/
def DecoderOnly (s t : State) : Prop :=
  t = { s with
    low := t.low, high := t.high, code := t.code
    inBuf := t.inBuf, inN := t.inN, inEof := t.inEof, bytesIn := t.bytesIn
    env := { s.env with source := t.env.source } }

/-- Only the context store and NODES differ (R180). -/
def StoreOnly (s t : State) : Prop := t = { s with store := t.store, nodes := t.nodes }

/-- ENC_BYTE's row of R213: coder; writer; store; H; BITS_OUT; BYTES_OUT; NODES; SYMS. -/
def EncByteWrites (s t : State) : Prop :=
  t = { s with
    low := t.low, high := t.high, pending := t.pending
    outBuf := t.outBuf, outN := t.outN, bitsOut := t.bitsOut, bytesOut := t.bytesOut
    store := t.store, nodes := t.nodes, hist := t.hist, syms := t.syms
    env := { s.env with sink := t.env.sink, sunk := t.env.sunk } }

/-- ENC_FINISH's row of R213: coder; writer; BITS_OUT; BYTES_OUT; SYMS; STATE. -/
def EncFinishWrites (s t : State) : Prop :=
  t = { s with
    low := t.low, high := t.high, pending := t.pending
    outBuf := t.outBuf, outN := t.outN, bitsOut := t.bitsOut, bytesOut := t.bytesOut
    syms := t.syms, st := t.st
    env := { s.env with sink := t.env.sink, sunk := t.env.sunk } }

/-- DEC_SYMBOL's row of R213: coder; reader; store; H; BYTES_IN; NODES; SYMS; RESULT; EOF; STATE. -/
def DecSymbolWrites (s t : State) : Prop :=
  t = { s with
    low := t.low, high := t.high, code := t.code
    inBuf := t.inBuf, inN := t.inN, inEof := t.inEof, bytesIn := t.bytesIn
    store := t.store, nodes := t.nodes, hist := t.hist, syms := t.syms
    result := t.result, eof := t.eof, st := t.st
    env := { s.env with source := t.env.source } }

/-- RAW_ENC's row of R213: coder; writer; BITS_OUT; BYTES_OUT; SYMS. -/
def RawEncWrites (s t : State) : Prop :=
  t = { s with
    low := t.low, high := t.high, pending := t.pending
    outBuf := t.outBuf, outN := t.outN, bitsOut := t.bitsOut, bytesOut := t.bytesOut
    syms := t.syms
    env := { s.env with sink := t.env.sink, sunk := t.env.sunk } }

/-- RAW_DEC_APPLY's row of R213: coder; reader; BYTES_IN; SYMS. -/
def RawDecApplyWrites (s t : State) : Prop :=
  t = { s with
    low := t.low, high := t.high, code := t.code
    inBuf := t.inBuf, inN := t.inN, inEof := t.inEof, bytesIn := t.bytesIn
    syms := t.syms
    env := { s.env with source := t.env.source } }

/-- What no command writes: ARG0 to ARG2 (R21), the build, the reset input, and of the outside world all but the
ports. -/
def HostSideSame (s t : State) : Prop :=
  t.arg0 = s.arg0 ∧ t.arg1 = s.arg1 ∧ t.arg2 = s.arg2 ∧ t.build = s.build ∧ t.inReset = s.inReset ∧
  t.env.arrivals = s.env.arrivals ∧ t.env.reads = s.env.reads ∧ t.env.draws = s.env.draws

/-! ## Ports -/

/-- The sink answers every listed `SnkWrite` (R277 does not arise). -/
def SinkAnswers (s : State) : Prop := SnkAnswer.silent ∉ s.env.sink

/-- The source answers every listed `SrcRead` (R277 does not arise). -/
def SourceAnswers (s : State) : Prop := SrcAnswer.silent ∉ s.env.source

/-- The source can always be read (R69). -/
def SourceReadable (s : State) : Prop := SrcAnswer.silent ∉ s.env.source ∧ SrcAnswer.fail ∉ s.env.source

/-! ## Streams of bits (R66) -/

/-- The bits of a byte, most significant first (R66). -/
def byteBits (b : Byte) : List Bool :=
  [b.getLsbD 7, b.getLsbD 6, b.getLsbD 5, b.getLsbD 4, b.getLsbD 3, b.getLsbD 2, b.getLsbD 1, b.getLsbD 0]

/-- The last `n` bits of a byte, most significant first. -/
def lastBits (n : Nat) (b : Byte) : List Bool := (byteBits b).drop (8 - n)

/-- The bits written so far: those of the bytes the sink took, then the partial byte (R35, R66). -/
def writtenBits (s : State) : List Bool := s.env.sunk.flatMap byteBits ++ lastBits s.outN s.outBuf

/-- The bytes a source gives before it first answers anything else (R69). -/
def sourceBytes : List SrcAnswer → List Byte
  | .byte b :: rest => b :: sourceBytes rest
  | _ => []

/-- The answer that stops a command at the source, `Fail` or silence, if the source comes to one before `End` (R69,
R277). -/
def stopAnswer : List SrcAnswer → Option SrcAnswer
  | [] => none
  | .byte _ :: rest => stopAnswer rest
  | .endOfInput :: _ => none
  | .fail :: _ => some .fail
  | .silent :: _ => some .silent

/-- A reader that runs out of bits meets `a` at the source, `Fail` or silence (R103). -/
def SourceStops (a : SrcAnswer) (s : State) : Prop := s.inEof = false ∧ stopAnswer s.env.source = some a

/-- The bits the reader has yet to give before it first meets something other than a byte (R66, R103). -/
def unreadBits (s : State) : List Bool :=
  lastBits s.inN s.inBuf ++ (if s.inEof then [] else (sourceBytes s.env.source).flatMap byteBits)

/-- The reader can give `n` bits: the source comes to neither `Fail` nor silence before them (R103, R104). -/
def SourceGives (n : Nat) (s : State) : Prop := ∀ a, SourceStops a s → n ≤ (unreadBits s).length

/-- The sink accepts the next `n` bytes (R70). -/
def SinkTakes (n : Nat) (s : State) : Prop := ∀ a ∈ s.env.sink.take n, a = SnkAnswer.accept

/-- The sink answers `a`, `Fail` or silence, to one of the next `n` bytes, having accepted those before it (R70,
R277). -/
def SinkStops (a : SnkAnswer) (n : Nat) (s : State) : Prop := ∃ k < n, SinkTakes k s ∧ s.env.sink[k]? = some a

/-- A bit list as a number, first bit most significant. -/
def bitsValue (l : List Bool) : Nat := l.foldl (fun v b => 2 * v + bitVal b) 0

/-- The first `n` bits of a list, padded with zeros (R104). -/
def padded (n : Nat) (l : List Bool) : List Bool := l.take n ++ List.replicate (n - l.length) false

/-! ## The coder as numbers

R140's description of the coder, with no registers and no ports: the arithmetic forms of R145 in the interleaved order
of R146. The encoder and the decoder are both measured against it. -/

/-- An interval [cl, ch) out of tot (R122, R142). -/
structure Interval where
  cl : Nat
  ch : Nat
  tot : Nat
  deriving DecidableEq, Repr

/-- A coder after some coding steps: its range, the bits it owes, the bits it has written, how many normalisation
steps it has made, and how far those have moved the frame: a decoder with CODE = c that has since read `steps` bits
of value v has CODE = c * 2^steps + v - off (R152). -/
structure Coded where
  low : Nat
  high : Nat
  pending : Nat
  bits : List Bool
  steps : Nat
  off : Nat
  deriving DecidableEq, Repr

/-- The coder of a state, before any further step. -/
def coded (s : State) : Coded :=
  { low := s.low, high := s.high, pending := s.pending, bits := [], steps := 0, off := 0 }

/-- The bytes the source has yet to give before it first answers anything else, nothing once it has answered `End`. -/
def unreadBytes (s : State) : List Byte := if s.inEof then [] else sourceBytes s.env.source

/-- Between s and t an encode session's coder went to `c`: its range and PENDING are the registers', its bits were
written, counted in BITS_OUT, and the bytes they filled went to the sink, counted in BYTES_OUT (R42, R66). -/
structure EncodedTo (s t : State) (c : Coded) : Prop where
  low : t.low = c.low
  high : t.high = c.high
  pending : t.pending = c.pending
  bits : writtenBits t = writtenBits s ++ c.bits
  bitsOut : t.bitsOut = s.bitsOut + BitVec.ofNat 32 c.bits.length
  sunk : s.env.sunk <+: t.env.sunk
  bytesOut : t.bytesOut = s.bytesOut + BitVec.ofNat 32 (t.env.sunk.length - s.env.sunk.length)

/-- Between s and t a decode session's coder went to `c`: its range is the registers', it read the next `c.steps` bits,
0 where there were no more (R103, R104), CODE moved with the frame (R152), and BYTES_IN counted the bytes (R42). -/
structure DecodedTo (s t : State) (c : Coded) : Prop where
  low : t.low = c.low
  high : t.high = c.high
  rest : unreadBits t = (unreadBits s).drop c.steps
  code : t.code + c.off = s.code * 2 ^ c.steps + bitsValue (padded c.steps (unreadBits s))
  bytesIn : t.bytesIn = s.bytesIn + BitVec.ofNat 32 ((unreadBytes s).length - (unreadBytes t).length)

/-- Narrowing (R142). -/
def Coded.narrow (i : Interval) (c : Coded) : Coded :=
  { c with
    low := c.low + (c.high - c.low + 1) * i.cl / i.tot
    high := c.low + (c.high - c.low + 1) * i.ch / i.tot - 1 }

/-- A settled bit and the opposite bits owed (R144). -/
def Coded.emit (b : Bool) (c : Coded) : Coded :=
  { c with bits := c.bits ++ b :: List.replicate c.pending (!b), pending := 0 }

/-- The part of the number range from `d` on, twice as large (R145): d is 0, HALF or QUARTER. -/
def Coded.expand (d : Nat) (c : Coded) : Coded :=
  { c with low := 2 * (c.low - d), high := 2 * (c.high - d) + 1, steps := c.steps + 1, off := 2 * (c.off + d) }

/-- One normalisation step, if one is due (R145, R146): the lower half, the upper half, the middle half. -/
def Coded.normStep (b : Build) (c : Coded) : Option Coded :=
  if c.high < b.half then some ((c.emit false).expand 0)
  else if b.half ≤ c.low then some ((c.emit true).expand b.half)
  else if b.quarter ≤ c.low ∧ c.high < 3 * b.quarter then
    some ({ c with pending := c.pending + 1 }.expand b.quarter)
  else none

/-- Normalisation by at most n steps (R146). -/
def Coded.norm (b : Build) : Nat → Coded → Coded
  | 0, c => c
  | n + 1, c =>
    match c.normStep b with
    | none => c
    | some c => c.norm b n

/-- One coding step: narrow, then normalise in at most W steps (R147, R146). -/
def Coded.code (b : Build) (i : Interval) (c : Coded) : Coded := (c.narrow i).norm b b.width

/-- Coding steps in order. -/
def Coded.run (b : Build) (l : List Interval) (c : Coded) : Coded := l.foldl (fun c i => c.code b i) c

/-- The finish step (R149). -/
def Coded.finish (b : Build) (c : Coded) : Coded :=
  { c with pending := c.pending + 1 }.emit (decide (¬ c.low < b.quarter))

/-- The interval of a symbol in a table (R122, R147). -/
def symbolInterval (t : Table) (sym : Nat) : Interval := ⟨tableLow t sym, tableHigh t sym, tableTotal t⟩

/-- The coding steps of the descent for `sym` through orders n - 1 down to 0, then order -1 (R176): an escape at each
context present until one has seen the symbol. -/
def descentSteps (s : State) (sym : Nat) : Nat → List Interval
  | 0 => [symbolInterval uniformTable sym]
  | n + 1 =>
    match storeGet s.store (s.hist.take n) with
    | none => descentSteps s sym n
    | some t =>
      if sym ≠ esc ∧ tableGet t sym > 0 then [symbolInterval t sym]
      else symbolInterval t esc :: descentSteps s sym n

/-- `l` are coding steps by which a decoder may come to `sym` through orders n - 1 down to 0, then order -1 (R177):
an escape at some contexts present, then the symbol. A stream no encoder made may escape from a context that has
seen the symbol (R158). -/
def DecodePath (s : State) (sym : Nat) : Nat → List Interval → Prop
  | 0, l => l = [symbolInterval uniformTable sym]
  | n + 1, l =>
    match storeGet s.store (s.hist.take n) with
    | none => DecodePath s sym n l
    | some t =>
      (sym ≠ esc ∧ tableGet t sym > 0 ∧ l = [symbolInterval t sym]) ∨
      (∃ rest, l = symbolInterval t esc :: rest ∧ DecodePath s sym n rest)

/-- The coding steps of a symbol: the search starts at order HIST_LEN, or at order -1 where M = -1 (R174, R176). -/
def codingSteps (s : State) (sym : Nat) : List Interval :=
  descentSteps s sym (descentOrders s)

/-- The number that CODE and the bits still to read spell in the frame of `c` lies in its range: a decoder in `s` that
has made the coding steps of `c` has CODE in [LOW, HIGH] (R34, R152). -/
def CodeWithin (s : State) (c : Coded) : Prop :=
  c.low + c.off ≤ s.code * 2 ^ c.steps + bitsValue (padded c.steps (unreadBits s)) ∧
  s.code * 2 ^ c.steps + bitsValue (padded c.steps (unreadBits s)) ≤ c.high + c.off

/-! ## Invariants -/

/-- A table of an adaptive context: 257 counts, a total of at most T, an escape count of 1 (R38, R126, R127). -/
def TableOk (b : Build) (t : Table) : Prop :=
  t.counts.length = alphabetSize ∧ tableTotal t ≤ b.threshold ∧ tableGet t esc = 1

/-- The store's list is in its one form: keys strictly rising (log 14). -/
def storeSorted (m : Store) : Bool := decide (m.Pairwise fun a b => keyBefore a.1 b.1 = true)

/-- With a key the store holds every prefix of it (R37). -/
def PrefixClosed (m : Store) : Prop :=
  ∀ key k, (storeGet m key).isSome = true → (storeGet m (key.take k)).isSome = true

/-- NODE_CAPACITY is not exceeded (R12, R42). -/
def WithinCapacity (b : Build) (nodes : Nat) : Prop := ∀ c, b.nodeCapacity = some c → nodes ≤ c

/-- The model's state (R37, R38, R40, R42): the store in form, prefix-closed, with sound tables and keys of 0 to M
bytes, so empty where M = -1; NODES its size; H at most max(M, 0) bytes. -/
structure ModelOk (s : State) : Prop where
  sorted : storeSorted s.store = true
  prefixClosed : PrefixClosed s.store
  tables : ∀ key t, storeGet s.store key = some t → TableOk s.build t
  keys : ∀ key, (storeGet s.store key).isSome = true → (key.length : Int) ≤ s.order
  nodes : s.nodes = s.store.length
  capacity : WithinCapacity s.build s.nodes
  history : (s.hist.length : Int) ≤ max s.order 0

/-- Every register holds a value of its width (R43), and M one of its range (R14). -/
structure RegistersFit (s : State) : Prop where
  low : s.low < s.build.full
  high : s.high < s.build.full
  code : s.code < s.build.full
  pending : s.pending ≤ s.build.pendingMax
  outN : s.outN ≤ 8
  inN : s.inN ≤ 8
  orderLow : -1 ≤ s.order
  orderHigh : s.order ≤ s.build.maxOrder

/-- The first two facts of R33: LOW < HALF ≤ HIGH, and not both QUARTER ≤ LOW and HIGH < 3 QUARTER. -/
def Normalised (b : Build) (low high : Nat) : Prop :=
  low < b.half ∧ b.half ≤ high ∧ ¬ (b.quarter ≤ low ∧ high < 3 * b.quarter)

/-- What holds between commands in an open session: the range is normalised (R33); an encode session has DIR = 0
and at most 7 buffered bits (R35, R41); a decode session has DIR = 1, CODE in the range (R34) and PENDING = 0
(R31). -/
structure SessionOk (s : State) : Prop where
  encode : s.portWait = none → s.st = .enc →
    Normalised s.build s.low s.high ∧ s.dir = .encode ∧ s.outN ≤ 7 ∧ s.code = 0
  decode : s.portWait = none → s.st = .dec →
    Normalised s.build s.low s.high ∧ s.dir = .decode ∧ s.low ≤ s.code ∧ s.code ≤ s.high ∧ s.pending = 0
  /-- A RAW session has no model (R41). -/
  rawOrder : s.raw = true → s.order = -1
  /-- A transaction is outstanding only while BUSY = 1 (R68, R277). -/
  waitBusy : s.portWait ≠ none → s.pendingCmd ≠ none
  /-- No command is in flight while reset is asserted (R270). -/
  resetIdle : s.inReset = true → s.pendingCmd = none

/-- The invariant of the block: the build is one R9 to R12 allow, and every part of the state is in order. -/
structure Inv (s : State) : Prop where
  legal : s.build.legal = true
  fit : RegistersFit s
  model : ModelOk s
  session : SessionOk s

/-- ERR and STATE agree (R28, R242, R246): in ERROR, ERR holds one of the pairs of R242; elsewhere it is clear. -/
def ErrorRecorded (s : State) : Prop :=
  if s.st = .error then ∃ (c : Cause) (opc : BitVec 8), s.err = { code := c.code, sub := c.sub, opc := opc }
  else s.err = .clear

/-- A run is safe at a state where the invariant holds, no session error has occurred and no port hangs. -/
def Safe (s : State) : Prop := Inv s ∧ s.st ≠ .error ∧ s.portWait = none

/-! ## Room -/

/-- PENDING stays within its width in each of the coding steps in order (R145, R157). Within one step it is largest
at the end, so the ends are enough. -/
def PendingFits (b : Build) : List Interval → Coded → Prop
  | [], _ => True
  | i :: l, c => (c.code b i).pending ≤ b.pendingMax ∧ PendingFits b l (c.code b i)

/-- The coder after the coding steps as far as it sends their bits: all of them where PENDING fits; otherwise it ends
with the step that takes PENDING past its width, whose settled bits go out before PENDING counts (R145). -/
def Coded.sent (b : Build) : List Interval → Coded → Coded
  | [], c => c
  | i :: l, c => if (c.code b i).pending ≤ b.pendingMax then Coded.sent b l (c.code b i) else c.code b i

/-- How many bytes the coding steps fill, and so send (R101). -/
def filledBytes (s : State) (l : List Interval) : Nat := (s.outN + ((coded s).sent s.build l).bits.length) / 8

/-- The coding steps of ENC_FINISH before the finish step (R205): those of EOF, none in a RAW session. -/
def finishSteps (s : State) : List Interval := if s.raw then [] else codingSteps s esc

/-- The coder at the end of an encode session (R205). -/
def finishCoded (s : State) : Coded := ((coded s).run s.build (finishSteps s)).finish s.build

/-- PENDING stays within its width to the end of an encode session: the finish step counts once more (R149). -/
def FinishFits (s : State) : Prop :=
  PendingFits s.build (finishSteps s) (coded s) ∧
    ((coded s).run s.build (finishSteps s)).pending + 1 ≤ s.build.pendingMax

/-- How many bytes ENC_FINISH sends where PENDING fits, the padded one among them (R205, R102). -/
def finishBytes (s : State) : Nat := (s.outN + (finishCoded s).bits.length + 7) / 8

/-- Where the sink stops ENC_FINISH: at one of the bytes it sends, all of them or, where PENDING does not fit, those
before that error (R205). -/
def FinishStops (a : SnkAnswer) (s : State) : Prop :=
  (FinishFits s → SinkStops a (finishBytes s) s) ∧
    (¬ FinishFits s → SinkStops a (filledBytes s (finishSteps s)) s)

/-- How many of `n` contexts of the history's suffixes, from length `k` on, the store lacks. -/
def missingFrom (s : State) : (n k : Nat) → Nat
  | 0, _ => 0
  | n + 1, k => (if (lookup s k).isNone then 1 else 0) + missingFrom s n (k + 1)

/-- The store has room for the contexts an update creates (R180, R181). -/
def StoreRoom (s : State) : Prop :=
  ∀ cap, s.build.nodeCapacity = some cap → s.nodes + missingFrom s (descentOrders s) 0 ≤ cap

/-! ## Commands in flight -/

/-- A command is in flight and may run: no transaction is outstanding, and the invariant holds. -/
structure MayRun (s : State) : Prop where
  inv : Inv s
  cmd : s.pendingCmd ≠ none
  wait : s.portWait = none

/-- The session ended with this error (R244, R28). -/
def Raised (code : ErrCode) (sub : BitVec 4) (opc : BitVec 8) (t : State) : Prop :=
  t.st = .error ∧ t.err = { code := code, sub := sub, opc := opc } ∧ t.pendingCmd = none

/-- `s` after an error raised before any effect, outside ERROR (R244): only STATE, ERR and PENDING_CMD differ. -/
def raisedAt (code : ErrCode) (sub : BitVec 4) (opc : BitVec 8) (s : State) : State :=
  { s with st := .error, err := { code := code, sub := sub, opc := opc }, pendingCmd := none }

/-- What the end of any command may write: STATE and ERR (R244), PENDING_CMD (R200), the outstanding transaction
(R68). -/
def endedAs (s t : State) : State :=
  { s with st := t.st, err := t.err, pendingCmd := t.pendingCmd, portWait := t.portWait }

/-- `s` as an accepted START opens it, before a decode session fills CODE: the START column of R43. -/
def opened (d : Direction) (order : Int) (rawf : Bool) (s : State) : State :=
  { s with
    st := openState d, eof := false, cmdDropped := false, err := .clear, result := 0
    order := if rawf then -1 else order, dir := d, raw := rawf
    low := 0, high := s.build.mask, code := 0, pending := 0
    outBuf := 0, outN := 0, inBuf := 0, inN := 0, inEof := false
    store := if rawf = false ∧ 0 ≤ order then [([], freshTable)] else []
    hist := []
    bitsOut := 0, bytesOut := 0, bytesIn := 0, syms := 0
    nodes := if rawf = false ∧ 0 ≤ order then 1 else 0 }

/-- The checks of START pass (R202). -/
def StartAccepted (b : Build) (order : Int) (alpha : Nat) (rawf : Bool) : Prop :=
  if rawf then order = 0 ∧ alpha = 0 else alpha = 257 ∧ -1 ≤ order ∧ order ≤ b.maxOrder

/-- R125 and R180: in each context of the history's suffixes the symbol has one more occurrence, a missing context
starting from a fresh table (R181); every other context is as before. Nothing where M = -1. -/
def StoreLearned (sym : Nat) (s t : State) : Prop :=
  ∀ key, storeGet t.store key =
    if 0 ≤ s.order ∧ key = s.hist.take key.length then
      some (tableIncrement s.build.threshold ((storeGet s.store key).getD freshTable) sym)
    else storeGet s.store key

/-- What an update leaves that could not create a context (R181, R245): the suffixes shorter than some `n` have their
occurrence, the one of length `n` has no context, and NODES has reached NODE_CAPACITY. -/
def UpdateStopped (sym : Nat) (s t : State) : Prop :=
  ∃ n < descentOrders s, lookup s n = none ∧ s.build.nodeCapacity = some t.nodes ∧
    ∀ key, storeGet t.store key =
      if key.length < n ∧ key = s.hist.take key.length then
        some (tableIncrement s.build.threshold ((storeGet s.store key).getD freshTable) sym)
      else storeGet s.store key

/-- H after a literal (R184): the literal in front, at most M bytes; unchanged where M < 1. -/
def historyAfter (b : Byte) (s : State) : List Byte :=
  if 1 ≤ s.order then (b :: s.hist).take s.order.toNat else s.hist

/-! ## The acceptance procedure, as R200 writes it -/

/-- The column "valid in STATE (RAW)" of R86, for the opcodes 0x03 to 0x09. -/
def validIn (opc : Nat) (st : SessionState) (raw : Bool) : Bool :=
  match opc with
  | 0x03 => decide (st = .enc ∧ raw = false)
  | 0x04 => decide (st = .enc)
  | 0x05 => decide (st = .dec ∧ raw = false)
  | 0x06 => decide (st = .enc ∧ raw = true)
  | 0x07 => decide (st = .dec ∧ raw = true)
  | 0x08 => decide (st = .dec ∧ raw = true)
  | 0x09 => decide (st = .dec ∧ raw = true)
  | _ => false

/-- The rule R200 runs for an opcode 0x03 to 0x09. -/
def ruleOf (opc imm : Nat) : State → Res Unit :=
  match opc with
  | 0x03 => encByteBody (BitVec.ofNat 8 imm)
  | 0x04 => encFinishBody
  | 0x05 => decSymbolBody
  | 0x06 => rawEncBody
  | 0x07 => rawDecTargetBody
  | 0x08 => rawDecApplyBody
  | _ => rawDecEndBody

/-- A START word's operands (R81): sext_8 IMM[7:0], zext_9 IMM[16:8], IMM[17]. -/
def startRule (d : Direction) (imm : Nat) (s : State) : Res Unit :=
  if imm / 2 ^ 18 ≠ 0 then .raised .reservedBit s
  else start d (if imm % 256 < 128 then imm % 256 else (imm % 256 : Nat) - 256) (imm / 2 ^ 8 % 2 ^ 9)
    (decide (imm / 2 ^ 17 % 2 = 1)) s

/-- `dispatch(OPC, IMM)` of R200, check by check. -/
def dispatchRule (opc imm : Nat) (s : State) : Host.Outcome State Fault Refusal :=
  if s.st = .error ∧ opc ∉ [0x01, 0x02, 0x0F] then .next (complete s)
  else if opc = 0x01 then finishCommand 0x01#8 s.st (startRule .encode imm s)
  else if opc = 0x02 then finishCommand 0x02#8 s.st (startRule .decode imm s)
  else if opc = 0x0F then .next (complete (clearSession s))
  else if ¬ (0x03 ≤ opc ∧ opc ≤ 0x09) then .next (raisedAt .illegalCommand 1 (BitVec.ofNat 8 opc) s)
  else if opc = 0x03 ∧ imm / 2 ^ 8 ≠ 0 then .next (raisedAt .illegalCommand 2 (BitVec.ofNat 8 opc) s)
  else if 0x04 ≤ opc ∧ imm ≠ 0 then .next (raisedAt .illegalCommand 2 (BitVec.ofNat 8 opc) s)
  else if validIn opc s.st s.raw = false then .next (raisedAt .illegalCommand 3 (BitVec.ofNat 8 opc) s)
  else finishCommand (BitVec.ofNat 8 opc) s.st (ruleOf opc imm s)

/-- A reserved IMM bit is set (R81 to R84, R87): IMM[23:18] of a START, IMM[16:0] of a RAW START, IMM[23:8] of
ENC_BYTE, all of IMM in format N. -/
def reservedSet (opc imm : Nat) : Prop :=
  if opc = 0x01 ∨ opc = 0x02 then imm / 2 ^ 18 ≠ 0 ∨ (imm / 2 ^ 17 % 2 = 1 ∧ imm % 2 ^ 17 ≠ 0)
  else if opc = 0x03 then imm / 2 ^ 8 ≠ 0
  else 0x04 ≤ opc ∧ opc ≤ 0x09 ∧ imm ≠ 0

/-- The opcodes R86 defines. -/
def definedOpc (opc : Nat) : Prop := (0x01 ≤ opc ∧ opc ≤ 0x09) ∨ opc = 0x0F

/-! ## The table of STATE transitions (R212) -/

/-- A cell of R212: the STATEs the command may end in without an error; ILLEGAL_COMMAND n; or "-", ignored. -/
inductive Transition where
  | goes (l : List SessionState)
  | illegal (n : Nat)
  | ignored
  deriving DecidableEq, Repr

/-- R212, row by row: the row is STATE and RAW, the column the opcode, 0x03 to 0x09 in the list's order. -/
def transition (st : SessionState) (raw : Bool) (opc : Nat) : Transition :=
  let row : List Transition :=
    match st, raw with
    | .idle, _ => List.replicate 7 (.illegal 3)
    | .enc, false => [.goes [.enc], .goes [.done], .illegal 3, .illegal 3, .illegal 3, .illegal 3, .illegal 3]
    | .enc, true => [.illegal 3, .goes [.done], .illegal 3, .goes [.enc], .illegal 3, .illegal 3, .illegal 3]
    | .dec, false => [.illegal 3, .illegal 3, .goes [.dec, .done], .illegal 3, .illegal 3, .illegal 3, .illegal 3]
    | .dec, true => [.illegal 3, .illegal 3, .illegal 3, .illegal 3, .goes [.dec], .goes [.dec], .goes [.done]]
    | .done, _ => List.replicate 7 (.illegal 3)
    | .error, _ => List.replicate 7 .ignored
  if opc = 0x01 then .goes [.enc]
  else if opc = 0x02 then .goes [.dec]
  else if opc = 0x0F then .goes [.idle]
  else if 0x03 ≤ opc ∧ opc ≤ 0x09 then row.getD (opc - 3) .ignored
  else if st = .error then .ignored
  else .illegal 1

/-! ## Sessions, as R214 and R156 run them -/

/-- The host issues a command and polls: it is accepted, runs, and completes without an error (R214). -/
def Completes (i : Instr) (s t : State) : Prop :=
  exec i { s with pendingCmd := some (encode i) } = .next t ∧ t.portWait = none ∧ t.st ≠ .error

/-- Commands issued in order, each completing without an error. -/
def CompletesAll : List Instr → State → State → Prop
  | [], s, t => t = s
  | i :: l, s, t => ∃ u, Completes i s u ∧ CompletesAll l u t

/-- DEC_SYMBOL once for each symbol of the list: each completes and RESULT is that symbol (R206, R214). -/
def Decompresses : List Nat → State → State → Prop
  | [], s, t => t = s
  | sym :: l, s, t => ∃ u, Completes .decSymbol s u ∧ u.result.toNat = sym ∧ Decompresses l u t

/-- The host writes an interval to ARG0 to ARG2 (R85, R89). -/
def withArgs (i : Interval) (s : State) : State :=
  { s with arg0 := BitVec.ofNat 32 i.cl, arg1 := BitVec.ofNat 32 i.ch, arg2 := BitVec.ofNat 32 i.tot }

/-- The interval fits the ARG registers (R85). -/
def Interval.fits (i : Interval) : Prop := i.cl < 2 ^ 32 ∧ i.ch < 2 ^ 32 ∧ i.tot < 2 ^ 32

/-- RAW_ENC for each interval in order, each completing without an error (R156, R207). -/
def RawEncodes : List Interval → State → State → Prop
  | [], s, t => t = s
  | i :: l, s, t => ∃ u, Completes .rawEnc (withArgs i s) u ∧ RawEncodes l u t

/-- An encoder and a decoder take the intervals in step (R156): for each, RAW_DEC_TARGET completes with a value in
[cl, ch), RAW_DEC_APPLY completes, and then LOW and HIGH are the same on both sides. -/
def DecodesInStep : List Interval → (enc dec : State) → Prop
  | [], _, _ => True
  | i :: l, e, d => ∃ e' v d',
      Completes .rawEnc (withArgs i e) e' ∧
      Completes .rawDecTarget (withArgs i d) v ∧ i.cl ≤ v.result.toNat ∧ v.result.toNat < i.ch ∧
      Completes .rawDecApply v d' ∧ d'.low = e'.low ∧ d'.high = e'.high ∧ DecodesInStep l e' d'

/-- The block is idle: BUSY = 0, reset not asserted, the invariant holds. -/
def Idle (s : State) : Prop := Inv s ∧ s.pendingCmd = none ∧ s.inReset = false

end Sys2Proof.Machine
end

