-- ==== Sys2Proof/Certificates/Slice0/Obligations.lean ====
section
/-! DEFINITION. The statements about the model, from the numbered rules of the spec. -/

open Sys2Proof Sys2Proof.Machine

/-! ## Command words -/

/-- R90: the example words decode to the commands they spell and are their encodings; and the split of 0x01010102. -/
def Obligations.EncodingExamples : Prop :=
  (∀ p ∈ ([(0x01010102#32, Instr.encStart 2 257 false), (0x02010102#32, .decStart 2 257 false),
      (0x010101FF#32, .encStart (-1) 257 false), (0x01010100#32, .encStart 0 257 false),
      (0x01010103#32, .encStart 3 257 false), (0x01020000#32, .encStart 0 0 true),
      (0x02020000#32, .decStart 0 0 true), (0x03000041#32, .encByte 0x41#8), (0x04000000#32, .encFinish),
      (0x05000000#32, .decSymbol), (0x0F000000#32, .abort 0)] : List (Word × Instr)),
    decode p.1 = .ok p.2 ∧ encode p.2 = p.1) ∧
  opcOf 0x01010102#32 = 0x01#8 ∧ immOf 0x01010102#32 = 0x010102#24 ∧ Sys2Proof.orderOf 0x01010102#32 = 2 ∧
  alphaOf 0x01010102#32 = 257 ∧ rawfOf 0x01010102#32 = false

/-- R80 to R84, in arithmetic on the word: every word has exactly the outcome its OPC and IMM give it. -/
def Obligations.DecodingByFormat : Prop :=
  ∀ w : Word,
    let opc : Nat := w.toNat / 2 ^ 24
    let imm : Nat := w.toNat % 2 ^ 24
    let byte : Nat := imm % 2 ^ 8
    let order : Int := if byte < 2 ^ 7 then byte else byte - 2 ^ 8
    let alpha : Nat := imm / 2 ^ 8 % 2 ^ 9
    let rawf := decide (imm / 2 ^ 17 % 2 = 1)
    (opc = 0x01 → decode w =
      if imm / 2 ^ 18 = 0 then .ok (.encStart order alpha rawf) else .error (.reservedBits 0x01#8)) ∧
    (opc = 0x02 → decode w =
      if imm / 2 ^ 18 = 0 then .ok (.decStart order alpha rawf) else .error (.reservedBits 0x02#8)) ∧
    (opc = 0x03 → decode w =
      if imm / 2 ^ 8 = 0 then .ok (.encByte (BitVec.ofNat 8 imm)) else .error (.reservedBits 0x03#8)) ∧
    (∀ p ∈ ([(0x04, .encFinish), (0x05, .decSymbol), (0x06, .rawEnc), (0x07, .rawDecTarget),
        (0x08, .rawDecApply), (0x09, .rawDecEnd)] : List (Nat × Instr)),
      opc = p.1 → decode w = if imm = 0 then .ok p.2 else .error (.reservedBits (BitVec.ofNat 8 opc))) ∧
    (opc = 0x0F → decode w = .ok (.abort (BitVec.ofNat 24 imm))) ∧
    (¬ definedOpc opc → decode w = .error (.undefinedOpcode (BitVec.ofNat 8 opc)))

/-- No bit of an encoding is dropped: every well-formed command decodes from its word. -/
def Obligations.DecodeOfEncode : Prop := ∀ i : Instr, i.wellFormed = true → decode (encode i) = .ok i

/-- A word that decodes is the one encoding of its command, and the command is well formed. -/
def Obligations.EncodeOfDecode : Prop :=
  ∀ (w : Word) (i : Instr), decode w = .ok i → encode i = w ∧ i.wellFormed = true

/-- R87, outside ERROR: an undefined OPC, a reserved bit, a command outside the states of R86; nothing else is
written than STATE, ERR and the completion. A word with none of the first two faults is a command. -/
def Obligations.IllegalWords : Prop :=
  ∀ (s : State) (w : Word), s.st ≠ .error →
    let opc := w.toNat / 2 ^ 24
    let imm := w.toNat % 2 ^ 24
    (¬ definedOpc opc → runWord w s = .next (raisedAt .illegalCommand 1 (BitVec.ofNat 8 opc) s)) ∧
    (definedOpc opc → reservedSet opc imm →
      runWord w s = .next (raisedAt .illegalCommand 2 (BitVec.ofNat 8 opc) s)) ∧
    (definedOpc opc → ¬ reservedSet opc imm → 0x03 ≤ opc → opc ≤ 0x09 → validIn opc s.st s.raw = false →
      runWord w s = .next (raisedAt .illegalCommand 3 (BitVec.ofNat 8 opc) s)) ∧
    (definedOpc opc → ¬ reservedSet opc imm → ∃ i, decode w = .ok i)

/-! ## Steps and acceptance -/

/-- A step takes what arrives, or else runs the decoded command (how arrivals and commands take turns is the model's
choice, log 2, log 3 and log 27). With a word in flight, no transaction outstanding and nothing arriving first, a step is the
word's own run, and then the accesses that land as BUSY falls. A word that decodes runs by `exec`. Where nothing lands
late the step is `exec`'s next state, and `withFetchWord` makes such a state. An access whose host does not wait for
BUSY = 0, or finds it, lands in the step (R72, R200); so do the edges of reset and a connected port (R270, R273). With
nothing to take and nothing to run a step changes nothing (R271; log 17). -/
def Obligations.StepRunsAcceptedWord : Prop :=
  (∀ (s : State) (w : Word), s.pendingCmd = some w → s.portWait = none → nextArrival s = none →
    step s = afterCommand s.st (runWord w s) ∧
    (∀ i, decode w = .ok i → runWord w s = exec i s) ∧
    (∀ r, decode w = .error r → runWord w s = .next (rejectWord r s)) ∧
    (∀ i, decode w = .ok i → s.env.arrivals = [] → step s = exec i s)) ∧
  (∀ (s : State) (nbits w : Nat) (i : Instr), decodeTableWord nbits w = some i →
    step (s.withFetchWord nbits w) = exec i (s.withFetchWord nbits w)) ∧
  (∀ (s : State) a l rest, s.inReset = false → s.env.arrivals = .access a l :: rest →
    (s.busy = false ∨ l = .whileBusy ∨ (l = .asBusyEnds ∧ s.portWait ≠ none) →
      step s = .next (landAccess a (dropArrivals rest s))) ∧
    (s.busy = true → l = .whenIdle ∨ (l = .asBusyEnds ∧ s.portWait = none) → nextArrival s = none)) ∧
  (∀ (s : State) rest,
    (∀ a l, s.inReset = true → s.env.arrivals = .access a l :: rest → step s = .next (dropArrivals rest s)) ∧
    (s.env.arrivals = .releaseReset :: rest → step s = .next { dropArrivals rest s with inReset := false }) ∧
    (∀ l, s.env.arrivals = .connectSource l :: rest →
      step s = .next { s with env := { s.env with arrivals := rest, source := l } }) ∧
    (∀ l, s.env.arrivals = .connectSink l :: rest →
      step s = .next { s with env := { s.env with arrivals := rest, sink := l } })) ∧
  (∀ (s : State) a rest, nextArrival s = some (a, rest) → step s = .next (land a (dropArrivals rest s))) ∧
  (∀ s : State, s.env.arrivals = [] → nextArrival s = none ∧ (s.pendingCmd = none → step s = .next s)) ∧
  (∀ st (t : State), afterCommand st (.next t) = .next (if t.busy then t else landLate st t.env.arrivals t)) ∧
  (∀ st a rest (t : State),
    landLate st (.access a .asBusyEnds :: rest) t = landLate st rest (busyAccess st a (dropArrivals rest t))) ∧
  (∀ st l (t : State), (∀ a rest, l ≠ .access a .asBusyEnds :: rest) → landLate st l t = t)

/-- R200: a write of CMD is dropped while BUSY = 1, otherwise accepted; the accepted word is dispatched check by
check; and what has run and waits on no port has completed. -/
def Obligations.CommandAcceptance : Prop :=
  ∀ (s : State) (w : Word),
    (s.busy = true → landAccess (.write 0x04 4 w) s = { s with cmdDropped := true }) ∧
    (s.busy = false → landAccess (.write 0x04 4 w) s = { s with pendingCmd := some w }) ∧
    runWord w s = dispatchRule (w.toNat / 2 ^ 24) (w.toNat % 2 ^ 24) s ∧
    (∀ t, runWord w s = .next t → t.portWait = none → t.busy = false ∧ t.pendingCmd = none)

/-! ## The register window -/

/-- R64: a write to CMD or ARG0 to ARG2 while BUSY = 1, early or late in the busy period, only sets CMD_DROPPED. -/
def Obligations.DroppedWhileBusy : Prop :=
  ∀ (s : State) (offset : BitVec 8) (v : Word), offset ∈ [0x04#8, 0x14#8, 0x18#8, 0x1C#8] →
    (s.busy = true → landAccess (.write offset 4 v) s = { s with cmdDropped := true }) ∧
    (∀ st, busyAccess st (.write offset 4 v) s = { s with cmdDropped := true })

/-- R62: accesses of another width, misaligned or unmapped have no effect and read 0; writes of read-only registers
have no effect. -/
def Obligations.RefusedAccesses : Prop :=
  ∀ (s : State) (offset : BitVec 8) (bytes : Nat) (v : Word),
    (bytes ≠ 4 ∨ offset.toNat % 4 ≠ 0 ∨ 0x50 < offset.toNat →
      landAccess (.write offset bytes v) s = s ∧
      landAccess (.read offset bytes) s = { s with env := { s.env with reads := s.env.reads ++ [0] } }) ∧
    (offset ∉ [0x04#8, 0x14#8, 0x18#8, 0x1C#8] → landAccess (.write offset bytes v) s = s)

/-- R61 with R23 to R28: what the 21 registers read while BUSY = 0, as numbers, field by field; STATE's codes are R23's,
DIR is R41's, ERR.CODE's are R241's. -/
def Obligations.RegisterMap : Prop :=
  ∀ s : State, Inv s → s.busy = false →
    let state : Nat := match s.st with | .idle => 0 | .enc => 1 | .dec => 2 | .done => 3 | .error => 4
    let dir : Nat := match s.dir with | .encode => 0 | .decode => 1
    let code : Nat := match s.err.code with
      | .none => 0 | .ioFailure => 1 | .modelCorruption => 2 | .configurationError => 3 | .resourceExhausted => 4
      | .illegalCommand => 5
    ∀ row ∈ ([
    (0x00#8, 0x50504D07), (0x04#8, 0),
    (0x08#8, state + 2 ^ 4 * s.eof.toNat + 2 ^ 5 * s.cmdDropped.toNat),
    (0x0C#8, code + 2 ^ 8 * s.err.sub.toNat + 2 ^ 16 * s.err.opc.toNat),
    (0x10#8, s.result.toNat), (0x14#8, s.arg0.toNat), (0x18#8, s.arg1.toNat), (0x1C#8, s.arg2.toNat),
    (0x20#8, (s.order % 2 ^ 8).toNat + 2 ^ 8 * dir + 2 ^ 9 * s.raw.toNat + 2 ^ 16 * s.hist.length),
    (0x24#8, s.build.width + 2 ^ 8 * s.build.pendingWidth + 2 ^ 16 * s.build.maxOrder),
    (0x28#8, s.build.threshold), (0x2C#8, s.build.nodeCapacity.getD 0),
    (0x30#8, s.bitsOut.toNat), (0x34#8, s.bytesOut.toNat), (0x38#8, s.bytesIn.toNat), (0x3C#8, s.syms.toNat),
    (0x44#8, s.low), (0x48#8, s.high), (0x4C#8, s.code), (0x50#8, s.pending)] ++
    (if s.nodes < 2 ^ 32 then [(0x40#8, s.nodes)] else []) : List (BitVec 8 × Nat)),
    ∃ v : Word, v.toNat = row.2 ∧
      landAccess (.read row.1 4) s = { s with env := { s.env with reads := s.env.reads ++ [v] } }

/-- R63 while BUSY = 0 (while BUSY = 1 most reads are free values, R65): a read changes nothing but the log of reads
and repeats itself; a write stores an ARG, issues a command, or does nothing. -/
def Obligations.IdleAccesses : Prop :=
  ∀ s : State, s.busy = false →
    (∀ offset bytes, ∃ v,
      landAccess (.read offset bytes) s = { s with env := { s.env with reads := s.env.reads ++ [v] } } ∧
      landAccess (.read offset bytes) (landAccess (.read offset bytes) s) =
        { s with env := { s.env with reads := s.env.reads ++ [v] ++ [v] } }) ∧
    (∀ offset bytes v, landAccess (.write offset bytes v) s =
      if bytes = 4 ∧ offset = 0x04#8 then { s with pendingCmd := some v }
      else if bytes = 4 ∧ offset = 0x14#8 then { s with arg0 := v }
      else if bytes = 4 ∧ offset = 0x18#8 then { s with arg1 := v }
      else if bytes = 4 ∧ offset = 0x1C#8 then { s with arg2 := v }
      else s)

/-- R65: reads while BUSY = 1. STATUS shows BUSY, its bit 3 (R24, R61), and the STATE the command started in; ID and
PARAM0 to PARAM2 show their constants, every other register the next free value (log 9); once BUSY = 0 a register shows
what the command left. -/
def Obligations.BusyReads : Prop :=
  ∀ s : State,
    let log (v : Word) : State := { s with env := { s.env with reads := s.env.reads ++ [v] } }
    (s.busy = true →
      (∃ v : Word, landAccess (.read 0x08 4) s = log v ∧ v.toNat =
        (match (match s.portWait with | none => s.st | some p => p.startedIn) with
          | .idle => 0 | .enc => 1 | .dec => 2 | .done => 3 | .error => 4) +
        2 ^ 3 + 2 ^ 4 * s.eof.toNat + 2 ^ 5 * s.cmdDropped.toNat) ∧
      landAccess (.read 0x00 4) s = log 0x50504D07#32 ∧
      landAccess (.read 0x24 4) s = log (param0Word s.build) ∧
      landAccess (.read 0x28 4) s = log (param1Word s.build) ∧
      landAccess (.read 0x2C 4) s = log (param2Word s.build) ∧
      (∀ offset r, regAt offset = some r → offset ∉ [0x00#8, 0x08#8, 0x24#8, 0x28#8, 0x2C#8] →
        landAccess (.read offset 4) s = { s with
          env := { s.env with reads := s.env.reads ++ [Config.freeWord s.env.draws], draws := s.env.draws + 1 } })) ∧
    (s.busy = false → ∀ offset r, regAt offset = some r →
      landAccess (.read offset 4) s = log (regValue r s))

/-- R272: no step changes the build, and ID and PARAM0 to PARAM2 read the same whatever the state, so before and after
reset. -/
def Obligations.BuildConstants : Prop :=
  (∀ s t : State, step s = .next t → t.build = s.build) ∧
  (∀ s : State, (assertReset s).build = s.build ∧
    landAccess (.read 0x00 4) s = logRead 0x50504D07#32 s ∧
    landAccess (.read 0x24 4) s = logRead (param0Word s.build) s ∧
    landAccess (.read 0x28 4) s = logRead (param1Word s.build) s ∧
    landAccess (.read 0x2C 4) s = logRead (param2Word s.build) s)

/-! ## Reset and ports -/

/-- R270: reset is taken at any time, BUSY or not; while it is asserted accesses are ignored and the core does nothing;
when it is released every piece of the core's state has its value of R43. That it then comes before the next effect of a
command in flight, so how far that command has got 'mid-way', is the model's choice (log 27); what it leaves of the
ports is log 8. -/
def Obligations.ResetLeaves : Prop :=
  (∀ (s : State) rest, s.env.arrivals = .assertReset :: rest →
    step s = .next (assertReset (dropArrivals rest s))) ∧
  (∀ (s : State) a l, s.inReset = true → land (.access a l) s = s) ∧
  (∀ s : State, (assertReset s).inReset = true ∧ coreMove (assertReset s) = .next (assertReset s)) ∧
  (∀ s : State, releaseReset (assertReset s) =
    { build := s.build, st := .idle, eof := false, cmdDropped := false
      err := { code := .none, sub := 0, opc := 0 }, result := 0, arg0 := 0, arg1 := 0, arg2 := 0
      order := -1, dir := .encode, raw := false
      low := 0, high := 2 ^ s.build.width - 1, code := 0, pending := 0
      outBuf := 0, outN := 0, inBuf := 0, inN := 0, inEof := false, store := [], hist := []
      bitsOut := 0, bytesOut := 0, bytesIn := 0, syms := 0, nodes := 0
      pendingCmd := none, portWait := none, inReset := false, env := (assertReset s).env })

/-- R277: a port that never answers. The transaction stays outstanding with BUSY = 1; the core is stuck: where nothing
arrives from outside (StepRunsAcceptedWord says what an arrival does) a step is the fault `portSilent` (log 7); a CMD
write, so ABORT too, is dropped; nothing but reset ends the wait. -/
def Obligations.SilentPort : Prop :=
  (∀ (s : State) rest b, s.env.sink = .silent :: rest → snkWrite b s = .waiting (.snkWrite b) s) ∧
  (∀ (s : State) rest, s.env.source = .silent :: rest → srcRead s = .waiting .srcRead s) ∧
  (∀ opc st q (s : State), finishCommand opc st (.waiting q s) =
    .next { s with portWait := some { request := q, startedIn := st } }) ∧
  (∀ (s : State) w p, s.pendingCmd = some w → s.portWait = some p →
    coreMove s = .fault .portSilent ∧ s.busy = true ∧
    (nextArrival s = none → step s = .fault .portSilent) ∧
    (∀ v, landAccess (.write 0x04 4 v) s = { s with cmdDropped := true }) ∧
    (∀ a, a ≠ .assertReset → (land a s).pendingCmd = some w ∧ (land a s).portWait = some p) ∧
    (assertReset s).pendingCmd = none ∧ (assertReset s).portWait = none)

/-- R281: where the ports answer, every accepted word, run once, has completed; and its work is bounded: at most
HIST_LEN + 1 context creations, and HIST_LEN + 2 coding steps for a symbol on either side (R276, R281). -/
def Obligations.CommandsComplete : Prop :=
  (∀ s : State, MayRun s → SinkAnswers s → SourceAnswers s → ∀ w : Word,
    ∃ t, runWord w s = .next t ∧ t.busy = false ∧ t.portWait = none) ∧
  (∀ (s : State) sym, (codingSteps s sym).length ≤ s.hist.length + 2 ∧
    missingFrom s (descentOrders s) 0 ≤ s.hist.length + 1) ∧
  (∀ (s : State) sym l, DecodePath s sym (descentOrders s) l → l.length ≤ s.hist.length + 2)

/-- R71: an encode session uses only the sink, a decode session only the source, any other state neither; DEC_START,
which opens a decode session, uses only the source. -/
def Obligations.PortsByDirection : Prop :=
  ∀ (i : Instr) (s t : State), MayRun s → exec i s = .next t →
    ((∀ o a r, i ≠ .decStart o a r) → s.st ≠ .dec → t.env.source = s.env.source) ∧
    (s.st ≠ .enc → t.env.sink = s.env.sink ∧ t.env.sunk = s.env.sunk) ∧
    ((∃ o a r, i = .encStart o a r ∨ i = .decStart o a r) → t.env.sink = s.env.sink ∧ t.env.sunk = s.env.sunk)

/-! ## Errors -/

/-- R244: `raise`. ERR is written unless STATE is ERROR already, STATE becomes ERROR, the command completes, and no
other state is touched. -/
def Obligations.ErrorEntry : Prop :=
  ∀ (opc : BitVec 8) (st : SessionState) (c : Cause) (s : State),
    finishCommand opc st (.raised c s) = .next { s with
      err := if s.st = .error then s.err else { code := c.code, sub := c.sub, opc := opc }
      st := .error, pendingCmd := none }

/-- R242: the (CODE, SUB) pairs, each under its cause; and the word ERR reads (R28). -/
def Obligations.ErrorCodes : Prop :=
  (∀ p ∈ ([(.sourceFail, 1, 1), (.sinkFail, 1, 2), (.badTotal, 2, 1), (.badInterval, 2, 2), (.collapsedRange, 2, 3),
      (.codeOutside, 2, 4), (.targetOutside, 2, 5), (.badOrder, 3, 1), (.badAlphabet, 3, 2), (.storeFull, 4, 1),
      (.pendingFull, 4, 2), (.undefinedOpc, 5, 1), (.reservedBit, 5, 2), (.wrongState, 5, 3)] :
        List (Cause × Nat × Nat)),
    p.1.code.bits.toNat = p.2.1 ∧ p.1.sub.toNat = p.2.2) ∧
  (∀ c : Cause, ∃ n m, (c, n, m) ∈ ([(.sourceFail, 1, 1), (.sinkFail, 1, 2), (.badTotal, 2, 1), (.badInterval, 2, 2),
      (.collapsedRange, 2, 3), (.codeOutside, 2, 4), (.targetOutside, 2, 5), (.badOrder, 3, 1), (.badAlphabet, 3, 2),
      (.storeFull, 4, 1), (.pendingFull, 4, 2), (.undefinedOpc, 5, 1), (.reservedBit, 5, 2), (.wrongState, 5, 3)] :
        List (Cause × Nat × Nat))) ∧
  (∀ e : ErrReg, (errWord e).toNat = e.code.bits.toNat + 2 ^ 8 * e.sub.toNat + 2 ^ 16 * e.opc.toNat)

/-- In every reachable state ERR holds a pair of R242 where STATE = ERROR and is clear elsewhere: every step keeps
that, from every state that has it. -/
def Obligations.ErrorRecordedIsKept : Prop :=
  ∀ s t : State, Inv s → ErrorRecorded s → step s = .next t → ErrorRecorded t

/-- R246: in ERROR every command but START and ABORT only completes; so does a START with a reserved bit set; no error
overwrites ERR. -/
def Obligations.ErrorKeepsFirst : Prop :=
  ∀ (s : State) (w : Word), s.st = .error →
    let opc := w.toNat / 2 ^ 24
    let imm := w.toNat % 2 ^ 24
    (opc ∉ [0x01, 0x02, 0x0F] → runWord w s = .next { s with pendingCmd := none }) ∧
    (opc ∈ [0x01, 0x02] → reservedSet opc imm → runWord w s = .next { s with pendingCmd := none }) ∧
    (∀ c o, enterError o c s = { s with pendingCmd := none })

/-- R247: a step leaves ERROR only by reset, by an accepted START, or by ABORT; ERR is then clear and nothing of the
failed session is left. -/
def Obligations.WaysOutOfError : Prop :=
  ∀ s t : State, Inv s → s.st = .error → step s = .next t → t.st ≠ .error →
    t.err = .clear ∧ t.hist = [] ∧ t.syms = 0 ∧ t.bitsOut = 0 ∧ t.bytesOut = 0 ∧
    ((∃ rest, s.env.arrivals = .assertReset :: rest ∧ t.st = .idle) ∨
      (∃ w, s.pendingCmd = some w ∧
        ((w.toNat / 2 ^ 24 = 0x0F ∧ t.st = .idle) ∨ (w.toNat / 2 ^ 24 = 0x01 ∧ t.st = .enc) ∨
          (w.toNat / 2 ^ 24 = 0x02 ∧ t.st = .dec))))

/-- R212: the table of STATE transitions, for every word; any error leads to ERROR. -/
def Obligations.StateTransitions : Prop :=
  ∀ (s t : State) (w : Word), MayRun s → runWord w s = .next t → t.portWait = none →
    let opc := w.toNat / 2 ^ 24
    let imm := w.toNat % 2 ^ 24
    (¬ reservedSet opc imm → match transition s.st s.raw opc with
      | .goes l => t.st ∈ l ∨ t.st = .error
      | .illegal n => t = raisedAt .illegalCommand (BitVec.ofNat 4 n) (BitVec.ofNat 8 opc) s
      | .ignored => t = { s with pendingCmd := none }) ∧
    (reservedSet opc imm → s.st ≠ .error → t = raisedAt .illegalCommand 2 (BitVec.ofNat 8 opc) s) ∧
    (reservedSet opc imm → s.st = .error → t = { s with pendingCmd := none }) ∧
    (s.st = .dec → s.raw = false → opc = 0x05 → t.st ≠ .error → (t.st = .done ↔ t.result = 256#32))

/-- R249: the errors a PPM session can raise; no MODEL_CORRUPTION among them. -/
def Obligations.PpmErrors : Prop :=
  ∀ s t : State, MayRun s → s.raw = false →
    (∀ b, s.st = .enc → exec (.encByte b) s = .next t → t.st = .error →
      (t.err.code, t.err.sub) ∈ [(.ioFailure, 2), (.resourceExhausted, 1), (.resourceExhausted, 2)]) ∧
    (s.st = .enc → exec .encFinish s = .next t → t.st = .error →
      (t.err.code, t.err.sub) ∈ [(.ioFailure, 2), (.resourceExhausted, 2)]) ∧
    (s.st = .dec → exec .decSymbol s = .next t → t.st = .error →
      (t.err.code, t.err.sub) ∈ [(.ioFailure, 1), (.resourceExhausted, 1)])

/-! ## What each command does -/

/-- R202, ENC_START, whole: where its checks pass it leaves R43's START column; otherwise the first failing check, with
the state as it was before the clearing step or as that step leaves it. -/
def Obligations.EncStart : Prop :=
  ∀ s : State, s.build.legal = true →
    (∀ order alpha rawf,
      (StartAccepted s.build order alpha rawf →
        exec (.encStart order alpha rawf) s = .next { opened .encode order rawf s with pendingCmd := none }) ∧
      (rawf = true → ¬ (order = 0 ∧ alpha = 0) → s.st ≠ .error →
        exec (.encStart order alpha rawf) s = .next (raisedAt .illegalCommand 2 0x01 s)) ∧
      (rawf = true → ¬ (order = 0 ∧ alpha = 0) → s.st = .error →
        exec (.encStart order alpha rawf) s = .next { s with pendingCmd := none }) ∧
      (rawf = false → alpha ≠ 257 →
        exec (.encStart order alpha rawf) s = .next (raisedAt .configurationError 2 0x01 (clearSession s))) ∧
      (rawf = false → alpha = 257 → ¬ (-1 ≤ order ∧ order ≤ s.build.maxOrder) →
        exec (.encStart order alpha rawf) s = .next (raisedAt .configurationError 1 0x01 (clearSession s)))) ∧
    (∀ w : Word, w.toNat / 2 ^ 24 = 0x01 → w.toNat / 2 ^ 18 % 2 ^ 6 ≠ 0 → s.st ≠ .error →
      runWord w s = .next (raisedAt .illegalCommand 2 0x01 s))

/-- R203, DEC_START: START's checks; then CODE is the first W bits of the source, padded with 0, read by whole bytes.
It ends with IO_FAILURE 1 exactly where the source comes to Fail within those bits, with M, DIR and RAW already set and
everything else but CODE, the reader, BYTES_IN and the source as the clearing step and the start leave it (R202); where
the source falls silent there, it waits (R277). -/
def Obligations.DecStart : Prop :=
  ∀ s : State, s.build.legal = true → ∀ order alpha rawf,
    (StartAccepted s.build order alpha rawf →
      (∀ a, stopAnswer s.env.source = some a → s.build.width ≤ 8 * (sourceBytes s.env.source).length) →
      ∃ t, exec (.decStart order alpha rawf) s = .next t ∧
        t = { opened .decode order rawf s with
          pendingCmd := none, code := t.code, inBuf := t.inBuf, inN := t.inN, inEof := t.inEof, bytesIn := t.bytesIn
          env := { s.env with source := t.env.source } } ∧
        t.code = bitsValue (padded s.build.width ((sourceBytes s.env.source).flatMap byteBits)) ∧
        unreadBits t = ((sourceBytes s.env.source).flatMap byteBits).drop s.build.width ∧
        t.bytesIn = BitVec.ofNat 32 ((sourceBytes s.env.source).length - (unreadBytes t).length)) ∧
    (StartAccepted s.build order alpha rawf → 8 * (sourceBytes s.env.source).length < s.build.width →
      (stopAnswer s.env.source = some .fail →
        ∃ t, exec (.decStart order alpha rawf) s = .next t ∧ Raised .ioFailure 1 0x02 t) ∧
      (stopAnswer s.env.source = some .silent →
        ∃ t, exec (.decStart order alpha rawf) s = .next t ∧ t.portWait ≠ none ∧ t.pendingCmd = s.pendingCmd)) ∧
    (∀ t, StartAccepted s.build order alpha rawf → stopAnswer s.env.source ≠ some .silent →
      exec (.decStart order alpha rawf) s = .next t → t.st = .dec ∨
        (Raised .ioFailure 1 0x02 t ∧ stopAnswer s.env.source = some .fail ∧
          8 * (sourceBytes s.env.source).length < s.build.width ∧ t.dir = .decode ∧ t.raw = rawf ∧
          t.order = (if rawf then -1 else order) ∧
          t = { opened .decode order rawf s with
            st := t.st, err := t.err, pendingCmd := t.pendingCmd
            code := t.code, inBuf := t.inBuf, inN := t.inN, inEof := t.inEof, bytesIn := t.bytesIn
            env := { s.env with source := t.env.source } })) ∧
    (rawf = true → ¬ (order = 0 ∧ alpha = 0) → s.st ≠ .error →
      exec (.decStart order alpha rawf) s = .next (raisedAt .illegalCommand 2 0x02 s)) ∧
    (rawf = true → ¬ (order = 0 ∧ alpha = 0) → s.st = .error →
      exec (.decStart order alpha rawf) s = .next { s with pendingCmd := none }) ∧
    (rawf = false → alpha ≠ 257 →
      exec (.decStart order alpha rawf) s = .next (raisedAt .configurationError 2 0x02 (clearSession s))) ∧
    (rawf = false → alpha = 257 → ¬ (-1 ≤ order ∧ order ≤ s.build.maxOrder) →
      exec (.decStart order alpha rawf) s = .next (raisedAt .configurationError 1 0x02 (clearSession s)))

/-- R204, ENC_BYTE in an open PPM encode session: the coding steps of the escape descent (R176), then update (R180),
pushHistory (R184) and SYMS. Where the sink takes the bytes that the steps fill, however it answers later, ENC_BYTE
completes where PENDING fits and the store has room; otherwise it ends with RESOURCE_EXHAUSTED 2 or 1. Where the sink
rejects one of those bytes it ends with IO_FAILURE 2 (R70, R101); where it falls silent at one, it waits (R277). What
came before an error stays (R245): where the store is full the byte is coded, and the update has counted it as far as
there was room; H and SYMS are as they were. -/
def Obligations.EncByte : Prop :=
  ∀ (s : State) (b : Byte), MayRun s → s.st = .enc → s.raw = false →
    let l := codingSteps s b.toNat
    (SinkTakes (filledBytes s l) s → PendingFits s.build l (coded s) → StoreRoom s →
      ∃ t, exec (.encByte b) s = .next t ∧ EncByteWrites { s with pendingCmd := none } t ∧
        EncodedTo s t ((coded s).run s.build l) ∧
        StoreLearned b.toNat s t ∧ t.nodes = t.store.length ∧ t.hist = historyAfter b s ∧ t.syms = s.syms + 1) ∧
    (SinkTakes (filledBytes s l) s → PendingFits s.build l (coded s) → ¬ StoreRoom s →
      ∃ t, exec (.encByte b) s = .next t ∧ Raised .resourceExhausted 1 0x03 t ∧
        EncodedTo s t ((coded s).run s.build l) ∧ UpdateStopped b.toNat s t ∧ t.syms = s.syms ∧ t.hist = s.hist) ∧
    (SinkTakes (filledBytes s l) s → ¬ PendingFits s.build l (coded s) →
      ∃ t, exec (.encByte b) s = .next t ∧ Raised .resourceExhausted 2 0x03 t ∧
        t.store = s.store ∧ t.nodes = s.nodes ∧ t.syms = s.syms ∧ t.hist = s.hist) ∧
    (SinkStops .fail (filledBytes s l) s →
      ∃ t, exec (.encByte b) s = .next t ∧ Raised .ioFailure 2 0x03 t ∧
        t.store = s.store ∧ t.nodes = s.nodes ∧ t.syms = s.syms ∧ t.hist = s.hist) ∧
    (SinkStops .silent (filledBytes s l) s →
      ∃ t, exec (.encByte b) s = .next t ∧ t.portWait ≠ none ∧ t.pendingCmd = s.pendingCmd) ∧
    (∀ t, exec (.encByte b) s = .next t → SinkAnswers s →
      (t.st = .enc ∧ PendingFits s.build l (coded s) ∧ StoreRoom s ∧ SinkTakes (filledBytes s l) s) ∨
      (t.syms = s.syms ∧ t.hist = s.hist ∧ s.env.sunk <+: t.env.sunk ∧
        ((Raised .ioFailure 2 0x03 t ∧ SinkStops .fail (filledBytes s l) s ∧
            t.store = s.store ∧ t.nodes = s.nodes) ∨
          (Raised .resourceExhausted 2 0x03 t ∧ ¬ PendingFits s.build l (coded s) ∧
            t.store = s.store ∧ t.nodes = s.nodes) ∨
          (Raised .resourceExhausted 1 0x03 t ∧ ¬ StoreRoom s ∧ PendingFits s.build l (coded s) ∧
            EncodedTo s t ((coded s).run s.build l) ∧ UpdateStopped b.toNat s t))))

/-- R205, ENC_FINISH in an open encode session, PPM or RAW: EOF at the end of the descent (PPM), the finish bits
(R149), then zero bits to a whole byte (R102); the session is DONE and the model untouched. It completes where PENDING
fits and the sink takes the bytes it sends, however it would answer later ones; where PENDING does not fit it ends with
RESOURCE_EXHAUSTED 2; where the sink rejects one of the bytes, with IO_FAILURE 2; where the sink falls silent at one, it
waits (R277). -/
def Obligations.EncFinish : Prop :=
  ∀ s : State, MayRun s → s.st = .enc →
    (SinkTakes (finishBytes s) s → FinishFits s →
      ∃ t, exec .encFinish s = .next t ∧ EncFinishWrites { s with pendingCmd := none } t ∧
        t.st = .done ∧ t.outN = 0 ∧ t.pending = 0 ∧
        t.low = (finishCoded s).low ∧ t.high = (finishCoded s).high ∧
        t.syms = s.syms + (if s.raw then 0 else 1) ∧
        (∃ pad, pad < 8 ∧ t.env.sunk.flatMap byteBits =
          writtenBits s ++ (finishCoded s).bits ++ List.replicate pad false) ∧
        t.bitsOut = s.bitsOut + BitVec.ofNat 32 (finishCoded s).bits.length ∧
        s.env.sunk <+: t.env.sunk ∧
        t.bytesOut = s.bytesOut + BitVec.ofNat 32 (t.env.sunk.length - s.env.sunk.length)) ∧
    (SinkTakes (filledBytes s (finishSteps s)) s → ¬ FinishFits s →
      ∃ t, exec .encFinish s = .next t ∧ Raised .resourceExhausted 2 0x04 t) ∧
    (FinishStops .fail s → ∃ t, exec .encFinish s = .next t ∧ Raised .ioFailure 2 0x04 t) ∧
    (FinishStops .silent s →
      ∃ t, exec .encFinish s = .next t ∧ t.portWait ≠ none ∧ t.pendingCmd = s.pendingCmd) ∧
    (∀ t, exec .encFinish s = .next t → SinkAnswers s →
      (t.st = .done ∧ FinishFits s ∧ SinkTakes (finishBytes s) s) ∨
      (Raised .ioFailure 2 0x04 t ∧ FinishStops .fail s) ∨
      (Raised .resourceExhausted 2 0x04 t ∧ ¬ FinishFits s))

/-- R206, DEC_SYMBOL in an open PPM decode session: a symbol by the escape descent (R177), its interval the one CODE
lies in; a literal is learned; RESULT, SYMS; at 256 the session is DONE with EOF = 1. CODE and the bits after it always
select one path to one symbol. Where the source gives the bits of that path DEC_SYMBOL completes with that symbol, but
for a literal that finds the store full: that ends with RESOURCE_EXHAUSTED 1 (R181; 256 needs no room, R183). Where the
source comes to Fail within those bits it ends with IO_FAILURE 1; where it falls silent there, it waits (R277). An error
leaves RESULT, SYMS, EOF and H, and what came before it stays (R245): the literal that finds the store full is decoded,
and the update has counted it as far as there was room. -/
def Obligations.DecSymbol : Prop :=
  ∀ s : State, MayRun s → s.st = .dec → s.raw = false →
    (SourceReadable s → StoreRoom s →
      ∃ t, exec .decSymbol s = .next t ∧ DecSymbolWrites { s with pendingCmd := none } t ∧
        ∃ sym l, sym < 257 ∧ DecodePath s sym (descentOrders s) l ∧ DecodedTo s t ((coded s).run s.build l) ∧
          t.low ≤ t.code ∧ t.code ≤ t.high ∧
          t.result = BitVec.ofNat 32 sym ∧ t.syms = s.syms + 1 ∧
          (sym ≠ 256 → t.st = .dec ∧ t.eof = s.eof ∧ StoreLearned sym s t ∧ t.nodes = t.store.length ∧
            t.hist = historyAfter (BitVec.ofNat 8 sym) s) ∧
          (sym = 256 → t.st = .done ∧ t.eof = true ∧ t.store = s.store ∧ t.nodes = s.nodes ∧ t.hist = s.hist)) ∧
    (∃ sym < 257, ∃ l, DecodePath s sym (descentOrders s) l ∧ CodeWithin s ((coded s).run s.build l)) ∧
    (∀ sym < 257, ∀ l, DecodePath s sym (descentOrders s) l → CodeWithin s ((coded s).run s.build l) →
      (SourceGives ((coded s).run s.build l).steps s → (sym = 256 ∨ StoreRoom s) →
        ∃ t, exec .decSymbol s = .next t ∧ DecSymbolWrites { s with pendingCmd := none } t ∧
          DecodedTo s t ((coded s).run s.build l) ∧ t.low ≤ t.code ∧ t.code ≤ t.high ∧
          t.result = BitVec.ofNat 32 sym ∧ t.syms = s.syms + 1 ∧
          (sym ≠ 256 → t.st = .dec ∧ t.eof = s.eof ∧ StoreLearned sym s t ∧ t.nodes = t.store.length ∧
            t.hist = historyAfter (BitVec.ofNat 8 sym) s) ∧
          (sym = 256 → t.st = .done ∧ t.eof = true ∧ t.store = s.store ∧ t.nodes = s.nodes ∧ t.hist = s.hist)) ∧
      (SourceGives ((coded s).run s.build l).steps s → sym ≠ 256 → ¬ StoreRoom s →
        ∃ t, exec .decSymbol s = .next t ∧ Raised .resourceExhausted 1 0x05 t ∧
          DecodedTo s t ((coded s).run s.build l) ∧ UpdateStopped sym s t ∧ t.result = s.result ∧ t.syms = s.syms ∧
          t.eof = s.eof ∧ t.hist = s.hist) ∧
      ((unreadBits s).length < ((coded s).run s.build l).steps →
        (SourceStops .fail s → ∃ t, exec .decSymbol s = .next t ∧ Raised .ioFailure 1 0x05 t ∧
          t.result = s.result ∧ t.syms = s.syms ∧ t.eof = s.eof ∧ t.hist = s.hist ∧ t.store = s.store ∧
          t.nodes = s.nodes) ∧
        (SourceStops .silent s →
          ∃ t, exec .decSymbol s = .next t ∧ t.portWait ≠ none ∧ t.pendingCmd = s.pendingCmd))) ∧
    (∀ t, exec .decSymbol s = .next t → SourceAnswers s → (t.st = .dec ∧ StoreRoom s) ∨ t.st = .done ∨
      (t.result = s.result ∧ t.syms = s.syms ∧ t.eof = s.eof ∧ t.hist = s.hist ∧
        ((Raised .ioFailure 1 0x05 t ∧ SourceStops .fail s ∧ t.store = s.store ∧ t.nodes = s.nodes) ∨
          (Raised .resourceExhausted 1 0x05 t ∧ ¬ StoreRoom s ∧ ∃ sym < 256, ∃ l,
            DecodePath s sym (descentOrders s) l ∧ CodeWithin s ((coded s).run s.build l) ∧
            DecodedTo s t ((coded s).run s.build l) ∧ UpdateStopped sym s t))))

/-- R207, RAW_ENC in an open RAW encode session: one coding step on [ARG0, ARG1) of ARG2, or the check that fails.
It completes where PENDING fits and the sink takes the bytes that the step fills, however it answers later; where
PENDING does not fit it ends with RESOURCE_EXHAUSTED 2; where the sink rejects one of the bytes, with IO_FAILURE 2;
where the sink falls silent at one, it waits (R277). -/
def Obligations.RawEnc : Prop :=
  ∀ s : State, MayRun s → s.st = .enc → s.raw = true →
    let i : Interval := ⟨s.arg0.toNat, s.arg1.toNat, s.arg2.toNat⟩
    (1 ≤ i.tot → i.tot ≤ s.build.quarter + 2 → i.cl < i.ch → i.ch ≤ i.tot →
      (SinkTakes (filledBytes s [i]) s → PendingFits s.build [i] (coded s) →
        ∃ t, exec .rawEnc s = .next t ∧ RawEncWrites { s with pendingCmd := none } t ∧
          EncodedTo s t ((coded s).code s.build i) ∧ t.syms = s.syms + 1) ∧
      (SinkTakes (filledBytes s [i]) s → ¬ PendingFits s.build [i] (coded s) →
        ∃ t, exec .rawEnc s = .next t ∧ Raised .resourceExhausted 2 0x06 t ∧ t.syms = s.syms) ∧
      (SinkStops .fail (filledBytes s [i]) s →
        ∃ t, exec .rawEnc s = .next t ∧ Raised .ioFailure 2 0x06 t ∧ t.syms = s.syms) ∧
      (SinkStops .silent (filledBytes s [i]) s →
        ∃ t, exec .rawEnc s = .next t ∧ t.portWait ≠ none ∧ t.pendingCmd = s.pendingCmd)) ∧
    (¬ (1 ≤ i.tot ∧ i.tot ≤ s.build.quarter + 2) →
      exec .rawEnc s = .next (raisedAt .modelCorruption 1 0x06 s)) ∧
    (1 ≤ i.tot → i.tot ≤ s.build.quarter + 2 → ¬ (i.cl < i.ch ∧ i.ch ≤ i.tot) →
      exec .rawEnc s = .next (raisedAt .modelCorruption 2 0x06 s)) ∧
    (∀ t, exec .rawEnc s = .next t → SinkAnswers s →
      (t.st = .enc ∧ PendingFits s.build [i] (coded s) ∧ SinkTakes (filledBytes s [i]) s) ∨
      Raised .modelCorruption 1 0x06 t ∨
      Raised .modelCorruption 2 0x06 t ∨ (Raised .ioFailure 2 0x06 t ∧ SinkStops .fail (filledBytes s [i]) s) ∨
      (Raised .resourceExhausted 2 0x06 t ∧ ¬ PendingFits s.build [i] (coded s)))

/-- R208, RAW_DEC_TARGET in an open RAW decode session: RESULT is the target value for ARG2, and nothing else changes;
a bad total is MODEL_CORRUPTION 1. -/
def Obligations.RawDecTarget : Prop :=
  ∀ s : State, MayRun s → s.st = .dec → s.raw = true →
    (1 ≤ s.arg2.toNat → s.arg2.toNat ≤ s.build.quarter + 2 →
      exec .rawDecTarget s = .next { s with
        pendingCmd := none
        result := BitVec.ofNat 32 (((s.code - s.low + 1) * s.arg2.toNat - 1) / (s.high - s.low + 1)) } ∧
      ((s.code - s.low + 1) * s.arg2.toNat - 1) / (s.high - s.low + 1) < s.arg2.toNat) ∧
    (¬ (1 ≤ s.arg2.toNat ∧ s.arg2.toNat ≤ s.build.quarter + 2) →
      exec .rawDecTarget s = .next (raisedAt .modelCorruption 1 0x07 s))

/-- R209, RAW_DEC_APPLY in an open RAW decode session: where the target value lies in [ARG0, ARG1), one coding step;
otherwise the check that fails, in its order. Where the source comes to Fail within the bits of the step it ends with
IO_FAILURE 1, and only there; where the source falls silent there, it waits (R277). -/
def Obligations.RawDecApply : Prop :=
  ∀ s : State, MayRun s → s.st = .dec → s.raw = true →
    let i : Interval := ⟨s.arg0.toNat, s.arg1.toNat, s.arg2.toNat⟩
    let v := ((s.code - s.low + 1) * i.tot - 1) / (s.high - s.low + 1)
    (1 ≤ i.tot → i.tot ≤ s.build.quarter + 2 → i.cl ≤ v → v < i.ch → i.ch ≤ i.tot →
      SourceGives ((coded s).code s.build i).steps s →
      ∃ t, exec .rawDecApply s = .next t ∧ RawDecApplyWrites { s with pendingCmd := none } t ∧
        DecodedTo s t ((coded s).code s.build i) ∧ t.low ≤ t.code ∧ t.code ≤ t.high ∧ t.syms = s.syms + 1) ∧
    (¬ (1 ≤ i.tot ∧ i.tot ≤ s.build.quarter + 2) →
      exec .rawDecApply s = .next (raisedAt .modelCorruption 1 0x08 s)) ∧
    (1 ≤ i.tot → i.tot ≤ s.build.quarter + 2 → ¬ (i.cl ≤ v ∧ v < i.ch) →
      exec .rawDecApply s = .next (raisedAt .modelCorruption 5 0x08 s)) ∧
    (1 ≤ i.tot → i.tot ≤ s.build.quarter + 2 → i.cl ≤ v → v < i.ch → i.tot < i.ch →
      exec .rawDecApply s = .next (raisedAt .modelCorruption 2 0x08 s)) ∧
    (∀ t, exec .rawDecApply s = .next t → SourceAnswers s → t.st = .dec ∨
      (∃ sub, sub ∈ [1#4, 2#4, 5#4] ∧ t = raisedAt .modelCorruption sub 0x08 s) ∨
      (Raised .ioFailure 1 0x08 t ∧ SourceStops .fail s ∧
        (unreadBits s).length < ((coded s).code s.build i).steps)) ∧
    (1 ≤ i.tot → i.tot ≤ s.build.quarter + 2 → i.cl ≤ v → v < i.ch → i.ch ≤ i.tot →
      (unreadBits s).length < ((coded s).code s.build i).steps →
      (SourceStops .fail s → ∃ t, exec .rawDecApply s = .next t ∧ Raised .ioFailure 1 0x08 t ∧ t.syms = s.syms) ∧
      (SourceStops .silent s →
        ∃ t, exec .rawDecApply s = .next t ∧ t.portWait ≠ none ∧ t.pendingCmd = s.pendingCmd))

/-- R210, RAW_DEC_END: STATE becomes DONE and nothing else is written. -/
def Obligations.RawDecEnd : Prop :=
  ∀ s : State, s.st = .dec → s.raw = true → exec .rawDecEnd s = .next { s with st := .done, pendingCmd := none }

/-- R211, ABORT, in every STATE and for every IMM: R43's ABORT column; ARG0 to ARG2 and the outside world stay. -/
def Obligations.Abort : Prop :=
  ∀ (s : State) (imm : BitVec 24), exec (.abort imm) s = .next { s with
    st := .idle, eof := false, cmdDropped := false, err := { code := .none, sub := 0, opc := 0 }, result := 0
    order := -1, dir := .encode, raw := false
    low := 0, high := 2 ^ s.build.width - 1, code := 0, pending := 0
    outBuf := 0, outN := 0, inBuf := 0, inN := 0, inEof := false, store := [], hist := []
    bitsOut := 0, bytesOut := 0, bytesIn := 0, syms := 0, nodes := 0, pendingCmd := none }

/-! ## What commands leave alone -/

/-- R213: what each command may write, and the errors it may raise. -/
def Obligations.Footprints : Prop :=
  ∀ s t : State, MayRun s →
    (∀ b, exec (.encByte b) s = .next t → EncByteWrites (endedAs s t) t ∧ (t.st = s.st ∨ t.st = .error) ∧
      (t.err = s.err ∨ (t.err.code, t.err.sub) ∈
        [(.illegalCommand, 3), (.ioFailure, 2), (.resourceExhausted, 1), (.resourceExhausted, 2)])) ∧
    (exec .encFinish s = .next t → EncFinishWrites (endedAs s t) t ∧
      (t.err = s.err ∨ (t.err.code, t.err.sub) ∈
        [(.illegalCommand, 3), (.ioFailure, 2), (.resourceExhausted, 2)])) ∧
    (exec .decSymbol s = .next t → DecSymbolWrites (endedAs s t) t ∧
      (t.err = s.err ∨ (t.err.code, t.err.sub) ∈
        [(.illegalCommand, 3), (.ioFailure, 1), (.resourceExhausted, 1)])) ∧
    (exec .rawEnc s = .next t → RawEncWrites (endedAs s t) t ∧ (t.st = s.st ∨ t.st = .error) ∧
      (t.err = s.err ∨ (t.err.code, t.err.sub) ∈ [(.illegalCommand, 3), (.modelCorruption, 1),
        (.modelCorruption, 2), (.ioFailure, 2), (.resourceExhausted, 2)])) ∧
    (exec .rawDecTarget s = .next t → t = { endedAs s t with result := t.result } ∧
      (t.st = s.st ∨ t.st = .error) ∧
      (t.err = s.err ∨ (t.err.code, t.err.sub) ∈ [(.illegalCommand, 3), (.modelCorruption, 1)])) ∧
    (exec .rawDecApply s = .next t → RawDecApplyWrites (endedAs s t) t ∧ (t.st = s.st ∨ t.st = .error) ∧
      (t.err = s.err ∨ (t.err.code, t.err.sub) ∈ [(.illegalCommand, 3), (.modelCorruption, 1),
        (.modelCorruption, 2), (.modelCorruption, 5), (.ioFailure, 1)])) ∧
    (exec .rawDecEnd s = .next t → t = endedAs s t ∧
      (t.err = s.err ∨ (t.err.code, t.err.sub) = (.illegalCommand, 3))) ∧
    (∀ o a r, exec (.encStart o a r) s = .next t →
      HostSideSame s t ∧ t.env = s.env ∧ (t.err = s.err ∨ t.err = .clear ∨ (t.err.code, t.err.sub) ∈
        [(.illegalCommand, 2), (.configurationError, 1), (.configurationError, 2)])) ∧
    (∀ o a r, exec (.decStart o a r) s = .next t →
      HostSideSame s t ∧ t.env.sink = s.env.sink ∧ t.env.sunk = s.env.sunk ∧
      (t.err = s.err ∨ t.err = .clear ∨ (t.err.code, t.err.sub) ∈
        [(.illegalCommand, 2), (.configurationError, 1), (.configurationError, 2), (.ioFailure, 1)])) ∧
    (∀ imm, exec (.abort imm) s = .next t → HostSideSame s t ∧ t.env = s.env ∧ t.err = .clear)

/-- R21, R243: no command, in any state at all, writes ARG0 to ARG2, the build, the reset input, or of the outside
world anything but the ports. -/
def Obligations.CommandsLeaveHostSide : Prop :=
  ∀ (s t : State) (w : Word), runWord w s = .next t → HostSideSame s t

/-- R25 with R202: EOF becomes 1 only where DEC_SYMBOL resolves 256, and then the session is DONE; START and ABORT clear
it (R202 raises a RAW START's reserved IMM bits before the clearing step, so that START leaves it); reset clears it; no
other command changes it. -/
def Obligations.EofFlag : Prop :=
  (∀ (i : Instr) (s t : State), MayRun s → exec i s = .next t →
    match i with
    | .encStart o a r => if r = true ∧ ¬ (o = 0 ∧ a = 0) then t.st = .error ∧ t.eof = s.eof else t.eof = false
    | .decStart o a r => if r = true ∧ ¬ (o = 0 ∧ a = 0) then t.st = .error ∧ t.eof = s.eof else t.eof = false
    | .abort _ => t.eof = false
    | .decSymbol => t.eof = s.eof ∨ (t.eof = true ∧ t.st = .done ∧ t.result = 256#32)
    | .encByte _ => t.eof = s.eof
    | .encFinish => t.eof = s.eof
    | .rawEnc => t.eof = s.eof
    | .rawDecTarget => t.eof = s.eof
    | .rawDecApply => t.eof = s.eof
    | .rawDecEnd => t.eof = s.eof) ∧
  (∀ s : State, (assertReset s).eof = false)

/-- R29: RESULT is written by DEC_SYMBOL (0 to 256) and RAW_DEC_TARGET, and only where they complete; accepted START
and ABORT clear it; no other command changes it. A START that fails after its clearing step leaves 0 (R43); a RAW
START refused for its IMM, before that step, leaves it (R202, log 25). -/
def Obligations.ResultRegister : Prop :=
  ∀ (i : Instr) (s t : State), MayRun s → exec i s = .next t →
    match i with
    | .encStart o a r => if r = true ∧ ¬ (o = 0 ∧ a = 0) then t.st = .error ∧ t.result = s.result else t.result = 0
    | .decStart o a r => if r = true ∧ ¬ (o = 0 ∧ a = 0) then t.st = .error ∧ t.result = s.result else t.result = 0
    | .abort _ => t.result = 0
    | .decSymbol => t.result = s.result ∨ (t.result.toNat ≤ 256 ∧ (t.st = .dec ∨ t.st = .done))
    | .rawDecTarget => t.result = s.result ∨ (t.result.toNat < s.arg2.toNat ∧ t.st = .dec)
    | .encByte _ => t.result = s.result
    | .encFinish => t.result = s.result
    | .rawEnc => t.result = s.result
    | .rawDecApply => t.result = s.result
    | .rawDecEnd => t.result = s.result

/-! ## Frequency tables -/

/-- R125: the counts after `increment`: the symbol's count grows by one; if the total then exceeds T every count is
halved, a count of 1 or more staying at least 1. -/
def Obligations.Increment : Prop :=
  ∀ (T : Nat) (t : Table) (sym : Nat), t.counts.length = 257 → sym < 257 →
    (tableIncrement T t sym).counts.length = 257 ∧
    ∀ u < 257, tableGet (tableIncrement T t sym) u =
      let c := tableGet t u + (if u = sym then 1 else 0)
      if tableTotal t + 1 > T then (if c ≥ 1 then max 1 (c / 2) else 0) else c

/-- R126: the four facts about a table after `increment`. -/
def Obligations.IncrementKeepsTable : Prop :=
  ∀ (T : Nat) (t : Table) (sym : Nat), 258 ≤ T → t.counts.length = 257 → tableTotal t ≤ T → sym < 257 →
    let t' := tableIncrement T t sym
    tableTotal t' ≤ T ∧
    (∀ u < 257, 1 ≤ tableGet t u → 1 ≤ tableGet t' u) ∧
    (∀ u < 257, tableGet t u = 0 → u ≠ sym → tableGet t' u = 0) ∧
    (tableLow t' 0 = 0 ∧ tableHigh t' 256 = tableTotal t' ∧ (∀ u < 256, tableLow t' (u + 1) = tableHigh t' u) ∧
      ∀ v < tableTotal t', ∃ u < 257, tableLow t' u ≤ v ∧ v < tableHigh t' u ∧
        ∀ u' < 257, tableLow t' u' ≤ v → v < tableHigh t' u' → u' = u)

/-- R128 with R127's counts: a fresh table, and the order -1 table. -/
def Obligations.FirstTables : Prop :=
  (freshTable.counts.length = 257 ∧ tableGet freshTable 256 = 1 ∧ (∀ u < 256, tableGet freshTable u = 0) ∧
    tableTotal freshTable = 1) ∧
  (uniformTable.counts.length = 257 ∧ tableTotal uniformTable = 257 ∧
    ∀ u < 257, tableGet uniformTable u = 1 ∧ tableLow uniformTable u = u ∧ tableHigh uniformTable u = u + 1)

/-- R130: `find` answers the one symbol whose interval holds v; where v ≥ the total it has no answer, and the decoder
raises MODEL_CORRUPTION 5 (R153 notes that no target value is that large). -/
def Obligations.FindSymbol : Prop :=
  ∀ (t : Table) (v : Nat), t.counts.length = 257 →
    (v < tableTotal t → ∃ sym < 257, tableFind t v = some sym ∧ tableLow t sym ≤ v ∧ v < tableHigh t sym ∧
      1 ≤ tableGet t sym ∧ ∀ u < 257, tableLow t u ≤ v → v < tableHigh t u → u = sym) ∧
    (tableTotal t ≤ v → tableFind t v = none ∧ ∀ s : State, decodeOffset t v s = .raised .targetOutside s)

/-! ## The bit streams -/

/-- R101: `writeBit`. A bit joins the byte at its right end; the eighth sends it. -/
def Obligations.WriteBit : Prop :=
  ∀ (b : Bool) (s : State),
    let buf : Byte := BitVec.ofNat 8 (2 * s.outBuf.toNat + b.toNat)
    (s.outN < 7 → writeBit b s =
      .ok () { s with outBuf := buf, outN := s.outN + 1, bitsOut := s.bitsOut + 1 }) ∧
    (s.outN = 7 → s.env.sink = [] → writeBit b s = .ok () { s with
      outBuf := 0, outN := 0, bitsOut := s.bitsOut + 1, bytesOut := s.bytesOut + 1
      env := { s.env with sunk := s.env.sunk ++ [buf] } }) ∧
    (∀ rest, s.outN = 7 → s.env.sink = .accept :: rest → writeBit b s = .ok () { s with
      outBuf := 0, outN := 0, bitsOut := s.bitsOut + 1, bytesOut := s.bytesOut + 1
      env := { s.env with sink := rest, sunk := s.env.sunk ++ [buf] } }) ∧
    (∀ rest, s.outN = 7 → s.env.sink = .fail :: rest → ∃ t, writeBit b s = .raised .sinkFail t ∧
      t.bitsOut = s.bitsOut + 1 ∧ t.bytesOut = s.bytesOut ∧ t.env.sunk = s.env.sunk)

/-- R102: `closeOut`. A partial byte is padded with zero bits at its right end and sent; with none, nothing is sent;
BITS_OUT does not move. -/
def Obligations.CloseOut : Prop :=
  ∀ s : State,
    (s.outN = 0 → closeOut s = .ok () s) ∧
    (1 ≤ s.outN → s.outN ≤ 7 → SinkTakes 1 s → ∃ t, closeOut s = .ok () t ∧
      t.env.sunk = s.env.sunk ++ [BitVec.ofNat 8 (s.outBuf.toNat * 2 ^ (8 - s.outN))] ∧
      t = { s with outBuf := 0, outN := 0, bytesOut := s.bytesOut + 1
                   env := { s.env with sink := t.env.sink, sunk := t.env.sunk } }) ∧
    (∀ rest, 1 ≤ s.outN → s.env.sink = .fail :: rest → ∃ t, closeOut s = .raised .sinkFail t ∧
      t.bytesOut = s.bytesOut ∧ t.bitsOut = s.bitsOut ∧ t.env.sunk = s.env.sunk)

/-- R103 and R104: `readBit`. The next bit of IN_BUF, most significant first; a byte is fetched only when its first bit
is needed; after `End` every bit is 0, the source is not called, and nothing changes. -/
def Obligations.ReadBit : Prop :=
  ∀ s : State,
    (∀ n, s.inN = n + 1 → readBit s = .ok (s.inBuf.getLsbD n) { s with inN := n }) ∧
    (s.inN = 0 → s.inEof = true → readBit s = .ok false s) ∧
    (∀ v rest, s.inN = 0 → s.inEof = false → s.env.source = .byte v :: rest → readBit s =
      .ok (v.getLsbD 7) { s with
        inBuf := v, inN := 7, bytesIn := s.bytesIn + 1, env := { s.env with source := rest } }) ∧
    (s.inN = 0 → s.inEof = false → s.env.source = [] → readBit s = .ok false { s with inEof := true }) ∧
    (∀ rest, s.inN = 0 → s.inEof = false → s.env.source = .endOfInput :: rest → readBit s =
      .ok false { s with inEof := true, env := { s.env with source := rest } }) ∧
    (∀ rest, s.inN = 0 → s.inEof = false → s.env.source = .fail :: rest → readBit s =
      .raised .sourceFail { s with env := { s.env with source := rest } })

/-! ## The coder -/

/-- R142: `narrow`, its checks in their order and its exact arithmetic; an error leaves the state as it was. -/
def Obligations.Narrow : Prop :=
  ∀ (s : State) (cl ch tot : Nat), s.build.legal = true → s.low ≤ s.high → s.high < 2 ^ s.build.width →
    let rng := s.high - s.low + 1
    let newLow : Int := s.low + rng * cl / tot
    let newHigh : Int := s.low + rng * ch / tot - 1
    narrow cl ch tot s =
      if ¬ (1 ≤ tot ∧ tot ≤ 2 ^ (s.build.width - 2) + 2) then .raised .badTotal s
      else if ¬ (cl < ch ∧ ch ≤ tot) then .raised .badInterval s
      else if newLow > newHigh then .raised .collapsedRange s
      else .ok () { s with low := newLow.toNat, high := newHigh.toNat }

/-- R143 and R142's corner case: from a normalised range an interval the coder accepts narrows to a range inside the
old one that is not empty, so subcause 3 does not arise. -/
def Obligations.NarrowStaysInside : Prop :=
  ∀ (s : State) (cl ch tot : Nat), s.build.legal = true → Normalised s.build s.low s.high →
    s.high < 2 ^ s.build.width → 1 ≤ tot → tot ≤ 2 ^ (s.build.width - 2) + 2 → cl < ch → ch ≤ tot →
    ∃ t, narrow cl ch tot s = .ok () t ∧ s.low ≤ t.low ∧ t.low ≤ t.high ∧ t.high ≤ s.high ∧
      (ch = tot → t.high = s.high) ∧ (cl = 0 → t.low = s.low)

/-- R144: `emit`. The bit, then PENDING opposite bits; then PENDING is 0. -/
def Obligations.Emit : Prop :=
  ∀ (b : Bool) (s : State), s.outN ≤ 7 → SinkTakes ((s.outN + (s.pending + 1)) / 8) s →
    ∃ t, emit b s = .ok () t ∧ WriterOnly { s with pending := 0 } t ∧
      writtenBits t = writtenBits s ++ b :: List.replicate s.pending (!b) ∧
      t.bitsOut = s.bitsOut + BitVec.ofNat 32 (s.pending + 1)

/-- R146 with R145: the two loops of `normEnc` in turn leave what the interleaved loop leaves, in at most W steps, each
of which doubles the range; R33's facts hold again; PENDING past its width is RESOURCE_EXHAUSTED 2. -/
def Obligations.NormEnc : Prop :=
  ∀ s : State, s.build.legal = true → s.low ≤ s.high → s.high < 2 ^ s.build.width →
    s.pending ≤ s.build.pendingMax → s.outN ≤ 7 →
    let c := (coded s).norm s.build s.build.width
    SinkTakes ((s.outN + c.bits.length) / 8) s →
    (c.pending ≤ s.build.pendingMax → ∃ t, normEnc s = .ok () t ∧ EncoderOnly s t ∧ EncodedTo s t c ∧
      c.normStep s.build = none ∧ c.steps ≤ s.build.width ∧
      t.high - t.low + 1 = (s.high - s.low + 1) * 2 ^ c.steps ∧ Normalised s.build t.low t.high) ∧
    (s.build.pendingMax < c.pending → ∃ t, normEnc s = .raised .pendingFull t)

/-- R149: `finish`. 2 + P bits, where P is PENDING before: 0 and ones where LOW < QUARTER, else 1 and zeros; at the
largest PENDING it is RESOURCE_EXHAUSTED 2. -/
def Obligations.Finish : Prop :=
  ∀ s : State, s.outN ≤ 7 →
    (s.pending = s.build.pendingMax → finish s = .raised .pendingFull s) ∧
    (s.pending < s.build.pendingMax → SinkTakes ((s.outN + (s.pending + 2)) / 8) s →
      ∃ t, finish s = .ok () t ∧ WriterOnly { s with pending := 0 } t ∧
      writtenBits t = writtenBits s ++
        (if s.low < 2 ^ (s.build.width - 2) then false :: List.replicate (s.pending + 1) true
          else true :: List.replicate (s.pending + 1) false) ∧
      t.bitsOut = s.bitsOut + BitVec.ofNat 32 (s.pending + 2))

/-- R150: `target`, its checks in their order; the value is below the total, 0 at CODE = LOW (where the total is at
most the range), the total less 1 at CODE = HIGH; no state changes. -/
def Obligations.Target : Prop :=
  ∀ (s : State) (tot : Nat), s.low ≤ s.high →
    let rng := s.high - s.low + 1
    let v := ((s.code - s.low + 1) * tot - 1) / rng
    target tot s =
      (if ¬ (1 ≤ tot ∧ tot ≤ 2 ^ (s.build.width - 2) + 2) then .raised .badTotal s
      else if ¬ (s.low ≤ s.code ∧ s.code ≤ s.high) then .raised .codeOutside s
      else .ok v s) ∧
    (1 ≤ tot → s.low ≤ s.code → s.code ≤ s.high →
      v < tot ∧ (s.code = s.low → tot ≤ rng → v = 0) ∧ (s.code = s.high → v = tot - 1))

/-- R152: `normDec` makes the encoder's steps from LOW and HIGH alone, reads one bit for each, and moves CODE by the
same map; CODE stays in the range (R34). -/
def Obligations.NormDec : Prop :=
  ∀ s : State, s.build.legal = true → s.inN ≤ 8 → s.low ≤ s.code → s.code ≤ s.high →
    s.high < 2 ^ s.build.width → SourceGives ((coded s).norm s.build s.build.width).steps s →
    ∃ t, normDec s = .ok () t ∧ DecoderOnly s t ∧ DecodedTo s t ((coded s).norm s.build s.build.width) ∧
      t.low ≤ t.code ∧ t.code ≤ t.high ∧ Normalised s.build t.low t.high

/-- R153: `decodeSymbol` finds the symbol whose interval holds the target value and makes its coding step. -/
def Obligations.DecodeSymbol : Prop :=
  ∀ (s : State) (tab : Table), s.build.legal = true → Normalised s.build s.low s.high →
    s.high < 2 ^ s.build.width → s.low ≤ s.code → s.code ≤ s.high → s.inN ≤ 8 →
    1 ≤ tableTotal tab → tableTotal tab ≤ 2 ^ (s.build.width - 2) + 2 →
    ∃ sym, 1 ≤ tableGet tab sym ∧
      tableLow tab sym ≤ ((s.code - s.low + 1) * tableTotal tab - 1) / (s.high - s.low + 1) ∧
      ((s.code - s.low + 1) * tableTotal tab - 1) / (s.high - s.low + 1) < tableHigh tab sym ∧
      (SourceGives ((coded s).code s.build (symbolInterval tab sym)).steps s →
        ∃ t, decodeSymbol tab s = .ok sym t ∧
          DecoderOnly s t ∧ DecodedTo s t ((coded s).code s.build (symbolInterval tab sym)) ∧
          t.low ≤ t.code ∧ t.code ≤ t.high)

/-- R156, through the RAW commands from any idle states of one build: take a sequence of intervals that RAW_ENC
accepts, then ENC_FINISH; a decoder whose source is those bytes takes every interval in step, each target value in
its interval, LOW and HIGH the same on both sides. -/
def Obligations.RawRoundTrip : Prop :=
  ∀ (l : List Interval) (s d e0 e1 e2 : State) (stream : List Byte),
    Idle s → Idle d → d.build = s.build → (∀ i ∈ l, i.fits) →
    Completes (.encStart 0 0 true) s e0 → RawEncodes l e0 e1 → Completes .encFinish e1 e2 →
    e2.env.sunk = s.env.sunk ++ stream → d.env.source = stream.map .byte →
    ∃ d0, Completes (.decStart 0 0 true) d d0 ∧ DecodesInStep l e0 d0

/-! ## The model -/

/-- R180 with R181 and R125: `update`. Every order from 0 to HIST_LEN counts the symbol, creating what is missing;
with M = -1 nothing happens; a full store is RESOURCE_EXHAUSTED 1, and only that, with the orders before it counted
(R181, R245). -/
def Obligations.Update : Prop :=
  ∀ (s : State) (sym : Nat), s.build.legal = true → ModelOk s → sym < 256 →
    (s.order = -1 → update sym s = .ok () s) ∧
    (StoreRoom s → ∃ t, update sym s = .ok () t ∧ StoreOnly s t ∧ StoreLearned sym s t ∧
      t.nodes = s.nodes + missingFrom s (descentOrders s) 0 ∧ ModelOk t) ∧
    (¬ StoreRoom s → ∃ t, update sym s = .raised .storeFull t ∧ StoreOnly s t ∧ UpdateStopped sym s t)

/-- R184: `pushHistory`. The literal goes in front and the oldest byte drops off past M; with M < 1 H stays. -/
def Obligations.PushHistory : Prop :=
  ∀ (s : State) (b : Byte), (s.hist.length : Int) ≤ max s.order 0 →
    pushHistory b s = { s with hist := if 1 ≤ s.order then (b :: s.hist).take s.order.toNat else s.hist } ∧
    ((pushHistory b s).hist.length : Int) ≤ max s.order 0

/-- R214, DOC0's round trip: whatever bytes are compressed at order M without an error, decompressing the sink's bytes
at M, from any idle state of the same build, gives back those bytes and then EOF, raises no error, and ends with
the encoder's store and H. -/
def Obligations.PpmRoundTrip : Prop :=
  ∀ (order : Int) (bytes stream : List Byte) (s t d : State),
    Idle s → Idle d → d.build = s.build →
    CompletesAll (.encStart order 257 false :: (bytes.map .encByte ++ [.encFinish])) s t →
    t.env.sunk = s.env.sunk ++ stream → d.env.source = stream.map .byte →
    ∃ d0 u, Completes (.decStart order 257 false) d d0 ∧
      Decompresses (bytes.map BitVec.toNat ++ [256]) d0 u ∧
      u.eof = true ∧ u.st = .done ∧ u.store = t.store ∧ u.hist = t.hist

/-! ## The invariant -/

/-- The invariant holds at reset, of every build R9 to R12 allow. -/
def Obligations.InvAtReset : Prop :=
  (∀ b : Build, b.legal = true → Inv (State.resetOf b) ∧ ErrorRecorded (State.resetOf b)) ∧ Inv State.reset

/-- Every step keeps the invariant: register widths, the store in form, prefix-closed (R37) and within capacity, sound
tables with an escape count of 1 (R126, R127), H within M (R40), and R33 and R34 between commands. -/
def Obligations.InvKeptByEveryStep : Prop := ∀ s t : State, Inv s → step s = .next t → Inv t

/-- R33 and R34, read off the invariant: between commands in an open session LOW < HALF ≤ HIGH, not both QUARTER ≤ LOW
and HIGH < 3 QUARTER, so HIGH - LOW + 1 ≥ QUARTER + 2; in a decode session LOW ≤ CODE ≤ HIGH. A command that
completes leaves them so. -/
def Obligations.SessionFacts : Prop :=
  (∀ s : State, Inv s → s.portWait = none → s.st = .enc ∨ s.st = .dec →
    s.low < 2 ^ (s.build.width - 1) ∧ 2 ^ (s.build.width - 1) ≤ s.high ∧
    ¬ (2 ^ (s.build.width - 2) ≤ s.low ∧ s.high < 3 * 2 ^ (s.build.width - 2)) ∧
    s.high - s.low + 1 ≥ 2 ^ (s.build.width - 2) + 2 ∧
    (s.st = .dec → s.low ≤ s.code ∧ s.code ≤ s.high)) ∧
  (∀ (s t : State) (w : Word), MayRun s → runWord w s = .next t → t.portWait = none → Inv t)
end

