-- ==== Sys2Proof/Laws/Bits.lean ====
section
/-! SUPPORT. The coder's bit operations in arithmetic form (42_arith_coder.md R145, R152): on W-bit values the
tests are comparisons with HALF and QUARTER, the steps are doublings. -/

namespace Sys2Proof.Machine

theorem legal_width {b : Build} (h : b.legal = true) : 10 ≤ b.width ∧ b.width ≤ 32 := by
  simp only [Build.legal, Bool.and_eq_true, decide_eq_true_eq] at h
  exact ⟨h.1.1, h.1.2.1⟩

theorem legal_threshold {b : Build} (h : b.legal = true) : 258 ≤ b.threshold ∧ b.threshold ≤ b.maxTotal := by
  simp only [Build.legal, Bool.and_eq_true, decide_eq_true_eq] at h
  exact ⟨h.1.2.2.1, h.1.2.2.2.1⟩

theorem legal_maxOrder {b : Build} (h : b.legal = true) : 3 ≤ b.maxOrder ∧ b.maxOrder ≤ 127 := by
  simp only [Build.legal, Bool.and_eq_true, decide_eq_true_eq] at h
  exact ⟨h.1.2.2.2.2.1, h.1.2.2.2.2.2.1⟩

theorem legal_pendingWidth {b : Build} (h : b.legal = true) : 1 ≤ b.pendingWidth ∧ b.pendingWidth ≤ 32 := by
  simp only [Build.legal, Bool.and_eq_true, decide_eq_true_eq] at h
  exact ⟨h.1.2.2.2.2.2.2.1, h.1.2.2.2.2.2.2.2⟩

theorem legal_capacity {b : Build} (h : b.legal = true) : capacityLegal b.nodeCapacity = true := by
  simp only [Build.legal, Bool.and_eq_true] at h
  exact h.2

/-- FULL = 2 HALF and HALF = 2 QUARTER (R13). -/
theorem full_eq {b : Build} (h : b.legal = true) : b.full = 2 * b.half ∧ b.half = 2 * b.quarter := by
  obtain ⟨h10, -⟩ := legal_width h
  unfold Build.full Build.half Build.quarter
  constructor
  · rw [← Nat.pow_succ']; congr 1; omega
  · rw [← Nat.pow_succ']; congr 1; omega

theorem quarter_ge {b : Build} (h : b.legal = true) : 256 ≤ b.quarter := by
  obtain ⟨h10, -⟩ := legal_width h
  unfold Build.quarter
  exact le_trans (by norm_num) (Nat.pow_le_pow_right (n := 2) (by norm_num) (show 8 ≤ b.width - 2 by omega))

theorem mask_eq (b : Build) : b.mask = b.full - 1 := rfl

theorem full_le {b : Build} (h : b.legal = true) : b.full ≤ 2 ^ 32 :=
  Nat.pow_le_pow_right (by norm_num) (legal_width h).2

/-- Bit k of a number below 2^(k+1) says whether it reaches 2^k. -/
theorem testBit_top {x k : Nat} (h : x < 2 ^ (k + 1)) : x.testBit k = decide (2 ^ k ≤ x) := by
  rw [Nat.testBit_eq_decide_div_mod_eq]
  have hp : 0 < 2 ^ k := Nat.two_pow_pos k
  by_cases hx : 2 ^ k ≤ x
  · have : x / 2 ^ k = 1 := by
      apply Nat.div_eq_of_lt_le <;> rw [Nat.pow_succ] at h <;> omega
    simp [this, hx]
  · have : x / 2 ^ k = 0 := Nat.div_eq_of_lt (by omega)
    simp [this, hx]

theorem and_two_pow_eq_zero (x k : Nat) : ((x &&& 2 ^ k) == 0) = !x.testBit k := by
  rw [Nat.and_two_pow]
  cases x.testBit k <;> simp

theorem topBit_eq {b : Build} (h : b.legal = true) {low : Nat} (hl : low < b.full) :
    topBit b low = decide (b.half ≤ low) := by
  obtain ⟨h10, -⟩ := legal_width h
  unfold topBit Build.half
  exact testBit_top (by rwa [show b.width - 1 + 1 = b.width by omega])

/-- The first loop's test: LOW and HIGH lie in the same half (R145). -/
theorem topBitsAgree_iff {b : Build} (h : b.legal = true) {low high : Nat} (hl : low < b.full)
    (hh : high < b.full) : topBitsAgree b low high = true ↔ (b.half ≤ low ↔ b.half ≤ high) := by
  have e1 := topBit_eq h hl
  have e2 := topBit_eq h hh
  unfold topBit at e1 e2
  unfold topBitsAgree
  have key := and_two_pow_eq_zero (low ^^^ high) (b.width - 1)
  change (((low ^^^ high) &&& b.half) == 0) = _ at key
  rw [key, Nat.testBit_xor, e1, e2]
  by_cases a : b.half ≤ low <;> by_cases c : b.half ≤ high <;> simp [a, c]

/-- The second loop's test, once the top bits differ: LOW in [QUARTER, HALF) and HIGH in [HALF, 3 QUARTER) (R145). -/
theorem underflow_iff {b : Build} (h : b.legal = true) {low high : Nat} (hl : low < b.half)
    (hh : b.half ≤ high) (hf : high < b.full) :
    underflow b low high = true ↔ (b.quarter ≤ low ∧ high < 3 * b.quarter) := by
  obtain ⟨h10, -⟩ := legal_width h
  obtain ⟨ef, eh⟩ := full_eq h
  have key : ∀ x, ((x &&& b.quarter) != 0) = x.testBit (b.width - 2) := fun x => by
    have := and_two_pow_eq_zero x (b.width - 2)
    unfold Build.quarter
    rw [bne, this, Bool.not_not]
  have hq : 2 ^ (b.width - 2) = b.quarter := rfl
  unfold underflow
  rw [key, Nat.testBit_and]
  have e1 : low.testBit (b.width - 2) = decide (b.quarter ≤ low) := by
    rw [testBit_top, hq]
    rw [show b.width - 2 + 1 = b.width - 1 by omega]; exact hl
  have e2 : (notW b high).testBit (b.width - 2) = decide (high < 3 * b.quarter) := by
    have : notW b high = 2 ^ b.width - (high + 1) := by unfold notW Build.mask; omega
    rw [this, Nat.testBit_two_pow_sub_succ hf]
    have hb : high.testBit (b.width - 2) = (high - b.half).testBit (b.width - 2) := by
      conv_lhs => rw [show high = 2 ^ (b.width - 1) + (high - b.half) by
        change high = b.half + _; omega]
      rw [Nat.testBit_two_pow_add_gt (by omega)]
    rw [hb, testBit_top, hq]
    · simp only [show b.width - 2 < b.width by omega, decide_true, Bool.true_and]
      rw [← decide_not]
      apply decide_eq_decide.mpr
      omega
    · rw [show b.width - 2 + 1 = b.width - 1 by omega]
      change high - b.half < b.half
      omega
  rw [e1, e2]
  simp

theorem and_mask (b : Build) (x : Nat) : x &&& b.mask = x % b.full :=
  Nat.and_two_pow_sub_one_eq_mod x b.width

theorem shl_one (x : Nat) : x <<< 1 = 2 * x := by simp [Nat.shiftLeft_eq, Nat.mul_comm]

theorem even_or_bit (x : Nat) (hx : x % 2 = 0) (bit : Bool) : x ||| bitVal bit = x + bitVal bit := by
  obtain ⟨y, rfl⟩ : ∃ y, x = y <<< 1 := ⟨x / 2, by rw [shl_one]; omega⟩
  rw [Nat.shiftLeft_add_eq_or_of_lt]
  cases bit <;> simp [bitVal]

theorem shiftLow_eq (b : Build) (low : Nat) : shiftLow b low = 2 * low % b.full := by
  rw [shiftLow, and_mask, shl_one]

theorem two_mul_mod_full_even {b : Build} (h : b.legal = true) (x : Nat) : 2 * x % b.full % 2 = 0 := by
  rw [(full_eq h).1, Nat.mul_mod_mul_left]
  omega

theorem shiftHigh_eq {b : Build} (h : b.legal = true) (high : Nat) :
    shiftHigh b high = 2 * high % b.full + 1 := by
  rw [shiftHigh, and_mask, shl_one]
  exact even_or_bit _ (two_mul_mod_full_even h high) true

theorem shiftCode_eq {b : Build} (h : b.legal = true) (code : Nat) (bit : Bool) :
    shiftCode b code bit = 2 * code % b.full + bitVal bit := by
  rw [shiftCode, and_mask, shl_one]
  exact even_or_bit _ (two_mul_mod_full_even h code) bit

theorem xor_half {b : Build} {r : Nat} (hr : r < b.half) : (b.half + r) ^^^ b.half = r := by
  have e : b.half + r = b.half ^^^ r := by
    have : b.half + r = b.half ||| r := by
      have := Nat.two_pow_add_eq_or_of_lt hr 1
      simpa [Build.half] using this
    rw [this]
    apply Nat.eq_of_testBit_eq
    intro i
    simp only [Nat.testBit_or, Nat.testBit_xor, Build.half, Nat.testBit_two_pow]
    by_cases hi : b.width - 1 = i
    · subst hi
      have : r.testBit (b.width - 1) = false := Nat.testBit_lt_two_pow hr
      simp [this]
    · simp [hi]
  rw [e, Nat.xor_comm b.half r, Nat.xor_assoc, Nat.xor_self, Nat.xor_zero]

/-- The E3 step in arithmetic form: LOW becomes 2 (LOW - QUARTER) (R145). -/
theorem e3Low_eq {b : Build} (h : b.legal = true) {low : Nat} (hq : b.quarter ≤ low) (hl : low < b.half) :
    e3Low b low = 2 * (low - b.quarter) := by
  obtain ⟨ef, eh⟩ := full_eq h
  rw [e3Low, shl_one, show 2 * low = b.half + (2 * low - b.half) by omega, xor_half (by omega),
    Nat.mod_eq_of_lt (by omega)]
  omega

/-- The E3 step in arithmetic form: HIGH becomes 2 (HIGH - QUARTER) + 1 (R145). -/
theorem e3High_eq {b : Build} (h : b.legal = true) {high : Nat} (hh : b.half ≤ high)
    (hq : high < 3 * b.quarter) : e3High b high = 2 * (high - b.quarter) + 1 := by
  obtain ⟨ef, eh⟩ := full_eq h
  have h1 := quarter_ge h
  have hx : high ^^^ b.half = high - b.half := by
    conv_lhs => rw [show high = b.half + (high - b.half) by omega]
    exact xor_half (by omega)
  have hor : (2 * (high - b.half)) ||| b.half = b.half + 2 * (high - b.half) := by
    rw [Nat.or_comm]
    have := Nat.two_pow_add_eq_or_of_lt (i := b.width - 1) (show 2 * (high - b.half) < 2 ^ (b.width - 1) by
      change _ < b.half; omega) 1
    simpa [Build.half] using this.symm
  rw [e3High, hx, shl_one, hor]
  have := even_or_bit (b.half + 2 * (high - b.half)) (by omega) true
  simp only [bitVal, if_true] at this
  rw [this, Nat.mod_eq_of_lt (by omega)]
  omega

/-- The E3 step of CODE in arithmetic form: 2 (CODE - QUARTER) + bit, for CODE in the middle half (R152). -/
theorem e3Code_eq {b : Build} (h : b.legal = true) {code : Nat} (hq : b.quarter ≤ code)
    (hc : code < 3 * b.quarter) (bit : Bool) : e3Code b code bit = 2 * (code - b.quarter) + bitVal bit := by
  obtain ⟨h10, -⟩ := legal_width h
  obtain ⟨ef, eh⟩ := full_eq h
  have h1 := quarter_ge h
  have hm : b.mask >>> 1 = 2 ^ (b.width - 1) - 1 := by
    rw [Nat.shiftRight_eq_div_pow, mask_eq]
    change (b.full - 1) / 2 ^ 1 = b.half - 1
    omega
  have e1 : (code <<< 1) &&& (b.mask >>> 1) = 2 * code % b.half := by
    rw [hm, Nat.and_two_pow_sub_one_eq_mod, shl_one]
    rfl
  have e2 : code &&& b.half = if b.half ≤ code then b.half else 0 := by
    have hk := testBit_top (x := code) (k := b.width - 1)
      (by rw [show b.width - 1 + 1 = b.width by omega]; change code < b.full; omega)
    unfold Build.half
    rw [Nat.and_two_pow, hk]
    by_cases c : 2 ^ (b.width - 1) ≤ code <;> simp [c]
  rw [e3Code, e1, e2]
  by_cases c : b.half ≤ code
  · rw [if_pos c]
    have er : 2 * code % b.half = 2 * code - b.full := by
      rw [show 2 * code = 2 * code - b.full + b.half * 2 by omega, Nat.add_mul_mod_self_left,
        Nat.mod_eq_of_lt (by omega)]
      omega
    rw [er]
    have hor : b.half ||| (2 * code - b.full) = b.half + (2 * code - b.full) := by
      have := Nat.two_pow_add_eq_or_of_lt (i := b.width - 1) (show 2 * code - b.full < 2 ^ (b.width - 1) by
        change _ < b.half; omega) 1
      simpa [Build.half] using this.symm
    rw [hor, even_or_bit _ (by omega)]
    omega
  · rw [if_neg c, Nat.zero_or]
    have er : 2 * code % b.half = 2 * code - b.half := by
      rw [show 2 * code = 2 * code - b.half + b.half * 1 by omega, Nat.add_mul_mod_self_left,
        Nat.mod_eq_of_lt (by omega)]
      omega
    rw [er, even_or_bit _ (by omega)]
    omega

end Sys2Proof.Machine
end

