-- ==== Sys2Proof/Laws/Norm.lean ====
section
/-! SUPPORT. Normalisation as a function of LOW and HIGH alone (42_arith_coder.md R145, R146, R152): where its
loops end, which bits they settle, how many E3 steps they make. -/

namespace Sys2Proof.Machine

/-- LOW and HIGH after at most n shift steps. -/
def normShift (b : Build) : Nat → Nat → Nat → Nat × Nat
  | 0, l, h => (l, h)
  | n + 1, l, h => if topBitsAgree b l h then normShift b n (shiftLow b l) (shiftHigh b h) else (l, h)

/-- The bits at most n shift steps settle. -/
def shiftBits (b : Build) : Nat → Nat → Nat → List Bool
  | 0, _, _ => []
  | n + 1, l, h => if topBitsAgree b l h then topBit b l :: shiftBits b n (shiftLow b l) (shiftHigh b h) else []

/-- LOW and HIGH after at most n E3 steps. -/
def normE3 (b : Build) : Nat → Nat → Nat → Nat × Nat
  | 0, l, h => (l, h)
  | n + 1, l, h => if underflow b l h then normE3 b n (e3Low b l) (e3High b h) else (l, h)

/-- How many of at most n E3 steps are made. -/
def e3Count (b : Build) : Nat → Nat → Nat → Nat
  | 0, _, _ => 0
  | n + 1, l, h => if underflow b l h then e3Count b n (e3Low b l) (e3High b h) + 1 else 0

/-- LOW and HIGH after normalisation. -/
def normRange (b : Build) (l h : Nat) : Nat × Nat :=
  normE3 b b.width (normShift b b.width l h).1 (normShift b b.width l h).2

theorem full_pos (b : Build) : 0 < b.full := Nat.two_pow_pos _

theorem mod_full_of_lt_half {b : Build} (hb : b.legal = true) {x : Nat} (h : x < b.half) :
    2 * x % b.full = 2 * x := Nat.mod_eq_of_lt (by have := full_eq hb; omega)

theorem mod_full_of_half_le {b : Build} (hb : b.legal = true) {x : Nat} (h : b.half ≤ x) (hx : x < b.full) :
    2 * x % b.full = 2 * x - b.full := by
  have := full_eq hb
  rw [Nat.mod_eq_sub_mod (by omega), Nat.mod_eq_of_lt (by omega)]

theorem shiftLow_lt {b : Build} (l : Nat) : shiftLow b l < b.full := by
  rw [shiftLow_eq]; exact Nat.mod_lt _ (full_pos b)

theorem shiftHigh_lt {b : Build} (hb : b.legal = true) (h : Nat) : shiftHigh b h < b.full := by
  rw [shiftHigh_eq hb]
  have e := two_mul_mod_full_even hb h
  have := Nat.mod_lt (2 * h) (full_pos b)
  have := full_eq hb
  omega

theorem shiftCode_lt {b : Build} (hb : b.legal = true) (c : Nat) (bit : Bool) : shiftCode b c bit < b.full := by
  rw [shiftCode_eq hb]
  have e := two_mul_mod_full_even hb c
  have := Nat.mod_lt (2 * c) (full_pos b)
  have := full_eq hb
  have : bitVal bit ≤ 1 := by cases bit <;> simp [bitVal]
  omega

theorem e3Low_lt (b : Build) (l : Nat) : e3Low b l < b.full := Nat.mod_lt _ (full_pos b)
theorem e3High_lt (b : Build) (h : Nat) : e3High b h < b.full := Nat.mod_lt _ (full_pos b)

theorem bitVal_le (bit : Bool) : bitVal bit ≤ 1 := by cases bit <;> simp [bitVal]

theorem e3Code_lt {b : Build} (hb : b.legal = true) (c : Nat) (bit : Bool) : e3Code b c bit < b.full := by
  obtain ⟨h10, -⟩ := legal_width hb
  have h1 : c &&& b.half < 2 ^ b.width :=
    lt_of_le_of_lt Nat.and_le_right (by change b.half < b.full; have := full_eq hb; have := quarter_ge hb; omega)
  have h2 : (c <<< 1) &&& (b.mask >>> 1) < 2 ^ b.width :=
    lt_of_le_of_lt Nat.and_le_right (by
      rw [Nat.shiftRight_eq_div_pow, mask_eq]
      change (b.full - 1) / 2 ^ 1 < b.full
      have := full_pos b
      omega)
  have h3 : bitVal bit < 2 ^ b.width := by
    have := bitVal_le bit
    have : 1 < 2 ^ b.width := Nat.one_lt_two_pow (by omega)
    omega
  exact Nat.or_lt_two_pow (Nat.or_lt_two_pow h1 h2) h3

/-- One shift step doubles the range, if the top bits agree (R146). -/
theorem shift_step {b : Build} (hb : b.legal = true) {l h : Nat} (hlh : l ≤ h) (hh : h < b.full)
    (ha : topBitsAgree b l h = true) :
    shiftLow b l ≤ shiftHigh b h ∧ shiftHigh b h - shiftLow b l + 1 = 2 * (h - l + 1) := by
  rw [topBitsAgree_iff hb (by omega) hh] at ha
  have := full_eq hb
  rw [shiftLow_eq, shiftHigh_eq hb]
  by_cases c : b.half ≤ l
  · rw [mod_full_of_half_le hb c (by omega), mod_full_of_half_le hb (by omega) hh]; omega
  · rw [mod_full_of_lt_half hb (by omega), mod_full_of_lt_half hb (by omega)]; omega

/-- One E3 step doubles the range and keeps the top bits different (R146). -/
theorem e3_step {b : Build} (hb : b.legal = true) {l h : Nat} (hl : l < b.half) (hh : b.half ≤ h)
    (hf : h < b.full) (hu : underflow b l h = true) :
    e3Low b l < b.half ∧ b.half ≤ e3High b h ∧ e3High b h < b.full ∧
      e3High b h - e3Low b l + 1 = 2 * (h - l + 1) := by
  rw [underflow_iff hb hl hh hf] at hu
  have := full_eq hb
  rw [e3Low_eq hb hu.1 hl, e3High_eq hb hh hu.2]
  omega

/-- The shift loop ends with the top bits different, given fuel enough for the range to fill (R146). -/
theorem normShift_spec {b : Build} (hb : b.legal = true) :
    ∀ n l h, l ≤ h → h < b.full → b.full ≤ (h - l + 1) * 2 ^ n →
      (normShift b n l h).1 < b.half ∧ b.half ≤ (normShift b n l h).2 ∧ (normShift b n l h).2 < b.full := by
  have := full_eq hb
  have := quarter_ge hb
  intro n
  induction n with
  | zero =>
    intro l h hlh hh hr
    simp only [Nat.pow_zero, Nat.mul_one] at hr
    simp only [normShift]
    omega
  | succ n ih =>
    intro l h hlh hh hr
    simp only [normShift]
    split
    · next ha =>
      obtain ⟨h1, h2⟩ := shift_step hb hlh hh ha
      refine ih _ _ h1 (shiftHigh_lt hb h) ?_
      rw [h2, show 2 * (h - l + 1) * 2 ^ n = (h - l + 1) * 2 ^ (n + 1) by rw [Nat.pow_succ]; ring]
      exact hr
    · next ha =>
      rw [topBitsAgree_iff hb (by omega) hh] at ha
      simp only
      omega

/-- The E3 loop ends with the range normalised, given fuel enough for the range to fill (R146, R33). -/
theorem normE3_spec {b : Build} (hb : b.legal = true) :
    ∀ n l h, l < b.half → b.half ≤ h → h < b.full → b.full ≤ (h - l + 1) * 2 ^ n →
      Normalised b (normE3 b n l h).1 (normE3 b n l h).2 ∧ (normE3 b n l h).2 < b.full := by
  have := full_eq hb
  have := quarter_ge hb
  intro n
  induction n with
  | zero =>
    intro l h hl hh hf hr
    simp only [Nat.pow_zero, Nat.mul_one] at hr
    simp only [normE3, Normalised]
    omega
  | succ n ih =>
    intro l h hl hh hf hr
    simp only [normE3]
    split
    · next hu =>
      obtain ⟨h1, h2, h3, h4⟩ := e3_step hb hl hh hf hu
      refine ih _ _ h1 h2 h3 ?_
      rw [h4, show 2 * (h - l + 1) * 2 ^ n = (h - l + 1) * 2 ^ (n + 1) by rw [Nat.pow_succ]; ring]
      exact hr
    · next hu =>
      rw [underflow_iff hb hl hh hf] at hu
      exact ⟨⟨hl, hh, hu⟩, hf⟩

/-- The shift loop keeps LOW and HIGH within W bits. -/
theorem normShift_fit {b : Build} (hb : b.legal = true) (n : Nat) {l h : Nat} (hl : l < b.full)
    (hh : h < b.full) : (normShift b n l h).1 < b.full ∧ (normShift b n l h).2 < b.full := by
  induction n generalizing l h with
  | zero => exact ⟨hl, hh⟩
  | succ n ih =>
    unfold normShift
    split
    · exact ih (shiftLow_lt l) (shiftHigh_lt hb h)
    · exact ⟨hl, hh⟩

theorem full_le_range_mul {b : Build} {l h : Nat} : b.full ≤ (h - l + 1) * 2 ^ b.width := by
  change 2 ^ b.width ≤ _
  exact Nat.le_mul_of_pos_left _ (by omega)

/-- Normalisation restores R33 from any non-empty range (R146). -/
theorem normRange_spec {b : Build} (hb : b.legal = true) {l h : Nat} (hlh : l ≤ h) (hh : h < b.full) :
    Normalised b (normRange b l h).1 (normRange b l h).2 ∧ (normRange b l h).2 < b.full := by
  obtain ⟨h1, h2, h3⟩ := normShift_spec hb b.width l h hlh hh full_le_range_mul
  exact normE3_spec hb b.width _ _ h1 h2 h3 full_le_range_mul

theorem e3Count_le (b : Build) : ∀ n l h, e3Count b n l h ≤ n := by
  intro n
  induction n with
  | zero => intro l h; simp [e3Count]
  | succ n ih =>
    intro l h
    simp only [e3Count]
    split
    · have := ih (e3Low b l) (e3High b h); omega
    · omega

/-- The third fact of R33: a normalised range has at least QUARTER + 2 = MAX_TOTAL values. -/
theorem normalised_range {b : Build} (hb : b.legal = true) {l h : Nat} (hn : Normalised b l h) :
    b.maxTotal ≤ rangeOf l h := by
  have := full_eq hb
  obtain ⟨h1, h2, h3⟩ := hn
  unfold Build.maxTotal rangeOf
  omega

theorem normalised_full {b : Build} (hb : b.legal = true) : Normalised b 0 b.mask := by
  have := full_eq hb
  have := quarter_ge hb
  rw [mask_eq]
  unfold Normalised
  omega

/-- What a successful narrowing of a normalised range gives (R142, R143): a non-empty range inside the old one. -/
theorem narrow_range {b : Build} (hb : b.legal = true) {l h cl ch tot : Nat} (hn : Normalised b l h)
    (ht : totalOk b tot = true) (hc : cl < ch) (hct : ch ≤ tot) :
    narrowLow l h cl tot < narrowHighSucc l h ch tot ∧ l ≤ narrowLow l h cl tot ∧
      narrowHighSucc l h ch tot ≤ h + 1 := by
  have hr := normalised_range hb hn
  simp only [totalOk, decide_eq_true_eq] at ht
  have hle : l ≤ h := by have := hn.1; have := hn.2.1; omega
  unfold narrowLow narrowHighSucc
  have ht0 : 0 < tot := ht.1
  refine ⟨?_, Nat.le_add_right _ _, ?_⟩
  · have h1 : rangeOf l h * cl / tot + 1 ≤ rangeOf l h * ch / tot := by
      rw [← Nat.add_div_right _ ht0]
      apply Nat.div_le_div_right
      calc rangeOf l h * cl + tot ≤ rangeOf l h * cl + rangeOf l h := by omega
        _ = rangeOf l h * (cl + 1) := by ring
        _ ≤ rangeOf l h * ch := Nat.mul_le_mul_left _ hc
    omega
  · have h1 : rangeOf l h * ch / tot ≤ rangeOf l h := by
      calc rangeOf l h * ch / tot ≤ rangeOf l h * tot / tot :=
            Nat.div_le_div_right (Nat.mul_le_mul_left _ hct)
        _ = rangeOf l h := Nat.mul_div_cancel _ ht0
    unfold rangeOf at *
    omega

/-- The target value lies in an interval exactly when CODE lies in the range the interval narrows to: the two
formulas of R142 and R150 are inverse to each other. -/
theorem target_mem_iff {l h code cl ch tot : Nat} (h1 : l ≤ code) (h2 : code ≤ h) (ht : 0 < tot) :
    (cl ≤ targetValue l h code tot ↔ narrowLow l h cl tot ≤ code) ∧
    (targetValue l h code tot < ch ↔ code < narrowHighSucc l h ch tot) := by
  have key : ∀ c, c ≤ targetValue l h code tot ↔ narrowLow l h c tot ≤ code := by
    intro c
    have hr : 0 < rangeOf l h := by unfold rangeOf; omega
    unfold targetValue narrowLow
    rw [Nat.le_div_iff_mul_le hr]
    have hx : 0 < (code + 1 - l) * tot := Nat.mul_pos (by omega) ht
    have e1 : c * rangeOf l h ≤ (code + 1 - l) * tot - 1 ↔ rangeOf l h * c < (code + 1 - l) * tot := by
      rw [Nat.mul_comm c]; omega
    rw [e1, ← Nat.div_lt_iff_lt_mul ht]
    omega
  refine ⟨key cl, ?_⟩
  have := key ch
  unfold narrowHighSucc
  unfold narrowLow at this
  omega

/-- The target value is below the total (R150). -/
theorem target_lt {l h code tot : Nat} (h1 : l ≤ code) (h2 : code ≤ h) (ht : 0 < tot) :
    targetValue l h code tot < tot := by
  rw [(target_mem_iff (cl := 0) (ch := tot) h1 h2 ht).2]
  unfold narrowHighSucc
  rw [Nat.mul_div_cancel _ ht]
  unfold rangeOf
  omega

/-- A shift step doubles the distance of CODE from LOW and adds the bit (R152). -/
theorem shift_code_eq {b : Build} (hb : b.legal = true) {l h c : Nat} (h1 : l ≤ c) (h2 : c ≤ h) (hh : h < b.full)
    (ha : topBitsAgree b l h = true) (bit : Bool) :
    shiftCode b c bit = shiftLow b l + 2 * (c - l) + bitVal bit := by
  rw [topBitsAgree_iff hb (by omega) hh] at ha
  have := full_eq hb
  rw [shiftLow_eq, shiftCode_eq hb]
  by_cases d : b.half ≤ l
  · rw [mod_full_of_half_le hb (x := l) d (by omega), mod_full_of_half_le hb (x := c) (by omega) (by omega)]; omega
  · rw [mod_full_of_lt_half hb (x := l) (by omega), mod_full_of_lt_half hb (x := c) (by omega)]; omega

/-- An E3 step doubles the distance of CODE from LOW and adds the bit (R152). -/
theorem e3_code_eq {b : Build} (hb : b.legal = true) {l h c : Nat} (hl : l < b.half) (hh : b.half ≤ h)
    (hf : h < b.full) (h1 : l ≤ c) (h2 : c ≤ h) (hu : underflow b l h = true) (bit : Bool) :
    e3Code b c bit = e3Low b l + 2 * (c - l) + bitVal bit := by
  rw [underflow_iff hb hl hh hf] at hu
  have := full_eq hb
  rw [e3Low_eq hb hu.1 hl, e3Code_eq hb (by omega) (by omega)]
  omega

/-- A shift step takes CODE along with the range (R152, R34). -/
theorem shift_code {b : Build} (hb : b.legal = true) {l h c : Nat} (h1 : l ≤ c) (h2 : c ≤ h) (hh : h < b.full)
    (ha : topBitsAgree b l h = true) (bit : Bool) :
    shiftLow b l ≤ shiftCode b c bit ∧ shiftCode b c bit ≤ shiftHigh b h := by
  rw [topBitsAgree_iff hb (by omega) hh] at ha
  have := full_eq hb
  have := bitVal_le bit
  rw [shiftLow_eq, shiftHigh_eq hb, shiftCode_eq hb]
  by_cases d : b.half ≤ l
  · rw [mod_full_of_half_le hb (x := l) d (by omega), mod_full_of_half_le hb (x := h) (by omega) hh,
      mod_full_of_half_le hb (x := c) (by omega) (by omega)]; omega
  · rw [mod_full_of_lt_half hb (x := l) (by omega), mod_full_of_lt_half hb (x := h) (by omega),
      mod_full_of_lt_half hb (x := c) (by omega)]; omega

/-- An E3 step takes CODE along with the range (R152, R34). -/
theorem e3_code {b : Build} (hb : b.legal = true) {l h c : Nat} (hl : l < b.half) (hh : b.half ≤ h)
    (hf : h < b.full) (h1 : l ≤ c) (h2 : c ≤ h) (hu : underflow b l h = true) (bit : Bool) :
    e3Low b l ≤ e3Code b c bit ∧ e3Code b c bit ≤ e3High b h := by
  rw [underflow_iff hb hl hh hf] at hu
  have := full_eq hb
  have := bitVal_le bit
  rw [e3Low_eq hb hu.1 hl, e3High_eq hb hh hu.2, e3Code_eq hb (by omega) (by omega)]
  omega

end Sys2Proof.Machine
end

