-- ==== Sys2Proof/Laws/Table.lean ====
section
/-! SUPPORT. The Frequency Table (41_frequency_table.md R121 to R131): intervals, find, increment and rescale. -/

namespace Sys2Proof.Machine

theorem tableHigh_eq (t : Table) (sym : Nat) : tableHigh t sym = tableLow t (sym + 1) := by
  unfold tableHigh tableLow tableGet
  by_cases h : sym < t.counts.length
  · rw [List.take_succ_eq_append_getElem h, List.sum_append]; simp [List.getD, h]
  · rw [List.take_of_length_le (by omega), List.take_of_length_le (by omega)]
    simp [List.getD, List.getElem?_eq_none (show t.counts.length ≤ sym by omega)]

theorem tableLow_le_total (t : Table) (sym : Nat) : tableLow t sym ≤ tableTotal t := by
  unfold tableLow tableTotal
  conv_rhs => rw [← List.take_append_drop sym t.counts, List.sum_append]
  omega

theorem tableHigh_le_total (t : Table) (sym : Nat) : tableHigh t sym ≤ tableTotal t := by
  rw [tableHigh_eq]; exact tableLow_le_total t _

theorem tableLow_mono (t : Table) {a b : Nat} (h : a ≤ b) : tableLow t a ≤ tableLow t b := by
  obtain ⟨d, rfl⟩ := Nat.exists_eq_add_of_le h
  induction d with
  | zero => simp
  | succ d ih =>
    have := tableHigh_eq t (a + d)
    unfold tableHigh at this
    have := ih (by omega)
    rw [show a + (d + 1) = a + d + 1 by omega]
    omega

/-- A symbol's interval is non-empty exactly when its count is positive (R129). -/
theorem tableLow_lt_high (t : Table) (sym : Nat) : tableLow t sym < tableHigh t sym ↔ 0 < tableGet t sym := by
  unfold tableHigh; omega

theorem get_lt_length {t : Table} {sym : Nat} (h : 0 < tableGet t sym) : sym < t.counts.length := by
  by_contra hc
  unfold tableGet at h
  rw [List.getD, List.getElem?_eq_none (by omega)] at h
  simp at h

theorem findFrom_spec (l : List Nat) : ∀ sym v, v < l.sum →
    ∃ i, findFrom l sym v = some (sym + i) ∧ (l.take i).sum ≤ v ∧ v < (l.take (i + 1)).sum := by
  induction l with
  | nil => intro sym v h; simp at h
  | cons c rest ih =>
    intro sym v h
    unfold findFrom
    by_cases hc : v < c
    · exact ⟨0, by simp [hc]⟩
    · rw [if_neg hc]
      rw [List.sum_cons] at h
      obtain ⟨i, h1, h2, h3⟩ := ih (sym + 1) (v - c) (by omega)
      refine ⟨i + 1, by rw [h1]; congr 1; omega, ?_, ?_⟩
      · rw [List.take_succ_cons, List.sum_cons]; omega
      · rw [List.take_succ_cons, List.sum_cons]; omega

/-- `find` answers the symbol whose interval holds the value (R130). -/
theorem tableFind_spec (t : Table) {v : Nat} (h : v < tableTotal t) :
    ∃ sym, tableFind t v = some sym ∧ tableLow t sym ≤ v ∧ v < tableHigh t sym := by
  obtain ⟨i, h1, h2, h3⟩ := findFrom_spec t.counts 0 v h
  rw [Nat.zero_add] at h1
  exact ⟨i, h1, h2, by rw [tableHigh_eq]; exact h3⟩

/-- No two symbols' intervals share a value (R126, R130). -/
theorem interval_unique (t : Table) {a b v : Nat} (ha : tableLow t a ≤ v) (ha' : v < tableHigh t a)
    (hb : tableLow t b ≤ v) (hb' : v < tableHigh t b) : a = b := by
  rw [tableHigh_eq] at ha' hb'
  rcases Nat.lt_trichotomy a b with h | h | h
  · have := tableLow_mono t (show a + 1 ≤ b by omega); omega
  · exact h
  · have := tableLow_mono t (show b + 1 ≤ a by omega); omega

theorem findFrom_none (l : List Nat) : ∀ sym v, l.sum ≤ v → findFrom l sym v = none := by
  induction l with
  | nil => intro sym v _; rfl
  | cons c rest ih =>
    intro sym v h
    rw [List.sum_cons] at h
    unfold findFrom
    rw [if_neg (by omega)]
    exact ih _ _ (by omega)

/-! ## Increment -/

theorem halveCount_le (c : Nat) : 2 * halveCount c ≤ c + 1 := by
  unfold halveCount; split <;> omega

theorem halveCount_pos {c : Nat} : 0 < halveCount c ↔ 0 < c := by
  unfold halveCount; split <;> omega

theorem halveCount_zero : halveCount 0 = 0 := rfl
theorem halveCount_one : halveCount 1 = 1 := rfl

theorem sum_halve (l : List Nat) : 2 * (l.map halveCount).sum ≤ l.sum + l.length := by
  induction l with
  | nil => simp
  | cons c rest ih =>
    have := halveCount_le c
    simp only [List.map_cons, List.sum_cons, List.length_cons]
    omega

theorem sum_set_succ (l : List Nat) (i : Nat) (h : i < l.length) : (l.set i (l.getD i 0 + 1)).sum = l.sum + 1 := by
  induction l generalizing i with
  | nil => simp at h
  | cons c rest ih =>
    cases i with
    | zero => simp; omega
    | succ i =>
      have := ih i (by simpa using h)
      simp only [List.set_cons_succ, List.sum_cons, List.getD_cons_succ]
      omega

theorem increment_length (T : Nat) (t : Table) (sym : Nat) :
    (tableIncrement T t sym).counts.length = t.counts.length := by
  unfold tableIncrement; dsimp only; split <;> simp

/-- A count after the increment and before the rescale. -/
theorem get_set (t : Table) (sym u : Nat) (h : sym < t.counts.length) :
    tableGet { counts := t.counts.set sym (tableGet t sym + 1) } u =
      if u = sym then tableGet t sym + 1 else tableGet t u := by
  unfold tableGet
  simp only [List.getD_eq_getElem?_getD, List.getElem?_set]
  by_cases e : sym = u
  · subst e; simp [h]
  · simp [e, Ne.symm e]

theorem get_map (l : List Nat) (u : Nat) :
    tableGet { counts := l.map halveCount } u = halveCount (tableGet { counts := l } u) := by
  unfold tableGet
  simp only [List.getD_eq_getElem?_getD, List.getElem?_map]
  cases l[u]? <;> simp [halveCount_zero]

/-- The counts after an increment (R125): one more for the symbol, then all halved if the total passed T. -/
theorem increment_get (T : Nat) (t : Table) (sym u : Nat) (h : sym < t.counts.length) :
    tableGet (tableIncrement T t sym) u =
      if tableTotal t + 1 > T then halveCount (if u = sym then tableGet t sym + 1 else tableGet t u)
      else (if u = sym then tableGet t sym + 1 else tableGet t u) := by
  have hs : tableTotal { counts := t.counts.set sym (tableGet t sym + 1) } = tableTotal t + 1 :=
    sum_set_succ t.counts sym h
  unfold tableIncrement
  dsimp only
  rw [hs]
  split
  · rw [get_map, get_set t sym u h]
  · rw [get_set t sym u h]

/-- After an increment the total is at most T, if it was before (R126, fact 1). -/
theorem increment_total (T : Nat) (t : Table) (sym : Nat) (h : sym < t.counts.length)
    (hl : t.counts.length ≤ 257) (hT : 258 ≤ T) (ht : tableTotal t ≤ T) :
    tableTotal (tableIncrement T t sym) ≤ T := by
  have hs : tableTotal { counts := t.counts.set sym (tableGet t sym + 1) } = tableTotal t + 1 :=
    sum_set_succ t.counts sym h
  unfold tableIncrement
  dsimp only
  rw [hs]
  split
  · have := sum_halve (t.counts.set sym (tableGet t sym + 1))
    unfold tableTotal at hs ⊢
    simp only [List.length_set] at this hs ⊢
    unfold tableTotal at ht
    omega
  · rw [hs]; omega

/-- An adaptive table stays sound when a literal is incremented (R126, R127). -/
theorem increment_ok {b : Build} (hb : b.legal = true) {t : Table} (h : TableOk b t) {sym : Nat} (hs : sym < 256) :
    TableOk b (tableIncrement b.threshold t sym) := by
  obtain ⟨h1, h2, h3⟩ := h
  have hlen : sym < t.counts.length := by rw [h1]; unfold alphabetSize; omega
  refine ⟨by rw [increment_length, h1], increment_total _ _ _ hlen (by rw [h1]; decide) (legal_threshold hb).1 h2, ?_⟩
  rw [increment_get _ _ _ _ hlen, if_neg (show ¬ esc = sym by unfold esc; omega), h3]
  split <;> rfl

theorem getD_replicate_append (n u : Nat) : (List.replicate n 0 ++ [1]).getD u 0 = if u = n then 1 else 0 := by
  induction n generalizing u with
  | zero => cases u <;> simp
  | succ n ih =>
    rw [List.replicate_succ, List.cons_append]
    cases u with
    | zero => simp
    | succ u => rw [List.getD_cons_succ, ih]; simp

theorem fresh_get (sym : Nat) : tableGet freshTable sym = if sym = 256 then 1 else 0 :=
  getD_replicate_append 256 sym

theorem fresh_total : tableTotal freshTable = 1 := by
  unfold tableTotal freshTable
  rw [List.sum_append, List.sum_replicate]; rfl

theorem fresh_length : freshTable.counts.length = alphabetSize := by
  unfold freshTable alphabetSize
  rw [List.length_append, List.length_replicate]; rfl

theorem fresh_ok {b : Build} (hb : b.legal = true) : TableOk b freshTable :=
  ⟨fresh_length, by rw [fresh_total]; have := (legal_threshold hb).1; omega, by rw [fresh_get]; rfl⟩

theorem uniform_total : tableTotal uniformTable = 257 := by
  unfold tableTotal uniformTable
  rw [List.sum_replicate]; rfl

theorem uniform_get {sym : Nat} (h : sym < 257) : tableGet uniformTable sym = 1 := by
  unfold tableGet uniformTable
  rw [List.getD_eq_getElem?_getD, List.getElem?_replicate, if_pos h]; rfl

theorem uniform_low {sym : Nat} (h : sym ≤ 257) : tableLow uniformTable sym = sym := by
  unfold tableLow uniformTable
  rw [List.take_replicate, List.sum_replicate, Nat.min_eq_left h]
  simp

/-- Every total the model offers is one the coder accepts (R131). -/
theorem total_ok_of_table {b : Build} (_hb : b.legal = true) {t : Table} (h : TableOk b t)
    (hT : b.threshold ≤ b.maxTotal) : totalOk b (tableTotal t) = true := by
  obtain ⟨h1, h2, h3⟩ := h
  have := tableHigh_le_total t esc
  unfold tableHigh at this
  simp only [totalOk, decide_eq_true_eq]
  omega

theorem total_ok_uniform {b : Build} (hb : b.legal = true) : totalOk b (tableTotal uniformTable) = true := by
  have := quarter_ge hb
  rw [uniform_total, totalOk, decide_eq_true_eq]
  unfold Build.maxTotal
  omega

end Sys2Proof.Machine
end

