-- ==== Sys2Proof/Laws/Coded.lean ====
section
/-! SUPPORT. The coder as numbers (Safety.lean) against the model's loops (42_arith_coder.md R145, R146): the
interleaved reading and the two loops in turn give the same. -/

namespace Sys2Proof.Machine

/-- The bits the encoder writes for the bits a shift loop settles: the first is followed by the pending ones
(R144). -/
def expandPending (p : Nat) : List Bool → List Bool
  | [] => []
  | b :: rest => b :: (List.replicate p (!b) ++ rest)

theorem expandPending_zero (l : List Bool) : expandPending 0 l = l := by cases l <;> rfl

/-! ## What was written before does not matter -/

/-- The coder with nothing written. -/
def Coded.bare (c : Coded) : Coded := { c with bits := [], steps := 0, off := 0 }

/-- `d` done after `c`. -/
def Coded.after (c d : Coded) : Coded :=
  { d with bits := c.bits ++ d.bits, steps := c.steps + d.steps, off := c.off * 2 ^ d.steps + d.off }

theorem after_bare (c : Coded) : c.after c.bare = c := by
  simp [Coded.after, Coded.bare]

theorem bare_of (l h p : Nat) (c : Coded) (hl : c.low = l) (hh : c.high = h) (hp : c.pending = p) :
    c.bare = ⟨l, h, p, [], 0, 0⟩ := by
  subst hl hh hp; rfl

theorem normStep_after (b : Build) (c d : Coded) :
    (c.after d).normStep b = (d.normStep b).map c.after := by
  unfold Coded.normStep
  have e1 : (c.after d).high = d.high := rfl
  have e2 : (c.after d).low = d.low := rfl
  rw [e1, e2]
  split
  · simp [Coded.emit, Coded.expand, Coded.after, Nat.pow_succ]; ring_nf; trivial
  · split
    · simp [Coded.emit, Coded.expand, Coded.after, Nat.pow_succ]; ring_nf; trivial
    · split
      · simp [Coded.expand, Coded.after, Nat.pow_succ]; ring_nf; trivial
      · rfl

theorem norm_after (b : Build) (n : Nat) (c d : Coded) : (c.after d).norm b n = c.after (d.norm b n) := by
  induction n generalizing d with
  | zero => rfl
  | succ n ih =>
    unfold Coded.norm
    rw [normStep_after]
    cases d.normStep b with
    | none => rfl
    | some e => exact ih e

theorem code_after (b : Build) (i : Interval) (c d : Coded) : (c.after d).code b i = c.after (d.code b i) :=
  norm_after b b.width c (d.narrow i)

theorem run_after (b : Build) (l : List Interval) (c d : Coded) : (c.after d).run b l = c.after (d.run b l) := by
  induction l generalizing d with
  | nil => rfl
  | cons i l ih =>
    unfold Coded.run at *
    rw [List.foldl_cons, List.foldl_cons, code_after]
    exact ih _

theorem run_cons (b : Build) (i : Interval) (l : List Interval) (c : Coded) :
    c.run b (i :: l) = (c.code b i).run b l := rfl

/-- A coding step, split from what came before it. -/
theorem code_split (b : Build) (i : Interval) (c : Coded) : c.code b i = c.after (c.bare.code b i) := by
  rw [← code_after, after_bare]

theorem run_split (b : Build) (l : List Interval) (c : Coded) : c.run b l = c.after (c.bare.run b l) := by
  rw [← run_after, after_bare]

theorem sent_after (b : Build) (l : List Interval) (c d : Coded) : (c.after d).sent b l = c.after (d.sent b l) := by
  induction l generalizing d with
  | nil => rfl
  | cons i l ih =>
    unfold Coded.sent
    rw [code_after, show (c.after (d.code b i)).pending = (d.code b i).pending from rfl, ih]
    split <;> rfl

/-- Where PENDING fits, all of the coding steps are sent. -/
theorem sent_eq_run {b : Build} {l : List Interval} {c : Coded} (h : PendingFits b l c) : c.sent b l = c.run b l := by
  induction l generalizing c with
  | nil => rfl
  | cons i l ih => rw [Coded.sent, if_pos h.1, ih h.2, run_cons]

theorem sent_split (b : Build) (l : List Interval) (c : Coded) : c.sent b l = c.after (c.bare.sent b l) := by
  rw [← sent_after, after_bare]

/-- The bits of the first coding step are sent first. -/
theorem sent_cons_le (b : Build) (i : Interval) (l : List Interval) (c : Coded) :
    (c.code b i).bits.length ≤ (c.sent b (i :: l)).bits.length := by
  rw [Coded.sent]
  split
  · rw [sent_split]; simp [Coded.after]
  · exact le_rfl

theorem sent_one (b : Build) (i : Interval) (c : Coded) : c.sent b [i] = c.code b i := by
  rw [Coded.sent]; split <;> rfl

/-! ## The two readings of R145 agree -/

theorem normStep_shift {b : Build} (hb : b.legal = true) {l h : Nat} (hlh : l ≤ h) (hh : h < b.full)
    (ha : topBitsAgree b l h = true) (p : Nat) (bits : List Bool) (k off : Nat) :
    (Coded.mk l h p bits k off).normStep b = some
      ⟨shiftLow b l, shiftHigh b h, 0, bits ++ topBit b l :: List.replicate p (!topBit b l), k + 1,
        2 * (off + (if topBit b l then b.half else 0))⟩ := by
  have hq := full_eq hb
  have ht := topBit_eq hb (low := l) (by omega)
  rw [topBitsAgree_iff hb (by omega) hh] at ha
  rw [shiftLow_eq, shiftHigh_eq hb]
  unfold Coded.normStep
  simp only
  by_cases c : b.half ≤ l
  · have hh' : b.half ≤ h := by omega
    have ht' : topBit b l = true := by rw [ht]; simpa using c
    rw [if_neg (by omega), if_pos c, ht', mod_full_of_half_le hb c (by omega), mod_full_of_half_le hb hh' hh]
    simp only [Coded.emit, Coded.expand, Bool.not_true, if_true, Option.some.injEq, Coded.mk.injEq]
    refine ⟨by omega, by omega, ?_⟩
    trivial
  · have hh' : ¬ b.half ≤ h := by omega
    have ht' : topBit b l = false := by rw [ht]; simpa using c
    rw [if_pos (by omega), ht', mod_full_of_lt_half hb (by omega), mod_full_of_lt_half hb (by omega)]
    simp only [Coded.emit, Coded.expand, Bool.not_false, Bool.false_eq_true, if_false, Nat.sub_zero, Nat.add_zero]

theorem normStep_e3 {b : Build} (hb : b.legal = true) {l h : Nat} (hl : l < b.half) (hh : b.half ≤ h)
    (hf : h < b.full) (hu : underflow b l h = true) (p : Nat) (bits : List Bool) (k off : Nat) :
    (Coded.mk l h p bits k off).normStep b = some
      ⟨e3Low b l, e3High b h, p + 1, bits, k + 1, 2 * (off + b.quarter)⟩ := by
  rw [underflow_iff hb hl hh hf] at hu
  rw [e3Low_eq hb hu.1 hl, e3High_eq hb hh hu.2]
  unfold Coded.normStep
  simp only
  rw [if_neg (by omega), if_neg (by omega), if_pos hu]
  rfl

theorem normStep_none {b : Build} (hb : b.legal = true) {l h : Nat} (hl : l < b.half) (hh : b.half ≤ h)
    (hf : h < b.full) (hu : ¬ underflow b l h = true) (p : Nat) (bits : List Bool) (k off : Nat) :
    (Coded.mk l h p bits k off).normStep b = none := by
  rw [underflow_iff hb hl hh hf] at hu
  unfold Coded.normStep
  simp only
  rw [if_neg (by omega), if_neg (by omega), if_neg hu]

theorem normShift_stop {b : Build} {l h : Nat} (ha : ¬ topBitsAgree b l h = true) (n : Nat) :
    normShift b n l h = (l, h) ∧ shiftBits b n l h = [] := by
  cases n with
  | zero => exact ⟨rfl, rfl⟩
  | succ n => unfold normShift shiftBits; rw [if_neg ha, if_neg ha]; exact ⟨rfl, rfl⟩

theorem normE3_stop {b : Build} {l h : Nat} (hu : ¬ underflow b l h = true) (n : Nat) :
    normE3 b n l h = (l, h) ∧ e3Count b n l h = 0 := by
  cases n with
  | zero => exact ⟨rfl, rfl⟩
  | succ n => unfold normE3 e3Count; rw [if_neg hu, if_neg hu]; exact ⟨rfl, rfl⟩

/-- R146: the interleaved loop is the shift loop run to its end, then the E3 loop run to its end. -/
theorem norm_eq_loops {b : Build} (hb : b.legal = true) : ∀ n m₁ m₂ l h p bits k off,
    l ≤ h → h < b.full → b.full ≤ (h - l + 1) * 2 ^ n → n ≤ m₁ → n ≤ m₂ →
    ∃ off', (Coded.mk l h p bits k off).norm b n =
      ⟨(normE3 b m₂ (normShift b m₁ l h).1 (normShift b m₁ l h).2).1,
       (normE3 b m₂ (normShift b m₁ l h).1 (normShift b m₁ l h).2).2,
       (if shiftBits b m₁ l h = [] then p else 0) + e3Count b m₂ (normShift b m₁ l h).1 (normShift b m₁ l h).2,
       bits ++ expandPending p (shiftBits b m₁ l h),
       k + (shiftBits b m₁ l h).length + e3Count b m₂ (normShift b m₁ l h).1 (normShift b m₁ l h).2, off'⟩ := by
  have hq := full_eq hb
  have hq' := quarter_ge hb
  intro n
  induction n with
  | zero =>
    intro m₁ m₂ l h p bits k off hlh hh hr _ _
    simp only [Nat.pow_zero, Nat.mul_one] at hr
    have ha : ¬ topBitsAgree b l h = true := by rw [topBitsAgree_iff hb (by omega) hh]; omega
    have hu : ¬ underflow b l h = true := by rw [underflow_iff hb (by omega) (by omega) hh]; omega
    obtain ⟨e1, e2⟩ := normShift_stop ha m₁
    obtain ⟨e3, e4⟩ := normE3_stop hu m₂
    rw [e1, e2]; simp only [e3, e4]
    exact ⟨off, by simp [Coded.norm, expandPending]⟩
  | succ n ih =>
    intro m₁ m₂ l h p bits k off hlh hh hr h1 h2
    by_cases ha : topBitsAgree b l h = true
    · obtain ⟨m, rfl⟩ : ∃ m, m₁ = m + 1 := ⟨m₁ - 1, by omega⟩
      obtain ⟨g1, g2⟩ := shift_step hb hlh hh ha
      obtain ⟨off', e⟩ := ih m m₂ (shiftLow b l) (shiftHigh b h) 0
        (bits ++ topBit b l :: List.replicate p (!topBit b l)) (k + 1)
        (2 * (off + (if topBit b l then b.half else 0))) g1 (shiftHigh_lt hb h)
        (by rw [g2, show 2 * (h - l + 1) * 2 ^ n = (h - l + 1) * 2 ^ (n + 1) by rw [Nat.pow_succ]; ring]; exact hr)
        (by omega) (by omega)
      refine ⟨off', ?_⟩
      rw [Coded.norm, normStep_shift hb hlh hh ha]
      simp only [expandPending_zero] at e
      simp only [normShift, shiftBits, ha, if_true, e, expandPending, reduceCtorEq, if_false]
      simp [Nat.add_assoc, Nat.add_comm 1]
    · obtain ⟨e1, e2⟩ := normShift_stop ha m₁
      rw [topBitsAgree_iff hb (by omega) hh] at ha
      have hl : l < b.half := by omega
      have hm : b.half ≤ h := by omega
      by_cases hu : underflow b l h = true
      · obtain ⟨m, rfl⟩ : ∃ m, m₂ = m + 1 := ⟨m₂ - 1, by omega⟩
        obtain ⟨g1, g2, g3, g4⟩ := e3_step hb hl hm hh hu
        have ha' : ¬ topBitsAgree b (e3Low b l) (e3High b h) = true := by
          rw [topBitsAgree_iff hb (by omega) g3]; omega
        obtain ⟨f1, f2⟩ := normShift_stop ha' m₁
        obtain ⟨off', e⟩ := ih m₁ m (e3Low b l) (e3High b h) (p + 1) bits (k + 1) (2 * (off + b.quarter))
          (by omega) g3
          (by rw [g4, show 2 * (h - l + 1) * 2 ^ n = (h - l + 1) * 2 ^ (n + 1) by rw [Nat.pow_succ]; ring]; exact hr)
          (by omega) (by omega)
        refine ⟨off', ?_⟩
        rw [Coded.norm, normStep_e3 hb hl hm hh hu]
        simp only [f1, f2] at e
        simp only [e, e1, e2, normE3, e3Count, hu, if_true, expandPending, List.append_nil, List.length_nil]
        simp [Nat.add_assoc, Nat.add_comm 1]
      · obtain ⟨e3, e4⟩ := normE3_stop hu m₂
        refine ⟨off, ?_⟩
        rw [Coded.norm, normStep_none hb hl hm hh hu]
        simp [e1, e2, e3, e4, expandPending]

/-- `normEnc`'s range, bits and PENDING are those of the coder as numbers (R145, R146). -/
theorem norm_eq {b : Build} (hb : b.legal = true) {l h : Nat} (hlh : l ≤ h) (hh : h < b.full) (p : Nat) :
    let c := (Coded.mk l h p [] 0 0).norm b b.width
    (c.low, c.high) = normRange b l h ∧
    c.bits = expandPending p (shiftBits b b.width l h) ∧
    c.pending = (if shiftBits b b.width l h = [] then p else 0) +
      e3Count b b.width (normShift b b.width l h).1 (normShift b b.width l h).2 ∧
    c.steps = (shiftBits b b.width l h).length +
      e3Count b b.width (normShift b b.width l h).1 (normShift b b.width l h).2 := by
  obtain ⟨off', e⟩ := norm_eq_loops hb b.width b.width b.width l h p [] 0 0 hlh hh full_le_range_mul le_rfl le_rfl
  intro c
  have hc : c = _ := e
  rw [hc]
  refine ⟨rfl, by simp, rfl, by simp⟩

/-! ## PENDING and the bits written steer nothing -/

/-- The same range, steps and frame. -/
structure SameFrame (c d : Coded) : Prop where
  low : d.low = c.low
  high : d.high = c.high
  steps : d.steps = c.steps
  off : d.off = c.off

theorem norm_frame (b : Build) (n : Nat) {c d : Coded} (h : SameFrame c d) : SameFrame (c.norm b n) (d.norm b n) := by
  induction n generalizing c d with
  | zero => exact h
  | succ n ih =>
    have hl := h.low
    have hh := h.high
    unfold Coded.norm
    by_cases h1 : c.high < b.half
    · have e1 : c.normStep b = some ((c.emit false).expand 0) := by rw [Coded.normStep, if_pos h1]
      have e2 : d.normStep b = some ((d.emit false).expand 0) := by rw [Coded.normStep, hh, if_pos h1]
      rw [e1, e2]
      exact ih ⟨by simp [Coded.emit, Coded.expand, hl], by simp [Coded.emit, Coded.expand, hh],
        by simp [Coded.emit, Coded.expand, h.steps], by simp [Coded.emit, Coded.expand, h.off]⟩
    · by_cases h2 : b.half ≤ c.low
      · have e1 : c.normStep b = some ((c.emit true).expand b.half) := by
          rw [Coded.normStep, if_neg h1, if_pos h2]
        have e2 : d.normStep b = some ((d.emit true).expand b.half) := by
          rw [Coded.normStep, hh, hl, if_neg h1, if_pos h2]
        rw [e1, e2]
        exact ih ⟨by simp [Coded.emit, Coded.expand, hl], by simp [Coded.emit, Coded.expand, hh],
          by simp [Coded.emit, Coded.expand, h.steps], by simp [Coded.emit, Coded.expand, h.off]⟩
      · by_cases h3 : b.quarter ≤ c.low ∧ c.high < 3 * b.quarter
        · have e1 : c.normStep b = some ({ c with pending := c.pending + 1 }.expand b.quarter) := by
            rw [Coded.normStep, if_neg h1, if_neg h2, if_pos h3]
          have e2 : d.normStep b = some ({ d with pending := d.pending + 1 }.expand b.quarter) := by
            rw [Coded.normStep, hh, hl, if_neg h1, if_neg h2, if_pos h3]
          rw [e1, e2]
          exact ih ⟨by simp [Coded.expand, hl], by simp [Coded.expand, hh], by simp [Coded.expand, h.steps],
            by simp [Coded.expand, h.off]⟩
        · have e1 : c.normStep b = none := by rw [Coded.normStep, if_neg h1, if_neg h2, if_neg h3]
          have e2 : d.normStep b = none := by rw [Coded.normStep, hh, hl, if_neg h1, if_neg h2, if_neg h3]
          rw [e1, e2]
          exact h

theorem run_frame (b : Build) (l : List Interval) {c d : Coded} (h : SameFrame c d) :
    SameFrame (c.run b l) (d.run b l) := by
  induction l generalizing c d with
  | nil => exact h
  | cons i l ih =>
    rw [run_cons, run_cons]
    exact ih (norm_frame b b.width ⟨by simp [Coded.narrow, h.low, h.high], by simp [Coded.narrow, h.low, h.high],
      h.steps, h.off⟩)

/-! ## What a coding step keeps -/

/-- Bits written and bits owed make up the steps taken. -/
theorem normStep_steps {b : Build} {c d : Coded} (h : c.normStep b = some d) :
    d.steps = c.steps + 1 ∧ d.bits.length + d.pending = c.bits.length + c.pending + 1 := by
  unfold Coded.normStep at h
  split at h
  · cases h; refine ⟨rfl, ?_⟩; simp [Coded.emit, Coded.expand]; omega
  · split at h
    · cases h; refine ⟨rfl, ?_⟩; simp [Coded.emit, Coded.expand]; omega
    · split at h
      · cases h; refine ⟨rfl, ?_⟩; simp [Coded.expand]; omega
      · cases h

/-- The frame moves with LOW: LOW and the offset together are what LOW was, in the finer scale. -/
theorem normStep_off {b : Build} {c d : Coded} (h : c.normStep b = some d) :
    d.low + d.off = 2 * (c.low + c.off) := by
  unfold Coded.normStep at h
  split at h
  · cases h; simp only [Coded.emit, Coded.expand]; omega
  · split at h
    · cases h; simp only [Coded.emit, Coded.expand]; omega
    · split at h
      · cases h; simp only [Coded.expand]; omega
      · cases h

theorem norm_off (b : Build) (n : Nat) (c : Coded) :
    ∃ k, (c.norm b n).steps = c.steps + k ∧ (c.norm b n).low + (c.norm b n).off = (c.low + c.off) * 2 ^ k := by
  induction n generalizing c with
  | zero => exact ⟨0, rfl, by simp [Coded.norm]⟩
  | succ n ih =>
    unfold Coded.norm
    cases hd : c.normStep b with
    | none => exact ⟨0, rfl, by simp⟩
    | some d =>
      obtain ⟨k, h1, h2⟩ := ih d
      refine ⟨k + 1, by rw [h1, (normStep_steps hd).1]; omega, ?_⟩
      simp only [h2, normStep_off hd, Nat.pow_succ]; ring

theorem norm_steps (b : Build) (n : Nat) (c : Coded) :
    ∃ k, k ≤ n ∧ (c.norm b n).steps = c.steps + k ∧
      (c.norm b n).bits.length + (c.norm b n).pending = c.bits.length + c.pending + k := by
  induction n generalizing c with
  | zero => exact ⟨0, le_rfl, rfl, rfl⟩
  | succ n ih =>
    unfold Coded.norm
    cases hd : c.normStep b with
    | none => exact ⟨0, Nat.zero_le _, rfl, rfl⟩
    | some d =>
      obtain ⟨k, h1, h2, h3⟩ := ih d
      obtain ⟨g1, g2⟩ := normStep_steps hd
      exact ⟨k + 1, by omega, by rw [h2, g1]; omega, by rw [h3, g2]; omega⟩

end Sys2Proof.Machine
end

