-- ==== Sys2Proof/Laws/State.lean ====
section
/-! SUPPORT. One lemma per field per update of the state that the operations share (Ops.lean, Window.lean), each by
computation, so that no later proof unfolds a record update. -/

namespace Sys2Proof.Machine

variable (s : State)

/-! ## A command completes (R200) -/

@[simp] theorem complete_build : (complete s).build = s.build := rfl
@[simp] theorem complete_st : (complete s).st = s.st := rfl
@[simp] theorem complete_eof : (complete s).eof = s.eof := rfl
@[simp] theorem complete_cmdDropped : (complete s).cmdDropped = s.cmdDropped := rfl
@[simp] theorem complete_err : (complete s).err = s.err := rfl
@[simp] theorem complete_result : (complete s).result = s.result := rfl
@[simp] theorem complete_arg0 : (complete s).arg0 = s.arg0 := rfl
@[simp] theorem complete_arg1 : (complete s).arg1 = s.arg1 := rfl
@[simp] theorem complete_arg2 : (complete s).arg2 = s.arg2 := rfl
@[simp] theorem complete_order : (complete s).order = s.order := rfl
@[simp] theorem complete_dir : (complete s).dir = s.dir := rfl
@[simp] theorem complete_raw : (complete s).raw = s.raw := rfl
@[simp] theorem complete_low : (complete s).low = s.low := rfl
@[simp] theorem complete_high : (complete s).high = s.high := rfl
@[simp] theorem complete_code : (complete s).code = s.code := rfl
@[simp] theorem complete_pending : (complete s).pending = s.pending := rfl
@[simp] theorem complete_outBuf : (complete s).outBuf = s.outBuf := rfl
@[simp] theorem complete_outN : (complete s).outN = s.outN := rfl
@[simp] theorem complete_inBuf : (complete s).inBuf = s.inBuf := rfl
@[simp] theorem complete_inN : (complete s).inN = s.inN := rfl
@[simp] theorem complete_inEof : (complete s).inEof = s.inEof := rfl
@[simp] theorem complete_store : (complete s).store = s.store := rfl
@[simp] theorem complete_hist : (complete s).hist = s.hist := rfl
@[simp] theorem complete_bitsOut : (complete s).bitsOut = s.bitsOut := rfl
@[simp] theorem complete_bytesOut : (complete s).bytesOut = s.bytesOut := rfl
@[simp] theorem complete_bytesIn : (complete s).bytesIn = s.bytesIn := rfl
@[simp] theorem complete_syms : (complete s).syms = s.syms := rfl
@[simp] theorem complete_nodes : (complete s).nodes = s.nodes := rfl
@[simp] theorem complete_pendingCmd : (complete s).pendingCmd = none := rfl
@[simp] theorem complete_portWait : (complete s).portWait = s.portWait := rfl
@[simp] theorem complete_inReset : (complete s).inReset = s.inReset := rfl
@[simp] theorem complete_env : (complete s).env = s.env := rfl

/-! ## An error is raised (R244) -/

@[simp] theorem enterError_build (o : BitVec 8) (c : Cause) : (enterError o c s).build = s.build := rfl
@[simp] theorem enterError_st (o : BitVec 8) (c : Cause) : (enterError o c s).st = .error := rfl
@[simp] theorem enterError_eof (o : BitVec 8) (c : Cause) : (enterError o c s).eof = s.eof := rfl
@[simp] theorem enterError_cmdDropped (o : BitVec 8) (c : Cause) : (enterError o c s).cmdDropped = s.cmdDropped := rfl
@[simp] theorem enterError_err (o : BitVec 8) (c : Cause) : (enterError o c s).err = recordError o c s.st s.err := rfl
@[simp] theorem enterError_result (o : BitVec 8) (c : Cause) : (enterError o c s).result = s.result := rfl
@[simp] theorem enterError_arg0 (o : BitVec 8) (c : Cause) : (enterError o c s).arg0 = s.arg0 := rfl
@[simp] theorem enterError_arg1 (o : BitVec 8) (c : Cause) : (enterError o c s).arg1 = s.arg1 := rfl
@[simp] theorem enterError_arg2 (o : BitVec 8) (c : Cause) : (enterError o c s).arg2 = s.arg2 := rfl
@[simp] theorem enterError_order (o : BitVec 8) (c : Cause) : (enterError o c s).order = s.order := rfl
@[simp] theorem enterError_dir (o : BitVec 8) (c : Cause) : (enterError o c s).dir = s.dir := rfl
@[simp] theorem enterError_raw (o : BitVec 8) (c : Cause) : (enterError o c s).raw = s.raw := rfl
@[simp] theorem enterError_low (o : BitVec 8) (c : Cause) : (enterError o c s).low = s.low := rfl
@[simp] theorem enterError_high (o : BitVec 8) (c : Cause) : (enterError o c s).high = s.high := rfl
@[simp] theorem enterError_code (o : BitVec 8) (c : Cause) : (enterError o c s).code = s.code := rfl
@[simp] theorem enterError_pending (o : BitVec 8) (c : Cause) : (enterError o c s).pending = s.pending := rfl
@[simp] theorem enterError_outBuf (o : BitVec 8) (c : Cause) : (enterError o c s).outBuf = s.outBuf := rfl
@[simp] theorem enterError_outN (o : BitVec 8) (c : Cause) : (enterError o c s).outN = s.outN := rfl
@[simp] theorem enterError_inBuf (o : BitVec 8) (c : Cause) : (enterError o c s).inBuf = s.inBuf := rfl
@[simp] theorem enterError_inN (o : BitVec 8) (c : Cause) : (enterError o c s).inN = s.inN := rfl
@[simp] theorem enterError_inEof (o : BitVec 8) (c : Cause) : (enterError o c s).inEof = s.inEof := rfl
@[simp] theorem enterError_store (o : BitVec 8) (c : Cause) : (enterError o c s).store = s.store := rfl
@[simp] theorem enterError_hist (o : BitVec 8) (c : Cause) : (enterError o c s).hist = s.hist := rfl
@[simp] theorem enterError_bitsOut (o : BitVec 8) (c : Cause) : (enterError o c s).bitsOut = s.bitsOut := rfl
@[simp] theorem enterError_bytesOut (o : BitVec 8) (c : Cause) : (enterError o c s).bytesOut = s.bytesOut := rfl
@[simp] theorem enterError_bytesIn (o : BitVec 8) (c : Cause) : (enterError o c s).bytesIn = s.bytesIn := rfl
@[simp] theorem enterError_syms (o : BitVec 8) (c : Cause) : (enterError o c s).syms = s.syms := rfl
@[simp] theorem enterError_nodes (o : BitVec 8) (c : Cause) : (enterError o c s).nodes = s.nodes := rfl
@[simp] theorem enterError_pendingCmd (o : BitVec 8) (c : Cause) : (enterError o c s).pendingCmd = none := rfl
@[simp] theorem enterError_portWait (o : BitVec 8) (c : Cause) : (enterError o c s).portWait = s.portWait := rfl
@[simp] theorem enterError_inReset (o : BitVec 8) (c : Cause) : (enterError o c s).inReset = s.inReset := rfl
@[simp] theorem enterError_env (o : BitVec 8) (c : Cause) : (enterError o c s).env = s.env := rfl

/-! ## A session is cleared (R43, R202, R211) -/

@[simp] theorem clearSession_build : (clearSession s).build = s.build := rfl
@[simp] theorem clearSession_st : (clearSession s).st = .idle := rfl
@[simp] theorem clearSession_eof : (clearSession s).eof = false := rfl
@[simp] theorem clearSession_cmdDropped : (clearSession s).cmdDropped = false := rfl
@[simp] theorem clearSession_err : (clearSession s).err = .clear := rfl
@[simp] theorem clearSession_result : (clearSession s).result = 0 := rfl
@[simp] theorem clearSession_arg0 : (clearSession s).arg0 = s.arg0 := rfl
@[simp] theorem clearSession_arg1 : (clearSession s).arg1 = s.arg1 := rfl
@[simp] theorem clearSession_arg2 : (clearSession s).arg2 = s.arg2 := rfl
@[simp] theorem clearSession_order : (clearSession s).order = -1 := rfl
@[simp] theorem clearSession_dir : (clearSession s).dir = .encode := rfl
@[simp] theorem clearSession_raw : (clearSession s).raw = false := rfl
@[simp] theorem clearSession_low : (clearSession s).low = 0 := rfl
@[simp] theorem clearSession_high : (clearSession s).high = s.build.mask := rfl
@[simp] theorem clearSession_code : (clearSession s).code = 0 := rfl
@[simp] theorem clearSession_pending : (clearSession s).pending = 0 := rfl
@[simp] theorem clearSession_outBuf : (clearSession s).outBuf = 0 := rfl
@[simp] theorem clearSession_outN : (clearSession s).outN = 0 := rfl
@[simp] theorem clearSession_inBuf : (clearSession s).inBuf = 0 := rfl
@[simp] theorem clearSession_inN : (clearSession s).inN = 0 := rfl
@[simp] theorem clearSession_inEof : (clearSession s).inEof = false := rfl
@[simp] theorem clearSession_store : (clearSession s).store = [] := rfl
@[simp] theorem clearSession_hist : (clearSession s).hist = [] := rfl
@[simp] theorem clearSession_bitsOut : (clearSession s).bitsOut = 0 := rfl
@[simp] theorem clearSession_bytesOut : (clearSession s).bytesOut = 0 := rfl
@[simp] theorem clearSession_bytesIn : (clearSession s).bytesIn = 0 := rfl
@[simp] theorem clearSession_syms : (clearSession s).syms = 0 := rfl
@[simp] theorem clearSession_nodes : (clearSession s).nodes = 0 := rfl
@[simp] theorem clearSession_pendingCmd : (clearSession s).pendingCmd = s.pendingCmd := rfl
@[simp] theorem clearSession_portWait : (clearSession s).portWait = s.portWait := rfl
@[simp] theorem clearSession_inReset : (clearSession s).inReset = s.inReset := rfl
@[simp] theorem clearSession_env : (clearSession s).env = s.env := rfl

/-! ## A symbol is counted (R42) -/

@[simp] theorem countSymbol_build : (countSymbol s).build = s.build := rfl
@[simp] theorem countSymbol_st : (countSymbol s).st = s.st := rfl
@[simp] theorem countSymbol_eof : (countSymbol s).eof = s.eof := rfl
@[simp] theorem countSymbol_cmdDropped : (countSymbol s).cmdDropped = s.cmdDropped := rfl
@[simp] theorem countSymbol_err : (countSymbol s).err = s.err := rfl
@[simp] theorem countSymbol_result : (countSymbol s).result = s.result := rfl
@[simp] theorem countSymbol_arg0 : (countSymbol s).arg0 = s.arg0 := rfl
@[simp] theorem countSymbol_arg1 : (countSymbol s).arg1 = s.arg1 := rfl
@[simp] theorem countSymbol_arg2 : (countSymbol s).arg2 = s.arg2 := rfl
@[simp] theorem countSymbol_order : (countSymbol s).order = s.order := rfl
@[simp] theorem countSymbol_dir : (countSymbol s).dir = s.dir := rfl
@[simp] theorem countSymbol_raw : (countSymbol s).raw = s.raw := rfl
@[simp] theorem countSymbol_low : (countSymbol s).low = s.low := rfl
@[simp] theorem countSymbol_high : (countSymbol s).high = s.high := rfl
@[simp] theorem countSymbol_code : (countSymbol s).code = s.code := rfl
@[simp] theorem countSymbol_pending : (countSymbol s).pending = s.pending := rfl
@[simp] theorem countSymbol_outBuf : (countSymbol s).outBuf = s.outBuf := rfl
@[simp] theorem countSymbol_outN : (countSymbol s).outN = s.outN := rfl
@[simp] theorem countSymbol_inBuf : (countSymbol s).inBuf = s.inBuf := rfl
@[simp] theorem countSymbol_inN : (countSymbol s).inN = s.inN := rfl
@[simp] theorem countSymbol_inEof : (countSymbol s).inEof = s.inEof := rfl
@[simp] theorem countSymbol_store : (countSymbol s).store = s.store := rfl
@[simp] theorem countSymbol_hist : (countSymbol s).hist = s.hist := rfl
@[simp] theorem countSymbol_bitsOut : (countSymbol s).bitsOut = s.bitsOut := rfl
@[simp] theorem countSymbol_bytesOut : (countSymbol s).bytesOut = s.bytesOut := rfl
@[simp] theorem countSymbol_bytesIn : (countSymbol s).bytesIn = s.bytesIn := rfl
@[simp] theorem countSymbol_syms : (countSymbol s).syms = s.syms + 1 := rfl
@[simp] theorem countSymbol_nodes : (countSymbol s).nodes = s.nodes := rfl
@[simp] theorem countSymbol_pendingCmd : (countSymbol s).pendingCmd = s.pendingCmd := rfl
@[simp] theorem countSymbol_portWait : (countSymbol s).portWait = s.portWait := rfl
@[simp] theorem countSymbol_inReset : (countSymbol s).inReset = s.inReset := rfl
@[simp] theorem countSymbol_env : (countSymbol s).env = s.env := rfl

/-! ## A read is logged (R89) -/

@[simp] theorem logRead_build (v : Word) : (logRead v s).build = s.build := rfl
@[simp] theorem logRead_st (v : Word) : (logRead v s).st = s.st := rfl
@[simp] theorem logRead_eof (v : Word) : (logRead v s).eof = s.eof := rfl
@[simp] theorem logRead_cmdDropped (v : Word) : (logRead v s).cmdDropped = s.cmdDropped := rfl
@[simp] theorem logRead_err (v : Word) : (logRead v s).err = s.err := rfl
@[simp] theorem logRead_result (v : Word) : (logRead v s).result = s.result := rfl
@[simp] theorem logRead_arg0 (v : Word) : (logRead v s).arg0 = s.arg0 := rfl
@[simp] theorem logRead_arg1 (v : Word) : (logRead v s).arg1 = s.arg1 := rfl
@[simp] theorem logRead_arg2 (v : Word) : (logRead v s).arg2 = s.arg2 := rfl
@[simp] theorem logRead_order (v : Word) : (logRead v s).order = s.order := rfl
@[simp] theorem logRead_dir (v : Word) : (logRead v s).dir = s.dir := rfl
@[simp] theorem logRead_raw (v : Word) : (logRead v s).raw = s.raw := rfl
@[simp] theorem logRead_low (v : Word) : (logRead v s).low = s.low := rfl
@[simp] theorem logRead_high (v : Word) : (logRead v s).high = s.high := rfl
@[simp] theorem logRead_code (v : Word) : (logRead v s).code = s.code := rfl
@[simp] theorem logRead_pending (v : Word) : (logRead v s).pending = s.pending := rfl
@[simp] theorem logRead_outBuf (v : Word) : (logRead v s).outBuf = s.outBuf := rfl
@[simp] theorem logRead_outN (v : Word) : (logRead v s).outN = s.outN := rfl
@[simp] theorem logRead_inBuf (v : Word) : (logRead v s).inBuf = s.inBuf := rfl
@[simp] theorem logRead_inN (v : Word) : (logRead v s).inN = s.inN := rfl
@[simp] theorem logRead_inEof (v : Word) : (logRead v s).inEof = s.inEof := rfl
@[simp] theorem logRead_store (v : Word) : (logRead v s).store = s.store := rfl
@[simp] theorem logRead_hist (v : Word) : (logRead v s).hist = s.hist := rfl
@[simp] theorem logRead_bitsOut (v : Word) : (logRead v s).bitsOut = s.bitsOut := rfl
@[simp] theorem logRead_bytesOut (v : Word) : (logRead v s).bytesOut = s.bytesOut := rfl
@[simp] theorem logRead_bytesIn (v : Word) : (logRead v s).bytesIn = s.bytesIn := rfl
@[simp] theorem logRead_syms (v : Word) : (logRead v s).syms = s.syms := rfl
@[simp] theorem logRead_nodes (v : Word) : (logRead v s).nodes = s.nodes := rfl
@[simp] theorem logRead_pendingCmd (v : Word) : (logRead v s).pendingCmd = s.pendingCmd := rfl
@[simp] theorem logRead_portWait (v : Word) : (logRead v s).portWait = s.portWait := rfl
@[simp] theorem logRead_inReset (v : Word) : (logRead v s).inReset = s.inReset := rfl
@[simp] theorem logRead_env (v : Word) : (logRead v s).env = { s.env with reads := s.env.reads ++ [v] } := rfl

/-! ## A free read is logged (R65) -/

@[simp] theorem logFree_build : (logFree s).build = s.build := rfl
@[simp] theorem logFree_st : (logFree s).st = s.st := rfl
@[simp] theorem logFree_eof : (logFree s).eof = s.eof := rfl
@[simp] theorem logFree_cmdDropped : (logFree s).cmdDropped = s.cmdDropped := rfl
@[simp] theorem logFree_err : (logFree s).err = s.err := rfl
@[simp] theorem logFree_result : (logFree s).result = s.result := rfl
@[simp] theorem logFree_arg0 : (logFree s).arg0 = s.arg0 := rfl
@[simp] theorem logFree_arg1 : (logFree s).arg1 = s.arg1 := rfl
@[simp] theorem logFree_arg2 : (logFree s).arg2 = s.arg2 := rfl
@[simp] theorem logFree_order : (logFree s).order = s.order := rfl
@[simp] theorem logFree_dir : (logFree s).dir = s.dir := rfl
@[simp] theorem logFree_raw : (logFree s).raw = s.raw := rfl
@[simp] theorem logFree_low : (logFree s).low = s.low := rfl
@[simp] theorem logFree_high : (logFree s).high = s.high := rfl
@[simp] theorem logFree_code : (logFree s).code = s.code := rfl
@[simp] theorem logFree_pending : (logFree s).pending = s.pending := rfl
@[simp] theorem logFree_outBuf : (logFree s).outBuf = s.outBuf := rfl
@[simp] theorem logFree_outN : (logFree s).outN = s.outN := rfl
@[simp] theorem logFree_inBuf : (logFree s).inBuf = s.inBuf := rfl
@[simp] theorem logFree_inN : (logFree s).inN = s.inN := rfl
@[simp] theorem logFree_inEof : (logFree s).inEof = s.inEof := rfl
@[simp] theorem logFree_store : (logFree s).store = s.store := rfl
@[simp] theorem logFree_hist : (logFree s).hist = s.hist := rfl
@[simp] theorem logFree_bitsOut : (logFree s).bitsOut = s.bitsOut := rfl
@[simp] theorem logFree_bytesOut : (logFree s).bytesOut = s.bytesOut := rfl
@[simp] theorem logFree_bytesIn : (logFree s).bytesIn = s.bytesIn := rfl
@[simp] theorem logFree_syms : (logFree s).syms = s.syms := rfl
@[simp] theorem logFree_nodes : (logFree s).nodes = s.nodes := rfl
@[simp] theorem logFree_pendingCmd : (logFree s).pendingCmd = s.pendingCmd := rfl
@[simp] theorem logFree_portWait : (logFree s).portWait = s.portWait := rfl
@[simp] theorem logFree_inReset : (logFree s).inReset = s.inReset := rfl
@[simp] theorem logFree_env : (logFree s).env =
    { s.env with reads := s.env.reads ++ [Config.freeWord s.env.draws], draws := s.env.draws + 1 } := rfl

/-! ## Arrivals are taken (R77) -/

@[simp] theorem dropArrivals_build (rest : List Arrival) : (dropArrivals rest s).build = s.build := rfl
@[simp] theorem dropArrivals_st (rest : List Arrival) : (dropArrivals rest s).st = s.st := rfl
@[simp] theorem dropArrivals_eof (rest : List Arrival) : (dropArrivals rest s).eof = s.eof := rfl
@[simp] theorem dropArrivals_cmdDropped (rest : List Arrival) : (dropArrivals rest s).cmdDropped = s.cmdDropped := rfl
@[simp] theorem dropArrivals_err (rest : List Arrival) : (dropArrivals rest s).err = s.err := rfl
@[simp] theorem dropArrivals_result (rest : List Arrival) : (dropArrivals rest s).result = s.result := rfl
@[simp] theorem dropArrivals_arg0 (rest : List Arrival) : (dropArrivals rest s).arg0 = s.arg0 := rfl
@[simp] theorem dropArrivals_arg1 (rest : List Arrival) : (dropArrivals rest s).arg1 = s.arg1 := rfl
@[simp] theorem dropArrivals_arg2 (rest : List Arrival) : (dropArrivals rest s).arg2 = s.arg2 := rfl
@[simp] theorem dropArrivals_order (rest : List Arrival) : (dropArrivals rest s).order = s.order := rfl
@[simp] theorem dropArrivals_dir (rest : List Arrival) : (dropArrivals rest s).dir = s.dir := rfl
@[simp] theorem dropArrivals_raw (rest : List Arrival) : (dropArrivals rest s).raw = s.raw := rfl
@[simp] theorem dropArrivals_low (rest : List Arrival) : (dropArrivals rest s).low = s.low := rfl
@[simp] theorem dropArrivals_high (rest : List Arrival) : (dropArrivals rest s).high = s.high := rfl
@[simp] theorem dropArrivals_code (rest : List Arrival) : (dropArrivals rest s).code = s.code := rfl
@[simp] theorem dropArrivals_pending (rest : List Arrival) : (dropArrivals rest s).pending = s.pending := rfl
@[simp] theorem dropArrivals_outBuf (rest : List Arrival) : (dropArrivals rest s).outBuf = s.outBuf := rfl
@[simp] theorem dropArrivals_outN (rest : List Arrival) : (dropArrivals rest s).outN = s.outN := rfl
@[simp] theorem dropArrivals_inBuf (rest : List Arrival) : (dropArrivals rest s).inBuf = s.inBuf := rfl
@[simp] theorem dropArrivals_inN (rest : List Arrival) : (dropArrivals rest s).inN = s.inN := rfl
@[simp] theorem dropArrivals_inEof (rest : List Arrival) : (dropArrivals rest s).inEof = s.inEof := rfl
@[simp] theorem dropArrivals_store (rest : List Arrival) : (dropArrivals rest s).store = s.store := rfl
@[simp] theorem dropArrivals_hist (rest : List Arrival) : (dropArrivals rest s).hist = s.hist := rfl
@[simp] theorem dropArrivals_bitsOut (rest : List Arrival) : (dropArrivals rest s).bitsOut = s.bitsOut := rfl
@[simp] theorem dropArrivals_bytesOut (rest : List Arrival) : (dropArrivals rest s).bytesOut = s.bytesOut := rfl
@[simp] theorem dropArrivals_bytesIn (rest : List Arrival) : (dropArrivals rest s).bytesIn = s.bytesIn := rfl
@[simp] theorem dropArrivals_syms (rest : List Arrival) : (dropArrivals rest s).syms = s.syms := rfl
@[simp] theorem dropArrivals_nodes (rest : List Arrival) : (dropArrivals rest s).nodes = s.nodes := rfl
@[simp] theorem dropArrivals_pendingCmd (rest : List Arrival) : (dropArrivals rest s).pendingCmd = s.pendingCmd := rfl
@[simp] theorem dropArrivals_portWait (rest : List Arrival) : (dropArrivals rest s).portWait = s.portWait := rfl
@[simp] theorem dropArrivals_inReset (rest : List Arrival) : (dropArrivals rest s).inReset = s.inReset := rfl
@[simp] theorem dropArrivals_env (rest : List Arrival) : (dropArrivals rest s).env =
    { s.env with arrivals := rest } := rfl

/-! ## Reset is asserted (R270) -/

@[simp] theorem assertReset_build : (assertReset s).build = s.build := rfl
@[simp] theorem assertReset_st : (assertReset s).st = .idle := rfl
@[simp] theorem assertReset_eof : (assertReset s).eof = false := rfl
@[simp] theorem assertReset_cmdDropped : (assertReset s).cmdDropped = false := rfl
@[simp] theorem assertReset_err : (assertReset s).err = .clear := rfl
@[simp] theorem assertReset_result : (assertReset s).result = 0 := rfl
@[simp] theorem assertReset_arg0 : (assertReset s).arg0 = 0 := rfl
@[simp] theorem assertReset_arg1 : (assertReset s).arg1 = 0 := rfl
@[simp] theorem assertReset_arg2 : (assertReset s).arg2 = 0 := rfl
@[simp] theorem assertReset_order : (assertReset s).order = -1 := rfl
@[simp] theorem assertReset_dir : (assertReset s).dir = .encode := rfl
@[simp] theorem assertReset_raw : (assertReset s).raw = false := rfl
@[simp] theorem assertReset_low : (assertReset s).low = 0 := rfl
@[simp] theorem assertReset_high : (assertReset s).high = s.build.mask := rfl
@[simp] theorem assertReset_code : (assertReset s).code = 0 := rfl
@[simp] theorem assertReset_pending : (assertReset s).pending = 0 := rfl
@[simp] theorem assertReset_outBuf : (assertReset s).outBuf = 0 := rfl
@[simp] theorem assertReset_outN : (assertReset s).outN = 0 := rfl
@[simp] theorem assertReset_inBuf : (assertReset s).inBuf = 0 := rfl
@[simp] theorem assertReset_inN : (assertReset s).inN = 0 := rfl
@[simp] theorem assertReset_inEof : (assertReset s).inEof = false := rfl
@[simp] theorem assertReset_store : (assertReset s).store = [] := rfl
@[simp] theorem assertReset_hist : (assertReset s).hist = [] := rfl
@[simp] theorem assertReset_bitsOut : (assertReset s).bitsOut = 0 := rfl
@[simp] theorem assertReset_bytesOut : (assertReset s).bytesOut = 0 := rfl
@[simp] theorem assertReset_bytesIn : (assertReset s).bytesIn = 0 := rfl
@[simp] theorem assertReset_syms : (assertReset s).syms = 0 := rfl
@[simp] theorem assertReset_nodes : (assertReset s).nodes = 0 := rfl
@[simp] theorem assertReset_pendingCmd : (assertReset s).pendingCmd = none := rfl
@[simp] theorem assertReset_portWait : (assertReset s).portWait = none := rfl
@[simp] theorem assertReset_inReset : (assertReset s).inReset = true := rfl
@[simp] theorem assertReset_env : (assertReset s).env = abandonPort s.portWait s.env := rfl

/-! ## Reset is released (R270) -/

@[simp] theorem releaseReset_build : (releaseReset s).build = s.build := rfl
@[simp] theorem releaseReset_st : (releaseReset s).st = s.st := rfl
@[simp] theorem releaseReset_eof : (releaseReset s).eof = s.eof := rfl
@[simp] theorem releaseReset_cmdDropped : (releaseReset s).cmdDropped = s.cmdDropped := rfl
@[simp] theorem releaseReset_err : (releaseReset s).err = s.err := rfl
@[simp] theorem releaseReset_result : (releaseReset s).result = s.result := rfl
@[simp] theorem releaseReset_arg0 : (releaseReset s).arg0 = s.arg0 := rfl
@[simp] theorem releaseReset_arg1 : (releaseReset s).arg1 = s.arg1 := rfl
@[simp] theorem releaseReset_arg2 : (releaseReset s).arg2 = s.arg2 := rfl
@[simp] theorem releaseReset_order : (releaseReset s).order = s.order := rfl
@[simp] theorem releaseReset_dir : (releaseReset s).dir = s.dir := rfl
@[simp] theorem releaseReset_raw : (releaseReset s).raw = s.raw := rfl
@[simp] theorem releaseReset_low : (releaseReset s).low = s.low := rfl
@[simp] theorem releaseReset_high : (releaseReset s).high = s.high := rfl
@[simp] theorem releaseReset_code : (releaseReset s).code = s.code := rfl
@[simp] theorem releaseReset_pending : (releaseReset s).pending = s.pending := rfl
@[simp] theorem releaseReset_outBuf : (releaseReset s).outBuf = s.outBuf := rfl
@[simp] theorem releaseReset_outN : (releaseReset s).outN = s.outN := rfl
@[simp] theorem releaseReset_inBuf : (releaseReset s).inBuf = s.inBuf := rfl
@[simp] theorem releaseReset_inN : (releaseReset s).inN = s.inN := rfl
@[simp] theorem releaseReset_inEof : (releaseReset s).inEof = s.inEof := rfl
@[simp] theorem releaseReset_store : (releaseReset s).store = s.store := rfl
@[simp] theorem releaseReset_hist : (releaseReset s).hist = s.hist := rfl
@[simp] theorem releaseReset_bitsOut : (releaseReset s).bitsOut = s.bitsOut := rfl
@[simp] theorem releaseReset_bytesOut : (releaseReset s).bytesOut = s.bytesOut := rfl
@[simp] theorem releaseReset_bytesIn : (releaseReset s).bytesIn = s.bytesIn := rfl
@[simp] theorem releaseReset_syms : (releaseReset s).syms = s.syms := rfl
@[simp] theorem releaseReset_nodes : (releaseReset s).nodes = s.nodes := rfl
@[simp] theorem releaseReset_pendingCmd : (releaseReset s).pendingCmd = s.pendingCmd := rfl
@[simp] theorem releaseReset_portWait : (releaseReset s).portWait = s.portWait := rfl
@[simp] theorem releaseReset_inReset : (releaseReset s).inReset = false := rfl
@[simp] theorem releaseReset_env : (releaseReset s).env = s.env := rfl

end Sys2Proof.Machine
end

