-- ==== Sys2Proof/Laws/Post.lean ====
section
/-! SUPPORT. What a micro-operation can do, said once: a postcondition for each of its three ends, and the rule
for a sequence. -/

namespace Sys2Proof.Machine

/-- Completed with `P`, raised with `E`, or waiting with `W`. -/
def Res.Post {α : Type} (r : Res α) (P : α → State → Prop) (E : Cause → State → Prop)
    (W : PortRequest → State → Prop) : Prop :=
  match r with
  | .ok a s => P a s
  | .raised c s => E c s
  | .waiting q s => W q s

variable {α β : Type}

@[simp] theorem post_ok (a : α) (s : State) (P : α → State → Prop) (E W) :
    (Res.ok a s).Post P E W = P a s := rfl
@[simp] theorem post_raised (c : Cause) (s : State) (P : α → State → Prop) (E W) :
    (Res.raised c s).Post P E W = E c s := rfl
@[simp] theorem post_waiting (q : PortRequest) (s : State) (P : α → State → Prop) (E W) :
    (Res.waiting q s).Post P E W = W q s := rfl

@[simp] theorem andThen_ok (a : α) (s : State) (f : α → State → Res β) : (Res.ok a s).andThen f = f a s := rfl
@[simp] theorem andThen_raised (c : Cause) (s : State) (f : α → State → Res β) :
    (Res.raised c s).andThen f = .raised c s := rfl
@[simp] theorem andThen_waiting (q : PortRequest) (s : State) (f : α → State → Res β) :
    (Res.waiting q s).andThen f = .waiting q s := rfl

theorem Res.Post.imp {r : Res α} {P P' : α → State → Prop} {E E' : Cause → State → Prop}
    {W W' : PortRequest → State → Prop} (h : r.Post P E W) (hp : ∀ a s, P a s → P' a s)
    (he : ∀ c s, E c s → E' c s) (hw : ∀ q s, W q s → W' q s) : r.Post P' E' W' := by
  cases r with
  | ok a s => exact hp _ _ h
  | raised c s => exact he _ _ h
  | waiting q s => exact hw _ _ h

theorem Res.Post.andThen {r : Res α} {f : α → State → Res β} {P : α → State → Prop}
    {E E' : Cause → State → Prop} {W W' : PortRequest → State → Prop} {P' : β → State → Prop}
    (h : r.Post P E W) (hp : ∀ a s, P a s → (f a s).Post P' E' W') (he : ∀ c s, E c s → E' c s)
    (hw : ∀ q s, W q s → W' q s) : (r.andThen f).Post P' E' W' := by
  cases r with
  | ok a s => exact hp _ _ h
  | raised c s => exact he _ _ h
  | waiting q s => exact hw _ _ h

theorem Res.Post.and {r : Res α} {P P' : α → State → Prop} {E E' : Cause → State → Prop}
    {W W' : PortRequest → State → Prop} (h : r.Post P E W) (h' : r.Post P' E' W') :
    r.Post (fun a s => P a s ∧ P' a s) (fun c s => E c s ∧ E' c s) (fun q s => W q s ∧ W' q s) := by
  cases r with
  | ok a s => exact ⟨h, h'⟩
  | raised c s => exact ⟨h, h'⟩
  | waiting q s => exact ⟨h, h'⟩

theorem Res.Post.of_ok {r : Res α} {P : α → State → Prop} {E W} (h : r.Post P E W) {a s} (e : r = .ok a s) :
    P a s := by subst e; exact h

theorem Res.Post.of_raised {r : Res α} {P : α → State → Prop} {E W} (h : r.Post P E W) {c s}
    (e : r = .raised c s) : E c s := by subst e; exact h

theorem Res.Post.of_waiting {r : Res α} {P : α → State → Prop} {E W} (h : r.Post P E W) {q s}
    (e : r = .waiting q s) : W q s := by subst e; exact h

/-! ## The frame relations are preorders -/

theorem WriterOnly.refl (s : State) : WriterOnly s s := rfl
theorem EncoderOnly.refl (s : State) : EncoderOnly s s := rfl
theorem ReaderOnly.refl (s : State) : ReaderOnly s s := rfl
theorem DecoderOnly.refl (s : State) : DecoderOnly s s := rfl
theorem StoreOnly.refl (s : State) : StoreOnly s s := rfl

theorem WriterOnly.trans {s t u : State} (h : WriterOnly s t) (k : WriterOnly t u) : WriterOnly s u := by
  unfold WriterOnly at *; rw [k, h]
theorem EncoderOnly.trans {s t u : State} (h : EncoderOnly s t) (k : EncoderOnly t u) : EncoderOnly s u := by
  unfold EncoderOnly at *; rw [k, h]
theorem ReaderOnly.trans {s t u : State} (h : ReaderOnly s t) (k : ReaderOnly t u) : ReaderOnly s u := by
  unfold ReaderOnly at *; rw [k, h]
theorem DecoderOnly.trans {s t u : State} (h : DecoderOnly s t) (k : DecoderOnly t u) : DecoderOnly s u := by
  unfold DecoderOnly at *; rw [k, h]
theorem StoreOnly.trans {s t u : State} (h : StoreOnly s t) (k : StoreOnly t u) : StoreOnly s u := by
  unfold StoreOnly at *; rw [k, h]

theorem WriterOnly.toEncoder {s t : State} (h : WriterOnly s t) : EncoderOnly s t := by
  unfold WriterOnly at h; unfold EncoderOnly; rw [h]
theorem ReaderOnly.toDecoder {s t : State} (h : ReaderOnly s t) : DecoderOnly s t := by
  unfold ReaderOnly at h; unfold DecoderOnly; rw [h]

end Sys2Proof.Machine
end

