-- ==== Sys2Proof/Laws/Writer.lean ====
section
/-! SUPPORT. What the bit writer can do (40_bitstream.md R101, R102), said once for the coder to cite. -/

namespace Sys2Proof.Machine

/-- The sink's answers are used up from the front, and its bytes grow at the end (R70). -/
def SinkMoves (s t : State) : Prop := t.env.sink <:+ s.env.sink ∧ s.env.sunk <+: t.env.sunk

theorem SinkMoves.refl (s : State) : SinkMoves s s := ⟨List.suffix_refl _, List.prefix_refl _⟩
theorem SinkMoves.trans {s t u : State} (h : SinkMoves s t) (k : SinkMoves t u) : SinkMoves s u :=
  ⟨k.1.trans h.1, h.2.trans k.2⟩

/-- The sink accepted each of the bytes that it has been sent between s and t, one answer for each (R70). -/
def SinkTook (s t : State) : Prop :=
  ∃ k, t.env.sunk.length = s.env.sunk.length + k ∧ t.env.sink = s.env.sink.drop k ∧ SinkTakes k s

theorem SinkTook.refl (s : State) : SinkTook s s := ⟨0, rfl, rfl, fun a m => by simp at m⟩

theorem SinkTook.trans {s t u : State} (h : SinkTook s t) (k : SinkTook t u) : SinkTook s u := by
  obtain ⟨m, h1, h2, h3⟩ := h
  obtain ⟨n, k1, k2, k3⟩ := k
  refine ⟨m + n, by omega, by rw [k2, h2, List.drop_drop], fun a ha => ?_⟩
  rw [List.take_add, List.mem_append] at ha
  exact ha.elim (h3 a) fun ha => k3 a (h2 ▸ ha)

theorem SinkTook.takes {s t : State} (h : SinkTook s t) : SinkTakes (t.env.sunk.length - s.env.sunk.length) s := by
  obtain ⟨k, h1, -, h3⟩ := h
  rwa [h1, Nat.add_sub_cancel_left]

/-- What the sink answers ends a run of takings: the two cannot meet. -/
theorem SinkTakes.not_stops {n : Nat} {s : State} (h : SinkTakes n s) {a : SnkAnswer} (ha : a ≠ .accept) :
    ¬ SinkStops a n s := by
  rintro ⟨k, hk, -, e⟩
  exact ha (h a (List.mem_of_getElem? (i := k) (by rw [List.getElem?_take, if_pos hk]; exact e)))

theorem SinkStops.mem {a : SnkAnswer} {n : Nat} {s : State} (h : SinkStops a n s) : a ∈ s.env.sink := by
  obtain ⟨k, -, -, e⟩ := h
  exact List.mem_of_getElem? e

theorem SinkStops.unique {a b : SnkAnswer} {m n : Nat} {s : State} (h : SinkStops a m s) (k : SinkStops b n s)
    (ha : a ≠ .accept) (hb : b ≠ .accept) : a = b := by
  obtain ⟨i, -, h2, h3⟩ := h
  obtain ⟨j, -, k2, k3⟩ := k
  rcases Nat.lt_trichotomy i j with hl | rfl | hl
  · exact absurd ⟨i, hl, h2, h3⟩ (k2.not_stops ha)
  · rw [h3] at k3; exact Option.some.inj k3
  · exact absurd ⟨j, hl, k2, k3⟩ (h2.not_stops hb)

/-- The sink takes the next `n` bytes, or stops at one of them. -/
theorem sink_cases (n : Nat) (s : State) : SinkTakes n s ∨ SinkStops .fail n s ∨ SinkStops .silent n s := by
  induction n with
  | zero => exact Or.inl fun a m => by simp at m
  | succ n ih =>
    have up : ∀ a, SinkStops a n s → SinkStops a (n + 1) s :=
      fun a ⟨k, h1, h2, h3⟩ => ⟨k, Nat.lt_succ_of_lt h1, h2, h3⟩
    rcases ih with h | h | h
    · cases e : s.env.sink[n]? with
      | none =>
        refine Or.inl fun a m => h a ?_
        rw [List.getElem?_eq_none_iff] at e
        rwa [List.take_of_length_le (by omega), ← List.take_of_length_le e] at m
      | some v =>
        cases v with
        | accept =>
          refine Or.inl fun a m => ?_
          rw [List.take_add_one, e, List.mem_append] at m
          exact m.elim (h a) (by simp)
        | fail => exact Or.inr (Or.inl ⟨n, Nat.lt_succ_self n, h, e⟩)
        | silent => exact Or.inr (Or.inr ⟨n, Nat.lt_succ_self n, h, e⟩)
    · exact Or.inr (Or.inl (up _ h))
    · exact Or.inr (Or.inr (up _ h))

/-- The sink stops the writer at one of the bytes that the next `j` bits fill. -/
def Blocked (a : SnkAnswer) (s : State) (j : Nat) : Prop := SinkStops a ((s.outN + j) / 8) s

theorem Blocked.mono {a : SnkAnswer} {s : State} {i j : Nat} (h : Blocked a s i) (hij : i ≤ j) : Blocked a s j := by
  obtain ⟨k, h1, h2, h3⟩ := h
  exact ⟨k, Nat.lt_of_lt_of_le h1 (Nat.div_le_div_right (by omega)), h2, h3⟩

/-- `bits` were written between s and t by the encoder (R101, R144). -/
structure Wrote (s t : State) (bits : List Bool) : Prop where
  only : EncoderOnly s t
  moves : SinkMoves s t
  room : t.outN ≤ 7
  written : writtenBits t = writtenBits s ++ bits
  counted : t.bitsOut = s.bitsOut + BitVec.ofNat 32 bits.length
  bytes : t.bytesOut = s.bytesOut + BitVec.ofNat 32 (t.env.sunk.length - s.env.sunk.length)
  took : SinkTook s t

/-- The encoder stopped between s and t because of the sink. -/
structure SinkStopped (s t : State) : Prop where
  only : EncoderOnly s t
  moves : SinkMoves s t
  outN : t.outN ≤ 8

theorem Wrote.stopped {s t : State} {bits : List Bool} (h : Wrote s t bits) : SinkStopped s t :=
  ⟨h.only, h.moves, by have := h.room; omega⟩

theorem Wrote.trans {s t u : State} {b c : List Bool} (h : Wrote s t b) (k : Wrote t u c) :
    Wrote s u (b ++ c) :=
  ⟨h.only.trans k.only, h.moves.trans k.moves, k.room, by rw [k.written, h.written, List.append_assoc], by
    rw [k.counted, h.counted, List.length_append, BitVec.ofNat_add, BitVec.add_assoc], by
    have h1 := h.moves.2.length_le
    have h2 := k.moves.2.length_le
    rw [k.bytes, h.bytes, BitVec.add_assoc, ← BitVec.ofNat_add]
    congr 2; omega, h.took.trans k.took⟩

theorem SinkStopped.after {s t u : State} {b : List Bool} (h : Wrote s t b) (k : SinkStopped t u) :
    SinkStopped s u :=
  ⟨h.only.trans k.only, h.moves.trans k.moves, k.outN⟩

theorem Wrote.nil {s : State} (h : s.outN ≤ 7) : Wrote s s [] :=
  ⟨.refl s, .refl s, h, by simp, by simp, by simp, .refl s⟩

theorem writtenBits_length {s : State} (h : s.outN ≤ 8) :
    (writtenBits s).length = 8 * s.env.sunk.length + s.outN := by
  have e : ∀ l : List Byte, (l.flatMap byteBits).length = 8 * l.length := by
    intro l
    induction l with
    | nil => rfl
    | cons x l ih => simp only [List.flatMap_cons, List.length_append, ih, List.length_cons, byteBits]; simp; omega
  have e8 : (byteBits s.outBuf).length = 8 := rfl
  unfold writtenBits lastBits
  rw [List.length_append, e, List.length_drop, e8]
  omega

/-- A writer stopped after it had written `b` was stopped among the bytes of `b` and what followed. -/
theorem Wrote.blocked {s t : State} {b : List Bool} (h : Wrote s t b) (hs : s.outN ≤ 7) {a : SnkAnswer} {j : Nat}
    (m : Blocked a t j) : Blocked a s (b.length + j) := by
  obtain ⟨g, h1, h2, h3⟩ := h.took
  obtain ⟨k, k1, k2, k3⟩ := m
  have e := congrArg List.length h.written
  have ht := h.room
  rw [List.length_append, writtenBits_length (by omega), writtenBits_length (by omega)] at e
  refine ⟨g + k, by omega, fun a ha => ?_, by rw [← k3, h2, List.getElem?_drop]⟩
  rw [List.take_add, List.mem_append] at ha
  exact ha.elim (h3 a) fun ha => k2 a (h2 ▸ ha)

/-- The sink accepted every byte that the bits filled. -/
theorem SinkTook.filled {s t : State} (h : SinkTook s t) {bits : List Bool} (hs : s.outN ≤ 7) (ht : t.outN ≤ 7)
    (hw : writtenBits t = writtenBits s ++ bits) : SinkTakes ((s.outN + bits.length) / 8) s := by
  have e := congrArg List.length hw
  rw [List.length_append, writtenBits_length (by omega), writtenBits_length (by omega)] at e
  have := h.takes
  rwa [show t.env.sunk.length - s.env.sunk.length = (s.outN + bits.length) / 8 by omega] at this

/-- What `SnkWrite` can do (R70). -/
theorem snkWrite_post (b : Byte) (s : State) : (snkWrite b s).Post
    (fun accepted t => t = { s with env := { s.env with sink := t.env.sink, sunk := t.env.sunk } } ∧
      t.env.sink <:+ s.env.sink ∧
      (if accepted then t.env.sunk = s.env.sunk ++ [b] ∧ SinkTook s t
       else t.env.sunk = s.env.sunk ∧ SinkStops .fail 1 s))
    (fun _ _ => False)
    (fun q t => q = .snkWrite b ∧ t = s ∧ SinkStops .silent 1 s) := by
  unfold snkWrite
  split
  · next h => exact ⟨rfl, List.suffix_refl _, by
      rw [if_pos rfl]; exact ⟨rfl, 1, by simp, by simp [h], by simp [SinkTakes, h]⟩⟩
  · next rest h =>
    exact ⟨rfl, h ▸ List.suffix_cons _ _, by
      rw [if_pos rfl]; exact ⟨rfl, 1, by simp, by simp [h], by simp [SinkTakes, h]⟩⟩
  all_goals simp_all [List.suffix_cons, SinkStops, SinkTakes]

theorem lastBits_push (n : Nat) (buf : Byte) (b : Bool) (h : n ≤ 7) :
    lastBits (n + 1) (pushBit buf b) = lastBits n buf ++ [b] := by
  have e : ∀ i, i < 7 → (pushBit buf b).getLsbD (i + 1) = buf.getLsbD i := by
    intro i hi
    simp [pushBit, BitVec.getLsbD_or, BitVec.getLsbD_shiftLeft, BitVec.getLsbD_setWidth]
    omega
  have e0 : (pushBit buf b).getLsbD 0 = b := by
    simp [pushBit]
  have := e 0; have := e 1; have := e 2; have := e 3; have := e 4; have := e 5; have := e 6
  interval_cases n <;> simp_all [lastBits, byteBits]

/-- What sending OUT_BUF can do, once it holds 8 bits (R101). -/
theorem sendOutBuf_post (s : State) : (sendOutBuf s).Post
    (fun _ t => WriterOnly s t ∧ SinkMoves s t ∧ t.outN = 0 ∧ t.outBuf = 0 ∧
      t.env.sunk = s.env.sunk ++ [s.outBuf] ∧ t.bitsOut = s.bitsOut ∧ t.bytesOut = s.bytesOut + 1 ∧ SinkTook s t)
    (fun c t => c = .sinkFail ∧ SinkStops .fail 1 s ∧ WriterOnly s t ∧ SinkMoves s t ∧
      t.outN = s.outN ∧ t.bitsOut = s.bitsOut)
    (fun _ t => SinkStops .silent 1 s ∧ t = s) := by
  unfold sendOutBuf
  refine (snkWrite_post s.outBuf s).andThen ?_ ?_ ?_
  · rintro accepted t ⟨ht, hs, ha⟩
    cases accepted
    · simp only [Bool.false_eq_true, if_false] at ha
      simp only [Bool.false_eq_true, if_false, post_raised]
      refine ⟨by trivial, ha.2, ?_, ⟨hs, by rw [ha.1]⟩, by rw [ht], by rw [ht]⟩
      unfold WriterOnly; rw [ht]
    · simp only [if_true] at ha
      simp only [if_true, post_ok]
      refine ⟨?_, ⟨hs, by rw [ha.1]; exact List.prefix_append _ _⟩, by trivial, by trivial, ha.1, by rw [ht],
        by rw [ht], ha.2⟩
      unfold WriterOnly; rw [ht]
  · intro c t h; exact h.elim
  · rintro q t ⟨-, h, m⟩; exact ⟨m, h⟩

/-- What `writeBit` can do (R101). -/
theorem writeBit_post (b : Bool) (s : State) (h : s.outN ≤ 7) : (writeBit b s).Post
    (fun _ t => WriterOnly s t ∧ Wrote s t [b])
    (fun c t => c = .sinkFail ∧ Blocked .fail s 1 ∧ WriterOnly s t ∧ SinkStopped s t ∧
      t.bitsOut = s.bitsOut + 1 ∧ t.bytesOut = s.bytesOut)
    (fun _ t => Blocked .silent s 1 ∧ WriterOnly s t ∧ SinkStopped s t) := by
  have push := lastBits_push s.outN s.outBuf b h
  unfold writeBit
  dsimp only
  split
  · next h8 =>
    replace h8 : s.outN = 7 := by simpa using h8
    have hblocked : ∀ {a}, SinkStops a 1 s → Blocked a s 1 := by
      intro a m; unfold Blocked; rw [h8]; exact m
    rw [h8] at push
    have hbyte : byteBits (pushBit s.outBuf b) = lastBits 7 s.outBuf ++ [b] := by
      rw [← push]; simp [lastBits]
    unfold sendOutBuf
    refine (snkWrite_post _ _).andThen ?_ ?_ ?_
    · rintro accepted t ⟨ht, hs, ha⟩
      simp only at hs ha ht
      have hw : WriterOnly s t := by unfold WriterOnly; rw [ht]
      cases accepted
      · simp only [Bool.false_eq_true, if_false] at ha
        simp only [Bool.false_eq_true, if_false, post_raised]
        refine ⟨by trivial, hblocked ha.2, hw, ⟨hw.toEncoder, ⟨hs, by rw [ha.1]⟩, ?_⟩, by rw [ht], by rw [ht]⟩
        rw [ht]; simp only; omega
      · simp only [if_true] at ha
        simp only [if_true, post_ok]
        have hw' : WriterOnly s { t with bytesOut := t.bytesOut + 1, outBuf := 0, outN := 0 } := by
          unfold WriterOnly; rw [ht]
        obtain ⟨ha, htook⟩ := ha
        refine ⟨hw', hw'.toEncoder, ⟨hs, by rw [ha]; exact List.prefix_append _ _⟩, by simp, ?_, ?_, ?_, htook⟩
        · have hz : lastBits 0 (0 : Byte) = [] := rfl
          simp only [writtenBits, ha, List.flatMap_append, h8, List.flatMap_cons, List.flatMap_nil, hbyte, hz,
            List.append_nil, List.append_assoc]
        · rw [ht]; simp
        · simp only [ha, List.length_append, List.length_singleton]; rw [ht]; simp
    · intro c t h; exact h.elim
    · rintro q t ⟨-, ht, m⟩
      have hw : WriterOnly s t := by unfold WriterOnly; rw [ht]
      refine ⟨hblocked m, hw, hw.toEncoder, ⟨by rw [ht], by rw [ht]⟩, ?_⟩
      rw [ht]; simp only; omega
  · next h8 =>
    simp only [post_ok]
    refine ⟨rfl, rfl, ⟨List.suffix_refl _, List.prefix_refl _⟩, ?_, ?_, ?_, ?_, .refl _⟩
    · simp only at h8 ⊢; omega
    · simp only [writtenBits, push, List.append_assoc]
    · simp
    · simp

/-- What `writeBit` n times can do (R144). -/
theorem writeBits_post (n : Nat) (b : Bool) (s : State) (h : s.outN ≤ 7) : (writeBits n b s).Post
    (fun _ t => WriterOnly s t ∧ Wrote s t (List.replicate n b))
    (fun c t => c = .sinkFail ∧ Blocked .fail s n ∧ WriterOnly s t ∧ SinkStopped s t)
    (fun _ t => Blocked .silent s n ∧ WriterOnly s t ∧ SinkStopped s t) := by
  induction n generalizing s with
  | zero => exact ⟨.refl s, .nil h⟩
  | succ n ih =>
    refine (writeBit_post b s h).andThen ?_ ?_ ?_
    · rintro - t ⟨hw, ht⟩
      have back : ∀ {a}, Blocked a t n → Blocked a s (n + 1) := fun m => Nat.add_comm 1 n ▸ ht.blocked h m
      refine (ih t ht.room).imp ?_ ?_ ?_
      · rintro - u ⟨hw', hu⟩
        exact ⟨hw.trans hw', by simpa [List.replicate_succ] using ht.trans hu⟩
      · rintro c u ⟨e, m, hw', hu⟩; exact ⟨e, back m, hw.trans hw', .after ht hu⟩
      · rintro q u ⟨m, hw', hu⟩; exact ⟨back m, hw.trans hw', .after ht hu⟩
    · rintro c t ⟨e, m, hw, ht, -, -⟩; exact ⟨e, m.mono (by omega), hw, ht⟩
    · rintro q t ⟨m, k⟩; exact ⟨m.mono (by omega), k⟩

/-- What `closeOut` can do (R102): the last byte goes out padded with zeros, and nothing is left over. -/
theorem closeOut_post (s : State) (h : s.outN ≤ 7) : (closeOut s).Post
    (fun _ t => WriterOnly s t ∧ SinkMoves s t ∧ SinkTook s t ∧ t.outN = 0 ∧ t.bitsOut = s.bitsOut ∧
      t.bytesOut = s.bytesOut + BitVec.ofNat 32 (t.env.sunk.length - s.env.sunk.length) ∧
      (t.env.sunk.flatMap byteBits) =
        writtenBits s ++ List.replicate (if s.outN = 0 then 0 else 8 - s.outN) false)
    (fun c t => c = .sinkFail ∧ Blocked .fail s 7 ∧ WriterOnly s t ∧ SinkStopped s t)
    (fun _ t => Blocked .silent s 7 ∧ WriterOnly s t ∧ SinkStopped s t) := by
  unfold closeOut
  split
  · next hn =>
    have back : ∀ {a}, SinkStops a 1 s → Blocked a s 7 := by
      intro a m; unfold Blocked; rwa [show (s.outN + 7) / 8 = 1 by omega]
    refine (sendOutBuf_post _).imp ?_ ?_ ?_
    · rintro - t ⟨hw, hm, h0, -, hs, hb, hbytes, htook⟩
      have hw' : WriterOnly s t := by unfold WriterOnly at hw ⊢; rw [hw]
      refine ⟨hw', hm, htook, h0, hb, by rw [hbytes, hs]; simp, ?_⟩
      rw [hs]
      simp only [writtenBits, List.flatMap_append, List.flatMap_cons, List.flatMap_nil, List.append_nil,
        List.append_assoc]
      congr 1
      have : s.outN ≠ 0 := by omega
      rw [if_neg this]
      have e : ∀ i, i < 8 → (s.outBuf <<< (8 - s.outN)).getLsbD i =
          (!decide (i < 8 - s.outN) && s.outBuf.getLsbD (i - (8 - s.outN))) := by
        intro i hi; rw [BitVec.getLsbD_shiftLeft]; simp [hi]
      have hn7 : s.outN ≤ 7 := h
      unfold byteBits lastBits byteBits
      rw [e 7 (by omega), e 6 (by omega), e 5 (by omega), e 4 (by omega), e 3 (by omega), e 2 (by omega),
        e 1 (by omega), e 0 (by omega)]
      generalize s.outN = n at *
      interval_cases n <;> simp [List.replicate]
    · rintro c t ⟨e, m, hw, hm, hn', -⟩
      have hw' : WriterOnly s t := by unfold WriterOnly at hw ⊢; rw [hw]
      exact ⟨e, back m, hw', hw'.toEncoder, hm, by rw [hn']; simp only; omega⟩
    · rintro q t ⟨m, ht⟩
      have hw' : WriterOnly s t := by unfold WriterOnly; rw [ht]
      exact ⟨back m, hw', hw'.toEncoder, ⟨by rw [ht], by rw [ht]⟩, by
        rw [ht]; exact Nat.le_succ_of_le h⟩
  · next hn =>
    have h0 : s.outN = 0 := by omega
    exact ⟨.refl s, .refl s, .refl s, h0, rfl, by simp, by simp [writtenBits, h0, lastBits, byteBits]⟩

end Sys2Proof.Machine
end

