-- ==== Sys2Proof/Laws/Encoder.lean ====
section
/-! SUPPORT. What the encoder's micro-operations can do (42_arith_coder.md R142 to R149), said once for the
commands to cite. -/

namespace Sys2Proof.Machine

/-! ## What the frames keep -/

theorem WriterOnly.coder {s t : State} (h : WriterOnly s t) :
    t.low = s.low ∧ t.high = s.high ∧ t.pending = s.pending := by
  unfold WriterOnly at h; rw [h]; exact ⟨rfl, rfl, rfl⟩

theorem WriterOnly.build {s t : State} (h : WriterOnly s t) : t.build = s.build := by
  unfold WriterOnly at h; rw [h]

theorem EncoderOnly.build {s t : State} (h : EncoderOnly s t) : t.build = s.build := by
  unfold EncoderOnly at h; rw [h]

theorem EncoderOnly.of_coder (s : State) (l h p : Nat) :
    EncoderOnly s { s with low := l, high := h, pending := p } := rfl

theorem Wrote.coder {s : State} (h : s.outN ≤ 7) (l u p : Nat) :
    Wrote s { s with low := l, high := u, pending := p } [] :=
  ⟨rfl, .refl s, h, by simp [writtenBits], by simp, by simp, .refl s⟩

theorem SinkStopped.coder {s : State} (h : s.outN ≤ 8) (l u p : Nat) :
    SinkStopped s { s with low := l, high := u, pending := p } :=
  ⟨rfl, .refl s, h⟩

/-! ## emit -/

/-- What `emit` can do (R144). -/
theorem emit_post (b : Bool) (s : State) (h : s.outN ≤ 7) : (emit b s).Post
    (fun _ t => Wrote s t (b :: List.replicate s.pending (!b)) ∧ t.low = s.low ∧ t.high = s.high ∧ t.pending = 0)
    (fun c t => c = .sinkFail ∧ Blocked .fail s (1 + s.pending) ∧ SinkStopped s t ∧
      t.low = s.low ∧ t.high = s.high ∧ t.pending = s.pending)
    (fun _ t => Blocked .silent s (1 + s.pending) ∧ SinkStopped s t ∧
      t.low = s.low ∧ t.high = s.high ∧ t.pending = s.pending) := by
  unfold emit
  refine (writeBit_post b s h).andThen ?_ ?_ ?_
  · rintro - t ⟨hw, ht⟩
    have hp := hw.coder
    have back : ∀ {a}, Blocked a t t.pending → Blocked a s (1 + s.pending) := fun m => hp.2.2 ▸ ht.blocked h m
    refine (writeBits_post t.pending (!b) t ht.room).andThen ?_ ?_ ?_
    · rintro - u ⟨hw', hu⟩
      have hp' := hw'.coder
      have hall := (ht.trans hu).trans (Wrote.coder hu.room u.low u.high 0)
      refine ⟨by simpa [hp.2.2] using hall, ?_, ?_, rfl⟩ <;> simp [hp, hp']
    · rintro c u ⟨e, m, hw', hu⟩
      have hp' := hw'.coder
      refine ⟨e, back m, .after ht hu, ?_, ?_, ?_⟩ <;> simp [hp, hp']
    · rintro q u ⟨m, hw', hu⟩
      have hp' := hw'.coder
      refine ⟨back m, .after ht hu, ?_, ?_, ?_⟩ <;> simp [hp, hp']
  · rintro c t ⟨e, m, hw, ht, -, -⟩
    exact ⟨e, m.mono (by omega), ht, hw.coder⟩
  · rintro q t ⟨m, hw, ht⟩
    exact ⟨m.mono (by omega), ht, hw.coder⟩

/-! ## Normalisation -/

/-- The encoder stopped between s and t with its registers in range. -/
structure EncStopped (s t : State) : Prop where
  stopped : SinkStopped s t
  low : t.low < s.build.full
  high : t.high < s.build.full
  pending : t.pending ≤ s.build.pendingMax

theorem EncStopped.after {s t u : State} {b : List Bool} (h : Wrote s t b) (k : EncStopped t u) :
    EncStopped s u := by
  have hb := h.only.build
  exact ⟨.after h k.stopped, hb ▸ k.low, hb ▸ k.high, hb ▸ k.pending⟩

/-- What the encoder's shift loop can do (R145). -/
theorem shiftLoopEnc_post (n : Nat) (s : State) (hb : s.build.legal = true) (h : s.outN ≤ 7)
    (hl : s.low < s.build.full) (hh : s.high < s.build.full) (hp : s.pending ≤ s.build.pendingMax) :
    (shiftLoopEnc n s).Post
    (fun _ t => Wrote s t (expandPending s.pending (shiftBits s.build n s.low s.high)) ∧
      (t.low, t.high) = normShift s.build n s.low s.high ∧
      t.pending = if shiftBits s.build n s.low s.high = [] then s.pending else 0)
    (fun c t => c = .sinkFail ∧ Blocked .fail s (expandPending s.pending (shiftBits s.build n s.low s.high)).length ∧
      EncStopped s t)
    (fun _ t => Blocked .silent s (expandPending s.pending (shiftBits s.build n s.low s.high)).length ∧
      EncStopped s t) := by
  induction n generalizing s with
  | zero =>
    exact ⟨.nil h, rfl, by simp [shiftBits]⟩
  | succ n ih =>
    unfold shiftLoopEnc normShift shiftBits
    split
    · refine (emit_post _ s h).andThen ?_ ?_ ?_
      · rintro - t ⟨hw, e1, e2, e3⟩
        have eb := hw.only.build
        have hw2 := hw.trans (Wrote.coder hw.room (shiftLow t.build t.low) (shiftHigh t.build t.high) t.pending)
        have back : ∀ {a}, Blocked a t (expandPending t.pending
              (shiftBits t.build n (shiftLow t.build t.low) (shiftHigh t.build t.high))).length →
            Blocked a s (expandPending s.pending (topBit s.build s.low ::
              shiftBits s.build n (shiftLow s.build s.low) (shiftHigh s.build s.high))).length := by
          intro a m
          have := hw.blocked h m
          rw [e3, expandPending_zero, eb, e1, e2] at this
          simpa [expandPending, Nat.add_assoc, Nat.add_comm, Nat.add_left_comm] using this
        refine (ih { t with low := shiftLow t.build t.low, high := shiftHigh t.build t.high } (eb ▸ hb) hw.room
            (shiftLow_lt _) ?_ ?_).imp ?_ ?_ ?_
        · exact shiftHigh_lt (eb ▸ hb) _
        · simp [e3]
        · rintro - u ⟨hu, en, ep⟩
          simp only [e3, expandPending_zero, eb, e1, e2] at hu en ep hw2
          refine ⟨?_, en, ?_⟩
          · simpa [expandPending] using hw2.trans hu
          · simpa using ep
        · rintro c u ⟨e, m, hu⟩
          exact ⟨e, back m, .after hw2 hu⟩
        · rintro q u ⟨m, hu⟩
          exact ⟨back m, .after hw2 hu⟩
      · rintro c t ⟨e, m, ht, e1, e2, e3⟩
        exact ⟨e, m.mono (by simp [expandPending]; omega), ht, e1 ▸ hl, e2 ▸ hh, e3 ▸ hp⟩
      · rintro q t ⟨m, ht, e1, e2, e3⟩
        exact ⟨m.mono (by simp [expandPending]; omega), ht, e1 ▸ hl, e2 ▸ hh, e3 ▸ hp⟩
    · exact ⟨.nil h, rfl, by simp⟩

/-- What the encoder's E3 loop can do (R145, R157). -/
theorem e3LoopEnc_post (n : Nat) (s : State) (h : s.outN ≤ 7)
    (hl : s.low < s.build.full) (hh : s.high < s.build.full) (hp : s.pending ≤ s.build.pendingMax) :
    (e3LoopEnc n s).Post
    (fun _ t => t = { s with
        low := (normE3 s.build n s.low s.high).1, high := (normE3 s.build n s.low s.high).2
        pending := s.pending + e3Count s.build n s.low s.high } ∧
      s.pending + e3Count s.build n s.low s.high ≤ s.build.pendingMax)
    (fun c t => c = .pendingFull ∧ s.build.pendingMax < s.pending + e3Count s.build n s.low s.high ∧
      t = { s with low := t.low, high := t.high, pending := t.pending } ∧ EncStopped s t)
    (fun _ _ => False) := by
  induction n generalizing s with
  | zero => exact ⟨by simp [normE3, e3Count], by simpa [e3Count] using hp⟩
  | succ n ih =>
    unfold e3LoopEnc normE3 e3Count
    split
    · unfold bumpPending
      split
      · next hfull =>
        refine ⟨rfl, by omega, rfl, SinkStopped.coder (by omega) s.low s.high s.pending, hl, hh, hp⟩
      · next hfull =>
        dsimp only [andThen_ok]
        refine (ih { s with
            low := e3Low s.build s.low, high := e3High s.build s.high, pending := s.pending + 1 }
          h (e3Low_lt _ _) (e3High_lt _ _) ?_).imp ?_ ?_ ?_
        · simp only; omega
        · rintro - t ⟨ht, hm⟩
          refine ⟨?_, ?_⟩
          · rw [ht]; simp only [Nat.add_assoc, Nat.add_comm 1]
          · simp only at hm; omega
        · rintro c t ⟨e, m, ht, hs⟩
          refine ⟨e, by simp only at m; omega, by rw [ht], ?_⟩
          exact .after (Wrote.coder h _ _ _) hs
        · exact fun q t hf => hf
    · exact ⟨by simp, by simpa using hp⟩

/-- What `normEnc` can do (R145): the range is normalised as `normRange` says, and the settled bits are written. -/
theorem normEnc_post (s : State) (hb : s.build.legal = true) (h : s.outN ≤ 7)
    (hl : s.low < s.build.full) (hh : s.high < s.build.full) (hp : s.pending ≤ s.build.pendingMax) :
    (normEnc s).Post
    (fun _ t => Wrote s t (expandPending s.pending (shiftBits s.build s.build.width s.low s.high)) ∧
      (t.low, t.high) = normRange s.build s.low s.high ∧ t.pending ≤ s.build.pendingMax ∧
      t.pending = (if shiftBits s.build s.build.width s.low s.high = [] then s.pending else 0) +
        e3Count s.build s.build.width (normShift s.build s.build.width s.low s.high).1
          (normShift s.build s.build.width s.low s.high).2)
    (fun c t => EncStopped s t ∧ ((c = .sinkFail ∧
        Blocked .fail s (expandPending s.pending (shiftBits s.build s.build.width s.low s.high)).length) ∨
      (c = .pendingFull ∧
        SinkTakes ((s.outN + (expandPending s.pending (shiftBits s.build s.build.width s.low s.high)).length) / 8) s ∧
        s.build.pendingMax < (if shiftBits s.build s.build.width s.low s.high = [] then s.pending else 0) +
        e3Count s.build s.build.width (normShift s.build s.build.width s.low s.high).1
          (normShift s.build s.build.width s.low s.high).2)))
    (fun _ t => EncStopped s t ∧
      Blocked .silent s (expandPending s.pending (shiftBits s.build s.build.width s.low s.high)).length) := by
  unfold normEnc
  refine (shiftLoopEnc_post _ s hb h hl hh hp).andThen ?_ ?_ ?_
  · rintro - t ⟨hw, en, ep⟩
    have eb := hw.only.build
    have e1 : t.low = (normShift s.build s.build.width s.low s.high).1 := by rw [← en]
    have e2 : t.high = (normShift s.build s.build.width s.low s.high).2 := by rw [← en]
    have hpt : t.pending ≤ s.pending := by rw [ep]; split <;> omega
    have hfit : t.low < t.build.full ∧ t.high < t.build.full := by
      have := normShift_fit hb s.build.width hl hh
      rw [eb, e1, e2]; exact this
    refine (e3LoopEnc_post t.build.width t hw.room hfit.1 hfit.2 (by rw [eb]; omega)).imp ?_ ?_ ?_
    · rintro - u ⟨hu, hm⟩
      refine ⟨?_, ?_, ?_, ?_⟩
      · have := hw.trans (Wrote.coder hw.room u.low u.high u.pending)
        rw [hu] at this ⊢
        simpa using this
      · rw [hu]; simp only [normRange, eb, e1, e2]
      · rw [hu]; simp only; rw [eb] at hm ⊢; exact hm
      · rw [hu]; simp only [eb, e1, e2, ep]
    · rintro c u ⟨e, m, -, hs⟩
      refine ⟨.after hw hs, Or.inr ⟨e, hw.took.filled h hw.room hw.written, ?_⟩⟩
      rw [eb, ep, e1, e2] at m
      exact m
    · exact fun q t hf => hf.elim
  · rintro c t ⟨e, m, hs⟩; exact ⟨hs, Or.inl ⟨e, m⟩⟩
  · rintro q t ⟨m, hs⟩; exact ⟨hs, m⟩

/-! ## Narrowing and coding -/

/-- The coder between micro-operations of an open session (R33): a normalised range of W-bit values. -/
structure RangeReady (s : State) : Prop where
  legal : s.build.legal = true
  norm : Normalised s.build s.low s.high
  high : s.high < s.build.full

theorem RangeReady.low {s : State} (h : RangeReady s) : s.low < s.build.full := by
  have := h.norm; have := h.high; unfold Normalised at *; omega

/-- The encoder between micro-operations of an open session. -/
structure EncReady (s : State) : Prop extends RangeReady s where
  pending : s.pending ≤ s.build.pendingMax
  room : s.outN ≤ 7

/-- The interval is one the coder accepts (R142). -/
def IntervalOk (b : Build) (cl ch tot : Nat) : Prop := totalOk b tot = true ∧ cl < ch ∧ ch ≤ tot

/-- LOW after narrowing to an interval (R142). -/
def nextLow (s : State) (cl tot : Nat) : Nat := narrowLow s.low s.high cl tot

/-- HIGH after narrowing to an interval (R142). -/
def nextHigh (s : State) (ch tot : Nat) : Nat := narrowHighSucc s.low s.high ch tot - 1

theorem next_range {s : State} (h : RangeReady s) {cl ch tot : Nat} (hi : IntervalOk s.build cl ch tot) :
    s.low ≤ nextLow s cl tot ∧ nextLow s cl tot ≤ nextHigh s ch tot ∧ nextHigh s ch tot ≤ s.high := by
  have := narrow_range h.legal h.norm hi.1 hi.2.1 hi.2.2
  unfold nextLow nextHigh
  omega

/-- What `narrow` can do on a normalised range (R142): subcause 3 does not arise. -/
theorem narrow_post {s : State} (h : RangeReady s) (cl ch tot : Nat) : (narrow cl ch tot s).Post
    (fun _ t => IntervalOk s.build cl ch tot ∧ t = { s with low := nextLow s cl tot, high := nextHigh s ch tot })
    (fun c t => t = s ∧ ((c = .badTotal ∧ totalOk s.build tot = false) ∨
      (c = .badInterval ∧ totalOk s.build tot = true ∧ ¬ (cl < ch ∧ ch ≤ tot))))
    (fun _ _ => False) := by
  unfold narrow
  split
  · next ht => exact ⟨rfl, Or.inl ⟨rfl, by simpa using ht⟩⟩
  · next ht =>
    replace ht : totalOk s.build tot = true := by simpa using ht
    split
    · next hi => exact ⟨rfl, Or.inr ⟨rfl, ht, hi⟩⟩
    · next hi =>
      have hi' : cl < ch ∧ ch ≤ tot := by simpa using hi
      have ok : IntervalOk s.build cl ch tot := ⟨ht, hi'⟩
      have hr := next_range h ok
      have hf := h.high
      have hn := narrow_range h.legal h.norm ht hi'.1 hi'.2
      split
      · omega
      · refine ⟨ok, ?_⟩
        unfold nextLow nextHigh at *
        rw [Nat.mod_eq_of_lt (by omega), Nat.mod_eq_of_lt (by omega)]

/-- The coding steps `l` ended with an error. -/
structure EncFailed (s : State) (l : List Interval) (c : Cause) (t : State) : Prop where
  stopped : EncStopped s t
  cause : (c = .sinkFail ∧ SinkStops .fail (filledBytes s l) s) ∨
    (c = .pendingFull ∧ ¬ PendingFits s.build l (Machine.coded s) ∧ SinkTakes (filledBytes s l) s)

/-- The encoder went from s to t as the coder as numbers says: `c.bits` were written. -/
structure Codes (s t : State) (c : Coded) : Prop where
  wrote : Wrote s t c.bits
  low : t.low = c.low
  high : t.high = c.high
  pending : t.pending = c.pending

theorem Codes.encodedTo {s t : State} {c : Coded} (h : Codes s t c) : EncodedTo s t c :=
  ⟨h.low, h.high, h.pending, h.wrote.written, h.wrote.counted, h.wrote.moves.2, h.wrote.bytes⟩

theorem Codes.bare {s t : State} {c : Coded} (h : Codes s t c) : c.bare = coded t :=
  bare_of _ _ _ c h.low.symm h.high.symm h.pending.symm

theorem Codes.trans {s t u : State} {c d : Coded} (h : Codes s t c) (k : Codes t u d) : Codes s u (c.after d) :=
  ⟨h.wrote.trans k.wrote, k.low, k.high, k.pending⟩

/-- Whether PENDING fits does not depend on what was done before. -/
theorem pendingFits_after (b : Build) (c d : Coded) (l : List Interval) :
    PendingFits b l (c.after d) ↔ PendingFits b l d := by
  induction l generalizing d with
  | nil => rfl
  | cons i l ih =>
    unfold PendingFits
    rw [code_after]
    exact and_congr Iff.rfl (ih _)

theorem Codes.fits_iff {s t : State} {c : Coded} (h : Codes s t c) (b : Build) (l : List Interval) :
    PendingFits b l c ↔ PendingFits b l (coded t) := by
  rw [← h.bare, ← pendingFits_after b c c.bare l, after_bare]

/-- Narrowing in numbers is `narrow` (R142). -/
theorem coded_narrow {s : State} (h : RangeReady s) (i : Interval) :
    (coded s).narrow i = ⟨nextLow s i.cl i.tot, nextHigh s i.ch i.tot, s.pending, [], 0, 0⟩ := by
  have hn := h.norm
  have e : s.high - s.low + 1 = rangeOf s.low s.high := by
    unfold Normalised at hn; unfold rangeOf; omega
  unfold Coded.narrow coded nextLow nextHigh narrowLow narrowHighSucc
  simp only [e]

/-- PENDING grows by at most W in a coding step (R146). -/
theorem code_pending (b : Build) (i : Interval) (c : Coded) (h : c.bits = []) :
    (c.code b i).pending ≤ c.pending + b.width := by
  obtain ⟨k, h1, h2, h3⟩ := norm_steps b b.width (c.narrow i)
  have e1 : (c.narrow i).bits = [] := h
  have e2 : (c.narrow i).pending = c.pending := rfl
  rw [e1, e2] at h3
  simp only [List.length_nil] at h3
  unfold Coded.code
  omega

/-- What `encodeInterval` can do (R147). -/
theorem encodeInterval_post {s : State} (h : EncReady s) (cl ch tot : Nat) : (encodeInterval cl ch tot s).Post
    (fun _ t => IntervalOk s.build cl ch tot ∧ EncReady t ∧ Codes s t ((coded s).code s.build ⟨cl, ch, tot⟩))
    (fun c t => (¬ IntervalOk s.build cl ch tot ∧ t = s ∧
        c = (if totalOk s.build tot then .badInterval else .badTotal)) ∨
      (IntervalOk s.build cl ch tot ∧ EncFailed s [⟨cl, ch, tot⟩] c t))
    (fun _ t => IntervalOk s.build cl ch tot ∧ EncStopped s t ∧
      SinkStops .silent (filledBytes s [⟨cl, ch, tot⟩]) s) := by
  unfold encodeInterval
  refine (narrow_post h.toRangeReady cl ch tot).andThen ?_ ?_ ?_
  · rintro - t ⟨hi, ht⟩
    have hr := next_range h.toRangeReady hi
    have hf := h.high
    have hw := Wrote.coder h.room (nextLow s cl tot) (nextHigh s ch tot) s.pending
    have hp := h.pending
    have hroom := h.room
    have hn := norm_eq h.legal hr.2.1 (by omega) s.pending
    rw [← coded_narrow h.toRangeReady ⟨cl, ch, tot⟩] at hn
    change _ ∧ ((coded s).code s.build ⟨cl, ch, tot⟩).bits = _ ∧
      ((coded s).code s.build ⟨cl, ch, tot⟩).pending = _ ∧ _ at hn
    have hfill : filledBytes s [⟨cl, ch, tot⟩] = (s.outN + (expandPending s.pending
        (shiftBits s.build s.build.width (nextLow s cl tot) (nextHigh s ch tot))).length) / 8 := by
      rw [filledBytes, sent_one, hn.2.1]
    rw [hfill]
    subst ht
    refine (normEnc_post { s with low := nextLow s cl tot, high := nextHigh s ch tot } h.legal hroom
      ?_ ?_ hp).imp ?_ ?_ ?_
    · simp only; omega
    · simp only; omega
    · rintro - u ⟨hu, en, hm, ep⟩
      simp only at hu en hm ep
      have hall := hw.trans hu
      have eb := hall.only.build
      have hnr := normRange_spec h.legal hr.2.1 (by omega)
      have e1 : u.low = (normRange s.build (nextLow s cl tot) (nextHigh s ch tot)).1 := by rw [← en]
      have e2 : u.high = (normRange s.build (nextLow s cl tot) (nextHigh s ch tot)).2 := by rw [← en]
      obtain ⟨c1, c2, c3, -⟩ := hn
      refine ⟨hi, ⟨⟨eb ▸ h.legal, ?_, ?_⟩, eb ▸ hm, hall.room⟩, ⟨by rw [c2]; simpa using hall, ?_, ?_, ?_⟩⟩
      · rw [eb, e1, e2]; exact hnr.1
      · rw [eb, e2]; exact hnr.2
      · rw [e1, ← c1]; rfl
      · rw [e2, ← c1]; rfl
      · rw [ep, ← c3]
    · rintro c u ⟨hs, hc⟩
      refine Or.inr ⟨hi, ⟨.after hw hs, ?_⟩⟩
      rw [hfill]
      refine hc.imp id ?_
      rintro ⟨e, k, m⟩
      refine ⟨e, fun hf => ?_, k⟩
      have := hf.1
      rw [hn.2.2.1] at this
      exact absurd m (Nat.not_lt.mpr this)
    · rintro q u ⟨hs, m⟩
      exact ⟨hi, .after hw hs, m⟩
  · rintro c t ⟨ht, hc⟩
    refine Or.inl ⟨?_, ht, ?_⟩
    · rcases hc with ⟨-, e⟩ | ⟨-, -, e⟩
      · intro k; rw [k.1] at e; exact absurd e (by simp)
      · intro k; exact e k.2
    · rcases hc with ⟨e1, e⟩ | ⟨e1, e, -⟩ <;> simp [e1, e]
  · exact fun q t hf => hf.elim

/-- The interval of a symbol with a positive count, in a table whose total the coder accepts (R129, R131). -/
theorem symbol_interval {b : Build} {t : Table} {sym : Nat} (ht : totalOk b (tableTotal t) = true)
    (hs : 0 < tableGet t sym) : IntervalOk b (tableLow t sym) (tableHigh t sym) (tableTotal t) :=
  ⟨ht, (tableLow_lt_high t sym).mpr hs, tableHigh_le_total t sym⟩

/-- What `encodeSymbol` can do on a symbol the model may offer (R147, R129). -/
theorem encodeSymbol_post {s : State} (h : EncReady s) {t : Table} {sym : Nat}
    (ht : totalOk s.build (tableTotal t) = true) (hs : 0 < tableGet t sym) : (encodeSymbol t sym s).Post
    (fun _ u => EncReady u ∧ Codes s u ((coded s).code s.build (symbolInterval t sym)))
    (fun c u => EncFailed s [symbolInterval t sym] c u)
    (fun _ u => EncStopped s u ∧ SinkStops .silent (filledBytes s [symbolInterval t sym]) s) := by
  have hi := symbol_interval ht hs
  refine (encodeInterval_post h _ _ _).imp ?_ ?_ ?_
  · rintro - u ⟨-, hr, hw⟩; exact ⟨hr, hw⟩
  · rintro c u (⟨hn, -⟩ | ⟨-, hf⟩)
    · exact absurd hi hn
    · exact hf
  · rintro q u ⟨-, hs⟩; exact hs

/-- What `finish` can do (R149): two bits and the pending ones. -/
theorem finish_post {s : State} (h : s.outN ≤ 7) (hl : s.low < s.build.full) (hh : s.high < s.build.full)
    (hp : s.pending ≤ s.build.pendingMax) : (finish s).Post
    (fun _ t => Codes s t ((coded s).finish s.build) ∧ t.pending = 0 ∧ s.pending + 1 ≤ s.build.pendingMax)
    (fun c t => EncStopped s t ∧
      ((c = .sinkFail ∧ Blocked .fail s (s.pending + 2) ∧ s.pending + 1 ≤ s.build.pendingMax) ∨
      (c = .pendingFull ∧ s.pending = s.build.pendingMax)))
    (fun _ t => EncStopped s t ∧ Blocked .silent s (s.pending + 2) ∧ s.pending + 1 ≤ s.build.pendingMax) := by
  unfold finish bumpPending
  split
  · next hfull =>
    exact ⟨⟨SinkStopped.coder (by omega) s.low s.high s.pending, hl, hh, hp⟩, Or.inr ⟨rfl, hfull⟩⟩
  · next hfull =>
    have hw := Wrote.coder h s.low s.high (s.pending + 1)
    refine (emit_post _ { s with pending := s.pending + 1 } h).imp ?_ ?_ ?_
    · rintro - t ⟨ht, e1, e2, e3⟩
      exact ⟨⟨by simpa [Coded.finish, Coded.emit, coded] using hw.trans ht, e1, e2, e3⟩, e3, by omega⟩
    · rintro c t ⟨e, m, ht, e1, e2, e3⟩
      simp only at e1 e2 e3
      exact ⟨⟨.after hw ht, e1 ▸ hl, e2 ▸ hh, by omega⟩,
        Or.inl ⟨e, (show Blocked .fail s _ from m).mono (by simp only; omega), by omega⟩⟩
    · rintro q t ⟨m, ht, e1, e2, e3⟩
      simp only at e1 e2 e3
      exact ⟨⟨.after hw ht, e1 ▸ hl, e2 ▸ hh, by omega⟩,
        (show Blocked .silent s _ from m).mono (by simp only; omega), by omega⟩

end Sys2Proof.Machine
end

