-- ==== Sys2Proof/Laws/Decoder.lean ====
section
/-! SUPPORT. What the bit reader (40_bitstream.md R103) and the decoder's micro-operations (42_arith_coder.md R150
to R154) can do, said once for the commands to cite. -/

namespace Sys2Proof.Machine

/-- `bits` were read between s and t by the decoder: they are the next unread bits, padded with zeros (R103, R104). -/
structure Read (s t : State) (bits : List Bool) : Prop where
  only : DecoderOnly s t
  moves : t.env.source <:+ s.env.source
  inN : t.inN ≤ 8
  value : bits = padded bits.length (unreadBits s)
  rest : unreadBits t = (unreadBits s).drop bits.length
  bytes : t.bytesIn = s.bytesIn + BitVec.ofNat 32 ((unreadBytes s).length - (unreadBytes t).length)
  left : (unreadBytes t).length ≤ (unreadBytes s).length
  stops : ∀ a, SourceStops a t ↔ SourceStops a s
  gives : SourceGives bits.length s

/-- The decoder stopped between s and t because of the source, its registers in range. -/
structure DecStopped (s t : State) : Prop where
  only : DecoderOnly s t
  moves : t.env.source <:+ s.env.source
  inN : t.inN ≤ 8
  low : t.low < s.build.full
  high : t.high < s.build.full
  code : t.code < s.build.full

theorem DecoderOnly.build {s t : State} (h : DecoderOnly s t) : t.build = s.build := by
  unfold DecoderOnly at h; rw [h]

theorem ReaderOnly.coder {s t : State} (h : ReaderOnly s t) :
    t.low = s.low ∧ t.high = s.high ∧ t.code = s.code := by
  unfold ReaderOnly at h; rw [h]; exact ⟨rfl, rfl, rfl⟩

theorem padded_append (m n : Nat) (l : List Bool) : padded (m + n) l = padded m l ++ padded n (l.drop m) := by
  unfold padded
  rcases Nat.le_total m l.length with h | h
  · rw [show m - l.length = 0 by omega, List.replicate_zero, List.append_nil, List.length_drop,
      ← List.append_assoc, ← List.take_add]
    congr 2; omega
  · rw [List.take_of_length_le h, List.take_of_length_le (show l.length ≤ m + n by omega),
      List.drop_eq_nil_of_le h, List.append_assoc]
    congr 1
    simp only [List.take_nil, List.nil_append, List.length_nil, Nat.sub_zero]
    rw [← List.replicate_add]; congr 1; omega

theorem Read.trans {s t u : State} {b c : List Bool} (h : Read s t b) (k : Read t u c) : Read s u (b ++ c) := by
  refine ⟨h.only.trans k.only, k.moves.trans h.moves, k.inN, ?_, ?_, ?_, k.left.trans h.left,
    fun a => (k.stops a).trans (h.stops a), fun a m => ?_⟩
  · rw [List.length_append, padded_append, ← h.value, ← h.rest, ← k.value]
  · rw [k.rest, h.rest, List.drop_drop, List.length_append]
  · have h1 := h.left
    have h2 := k.left
    rw [k.bytes, h.bytes, BitVec.add_assoc, ← BitVec.ofNat_add]
    congr 2; omega
  · have h1 := h.gives a m
    have h2 := k.gives a ((h.stops a).mpr m)
    rw [h.rest, List.length_drop] at h2
    rw [List.length_append]; omega

theorem Read.nil {s : State} (h : s.inN ≤ 8) : Read s s [] :=
  ⟨.refl s, List.suffix_refl _, h, by simp [padded], by simp, by simp, le_rfl, fun _ => Iff.rfl,
    fun _ _ => Nat.zero_le _⟩

theorem Read.coder {s : State} (h : s.inN ≤ 8) (l u c : Nat) :
    Read s { s with low := l, high := u, code := c } [] :=
  ⟨rfl, List.suffix_refl _, h, by simp [padded], by simp [unreadBits], by simp [unreadBytes], le_rfl,
    fun _ => Iff.rfl, fun _ _ => Nat.zero_le _⟩

theorem DecStopped.after {s t u : State} {b : List Bool} (h : Read s t b) (k : DecStopped t u) :
    DecStopped s u := by
  have hb := h.only.build
  exact ⟨h.only.trans k.only, k.moves.trans h.moves, k.inN, hb ▸ k.low, hb ▸ k.high, hb ▸ k.code⟩

theorem Read.back {s t : State} {b : List Bool} (h : Read s t b) {a : SrcAnswer} (m : SourceStops a t) :
    SourceStops a s := (h.stops a).mp m

/-- A reader that had bits for `b` and came up short after them was short from the start. -/
theorem Read.short {s t : State} {b : List Bool} (h : Read s t b) {a : SrcAnswer} (m : SourceStops a t) {n : Nat}
    (k : (unreadBits t).length < n) : (unreadBits s).length < b.length + n := by
  have h1 := h.gives a (h.back m)
  rw [h.rest, List.length_drop] at k
  omega

theorem SourceStops.mem {a : SrcAnswer} {s : State} (h : SourceStops a s) : a ∈ s.env.source := by
  have key : ∀ l : List SrcAnswer, stopAnswer l = some a → a ∈ l := by
    intro l
    induction l with
    | nil => intro e; simp [stopAnswer] at e
    | cons x l ih =>
      intro e
      cases x with
      | byte v => exact List.mem_cons_of_mem _ (ih e)
      | endOfInput => simp [stopAnswer] at e
      | fail => simp [stopAnswer] at e; simp [e]
      | silent => simp [stopAnswer] at e; simp [e]
  exact key _ h.2

/-- One bit: it is the first unread one, or 0 if there is none. -/
theorem padded_one (l : List Bool) : padded 1 l = [l.headD false] := by
  cases l <;> simp [padded]

theorem takeBit_read (s : State) (h : 1 ≤ s.inN) (h8 : s.inN ≤ 8) : ∃ bit t, takeBit s = .ok bit t ∧
    ReaderOnly s t ∧ t.env = s.env ∧ t.inN ≤ 8 ∧ unreadBits s = bit :: unreadBits t ∧ t.bytesIn = s.bytesIn ∧
    unreadBytes t = unreadBytes s ∧ t.inEof = s.inEof := by
  refine ⟨_, _, rfl, rfl, rfl, by simp only; omega, ?_, rfl, rfl, rfl⟩
  unfold unreadBits lastBits byteBits
  dsimp only
  rw [← List.cons_append]
  congr 1
  generalize s.inN = n at *
  interval_cases n <;> simp

/-- What `readBit` can do (R103). -/
theorem readBit_post (s : State) (h : s.inN ≤ 8) : (readBit s).Post
    (fun bit t => ReaderOnly s t ∧ Read s t [bit])
    (fun c t => c = .sourceFail ∧ SourceStops .fail s ∧ ReaderOnly s t ∧
      t.env.source <:+ s.env.source ∧ t.inN ≤ 8 ∧ unreadBits s = [])
    (fun _ t => SourceStops .silent s ∧ t = s ∧ unreadBits s = []) := by
  have one : ∀ bit t, ReaderOnly s t → t.env.source <:+ s.env.source → t.inN ≤ 8 →
      unreadBits s = bit :: unreadBits t →
      t.bytesIn = s.bytesIn + BitVec.ofNat 32 ((unreadBytes s).length - (unreadBytes t).length) →
      (unreadBytes t).length ≤ (unreadBytes s).length → (∀ a, SourceStops a t ↔ SourceStops a s) →
      Read s t [bit] := by
    intro bit t h1 h2 h3 h4 h5 h6 h7
    refine ⟨h1.toDecoder, h2, h3, ?_, ?_, h5, h6, h7, fun _ _ => by rw [h4]; simp⟩
    · rw [List.length_singleton, padded_one, h4]; rfl
    · rw [h4]; rfl
  have zero : ∀ t, ReaderOnly s t → t.env.source <:+ s.env.source → t.inN ≤ 8 →
      unreadBits s = [] → unreadBits t = [] → t.bytesIn = s.bytesIn → unreadBytes s = [] → unreadBytes t = [] →
      t.inEof = true → (∀ a, ¬ SourceStops a s) → Read s t [false] := by
    intro t h1 h2 h3 h4 h5 h6 h7 h8 h9 h10
    refine ⟨h1.toDecoder, h2, h3, ?_, ?_, by rw [h6, h7, h8]; simp, by rw [h7, h8],
      fun a => ⟨fun m => ?_, fun m => (h10 a m).elim⟩, fun a m => (h10 a m).elim⟩
    · rw [List.length_singleton, padded_one, h4]; rfl
    · rw [h4, h5]; rfl
    · have := m.1; rw [h9] at this; exact absurd this (by simp)
  unfold readBit
  split
  · next h0 =>
    have hz : lastBits s.inN s.inBuf = [] := by rw [h0]; rfl
    split
    · next he =>
      have hu : unreadBits s = [] := by simp [unreadBits, hz, he]
      have hy : unreadBytes s = [] := by simp [unreadBytes, he]
      exact ⟨.refl s, zero s (.refl s) (List.suffix_refl _) h hu hu rfl hy hy he
        fun a m => by have := m.1; rw [he] at this; exact absurd this (by simp)⟩
    · next he =>
      replace he : s.inEof = false := by simpa using he
      unfold srcRead
      split
      · next hsrc =>
        have hu : unreadBits s = [] := by simp [unreadBits, hz, hsrc, sourceBytes]
        refine ⟨rfl, zero _ rfl (List.suffix_refl _) h hu ?_ rfl ?_ ?_ rfl ?_⟩
        · simp [unreadBits, hz]
        · simp [unreadBytes, hsrc, sourceBytes]
        · simp [unreadBytes]
        · intro a m; have := m.2; rw [hsrc] at this; simp [stopAnswer] at this
      · next rest hsrc =>
        exact ⟨⟨he, by rw [hsrc]; rfl⟩, rfl, by simp [unreadBits, hz, hsrc, sourceBytes]⟩
      · next a rest hns hsrc =>
        have hsuf : rest <:+ s.env.source := hsrc ▸ List.suffix_cons a rest
        simp only [andThen_ok]
        cases a with
        | byte v =>
          obtain ⟨bit, t, ht, ho, hev, hn, hu, hby, hun, heof⟩ := takeBit_read
            { s with inBuf := v, inN := 8, bytesIn := s.bytesIn + 1, env := { s.env with source := rest } }
            (by simp) (by simp)
          simp only at ht ⊢
          rw [ht]
          have ho' : ReaderOnly s t := by unfold ReaderOnly at ho ⊢; rw [ho]
          have hy : unreadBytes s = v :: unreadBytes t := by
            rw [hun]; simp [unreadBytes, hsrc, he, sourceBytes]
          refine ⟨ho', one bit t ho' ?_ hn ?_ ?_ ?_ fun a => ?_⟩
          · rw [hev]; exact hsuf
          · rw [← hu]
            have h8 : lastBits 8 v = byteBits v := rfl
            simp [unreadBits, hz, hsrc, he, sourceBytes, h8]
          · rw [hby, hy]; simp
          · rw [hy]; simp
          · unfold SourceStops
            rw [hev, hsrc, heof]
            rfl
        | endOfInput =>
          have hu : unreadBits s = [] := by simp [unreadBits, hz, hsrc, sourceBytes]
          refine ⟨rfl, zero _ rfl hsuf h hu ?_ rfl ?_ ?_ rfl ?_⟩
          · simp [unreadBits, hz]
          · simp [unreadBytes, hsrc, sourceBytes]
          · simp [unreadBytes]
          · intro a m; have := m.2; rw [hsrc] at this; simp [stopAnswer] at this
        | fail =>
          exact ⟨rfl, ⟨he, by rw [hsrc]; rfl⟩, rfl, hsuf, h, by simp [unreadBits, hz, hsrc, sourceBytes]⟩
        | silent => exact (hns rfl).elim
  · next h0 =>
    obtain ⟨bit, t, ht, ho, hev, hn, hu, hby, hun, heof⟩ := takeBit_read s (by omega) h
    rw [ht]
    exact ⟨ho, one bit t ho (by rw [hev]) hn hu (by rw [hby, hun]; simp) (by rw [hun])
      fun a => by unfold SourceStops; rw [hev, heof]⟩

/-! ## CODE -/

theorem bitsValue_append (a b : List Bool) : bitsValue (a ++ b) = bitsValue a * 2 ^ b.length + bitsValue b := by
  have key : ∀ (l : List Bool) (v : Nat), l.foldl (fun v b => 2 * v + bitVal b) v =
      v * 2 ^ l.length + l.foldl (fun v b => 2 * v + bitVal b) 0 := by
    intro l
    induction l with
    | nil => intro v; simp
    | cons x xs ih =>
      intro v
      rw [List.foldl_cons, List.foldl_cons, ih (2 * v + bitVal x), ih (2 * 0 + bitVal x), List.length_cons,
        Nat.pow_succ]
      ring
  unfold bitsValue
  rw [List.foldl_append, key]

theorem bitsValue_lt (l : List Bool) : bitsValue l < 2 ^ l.length := by
  induction l using List.reverseRecOn with
  | nil => simp [bitsValue]
  | append_singleton l b ih =>
    rw [bitsValue_append, List.length_append]
    have := bitVal_le b
    simp only [bitsValue, List.foldl_cons, List.foldl_nil, List.length_singleton, Nat.pow_succ] at *
    omega

theorem shiftCode_value {b : Build} (hb : b.legal = true) (c : Nat) (bit : Bool) :
    shiftCode b c bit = (2 * c + bitVal bit) % b.full := by
  rw [shiftCode_eq hb, (full_eq hb).1]
  have := bitVal_le bit
  rw [Nat.mul_mod_mul_left]
  have h2 := quarter_ge hb
  have h3 := full_eq hb
  have hlt : c % b.half < b.half := Nat.mod_lt _ (by omega)
  have e : 2 * c + bitVal bit = 2 * (c % b.half) + bitVal bit + 2 * b.half * (c / b.half) := by
    have := Nat.mod_add_div c b.half
    nlinarith
  conv_rhs => rw [e]
  rw [Nat.add_mul_mod_self_left]
  exact (Nat.mod_eq_of_lt (by omega)).symm

/-- What reading n bits into CODE can do (R151). -/
theorem fillCode_post (n : Nat) (s : State) (hb : s.build.legal = true) (h : s.inN ≤ 8)
    (hl : s.low < s.build.full) (hh : s.high < s.build.full) (hc : s.code < s.build.full) : (fillCode n s).Post
    (fun _ t => ∃ bits, bits.length = n ∧ Read s t bits ∧
      t.code = (s.code * 2 ^ n + bitsValue bits) % s.build.full ∧ t.low = s.low ∧ t.high = s.high)
    (fun c t => c = .sourceFail ∧ SourceStops .fail s ∧ DecStopped s t ∧ t.low = s.low ∧ t.high = s.high ∧
      (unreadBits s).length < n)
    (fun _ t => SourceStops .silent s ∧ DecStopped s t ∧ t.low = s.low ∧ t.high = s.high ∧
      (unreadBits s).length < n) := by
  induction n generalizing s with
  | zero =>
    exact ⟨[], rfl, .nil h, by simp [bitsValue, Nat.mod_eq_of_lt hc], rfl, rfl⟩
  | succ n ih =>
    unfold fillCode
    refine (readBit_post s h).andThen ?_ ?_ ?_
    · rintro bit t ⟨ho, hr⟩
      have hk := ho.coder
      have eb := hr.only.build
      have hr2 := hr.trans (Read.coder hr.inN t.low t.high (shiftCode t.build t.code bit))
      refine (ih { t with code := shiftCode t.build t.code bit } (eb ▸ hb) hr.inN ?_ ?_ ?_).imp ?_ ?_ ?_
      · simp only; rw [eb, hk.1]; exact hl
      · simp only; rw [eb, hk.2.1]; exact hh
      · exact shiftCode_lt (eb ▸ hb) _ _
      · rintro - u ⟨bits, hlen, hu, ec, el, eh⟩
        refine ⟨bit :: bits, by simp [hlen], by simpa using hr2.trans hu, ?_, ?_, ?_⟩
        · simp only at ec
          rw [ec, eb, hk.2.2, shiftCode_value hb, show bit :: bits = [bit] ++ bits from rfl, bitsValue_append,
            hlen]
          have e1 : bitsValue [bit] = bitVal bit := by simp [bitsValue]
          rw [e1, Nat.pow_succ]
          rw [Nat.add_mod, Nat.mul_mod, Nat.mod_mod, ← Nat.mul_mod, ← Nat.add_mod]
          congr 1
          ring
        · rw [el]; exact hk.1
        · rw [eh]; exact hk.2.1
      · rintro c u ⟨e, m, hu, el, eh, k⟩
        exact ⟨e, hr.back m, .after hr2 hu, el.trans hk.1, eh.trans hk.2.1, by
          have := hr.short m k; simp only [List.length_singleton] at this; omega⟩
      · rintro q u ⟨m, hu, el, eh, k⟩
        exact ⟨hr.back m, .after hr2 hu, el.trans hk.1, eh.trans hk.2.1, by
          have := hr.short m k; simp only [List.length_singleton] at this; omega⟩
    · rintro c t ⟨e, m, ho, hm, hn, h0⟩
      have hk := ho.coder
      exact ⟨e, m, ⟨ho.toDecoder, hm, hn, hk.1 ▸ hl, hk.2.1 ▸ hh, hk.2.2 ▸ hc⟩, hk.1, hk.2.1, by rw [h0]; simp⟩
    · rintro q t ⟨m, ht, h0⟩
      subst ht
      exact ⟨m, ⟨.refl _, List.suffix_refl _, h, hl, hh, hc⟩, rfl, rfl, by rw [h0]; simp⟩

/-! ## Normalisation -/

/-- What the decoder's shift loop can do (R152): the encoder's steps, one bit a step, CODE kept in the range. -/
theorem shiftLoopDec_post (n : Nat) (s : State) (hb : s.build.legal = true) (h : s.inN ≤ 8)
    (hh : s.high < s.build.full) (hlc : s.low ≤ s.code) (hch : s.code ≤ s.high) : (shiftLoopDec n s).Post
    (fun _ t => (∃ bits, bits.length = (shiftBits s.build n s.low s.high).length ∧ Read s t bits ∧
        t.code = t.low + 2 ^ bits.length * (s.code - s.low) + bitsValue bits) ∧
      (t.low, t.high) = normShift s.build n s.low s.high ∧ t.low ≤ t.code ∧ t.code ≤ t.high)
    (fun c t => c = .sourceFail ∧ SourceStops .fail s ∧ DecStopped s t ∧
      (unreadBits s).length < (shiftBits s.build n s.low s.high).length)
    (fun _ t => SourceStops .silent s ∧ DecStopped s t ∧
      (unreadBits s).length < (shiftBits s.build n s.low s.high).length) := by
  induction n generalizing s with
  | zero => exact ⟨⟨[], rfl, .nil h, by simp [bitsValue]; omega⟩, rfl, hlc, hch⟩
  | succ n ih =>
    unfold shiftLoopDec normShift shiftBits
    split
    · next ha =>
      have hp := Read.coder h (shiftLow s.build s.low) (shiftHigh s.build s.high) s.code
      refine (readBit_post { s with low := shiftLow s.build s.low, high := shiftHigh s.build s.high } h).andThen
        ?_ ?_ ?_
      · rintro bit t ⟨ho, hr⟩
        have hk := ho.coder
        have eb := hr.only.build
        simp only at hk eb
        have hr2 := (hp.trans hr).trans (Read.coder hr.inN t.low t.high (shiftCode t.build t.code bit))
        have short : ∀ {a : SrcAnswer} {n : Nat}, SourceStops a t → (unreadBits t).length < n →
            (unreadBits s).length < n + 1 := by
          intro a n m k
          have : (unreadBits s).length < [bit].length + n := hr.short m k
          simp only [List.length_singleton] at this; omega
        have hcode := shift_code hb hlc hch hh ha bit
        refine (ih { t with code := shiftCode t.build t.code bit } (eb ▸ hb) hr.inN ?_ ?_ ?_).imp ?_ ?_ ?_
        · simp only; rw [eb, hk.2.1]; exact shiftHigh_lt hb _
        · simp only; rw [eb, hk.1, hk.2.2]; exact hcode.1
        · simp only; rw [eb, hk.2.1, hk.2.2]; exact hcode.2
        · rintro - u ⟨⟨bits, hlen, hu, hv⟩, en, h1, h2⟩
          simp only [eb, hk.1, hk.2.1, hk.2.2, shift_code_eq hb hlc hch hh ha bit] at hlen en hv
          refine ⟨⟨bit :: bits, by simp [hlen], by simpa using hr2.trans hu, ?_⟩, en, h1, h2⟩
          rw [hv, show bit :: bits = [bit] ++ bits from rfl, bitsValue_append, List.length_append,
            List.length_singleton, show bitsValue [bit] = bitVal bit by simp [bitsValue], Nat.pow_add]
          have := Nat.add_sub_cancel_left (shiftLow s.build s.low) (2 * (s.code - s.low) + bitVal bit)
          rw [← Nat.add_assoc] at this
          rw [this]
          ring
        · rintro c u ⟨e, m, hu, k⟩
          simp only [eb, hk.1, hk.2.1] at k
          exact ⟨e, hr2.back m, .after hr2 hu, short m k⟩
        · rintro q u ⟨m, hu, k⟩
          simp only [eb, hk.1, hk.2.1] at k
          exact ⟨hr2.back m, .after hr2 hu, short m k⟩
      · rintro c t ⟨e, m, ho, hm, hn, h0⟩
        have hk := ho.coder
        simp only at hk
        refine ⟨e, m, ⟨hp.only.trans ho.toDecoder, hm, hn, ?_, ?_, ?_⟩, by
          rw [show unreadBits s = [] from h0]; simp⟩
        · rw [hk.1]; exact shiftLow_lt _
        · rw [hk.2.1]; exact shiftHigh_lt hb _
        · rw [hk.2.2]; omega
      · rintro q t ⟨m, ht, h0⟩
        subst ht
        exact ⟨m, ⟨hp.only, List.suffix_refl _, h, shiftLow_lt _, shiftHigh_lt hb _, by simp only; omega⟩, by
          rw [show unreadBits s = [] from h0]; simp⟩
    · exact ⟨⟨[], by simp, .nil h, by simp [bitsValue]; omega⟩, rfl, hlc, hch⟩

/-- What the decoder's E3 loop can do (R152). -/
theorem e3LoopDec_post (n : Nat) (s : State) (hb : s.build.legal = true) (h : s.inN ≤ 8)
    (hl : s.low < s.build.half) (hm : s.build.half ≤ s.high)
    (hh : s.high < s.build.full) (hlc : s.low ≤ s.code) (hch : s.code ≤ s.high) : (e3LoopDec n s).Post
    (fun _ t => (∃ bits, bits.length = e3Count s.build n s.low s.high ∧ Read s t bits ∧
        t.code = t.low + 2 ^ bits.length * (s.code - s.low) + bitsValue bits) ∧
      (t.low, t.high) = normE3 s.build n s.low s.high ∧ t.low ≤ t.code ∧ t.code ≤ t.high)
    (fun c t => c = .sourceFail ∧ SourceStops .fail s ∧ DecStopped s t ∧
      (unreadBits s).length < e3Count s.build n s.low s.high)
    (fun _ t => SourceStops .silent s ∧ DecStopped s t ∧
      (unreadBits s).length < e3Count s.build n s.low s.high) := by
  induction n generalizing s with
  | zero => exact ⟨⟨[], rfl, .nil h, by simp [bitsValue]; omega⟩, rfl, hlc, hch⟩
  | succ n ih =>
    unfold e3LoopDec normE3 e3Count
    split
    · next hu0 =>
      have hp := Read.coder h (e3Low s.build s.low) (e3High s.build s.high) s.code
      obtain ⟨g1, g2, g3, -⟩ := e3_step hb hl hm hh hu0
      refine (readBit_post { s with low := e3Low s.build s.low, high := e3High s.build s.high } h).andThen
        ?_ ?_ ?_
      · rintro bit t ⟨ho, hr⟩
        have hk := ho.coder
        have eb := hr.only.build
        simp only at hk eb
        have hr2 := (hp.trans hr).trans (Read.coder hr.inN t.low t.high (e3Code t.build t.code bit))
        have short : ∀ {a : SrcAnswer} {n : Nat}, SourceStops a t → (unreadBits t).length < n →
            (unreadBits s).length < n + 1 := by
          intro a n m k
          have : (unreadBits s).length < [bit].length + n := hr.short m k
          simp only [List.length_singleton] at this; omega
        have hcode := e3_code hb hl hm hh hlc hch hu0 bit
        refine (ih { t with code := e3Code t.build t.code bit } (eb ▸ hb) hr.inN ?_ ?_ ?_ ?_ ?_).imp ?_ ?_ ?_
        · simp only; rw [eb, hk.1]; exact g1
        · simp only; rw [eb, hk.2.1]; exact g2
        · simp only; rw [eb, hk.2.1]; exact g3
        · simp only; rw [eb, hk.1, hk.2.2]; exact hcode.1
        · simp only; rw [eb, hk.2.1, hk.2.2]; exact hcode.2
        · rintro - u ⟨⟨bits, hlen, hu, hv⟩, en, h1, h2⟩
          simp only [eb, hk.1, hk.2.1, hk.2.2, e3_code_eq hb hl hm hh hlc hch hu0 bit] at hlen en hv
          refine ⟨⟨bit :: bits, by simp [hlen], by simpa using hr2.trans hu, ?_⟩, en, h1, h2⟩
          rw [hv, show bit :: bits = [bit] ++ bits from rfl, bitsValue_append, List.length_append,
            List.length_singleton, show bitsValue [bit] = bitVal bit by simp [bitsValue], Nat.pow_add]
          have := Nat.add_sub_cancel_left (e3Low s.build s.low) (2 * (s.code - s.low) + bitVal bit)
          rw [← Nat.add_assoc] at this
          rw [this]
          ring
        · rintro c u ⟨e, m, hu, k⟩
          simp only [eb, hk.1, hk.2.1] at k
          exact ⟨e, hr2.back m, .after hr2 hu, short m k⟩
        · rintro q u ⟨m, hu, k⟩
          simp only [eb, hk.1, hk.2.1] at k
          exact ⟨hr2.back m, .after hr2 hu, short m k⟩
      · rintro c t ⟨e, m, ho, hm', hn, h0⟩
        have hk := ho.coder
        simp only at hk
        refine ⟨e, m, ⟨hp.only.trans ho.toDecoder, hm', hn, ?_, ?_, ?_⟩, by
          rw [show unreadBits s = [] from h0]; simp⟩
        · rw [hk.1]; exact e3Low_lt _ _
        · rw [hk.2.1]; exact e3High_lt _ _
        · rw [hk.2.2]; omega
      · rintro q t ⟨m, ht, h0⟩
        subst ht
        exact ⟨m, ⟨hp.only, List.suffix_refl _, h, e3Low_lt _ _, e3High_lt _ _, by simp only; omega⟩, by
          rw [show unreadBits s = [] from h0]; simp⟩
    · exact ⟨⟨[], by simp, .nil h, by simp [bitsValue]; omega⟩, rfl, hlc, hch⟩

/-! ## Decoding -/

/-- The decoder between micro-operations of an open session (R33, R34). -/
structure DecReady (s : State) : Prop extends RangeReady s where
  inN : s.inN ≤ 8
  codeLow : s.low ≤ s.code
  codeHigh : s.code ≤ s.high

theorem DecReady.code {s : State} (h : DecReady s) : s.code < s.build.full := by
  have := h.codeHigh; have := h.high; omega

/-- The decoder went from s to t as the coder as numbers says: it read `c.steps` bits, and CODE moved with the frame
(R152). -/
structure Decodes (s t : State) (c : Coded) : Prop where
  reads : ∃ bits, bits.length = c.steps ∧ Read s t bits ∧ t.code + c.off = s.code * 2 ^ c.steps + bitsValue bits
  low : t.low = c.low
  high : t.high = c.high

theorem Decodes.decodedTo {s t : State} {c : Coded} (h : Decodes s t c) : DecodedTo s t c := by
  obtain ⟨bits, hl, hr, hv⟩ := h.reads
  have hb := hr.value
  rw [hl] at hb
  exact ⟨h.low, h.high, by rw [hr.rest, hl], by rw [hv, ← hb], hr.bytes⟩

/-- The end of a failed decoding step. -/
structure DecFailed (s : State) (c : Cause) (t : State) : Prop where
  stopped : DecStopped s t
  cause : c = .sourceFail ∧ SourceStops .fail s

/-- A decoding step to `c` stops at the source: what is left to read is short of it. -/
def ShortOf (s : State) (c : Coded) : Prop := (unreadBits s).length < c.steps

/-- What `normDec` can do from a range that holds CODE (R152): the encoder's steps, one bit read for each. -/
theorem normDec_post {s : State} (hb : s.build.legal = true) (hin : s.inN ≤ 8) (hf : s.high < s.build.full)
    (h1 : s.low ≤ s.code) (h2 : s.code ≤ s.high) : (normDec s).Post
    (fun _ t => DecReady t ∧ Decodes s t ((coded s).norm s.build s.build.width))
    (fun c t => DecFailed s c t ∧ ShortOf s ((coded s).norm s.build s.build.width))
    (fun _ t => DecStopped s t ∧ SourceStops .silent s ∧ ShortOf s ((coded s).norm s.build s.build.width)) := by
  have hlh : s.low ≤ s.high := by omega
  have hall : ((coded s).norm s.build s.build.width).steps = _ := (norm_eq hb hlh hf s.pending).2.2.2
  unfold normDec
  refine (shiftLoopDec_post s.build.width s hb hin hf h1 h2).andThen ?_ ?_ ?_
  · rintro - t ⟨⟨bits, hlen, hrd, hv⟩, en, c1, c2⟩
    have eb := hrd.only.build
    have e1 : t.low = (normShift s.build s.build.width s.low s.high).1 := by rw [← en]
    have e2 : t.high = (normShift s.build s.build.width s.low s.high).2 := by rw [← en]
    obtain ⟨g1, g2, g3⟩ := normShift_spec hb s.build.width s.low s.high hlh hf full_le_range_mul
    refine (e3LoopDec_post t.build.width t (eb ▸ hb) hrd.inN ?_ ?_ ?_ c1 c2).imp ?_ ?_ ?_
    · rw [eb, e1]; exact g1
    · rw [eb, e2]; exact g2
    · rw [eb, e2]; exact g3
    · rintro - u ⟨⟨bits', hlen', hu, hv'⟩, en', d1, d2⟩
      have hall := hrd.trans hu
      have eb' := hall.only.build
      have hn := normRange_spec hb hlh hf
      have en2 : (u.low, u.high) = normRange s.build s.low s.high := by rw [en', normRange, eb, e1, e2]
      have f1 : u.low = (normRange s.build s.low s.high).1 := by rw [← en2]
      have f2 : u.high = (normRange s.build s.low s.high).2 := by rw [← en2]
      obtain ⟨k1, -, -, k4⟩ := norm_eq hb hlh hf s.pending
      obtain ⟨k, o1, o2⟩ := norm_off s.build s.build.width (coded s)
      change (((coded s).norm s.build s.build.width).low, ((coded s).norm s.build s.build.width).high) = _ at k1
      change ((coded s).norm s.build s.build.width).steps = _ at k4
      have en3 := k1.trans en2.symm
      have el : ((coded s).norm s.build s.build.width).low = u.low := congrArg Prod.fst en3
      have hsteps : (bits ++ bits').length = ((coded s).norm s.build s.build.width).steps := by
        rw [List.length_append, hlen, hlen', k4, eb, e1, e2]
      refine ⟨⟨⟨eb' ▸ hb, ?_, ?_⟩, hu.inN, d1, d2⟩, ⟨⟨bits ++ bits', hsteps, hall, ?_⟩, el.symm,
        (congrArg Prod.snd en3).symm⟩⟩
      · rw [eb', f1, f2]; exact hn.1
      · rw [eb', f2]; exact hn.2
      · have hk : k = (bits ++ bits').length := by
          rw [hsteps, o1]
          have : (coded s).steps = 0 := rfl
          omega
        have ol : (coded s).low + (coded s).off = s.low := by simp [coded]
        rw [ol, el, hk] at o2
        rw [← hsteps, bitsValue_append]
        have e5 : t.code - t.low = 2 ^ bits.length * (s.code - s.low) + bitsValue bits := by omega
        rw [e5] at hv'
        obtain ⟨x, hx⟩ : ∃ x, s.code = s.low + x := ⟨s.code - s.low, by omega⟩
        rw [show s.code - s.low = x by omega] at hv'
        rw [hx, hv']
        rw [List.length_append, Nat.pow_add] at o2 ⊢
        calc u.low + 2 ^ bits'.length * (2 ^ bits.length * x + bitsValue bits) + bitsValue bits' +
              ((coded s).norm s.build s.build.width).off =
            u.low + ((coded s).norm s.build s.build.width).off +
              2 ^ bits'.length * (2 ^ bits.length * x + bitsValue bits) + bitsValue bits' := by omega
          _ = _ := by rw [o2]; ring
    · rintro c u ⟨e, m, hu, k⟩
      exact ⟨⟨.after hrd hu, e, hrd.back m⟩, by
        have := hrd.short m k; rw [eb, e1, e2, hlen] at this; unfold ShortOf; omega⟩
    · rintro q u ⟨m, hu, k⟩
      exact ⟨.after hrd hu, hrd.back m, by
        have := hrd.short m k; rw [eb, e1, e2, hlen] at this; unfold ShortOf; omega⟩
  · rintro c t ⟨e, m, hs, k⟩; exact ⟨⟨hs, e, m⟩, by unfold ShortOf; omega⟩
  · rintro q t ⟨m, hs, k⟩; exact ⟨hs, m, by unfold ShortOf; omega⟩

/-- What narrowing to an interval that holds the target value and normalising can do (R153, R154). -/
theorem narrowDec_post {s : State} (h : DecReady s) {cl ch tot : Nat} (hi : IntervalOk s.build cl ch tot)
    (h1 : nextLow s cl tot ≤ s.code) (h2 : s.code ≤ nextHigh s ch tot) :
    ((narrow cl ch tot s).andThen fun _ s => normDec s).Post
    (fun _ t => DecReady t ∧ Decodes s t ((coded s).code s.build ⟨cl, ch, tot⟩))
    (fun c t => DecFailed s c t ∧ ShortOf s ((coded s).code s.build ⟨cl, ch, tot⟩))
    (fun _ t => DecStopped s t ∧ SourceStops .silent s ∧ ShortOf s ((coded s).code s.build ⟨cl, ch, tot⟩)) := by
  have hr := next_range h.toRangeReady hi
  have hf := h.high
  have hp := Read.coder h.inN (nextLow s cl tot) (nextHigh s ch tot) s.code
  refine (narrow_post h.toRangeReady cl ch tot).andThen ?_ ?_ ?_
  · rintro - t ⟨-, ht⟩
    subst ht
    have hc : coded { s with low := nextLow s cl tot, high := nextHigh s ch tot } =
        (coded s).narrow ⟨cl, ch, tot⟩ := (coded_narrow h.toRangeReady ⟨cl, ch, tot⟩).symm
    refine (normDec_post (s := { s with low := nextLow s cl tot, high := nextHigh s ch tot })
      h.legal h.inN (by simp only; omega) h1 h2).imp ?_ ?_ ?_
    · rintro - t ⟨hd, hdec⟩
      rw [hc] at hdec
      obtain ⟨bits, hl, hrd, hv⟩ := hdec.reads
      exact ⟨hd, ⟨bits, hl, by simpa using hp.trans hrd, hv⟩, hdec.low, hdec.high⟩
    · rintro c t ⟨⟨hs, e⟩, k⟩; rw [hc] at k; exact ⟨⟨.after hp hs, e⟩, k⟩
    · rintro q t ⟨hs, m, k⟩; rw [hc] at k; exact ⟨.after hp hs, m, k⟩
  · rintro c t ⟨-, hc⟩
    rcases hc with ⟨-, e⟩ | ⟨-, -, e⟩
    · rw [hi.1] at e; exact absurd e (by simp)
    · exact absurd hi.2 e
  · exact fun q t hf => hf.elim

/-- What `target` can do (R150). -/
theorem target_post {s : State} (h : DecReady s) (tot : Nat) : (target tot s).Post
    (fun v t => totalOk s.build tot = true ∧ v = targetValue s.low s.high s.code tot ∧ v < tot ∧ t = s)
    (fun c t => c = .badTotal ∧ totalOk s.build tot = false ∧ t = s)
    (fun _ _ => False) := by
  unfold target
  split
  · next ht => exact ⟨rfl, by simpa using ht, rfl⟩
  · next ht =>
    replace ht : totalOk s.build tot = true := by simpa using ht
    rw [if_neg (by simp [h.codeLow, h.codeHigh])]
    have h0 : 0 < tot := by simp only [totalOk, decide_eq_true_eq] at ht; exact ht.1
    exact ⟨ht, rfl, target_lt h.codeLow h.codeHigh h0, rfl⟩

/-- The interval that holds the target value narrows to a range that holds CODE (R34). -/
theorem code_in_next {s : State} (h : DecReady s) {cl ch tot : Nat} (ht : 0 < tot)
    (h1 : cl ≤ targetValue s.low s.high s.code tot) (h2 : targetValue s.low s.high s.code tot < ch) :
    nextLow s cl tot ≤ s.code ∧ s.code ≤ nextHigh s ch tot := by
  obtain ⟨k1, k2⟩ := target_mem_iff (cl := cl) (ch := ch) h.codeLow h.codeHigh ht
  have := k1.mp h1
  have := k2.mp h2
  unfold nextLow nextHigh
  omega

/-- The target value of a decoder for a table lies in the symbol's interval (R130, R153). -/
def Selects (s : State) (t : Table) (sym : Nat) : Prop :=
  tableLow t sym ≤ targetValue s.low s.high s.code (tableTotal t) ∧
  targetValue s.low s.high s.code (tableTotal t) < tableHigh t sym

/-- What `decodeSymbol` can do on a table the model may offer (R153). -/
theorem decodeSymbol_post {s : State} (h : DecReady s) {t : Table}
    (ht : totalOk s.build (tableTotal t) = true) : (decodeSymbol t s).Post
    (fun sym u => 0 < tableGet t sym ∧ DecReady u ∧ Decodes s u ((coded s).code s.build (symbolInterval t sym)) ∧
      Selects s t sym)
    (fun c u => DecFailed s c u ∧
      ∃ sym, Selects s t sym ∧ ShortOf s ((coded s).code s.build (symbolInterval t sym)))
    (fun _ u => DecStopped s u ∧ SourceStops .silent s ∧
      ∃ sym, Selects s t sym ∧ ShortOf s ((coded s).code s.build (symbolInterval t sym))) := by
  unfold decodeSymbol
  refine (target_post h _).andThen ?_ ?_ ?_
  · rintro v u ⟨-, hv, hlt, hu⟩
    subst hu
    obtain ⟨sym, hf, g1, g2⟩ := tableFind_spec t hlt
    unfold decodeOffset
    rw [hf]
    have hpos : 0 < tableGet t sym := (tableLow_lt_high t sym).mp (by omega)
    have hc := code_in_next h (cl := tableLow t sym) (ch := tableHigh t sym) (tot := tableTotal t) (by omega)
      (hv ▸ g1) (hv ▸ g2)
    have hn := narrowDec_post h (symbol_interval ht hpos) hc.1 hc.2
    have assoc : ((narrow (tableLow t sym) (tableHigh t sym) (tableTotal t) u).andThen fun _ s =>
          (normDec s).andThen fun _ s => Res.ok sym s) =
        ((narrow (tableLow t sym) (tableHigh t sym) (tableTotal t) u).andThen fun _ s => normDec s).andThen
          fun _ s => .ok sym s := by
      cases narrow (tableLow t sym) (tableHigh t sym) (tableTotal t) u <;> rfl
    simp only
    rw [assoc]
    have hsel : Selects u t sym := ⟨hv ▸ g1, hv ▸ g2⟩
    refine hn.andThen ?_ (fun _ _ h => ⟨h.1, sym, hsel, h.2⟩) (fun _ _ h => ⟨h.1, h.2.1, sym, hsel, h.2.2⟩)
    rintro - w ⟨hr, hb⟩
    exact ⟨hpos, hr, hb, hsel⟩
  · rintro c u ⟨-, e, -⟩
    rw [ht] at e; exact absurd e (by simp)
  · exact fun q u hf => hf.elim

/-- What `decodeApply` can do (R154): a bad total, a target value outside the interval, an interval outside the
total, or the narrowed decoder. -/
theorem decodeApply_post {s : State} (h : DecReady s) (cl ch tot : Nat) : (decodeApply cl ch tot s).Post
    (fun _ t => IntervalOk s.build cl ch tot ∧
      cl ≤ targetValue s.low s.high s.code tot ∧ targetValue s.low s.high s.code tot < ch ∧
      DecReady t ∧ Decodes s t ((coded s).code s.build ⟨cl, ch, tot⟩))
    (fun c t => (t = s ∧ c = .badTotal ∧ totalOk s.build tot = false) ∨
      (t = s ∧ totalOk s.build tot = true ∧ c = .targetOutside ∧
        ¬ (cl ≤ targetValue s.low s.high s.code tot ∧ targetValue s.low s.high s.code tot < ch)) ∨
      (t = s ∧ totalOk s.build tot = true ∧ c = .badInterval ∧ tot < ch ∧
        cl ≤ targetValue s.low s.high s.code tot ∧ targetValue s.low s.high s.code tot < ch) ∨
      (IntervalOk s.build cl ch tot ∧ DecFailed s c t ∧ ShortOf s ((coded s).code s.build ⟨cl, ch, tot⟩)))
    (fun _ t => DecStopped s t ∧ SourceStops .silent s ∧ ShortOf s ((coded s).code s.build ⟨cl, ch, tot⟩)) := by
  unfold decodeApply
  refine (target_post h _).andThen ?_ ?_ ?_
  · rintro v t ⟨ht, hv, hlt, e⟩
    subst e
    split
    · next hn => exact Or.inr (Or.inl ⟨rfl, ht, rfl, hv ▸ hn⟩)
    · next hn =>
      replace hn : cl ≤ v ∧ v < ch := by simpa using hn
      rw [hv] at hn hlt
      by_cases hct : ch ≤ tot
      · have hi : IntervalOk t.build cl ch tot := ⟨ht, by omega, hct⟩
        have hc := code_in_next h (tot := tot) (by omega) hn.1 hn.2
        refine (narrowDec_post h hi hc.1 hc.2).imp ?_ ?_ ?_
        · rintro - u ⟨hr, hb⟩; exact ⟨hi, hn.1, hn.2, hr, hb⟩
        · rintro c u hf; exact Or.inr (Or.inr (Or.inr ⟨hi, hf⟩))
        · exact fun q u hs => hs
      · unfold narrow
        rw [if_neg (by simp [ht]), if_pos (by omega)]
        exact Or.inr (Or.inr (Or.inl ⟨rfl, ht, rfl, by omega, hn⟩))
  · rintro c t ⟨e, hf, ht⟩; exact Or.inl ⟨ht, e, hf⟩
  · exact fun q t hf => hf.elim

end Sys2Proof.Machine
end

