-- ==== Sys2Proof/Laws/Model.lean ====
section
/-! SUPPORT. What the context store and the model's micro-operations can do (43_ppm_model.md R171 to R184), said
once for the commands to cite. -/

namespace Sys2Proof.Machine

/-! ## The store is a map in one form -/

/-- A read after a write (R37). -/
theorem storeGet_put (m : Store) (key : Key) (t : Table) (k : Key) :
    storeGet (storePut m key t) k = if k = key then some t else storeGet m k := by
  induction m with
  | nil => simp [storePut, storeGet, eq_comm]
  | cons e rest ih =>
    obtain ⟨a, u⟩ := e
    unfold storePut
    split
    · next ha => subst ha; simp only [storeGet, eq_comm]; split <;> rfl
    · next ha =>
      split
      · simp only [storeGet]
        by_cases hk : k = key
        · simp [hk]
        · simp [hk, Ne.symm hk]
      · simp only [storeGet, ih]
        by_cases hk : k = key
        · subst hk; simp [ha]
        · simp [hk]

theorem keyBefore_irrefl (k : Key) : keyBefore k k = false := by
  induction k with
  | nil => rfl
  | cons a as ih => simp [keyBefore, ih]

theorem keyBefore_trans (a b c : Key) (h : keyBefore a b = true) (k : keyBefore b c = true) :
    keyBefore a c = true := by
  induction a generalizing b c with
  | nil =>
    cases c with
    | nil => cases b <;> simp [keyBefore] at k
    | cons _ _ => rfl
  | cons x xs ih =>
    cases b with
    | nil => simp [keyBefore] at h
    | cons y ys =>
      cases c with
      | nil => simp [keyBefore] at k
      | cons z zs =>
        simp only [keyBefore, Bool.or_eq_true, decide_eq_true_eq, Bool.and_eq_true, beq_iff_eq] at *
        rcases h with h | ⟨rfl, h⟩
        · rcases k with k | ⟨rfl, k⟩
          · left; omega
          · left; exact h
        · rcases k with k | ⟨rfl, k⟩
          · left; exact k
          · right; exact ⟨rfl, ih ys zs h k⟩

theorem keyBefore_total (a b : Key) (h : keyBefore a b = false) (hne : b ≠ a) : keyBefore b a = true := by
  induction a generalizing b with
  | nil =>
    cases b with
    | nil => exact absurd rfl hne
    | cons _ _ => simp [keyBefore] at h
  | cons x xs ih =>
    cases b with
    | nil => rfl
    | cons y ys =>
      simp only [keyBefore, Bool.or_eq_false_iff, decide_eq_false_iff_not, Bool.and_eq_false_iff, beq_eq_false_iff_ne,
        Bool.or_eq_true, decide_eq_true_eq, Bool.and_eq_true, beq_iff_eq] at *
      by_cases e : y = x
      · subst e
        exact Or.inr ⟨rfl, ih ys (h.2.resolve_left (by simp)) (fun k => hne (by rw [k]))⟩
      · left
        have : y.toNat ≠ x.toNat := fun k => e (BitVec.eq_of_toNat_eq k)
        omega

theorem storeSorted_cons (e : Key × Table) (m : Store) :
    storeSorted (e :: m) = true ↔ (∀ x ∈ m, keyBefore e.1 x.1 = true) ∧ storeSorted m = true := by
  simp [storeSorted]

theorem storePut_mem {m : Store} {key : Key} {t : Table} {x : Key × Table} (h : x ∈ storePut m key t) :
    x.1 = key ∨ x ∈ m := by
  induction m with
  | nil => simp [storePut] at h; left; rw [h]
  | cons e rest ih =>
    obtain ⟨a, u⟩ := e
    unfold storePut at h
    split at h
    · rcases List.mem_cons.mp h with h | h
      · left; rw [h]
      · right; exact List.mem_cons_of_mem _ h
    · split at h
      · rcases List.mem_cons.mp h with h | h
        · left; rw [h]
        · right; exact h
      · rcases List.mem_cons.mp h with h | h
        · right; rw [h]; exact List.mem_cons_self
        · exact (ih h).imp id (List.mem_cons_of_mem _)

/-- Every write keeps the store's list in its one form (log 14). -/
theorem storePut_sorted {m : Store} (h : storeSorted m = true) (key : Key) (t : Table) :
    storeSorted (storePut m key t) = true := by
  induction m with
  | nil => rfl
  | cons e rest ih =>
    obtain ⟨a, u⟩ := e
    rw [storeSorted_cons] at h
    unfold storePut
    split
    · next ha => rw [storeSorted_cons, ← ha]; exact h
    · next ha =>
      split
      · next hb =>
        rw [storeSorted_cons, storeSorted_cons]
        refine ⟨?_, h⟩
        intro x hx
        rcases List.mem_cons.mp hx with rfl | hx
        · exact hb
        · exact keyBefore_trans _ _ _ hb (h.1 x hx)
      · next hb =>
        rw [storeSorted_cons]
        refine ⟨?_, ih h.2⟩
        intro x hx
        rcases storePut_mem hx with hx | hx
        · rw [hx]; exact keyBefore_total _ _ (by simpa using hb) ha
        · exact h.1 x hx

theorem storeGet_none_of_before {m : Store} {key : Key} (h : ∀ x ∈ m, keyBefore key x.1 = true) :
    storeGet m key = none := by
  induction m with
  | nil => rfl
  | cons e rest ih =>
    obtain ⟨a, u⟩ := e
    unfold storeGet
    rw [if_neg, ih fun x hx => h x (List.mem_cons_of_mem _ hx)]
    rintro rfl
    have := h _ List.mem_cons_self
    rw [keyBefore_irrefl] at this
    exact absurd this (by simp)

/-- A write adds an entry exactly where the key had none. -/
theorem storePut_length {m : Store} (h : storeSorted m = true) (key : Key) (t : Table) :
    (storePut m key t).length = m.length + (if (storeGet m key).isNone then 1 else 0) := by
  induction m with
  | nil => rfl
  | cons e rest ih =>
    obtain ⟨a, u⟩ := e
    rw [storeSorted_cons] at h
    unfold storePut storeGet
    split
    · simp
    · next ha =>
      split
      · next hb =>
        rw [storeGet_none_of_before fun x hx => keyBefore_trans _ _ _ hb (h.1 x hx)]
        simp
      · rw [List.length_cons, List.length_cons, ih h.2]
        omega

/-- Equal stores are equal lists: the form is canonical (log 14). -/
theorem store_ext {m n : Store} (hm : storeSorted m = true) (hn : storeSorted n = true)
    (h : ∀ key, storeGet m key = storeGet n key) : m = n := by
  induction m generalizing n with
  | nil =>
    cases n with
    | nil => rfl
    | cons e rest => have := h e.1; simp [storeGet] at this
  | cons e rest ih =>
    obtain ⟨a, u⟩ := e
    cases n with
    | nil => have := h a; simp [storeGet] at this
    | cons f more =>
      obtain ⟨b, v⟩ := f
      rw [storeSorted_cons] at hm hn
      have clash : ∀ {k l : Key} {x : Table} {r r' : Store}, keyBefore k l = true →
          (∀ y ∈ r', keyBefore l y.1 = true) → storeGet ((k, x) :: r) k ≠ storeGet ((l, v) :: r') k := by
        intro k l x r r' hkl hr e
        have hne : l ≠ k := by rintro rfl; rw [keyBefore_irrefl] at hkl; simp at hkl
        simp only [storeGet, if_true, if_neg hne] at e
        rw [storeGet_none_of_before fun y hy => keyBefore_trans _ _ _ hkl (hr y hy)] at e
        simp at e
      have hab : a = b := by
        by_contra hne
        cases hk : keyBefore a b with
        | true => exact clash hk hn.1 (h a)
        | false =>
          have hba := keyBefore_total _ _ hk (fun e => hne e.symm)
          have hb := h b
          simp only [storeGet, if_true, if_neg hne] at hb
          rw [storeGet_none_of_before fun y hy => keyBefore_trans _ _ _ hba (hm.1 y hy)] at hb
          simp at hb
      subst hab
      have huv : u = v := by simpa [storeGet] using h a
      subst huv
      rw [ih hm.2 hn.2]
      intro key
      by_cases hk : a = key
      · subst hk; rw [storeGet_none_of_before hm.1, storeGet_none_of_before hn.1]
      · simpa [storeGet, hk] using h key

/-! ## What the frames keep of the model -/

theorem ModelOk.of_eq {s t : State} (h : ModelOk s) (hb : t.build = s.build) (hs : t.store = s.store)
    (hn : t.nodes = s.nodes) (ho : t.order = s.order) (hh : t.hist = s.hist) : ModelOk t :=
  ⟨by rw [hs]; exact h.sorted, by rw [hs]; exact h.prefixClosed, by rw [hs, hb]; exact h.tables,
    by rw [hs, ho]; exact h.keys, by rw [hs, hn]; exact h.nodes, by rw [hb, hn]; exact h.capacity,
    by rw [hh, ho]; exact h.history⟩

theorem EncoderOnly.model {s t : State} (h : EncoderOnly s t) :
    t.store = s.store ∧ t.nodes = s.nodes ∧ t.order = s.order ∧ t.hist = s.hist := by
  unfold EncoderOnly at h; rw [h]; exact ⟨rfl, rfl, rfl, rfl⟩

theorem DecoderOnly.model {s t : State} (h : DecoderOnly s t) :
    t.store = s.store ∧ t.nodes = s.nodes ∧ t.order = s.order ∧ t.hist = s.hist := by
  unfold DecoderOnly at h; rw [h]; exact ⟨rfl, rfl, rfl, rfl⟩

theorem EncoderOnly.modelOk {s t : State} (h : EncoderOnly s t) (k : ModelOk s) : ModelOk t :=
  k.of_eq h.build h.model.1 h.model.2.1 h.model.2.2.1 h.model.2.2.2

theorem DecoderOnly.modelOk {s t : State} (h : DecoderOnly s t) (k : ModelOk s) : ModelOk t :=
  k.of_eq h.build h.model.1 h.model.2.1 h.model.2.2.1 h.model.2.2.2

/-- The tables a session's model may offer (R126, R127). -/
def TablesOk (s : State) : Prop := ∀ key t, storeGet s.store key = some t → TableOk s.build t

theorem EncoderOnly.tables {s t : State} (h : EncoderOnly s t) (k : TablesOk s) : TablesOk t := by
  unfold TablesOk; rw [h.model.1, h.build]; exact k

theorem DecoderOnly.tables {s t : State} (h : DecoderOnly s t) (k : TablesOk s) : TablesOk t := by
  unfold TablesOk; rw [h.model.1, h.build]; exact k

/-! ## The escape descent -/

theorem esc_pos {b : Build} {t : Table} (h : TableOk b t) : 0 < tableGet t esc := by rw [h.2.2]; decide

/-- The bytes filled after a coding step that fits, counted from before it. -/
theorem Codes.filled {s t : State} {i : Interval} (eb : t.build = s.build)
    (h : Codes s t ((coded s).code s.build i)) (hr : EncReady t) (l : List Interval) :
    filledBytes s (i :: l) = (s.outN + (((coded s).code s.build i).bits.length +
      ((coded t).sent t.build l).bits.length)) / 8 := by
  have hp : ((coded s).code s.build i).pending ≤ s.build.pendingMax := by
    rw [← h.pending, ← eb]; exact hr.pending
  rw [filledBytes, Coded.sent, if_pos hp, sent_split, h.bare, eb]
  simp [Coded.after]

/-- Where the sink stops later coding steps, it stops those from the first one on. -/
theorem Codes.stops {s t : State} {i : Interval} {l : List Interval} (eb : t.build = s.build) (hs : s.outN ≤ 7)
    (h : Codes s t ((coded s).code s.build i)) (hr : EncReady t) {a : SnkAnswer}
    (m : SinkStops a (filledBytes t l) t) : SinkStops a (filledBytes s (i :: l)) s := by
  rw [h.filled eb hr]
  exact h.wrote.blocked hs m

theorem Codes.takes {s t : State} {i : Interval} {l : List Interval} (eb : t.build = s.build) (hs : s.outN ≤ 7)
    (h : Codes s t ((coded s).code s.build i)) (hr : EncReady t)
    (m : SinkTakes (filledBytes t l) t) : SinkTakes (filledBytes s (i :: l)) s := by
  rw [h.filled eb hr]
  obtain ⟨g, h1, h2, h3⟩ := h.wrote.took
  have e := congrArg List.length h.wrote.written
  have ht := h.wrote.room
  rw [List.length_append, writtenBits_length (by omega), writtenBits_length (by omega)] at e
  unfold filledBytes at m
  intro a ha
  rw [show (s.outN + (((coded s).code s.build i).bits.length + ((coded t).sent t.build l).bits.length)) / 8 =
    g + (t.outN + ((coded t).sent t.build l).bits.length) / 8 by omega, List.take_add, List.mem_append] at ha
  exact ha.elim (h3 a) fun ha => m a (h2 ▸ ha)

/-- Where the sink stops the first coding step, it stops them all. -/
theorem SinkStops.first {a : SnkAnswer} {s : State} {i : Interval} (m : SinkStops a (filledBytes s [i]) s)
    (l : List Interval) : SinkStops a (filledBytes s (i :: l)) s := by
  have hle := sent_cons_le s.build i l (coded s)
  rw [filledBytes, sent_one] at m
  exact Blocked.mono m hle

/-- An error in later coding steps. -/
theorem EncFailed.after {s t u : State} {i : Interval} {l : List Interval} {c : Cause} (eb : t.build = s.build)
    (hs : s.outN ≤ 7) (h : Codes s t ((coded s).code s.build i)) (hr : EncReady t) (k : EncFailed t l c u) :
    EncFailed s (i :: l) c u := by
  refine ⟨.after h.wrote k.stopped, k.cause.imp (fun ⟨e, m⟩ => ⟨e, h.stops eb hs hr m⟩) ?_⟩
  rintro ⟨e, m, htakes⟩
  refine ⟨e, fun hf => m ?_, h.takes eb hs hr htakes⟩
  rw [eb]
  exact (h.fits_iff s.build l).mp hf.2

/-- An error in the first coding step. -/
theorem EncFailed.first {s u : State} {i : Interval} {l : List Interval} {c : Cause} (k : EncFailed s [i] c u) :
    EncFailed s (i :: l) c u := by
  refine ⟨k.stopped, k.cause.imp (fun ⟨e, m⟩ => ⟨e, m.first l⟩) fun ⟨e, m, htakes⟩ =>
    ⟨e, fun hf => m ⟨hf.1, trivial⟩, ?_⟩⟩
  have hp : ¬ ((coded s).code s.build i).pending ≤ s.build.pendingMax := fun hp => m ⟨hp, trivial⟩
  rw [filledBytes, sent_one] at htakes
  rwa [filledBytes, Coded.sent, if_neg hp]

theorem Codes.fits_one {s t : State} {i : Interval} (h : Codes s t ((coded s).code s.build i)) (hr : EncReady t) :
    PendingFits s.build [i] (coded s) :=
  ⟨by rw [← h.pending, ← h.wrote.only.build]; exact hr.pending, trivial⟩

theorem Codes.fits_cons {s t : State} {i : Interval} {l : List Interval}
    (h : Codes s t ((coded s).code s.build i)) (hr : EncReady t) (k : PendingFits s.build l (coded t)) :
    PendingFits s.build (i :: l) (coded s) :=
  ⟨(h.fits_one hr).1, (h.fits_iff s.build l).mpr k⟩

/-- The descent ended with `sym` coded (R176). -/
structure EncDone (s : State) (sym n : Nat) (t : State) : Prop where
  ready : EncReady t
  codes : Codes s t ((coded s).run s.build (descentSteps s sym n))
  fits : PendingFits s.build (descentSteps s sym n) (Machine.coded s)

theorem descentSteps_congr {s t : State} (hs : t.store = s.store) (hh : t.hist = s.hist) (sym n : Nat) :
    descentSteps t sym n = descentSteps s sym n := by
  induction n with
  | zero => rfl
  | succ n ih => unfold descentSteps; rw [hs, hh, ih]

/-- The coding steps are a matter of the model alone. -/
theorem codingSteps_congr {s t : State} (hs : t.store = s.store) (hh : t.hist = s.hist) (ho : t.order = s.order)
    (sym : Nat) : codingSteps t sym = codingSteps s sym := by
  unfold codingSteps descentOrders
  rw [ho, hh]
  exact descentSteps_congr hs hh sym _

theorem DecodePath_congr {s t : State} (hs : t.store = s.store) (hh : t.hist = s.hist) (sym n : Nat)
    (l : List Interval) : DecodePath t sym n l ↔ DecodePath s sym n l := by
  induction n generalizing l with
  | zero => rfl
  | succ n ih => unfold DecodePath; rw [hs, hh]; simp only [ih]

/-- Coding steps that went through: the sink took the bytes they filled. -/
theorem Codes.took_filled {s t : State} {l : List Interval} (hs : s.outN ≤ 7)
    (h : Codes s t ((coded s).run s.build l)) (hf : PendingFits s.build l (coded s)) :
    SinkTakes (filledBytes s l) s := by
  rw [filledBytes, sent_eq_run hf]
  exact h.wrote.took.filled hs h.wrote.room h.wrote.written

/-- Coding steps after a coding step. -/
theorem Codes.run_cons {s t u : State} {i : Interval} {l : List Interval} (eb : t.build = s.build)
    (h : Codes s t ((coded s).code s.build i)) (k : Codes t u ((coded t).run t.build l)) :
    Codes s u ((coded s).run s.build (i :: l)) := by
  have := h.trans k
  rw [eb, ← h.bare, ← run_split] at this
  exact this

/-- What the descent of `ppmEncode` can do (R176): no MODEL_CORRUPTION. -/
theorem ppmEncodeFrom_post {sym : Nat} (hsym : sym < 257) (n : Nat) {s : State} (h : EncReady s)
    (ht : TablesOk s) : (ppmEncodeFrom sym n s).Post
    (fun _ t => EncDone s sym n t)
    (fun c t => EncFailed s (descentSteps s sym n) c t)
    (fun _ t => EncStopped s t ∧ SinkStops .silent (filledBytes s (descentSteps s sym n)) s) := by
  have hT := (legal_threshold h.legal).2
  induction n generalizing s with
  | zero =>
    unfold ppmEncodeFrom
    have hpos : 0 < tableGet uniformTable sym := by rw [uniform_get hsym]; exact Nat.one_pos
    have htot := total_ok_uniform h.legal
    have hsteps : descentSteps s sym 0 = [symbolInterval uniformTable sym] := rfl
    have key : ∀ t, EncReady t ∧ Codes s t ((coded s).code s.build (symbolInterval uniformTable sym)) →
        EncDone s sym 0 t := by
      rintro t ⟨hr, hw⟩
      exact ⟨hr, by rw [hsteps]; exact hw, by rw [hsteps]; exact hw.fits_one hr⟩
    rw [hsteps]
    generalize uniformTable = tab at hpos htot key ⊢
    refine (encodeSymbol_post h htot hpos).andThen ?_ ?_ ?_
    · rintro - t hk; exact key t hk
    · exact fun c t hf => hf
    · exact fun q t hf => hf
  | succ n ih =>
    unfold ppmEncodeFrom
    split
    · next hl =>
      have hsteps : descentSteps s sym (n + 1) = descentSteps s sym n := by
        change storeGet s.store (s.hist.take n) = none at hl
        rw [descentSteps, hl]
      refine (ih h ht hT).imp ?_ ?_ ?_
      · rintro - t ⟨hr, hw, hf⟩
        exact ⟨hr, hsteps ▸ hw, hsteps ▸ hf⟩
      · exact fun c t hf => hsteps ▸ hf
      · exact fun q t hf => hsteps ▸ hf
    · next tab hl =>
      have hok : TableOk s.build tab := ht _ _ hl
      change storeGet s.store (s.hist.take n) = some tab at hl
      split
      · next hg =>
        have hsteps : descentSteps s sym (n + 1) = [symbolInterval tab sym] := by
          rw [descentSteps, hl]; simp only [if_pos hg]
        refine (encodeSymbol_post h (total_ok_of_table h.legal hok hT) hg.2).andThen ?_ ?_ ?_
        · rintro - t ⟨hr, hw⟩
          exact ⟨hr, hsteps ▸ hw, hsteps ▸ hw.fits_one hr⟩
        · intro c t hf; exact hsteps ▸ hf
        · intro q t hf; exact hsteps ▸ hf
      · next hg =>
        have hsteps : descentSteps s sym (n + 1) = symbolInterval tab esc :: descentSteps s sym n := by
          rw [descentSteps, hl]; simp only [if_neg hg]
        refine (encodeSymbol_post h (total_ok_of_table h.legal hok hT) (esc_pos hok)).andThen ?_ ?_ ?_
        · rintro - t ⟨hr, hw⟩
          have ho := hw.wrote.only
          have eb := ho.build
          have ed := descentSteps_congr (s := s) (t := t) ho.model.1 ho.model.2.2.2 sym n
          refine (ih hr (ho.tables ht) (eb ▸ hT)).imp ?_ ?_ ?_
          · rintro - u ⟨hr', hw', hf'⟩
            rw [ed] at hw' hf'
            rw [eb] at hf'
            exact ⟨hr', hsteps ▸ hw.run_cons eb hw', hsteps ▸ hw.fits_cons hr hf'⟩
          · intro c u hf
            rw [ed] at hf
            exact hsteps ▸ hf.after eb h.room hw hr
          · rintro q u ⟨hs, m⟩
            rw [ed] at m
            exact ⟨.after hw.wrote hs, hsteps ▸ hw.stops eb h.room hr m⟩
        · intro c t hf; exact hsteps ▸ hf.first
        · rintro q t ⟨hs, m⟩; exact ⟨hs, hsteps ▸ m.first _⟩

theorem DecFailed.after {s t u : State} {b : List Bool} {c : Cause} (h : Read s t b) (k : DecFailed t c u) :
    DecFailed s c u :=
  ⟨.after h k.stopped, k.cause.1, h.back k.cause.2⟩

/-- Decoding steps after a decoding step. -/
theorem Decodes.run_cons {s t u : State} {i : Interval} {l : List Interval} (eb : t.build = s.build)
    (h : Decodes s t ((coded s).code s.build i)) (k : Decodes t u ((coded t).run t.build l)) :
    Decodes s u ((coded s).run s.build (i :: l)) := by
  obtain ⟨b1, l1, r1, v1⟩ := h.reads
  obtain ⟨b2, l2, r2, v2⟩ := k.reads
  have hf := run_frame s.build l (c := ((coded s).code s.build i).bare) (d := coded t) ⟨h.low, h.high, rfl, rfl⟩
  rw [eb] at k l2 v2
  have hs : (coded s).run s.build (i :: l) =
      ((coded s).code s.build i).after (((coded s).code s.build i).bare.run s.build l) := by
    rw [Sys2Proof.Machine.run_cons]; exact run_split _ _ _
  refine ⟨⟨b1 ++ b2, ?_, r1.trans r2, ?_⟩, ?_, ?_⟩
  · rw [hs, List.length_append, l1, l2, hf.steps]; rfl
  · rw [hs, bitsValue_append]
    simp only [Coded.after]
    rw [← hf.steps, ← hf.off, ← l2, Nat.pow_add]
    rw [← l2] at v2
    calc u.code + (((coded s).code s.build i).off * 2 ^ b2.length + ((coded t).run s.build l).off) =
        (u.code + ((coded t).run s.build l).off) + ((coded s).code s.build i).off * 2 ^ b2.length := by ring
      _ = (t.code + ((coded s).code s.build i).off) * 2 ^ b2.length + bitsValue b2 := by rw [v2]; ring
      _ = _ := by rw [v1]; ring
  · rw [hs, k.low, hf.low]; rfl
  · rw [hs, k.high, hf.high]; rfl

/-- What the descent of `ppmDecode` can do (R177, R158): a symbol of the alphabet; no MODEL_CORRUPTION. -/
theorem ppmDecodeFrom_post (n : Nat) {s : State} (h : DecReady s) (ht : TablesOk s) :
    (ppmDecodeFrom n s).Post
    (fun sym t => sym < 257 ∧ DecReady t ∧
      ∃ l, DecodePath s sym n l ∧ Decodes s t ((coded s).run s.build l))
    (fun c t => DecFailed s c t)
    (fun _ t => DecStopped s t ∧ SourceStops .silent s) := by
  have hT := (legal_threshold h.legal).2
  induction n generalizing s with
  | zero =>
    unfold ppmDecodeFrom
    have htot := total_ok_uniform h.legal
    have hlen : uniformTable.counts.length = 257 := by unfold uniformTable; rw [List.length_replicate]
    have hpath : ∀ sym, DecodePath s sym 0 [symbolInterval uniformTable sym] := fun _ => rfl
    generalize uniformTable = tab at htot hlen hpath ⊢
    refine (decodeSymbol_post h htot).imp ?_ (fun _ _ h => h.1) (fun _ _ h => ⟨h.1, h.2.1⟩)
    rintro sym t ⟨hp, hr, hb, -⟩
    exact ⟨hlen ▸ get_lt_length hp, hr, _, hpath sym, hb⟩
  | succ n ih =>
    unfold ppmDecodeFrom
    split
    · next hl =>
      change storeGet s.store (s.hist.take n) = none at hl
      refine (ih h ht hT).imp ?_ (fun _ _ h => h) (fun _ _ h => h)
      rintro sym t ⟨h1, h2, l, h3, h4⟩
      exact ⟨h1, h2, l, by rw [DecodePath, hl]; exact h3, h4⟩
    · next tab hl =>
      have hok : TableOk s.build tab := ht _ _ hl
      change storeGet s.store (s.hist.take n) = some tab at hl
      refine (decodeSymbol_post h (total_ok_of_table h.legal hok hT)).andThen ?_ (fun _ _ h => h.1)
        (fun _ _ h => ⟨h.1, h.2.1⟩)
      rintro sym t ⟨hp, hr, hb, -⟩
      obtain ⟨bits, -, hread, -⟩ := hb.reads
      have ho := hread.only
      have eb := ho.build
      split
      · next hne =>
        refine ⟨?_, hr, [symbolInterval tab sym], ?_, hb⟩
        · have := get_lt_length hp
          rwa [hok.1] at this
        · rw [DecodePath, hl]; exact Or.inl ⟨hne, hp, rfl⟩
      · next he =>
        replace he : sym = esc := by simpa using he
        subst he
        refine (ih hr (ho.tables ht) (eb ▸ hT)).imp ?_ ?_ ?_
        · rintro sym' u ⟨h1, h2, l, h3, h4⟩
          rw [DecodePath_congr ho.model.1 ho.model.2.2.2] at h3
          refine ⟨h1, h2, symbolInterval tab esc :: l, ?_, hb.run_cons eb h4⟩
          rw [DecodePath, hl]; exact Or.inr ⟨l, rfl, h3⟩
        · exact fun c u hf => hf.after hread
        · rintro q u ⟨hs, m⟩
          exact ⟨.after hread hs, hread.back m⟩

/-! ## The update -/

theorem capacity_of_full {s : State} (h : storeIsFull s = true) : s.build.nodeCapacity = some s.nodes := by
  simpa [storeIsFull] using h

/-- What `create` can do (R181). -/
theorem create_post (key : Key) (s : State) : (create key s).Post
    (fun _ t => storeIsFull s = false ∧
      t = { s with store := storePut s.store key freshTable, nodes := s.nodes + 1 })
    (fun c t => c = .storeFull ∧ t = s ∧ s.build.nodeCapacity = some s.nodes)
    (fun _ _ => False) := by
  unfold create
  split
  · next h => exact ⟨rfl, rfl, capacity_of_full h⟩
  · next h => exact ⟨by simpa using h, rfl⟩

/-- A new context keeps the model in order, if its parent is there (R37, R181). -/
theorem ModelOk.create {s : State} (hb : s.build.legal = true) (h : ModelOk s) {key : Key}
    (hnew : storeGet s.store key = none) (hlen : (key.length : Int) ≤ s.order)
    (hpre : ∀ k, k < key.length → (storeGet s.store (key.take k)).isSome = true) (hfull : storeIsFull s = false) :
    ModelOk { s with store := storePut s.store key freshTable, nodes := s.nodes + 1 } := by
  refine ⟨storePut_sorted h.sorted _ _, ?_, ?_, ?_, ?_, ?_, h.history⟩
  · intro k n
    simp only [storeGet_put]
    intro hk
    split
    · rfl
    · next hne =>
      split at hk
      · next he =>
        subst he
        refine hpre n ?_
        by_contra hc
        exact hne (List.take_of_length_le (by omega))
      · exact h.prefixClosed k n hk
  · intro k t
    simp only [storeGet_put]
    split
    · intro e; cases e; exact fresh_ok hb
    · exact h.tables k t
  · intro k
    simp only [storeGet_put]
    split
    · next he => intro _; rw [he]; exact hlen
    · exact h.keys k
  · simp only [storePut_length h.sorted, hnew, h.nodes]; rfl
  · intro c hc
    have := h.capacity c hc
    have hne : c ≠ s.nodes := by
      rintro rfl
      simp only at hc
      simp [storeIsFull, hc] at hfull
    simp only; omega

/-- One more occurrence in a context keeps the model in order (R125, R126). -/
theorem ModelOk.increment {s : State} (hb : s.build.legal = true) (h : ModelOk s) {key : Key} {t : Table}
    (hk : storeGet s.store key = some t) {sym : Nat} (hsym : sym < 256) :
    ModelOk { s with store := storePut s.store key (tableIncrement s.build.threshold t sym) } := by
  have hsome : ∀ k, (storeGet (storePut s.store key (tableIncrement s.build.threshold t sym)) k).isSome =
      (storeGet s.store k).isSome := by
    intro k
    rw [storeGet_put]
    split
    · next e => rw [e, hk]; rfl
    · rfl
  refine ⟨storePut_sorted h.sorted _ _, ?_, ?_, ?_, ?_, h.capacity, h.history⟩
  · intro k n
    simp only [hsome]
    exact h.prefixClosed k n
  · intro k u
    simp only [storeGet_put]
    split
    · intro e; cases e; exact increment_ok hb (h.tables _ _ hk) hsym
    · exact h.tables k u
  · intro k
    simp only [hsome]
    exact h.keys k
  · simp only [storePut_length h.sorted, hk, h.nodes]; simp

/-- The store after `update` (R180): in each context of the history's suffixes of length k to k + n - 1 the symbol
has one more occurrence; a missing one starts from a fresh table. -/
def StoreUpdated (sym n k : Nat) (s t : State) : Prop :=
  ∀ key, storeGet t.store key =
    if k ≤ key.length ∧ key.length < k + n ∧ key = s.hist.take key.length then
      some (tableIncrement s.build.threshold ((storeGet s.store key).getD freshTable) sym)
    else storeGet s.store key

theorem missingFrom_congr {s t : State} (n k : Nat)
    (h : ∀ j, k ≤ j → j < k + n → lookup t j = lookup s j) : missingFrom t n k = missingFrom s n k := by
  induction n generalizing k with
  | zero => rfl
  | succ n ih =>
    unfold missingFrom
    rw [h k (by omega) (by omega), ih (k + 1) (fun j h1 h2 => h j (by omega) (by omega))]

theorem storeRoom_congr {s t : State} (hb : t.build = s.build) (hs : t.store = s.store) (hn : t.nodes = s.nodes)
    (ho : t.order = s.order) (hh : t.hist = s.hist) : StoreRoom t ↔ StoreRoom s := by
  have e : descentOrders t = descentOrders s := by unfold descentOrders; rw [ho, hh]
  have m : missingFrom t (descentOrders s) 0 = missingFrom s (descentOrders s) 0 :=
    missingFrom_congr _ _ fun j _ _ => by unfold lookup contextKey; rw [hs, hh]
  unfold StoreRoom
  rw [hb, hn, e, m]

/-- What the update's loop can do (R180). -/
theorem updateFrom_post {sym : Nat} (hsym : sym < 256) (n k : Nat) {s : State} (hb : s.build.legal = true)
    (h : ModelOk s) (hn : k + n ≤ s.hist.length + 1) (ho : 0 < n → 0 ≤ s.order)
    (hpre : ∀ j, j < k → (storeGet s.store (s.hist.take j)).isSome = true) : (updateFrom sym n k s).Post
    (fun _ t => StoreOnly s t ∧ ModelOk t ∧ StoreUpdated sym n k s t ∧ t.nodes = s.nodes + missingFrom s n k)
    (fun c t => c = .storeFull ∧ StoreOnly s t ∧ ModelOk t ∧
      (∃ cap, s.build.nodeCapacity = some cap ∧ cap < s.nodes + missingFrom s n k) ∧
      ∃ j < n, lookup s (k + j) = none ∧ s.build.nodeCapacity = some t.nodes ∧ StoreUpdated sym j k s t)
    (fun _ _ => False) := by
  induction n generalizing k s with
  | zero =>
    refine ⟨.refl s, h, ?_, rfl⟩
    intro key
    rw [if_neg (by omega)]
  | succ n ih =>
    have hlen : (contextKey s k).length = k := by
      unfold contextKey; rw [List.length_take]; omega
    have hmid : ∀ u : State, StoreOnly s u → ModelOk u →
        u.nodes = s.nodes + (if (lookup s k).isNone then 1 else 0) →
        (∀ key, storeGet u.store key =
          if key = contextKey s k then some ((storeGet s.store key).getD freshTable) else storeGet s.store key) →
        (updateFrom sym n (k + 1) (incrementAt (contextKey s k) sym u)).Post
          (fun _ t => StoreOnly s t ∧ ModelOk t ∧ StoreUpdated sym (n + 1) k s t ∧
            t.nodes = s.nodes + missingFrom s (n + 1) k)
          (fun c t => c = .storeFull ∧ StoreOnly s t ∧ ModelOk t ∧
            (∃ cap, s.build.nodeCapacity = some cap ∧ cap < s.nodes + missingFrom s (n + 1) k) ∧
            ∃ j < n + 1, lookup s (k + j) = none ∧ s.build.nodeCapacity = some t.nodes ∧ StoreUpdated sym j k s t)
          (fun _ _ => False) := by
      intro u hu hm hnodes hget
      have hstore : ∀ u : State, StoreOnly u { u with
          store := storePut u.store (contextKey s k)
            (tableIncrement u.build.threshold ((storeGet s.store (contextKey s k)).getD freshTable) sym) } :=
        fun _ => rfl
      have ebuild : u.build = s.build := by unfold StoreOnly at hu; rw [hu]
      have ehist : u.hist = s.hist := by unfold StoreOnly at hu; rw [hu]
      have hk : storeGet u.store (contextKey s k) = some ((storeGet s.store (contextKey s k)).getD freshTable) := by
        rw [hget, if_pos rfl]
      unfold incrementAt
      rw [hk]
      dsimp only
      have hinc := hm.increment (ebuild ▸ hb) hk hsym
      have eorder : u.order = s.order := by unfold StoreOnly at hu; rw [hu]
      have elook : ∀ j, k + 1 ≤ j → j < k + 1 + n → lookup { u with
          store := storePut u.store (contextKey s k)
            (tableIncrement u.build.threshold ((storeGet s.store (contextKey s k)).getD freshTable) sym) } j =
          lookup s j := by
        intro j hj hj'
        have hne : s.hist.take j ≠ contextKey s k := by
          intro e
          have := congrArg List.length e
          rw [hlen, List.length_take] at this
          omega
        simp only [lookup, contextKey, ehist, storeGet_put]
        exact (if_neg hne).trans ((hget _).trans (if_neg hne))
      have emiss := missingFrom_congr n (k + 1) elook
      have upd : ∀ m t, StoreUpdated sym m (k + 1) { u with
          store := storePut u.store (contextKey s k)
            (tableIncrement u.build.threshold ((storeGet s.store (contextKey s k)).getD freshTable) sym) } t →
          StoreUpdated sym (m + 1) k s t := by
        intro m t hst key
        have := hst key
        simp only [ehist, ebuild, storeGet_put, hget] at this
        rw [this]
        by_cases e : key = contextKey s k
        · have hkl : key.length = k := by rw [e]; exact hlen
          rw [if_neg (by omega), if_pos e, if_pos ⟨by omega, by omega, by rw [hkl]; exact e⟩, e]
        · have hne : ¬ (key.length = k ∧ key = s.hist.take key.length) := by
            rintro ⟨h1, h2⟩; exact e (by rw [h2, h1]; rfl)
          rw [if_neg e, if_neg e]
          by_cases h1 : k + 1 ≤ key.length ∧ key.length < k + 1 + m ∧ key = s.hist.take key.length
          · rw [if_pos h1, if_pos ⟨by omega, by omega, h1.2.2⟩]
          · rw [if_neg h1, if_neg]
            rintro ⟨g1, g2, g3⟩
            exact h1 ⟨by by_contra hc; exact hne ⟨by omega, g3⟩, by omega, g3⟩
      have esum : u.nodes + missingFrom s n (k + 1) = s.nodes + missingFrom s (n + 1) k := by
        rw [hnodes, missingFrom]; omega
      refine (ih (k + 1) (ebuild ▸ hb) hinc ?_ ?_ ?_).imp ?_ ?_ ?_
      · simp only [ehist]; omega
      · intro _; simp only [eorder]; exact ho (by omega)
      · intro j hj
        simp only [ehist, storeGet_put]
        split
        · rfl
        · next hne =>
          rw [hget, if_neg hne]
          refine hpre j ?_
          by_contra hc
          refine hne ?_
          rw [show j = k by omega]; rfl
      · rintro - t ⟨ho, hmt, hst, hnt⟩
        exact ⟨hu.trans ((hstore u).trans ho), hmt, upd n t hst, by rw [hnt, emiss]; exact esum⟩
      · rintro c t ⟨e, ho, hmt, ⟨cap, hc1, hc2⟩, j, hj, hl, hcap, hst⟩
        refine ⟨e, hu.trans ((hstore u).trans ho), hmt, ⟨cap, ebuild ▸ hc1, ?_⟩, j + 1, by omega, ?_,
          ebuild ▸ hcap, upd j t hst⟩
        · rw [emiss] at hc2
          exact esum ▸ hc2
        · rw [elook _ (by omega) (by omega)] at hl
          rw [← hl]; congr 1; omega
      · exact fun q t hf => hf
    unfold updateFrom ensureContext
    split
    · next hnone =>
      replace hnone : storeGet s.store (contextKey s k) = none := by simpa using hnone
      refine (create_post (contextKey s k) s).andThen ?_ ?_ ?_
      · rintro - u ⟨hfull, hu⟩
        have hc : contextKey u k = contextKey s k := by rw [hu]; rfl
        rw [hc]
        have hmodel : ModelOk u := by
          rw [hu]
          refine h.create hb hnone ?_ ?_ hfull
          · have := h.history
            have := ho (by omega)
            rw [hlen]; omega
          · intro j hj
            rw [hlen] at hj
            have : (contextKey s k).take j = s.hist.take j := by
              unfold contextKey; rw [List.take_take, Nat.min_eq_left (by omega)]
            rw [this]; exact hpre j hj
        refine hmid u (by rw [hu]; rfl) hmodel (by rw [hu, lookup, hnone]; rfl) ?_
        intro key
        rw [hu]
        simp only [storeGet_put]
        by_cases e : key = contextKey s k
        · rw [if_pos e, if_pos e, e, hnone]; rfl
        · rw [if_neg e, if_neg e]
      · rintro c t ⟨e, ht, hcap⟩
        subst ht
        exact ⟨e, .refl _, h, ⟨_, hcap, by rw [missingFrom, lookup, hnone]; simp⟩, 0, by omega, hnone, hcap,
          fun key => by rw [if_neg (by omega)]⟩
      · exact fun q t hf => hf
    · next hsome =>
      obtain ⟨t0, ht0⟩ : ∃ t0, storeGet s.store (contextKey s k) = some t0 := by
        cases hx : storeGet s.store (contextKey s k) with
        | none => rw [hx] at hsome; exact absurd rfl hsome
        | some t0 => exact ⟨t0, rfl⟩
      refine hmid s (.refl s) h (by rw [lookup, ht0]; rfl) ?_
      intro key
      by_cases e : key = contextKey s k
      · rw [if_pos e, e, ht0]; rfl
      · rw [if_neg e]

/-- What `update` can do (R180). -/
theorem update_post {sym : Nat} (hsym : sym < 256) {s : State} (hb : s.build.legal = true) (h : ModelOk s) :
    (update sym s).Post
    (fun _ t => StoreOnly s t ∧ ModelOk t ∧ StoreUpdated sym (descentOrders s) 0 s t ∧ StoreRoom s)
    (fun c t => c = .storeFull ∧ StoreOnly s t ∧ ModelOk t ∧ ¬ StoreRoom s ∧ UpdateStopped sym s t)
    (fun _ _ => False) := by
  refine (updateFrom_post hsym (descentOrders s) 0 hb h ?_ ?_ (fun j hj => by omega)).imp ?_ ?_ (fun q t hf => hf)
  · unfold descentOrders; split <;> omega
  · unfold descentOrders; split
    · next ho => exact fun _ => ho
    · intro hc; omega
  · rintro - t ⟨ho, hm, hst, hn⟩
    refine ⟨ho, hm, hst, fun cap hc => ?_⟩
    have eb : t.build = s.build := by unfold StoreOnly at ho; rw [ho]
    have := hm.capacity cap (eb ▸ hc)
    omega
  · rintro c t ⟨e, ho, hm, ⟨cap, h1, h2⟩, j, hj, hl, hcap, hst⟩
    refine ⟨e, ho, hm, fun hr => by have := hr cap h1; omega, j, hj, by rwa [Nat.zero_add] at hl, hcap, fun key => ?_⟩
    rw [hst key]
    simp only [Nat.zero_le, true_and, Nat.zero_add]

/-- A stopped update reads of the state only what the coding steps before it leave alone. -/
theorem UpdateStopped.congr {sym : Nat} {s t u : State} (h : UpdateStopped sym t u) (hb : t.build = s.build)
    (hs : t.store = s.store) (ho : t.order = s.order) (hh : t.hist = s.hist) : UpdateStopped sym s u := by
  unfold UpdateStopped descentOrders lookup contextKey at *
  rwa [hb, hs, ho, hh] at h

theorem StoreUpdated.learned {sym : Nat} {s t : State} (h : StoreUpdated sym (descentOrders s) 0 s t) :
    StoreLearned sym s t := by
  intro key
  rw [h key]
  by_cases ho : 0 ≤ s.order
  · have e : descentOrders s = s.hist.length + 1 := by unfold descentOrders; rw [if_pos ho]
    by_cases hk : key = s.hist.take key.length
    · have hl := congrArg List.length hk
      rw [List.length_take] at hl
      rw [if_pos ⟨Nat.zero_le _, by omega, hk⟩, if_pos ⟨ho, hk⟩]
    · rw [if_neg (fun c => hk c.2.2), if_neg (fun c => hk c.2)]
  · have e : descentOrders s = 0 := by unfold descentOrders; rw [if_neg ho]
    rw [if_neg (by rw [e]; omega), if_neg (fun c => ho c.1)]

/-! ## History -/

theorem pushed_length (order : Int) (b : Byte) (hist : List Byte) (h : (hist.length : Int) ≤ order)
    : ((pushed order b hist).length : Int) ≤ order := by
  unfold pushed
  split
  · rw [List.length_dropLast, List.length_cons]; omega
  · omega

theorem ModelOk.push {s : State} (h : ModelOk s) (b : Byte) : ModelOk (pushHistory b s) := by
  unfold pushHistory
  split
  · next ho =>
    refine ⟨h.sorted, h.prefixClosed, h.tables, h.keys, h.nodes, h.capacity, ?_⟩
    have := h.history
    have := pushed_length s.order b s.hist (by omega)
    simp only; omega
  · exact h

/-- H never holds more than M bytes, so `pushHistory` drops at most one (R184). -/
theorem pushHistory_hist_eq {s : State} (h : (s.hist.length : Int) ≤ max s.order 0) (b : Byte) :
    (pushHistory b s).hist = historyAfter b s := by
  unfold pushHistory historyAfter pushed
  by_cases ho : 1 ≤ s.order
  · rw [if_pos ho, if_pos ho]
    simp only
    have hn : ((s.order.toNat : Nat) : Int) = s.order := Int.toNat_of_nonneg (by omega)
    split
    · next hl =>
      rw [List.length_cons] at hl
      have : s.order.toNat = s.hist.length := by omega
      rw [this, List.dropLast_eq_take, List.length_cons, Nat.add_sub_cancel]
    · next hl =>
      rw [List.length_cons] at hl
      rw [List.take_of_length_le]
      rw [List.length_cons]; omega
  · rw [if_neg ho, if_neg (by omega)]

theorem pushHistory_only (b : Byte) (s : State) :
    pushHistory b s = { s with hist := (pushHistory b s).hist } := by
  unfold pushHistory; split <;> rfl

end Sys2Proof.Machine
end

