-- ==== Sys2Proof/Laws/Commands.lean ====
section
/-! SUPPORT. What each command's rule can do from an open session in order (44_commands.md R202 to R213), said once
for the claims about `exec` to cite. -/

namespace Sys2Proof.Machine

/-! ## Sessions in order -/

/-- An open encode session between commands. -/
structure EncodeOpen (s : State) : Prop where
  coder : EncReady s
  model : ModelOk s

/-- An open decode session between commands. -/
structure DecodeOpen (s : State) : Prop where
  coder : DecReady s
  model : ModelOk s

/-- An encode command ended at t, completed or not, with its registers and model in order. -/
structure EncEnd (s t : State) : Prop where
  low : t.low < s.build.full
  high : t.high < s.build.full
  pending : t.pending ≤ s.build.pendingMax
  outN : t.outN ≤ 8
  model : ModelOk t
  moves : SinkMoves s t

/-- A decode command ended at t, completed or not, with its registers and model in order. -/
structure DecEnd (s t : State) : Prop where
  low : t.low < s.build.full
  high : t.high < s.build.full
  code : t.code < s.build.full
  inN : t.inN ≤ 8
  model : ModelOk t
  moves : t.env.source <:+ s.env.source

theorem EncStopped.ended {s t : State} (h : EncStopped s t) (hm : ModelOk s) : EncEnd s t :=
  ⟨h.low, h.high, h.pending, h.stopped.outN, h.stopped.only.modelOk hm, h.stopped.moves⟩

theorem EncReady.ended {s t : State} {bits : List Bool} (h : EncReady t) (hw : Wrote s t bits) (hm : ModelOk t) :
    EncEnd s t := by
  have eb := hw.only.build
  exact ⟨eb ▸ h.toRangeReady.low, eb ▸ h.high, eb ▸ h.pending, by have := h.room; omega, hm, hw.moves⟩

theorem DecStopped.ended {s t : State} (h : DecStopped s t) (hm : ModelOk s) : DecEnd s t :=
  ⟨h.low, h.high, h.code, h.inN, h.only.modelOk hm, h.moves⟩

theorem DecReady.ended {s t : State} {bits : List Bool} (h : DecReady t) (hr : Read s t bits) (hm : ModelOk t) :
    DecEnd s t := by
  have eb := hr.only.build
  exact ⟨eb ▸ h.toRangeReady.low, eb ▸ h.high, eb ▸ h.code, h.inN, hm, hr.moves⟩

theorem EncodedTo.of_writer {s t u : State} {c : Coded} (h : EncodedTo s t c) (e1 : u.low = t.low)
    (e2 : u.high = t.high) (e3 : u.pending = t.pending) (e4 : u.outBuf = t.outBuf) (e5 : u.outN = t.outN)
    (e6 : u.bitsOut = t.bitsOut) (e7 : u.bytesOut = t.bytesOut) (e8 : u.env = t.env) : EncodedTo s u c :=
  ⟨e1.trans h.low, e2.trans h.high, e3.trans h.pending, by rw [writtenBits, e4, e5, e8]; exact h.bits,
    e6.trans h.bitsOut, e8 ▸ h.sunk, by rw [e7, e8]; exact h.bytesOut⟩

theorem DecodedTo.of_reader {s t u : State} {c : Coded} (h : DecodedTo s t c) (e1 : u.low = t.low)
    (e2 : u.high = t.high) (e3 : u.code = t.code) (e4 : u.inBuf = t.inBuf) (e5 : u.inN = t.inN)
    (e6 : u.inEof = t.inEof) (e7 : u.bytesIn = t.bytesIn) (e8 : u.env = t.env) : DecodedTo s u c :=
  ⟨e1.trans h.low, e2.trans h.high, by rw [unreadBits, e4, e5, e6, e8]; exact h.rest, by rw [e3]; exact h.code, by
    have : unreadBytes u = unreadBytes t := by unfold unreadBytes; rw [e6, e8]
    rw [e7, this]; exact h.bytesIn⟩

theorem descentOrders_le (s : State) : descentOrders s ≤ s.hist.length + 1 := by
  unfold descentOrders; split <;> omega

/-! ## Learning a symbol -/

/-- What a literal's update and push leave (R180, R184). -/
structure Learned (b : Byte) (s t : State) : Prop where
  only : t = { s with store := t.store, nodes := t.nodes, hist := t.hist }
  model : ModelOk t
  store : StoreUpdated b.toNat (descentOrders s) 0 s t
  hist : t.hist = (pushHistory b s).hist
  room : StoreRoom s

theorem pushHistory_hist {s u : State} (ho : u.order = s.order) (hh : u.hist = s.hist) (b : Byte) :
    (pushHistory b u).hist = (pushHistory b s).hist := by
  unfold pushHistory
  rw [ho]
  split
  · simp only [hh]
  · exact hh

/-- What learning a literal can do (R180, R181, R184). -/
theorem learn_post (b : Byte) {s : State} (hb : s.build.legal = true) (h : ModelOk s) : (learn b s).Post
    (fun _ t => Learned b s t)
    (fun c t => c = .storeFull ∧ StoreOnly s t ∧ ModelOk t ∧ ¬ StoreRoom s ∧ UpdateStopped b.toNat s t)
    (fun _ _ => False) := by
  unfold learn
  have hlit : literal b < 256 := b.isLt
  refine (update_post hlit hb h).andThen ?_ ?_ ?_
  · rintro - t ⟨ho, hm, hst, hroom⟩
    have e1 : t.order = s.order := by unfold StoreOnly at ho; rw [ho]
    have e2 : t.hist = s.hist := by unfold StoreOnly at ho; rw [ho]
    have e3 : (pushHistory b t).store = t.store := by rw [pushHistory_only]
    refine ⟨?_, hm.push b, ?_, pushHistory_hist e1 e2 b, hroom⟩
    · rw [pushHistory_only]; unfold StoreOnly at ho; rw [ho]
    · intro key; rw [e3]; exact hst key
  · exact fun c t hf => hf
  · exact fun q t hf => hf

/-! ## ENC_BYTE -/

/-- ENC_BYTE completed (R204). -/
structure EncByteDone (b : Byte) (s t : State) : Prop where
  opened : EncodeOpen t
  writes : EncByteWrites s t
  moves : SinkMoves s t
  coded : EncodedTo s t ((coded s).run s.build (codingSteps s b.toNat))
  store : StoreUpdated b.toNat (descentOrders s) 0 s t
  hist : t.hist = (pushHistory b s).hist
  syms : t.syms = s.syms + 1
  fits : PendingFits s.build (codingSteps s b.toNat) (Machine.coded s)
  room : StoreRoom s
  takes : SinkTakes (filledBytes s (codingSteps s b.toNat)) s

/-- Why ENC_BYTE can fail (R249), and what stays of it (R245): where the coder fails the model is as it was; where the
store is full the byte is coded (R204) and the update has gone as far as there was room. -/
def EncByteCause (b : Byte) (s : State) (c : Cause) (t : State) : Prop :=
  (c = .sinkFail ∧ SinkStops .fail (filledBytes s (codingSteps s b.toNat)) s ∧ EncoderOnly s t) ∨
  (c = .pendingFull ∧ ¬ PendingFits s.build (codingSteps s b.toNat) (coded s) ∧
    SinkTakes (filledBytes s (codingSteps s b.toNat)) s ∧ EncoderOnly s t) ∨
  (c = .storeFull ∧ ¬ StoreRoom s ∧ PendingFits s.build (codingSteps s b.toNat) (coded s) ∧
    SinkTakes (filledBytes s (codingSteps s b.toNat)) s ∧
    EncodedTo s t ((coded s).run s.build (codingSteps s b.toNat)) ∧ t.hist = s.hist ∧ UpdateStopped b.toNat s t)

/-- Why ENC_FINISH can fail (R249). -/
def EncFinishCause (s : State) (c : Cause) : Prop :=
  (c = .sinkFail ∧ FinishStops .fail s) ∨
  (c = .pendingFull ∧ ¬ FinishFits s ∧ SinkTakes (filledBytes s (finishSteps s)) s)

theorem EncoderOnly.encByte {s t : State} (h : EncoderOnly s t) : EncByteWrites s t := by
  unfold EncoderOnly at h; unfold EncByteWrites; rw [h]

/-- What ENC_BYTE's rule can do (R204, R249). -/
theorem encByteBody_post (b : Byte) {s : State} (h : EncodeOpen s) : (encByteBody b s).Post
    (fun _ t => EncByteDone b s t)
    (fun c t => EncByteCause b s c t ∧ EncEnd s t ∧ EncByteWrites s t ∧ t.syms = s.syms)
    (fun _ t => SinkStops .silent (filledBytes s (codingSteps s b.toNat)) s ∧ EncEnd s t ∧ EncByteWrites s t) := by
  have hlit : literal b < 257 := by have := b.isLt; unfold literal; omega
  have hm := h.model
  unfold encByteBody ppmEncode
  refine (ppmEncodeFrom_post hlit (descentOrders s) h.coder hm.tables).andThen ?_ ?_ ?_
  · rintro k t ⟨hr, hcodes, hfits⟩
    have hw := hcodes.wrote
    have ho := hw.only
    have hmt := ho.modelOk hm
    have e1 := ho.model
    have ed : descentOrders t = descentOrders s := by unfold descentOrders; rw [e1.2.2.1, e1.2.2.2]
    have htakes := hcodes.took_filled h.coder.room hfits
    refine (learn_post b hr.legal hmt).andThen ?_ ?_ ?_
    · rintro - u hl
      have hu := hl.only
      have elow : u.low = t.low := by rw [hu]
      have ehigh : u.high = t.high := by rw [hu]
      have ebuild : u.build = t.build := by rw [hu]
      have epend : u.pending = t.pending := by rw [hu]
      have eout : u.outN = t.outN := by rw [hu]
      have hroom := (storeRoom_congr ho.build e1.1 e1.2.1 e1.2.2.1 e1.2.2.2).mp hl.room
      refine ⟨⟨⟨⟨?_, ?_, ?_⟩, ?_, ?_⟩, ?_⟩, ?_, ?_, ?_, ?_, ?_, ?_, hfits, hroom, htakes⟩
      · exact ebuild ▸ hr.legal
      · simp only [countSymbol]; rw [ebuild, elow, ehigh]; exact hr.norm
      · simp only [countSymbol]; rw [ebuild, ehigh]; exact hr.high
      · simp only [countSymbol]; rw [ebuild, epend]; exact hr.pending
      · simp only [countSymbol]; rw [eout]; exact hr.room
      · exact hl.model.of_eq rfl rfl rfl rfl rfl
      · unfold EncByteWrites countSymbol; unfold EncoderOnly at ho; rw [hu, ho]
      · have : (countSymbol u).env = t.env := by simp only [countSymbol]; rw [hu]
        unfold SinkMoves; rw [this]; exact hw.moves
      · refine hcodes.encodedTo.of_writer ?_ ?_ ?_ ?_ ?_ ?_ ?_ ?_ <;> (simp only [countSymbol]; rw [hu])
      · intro key
        have := hl.store key
        rw [ed, e1.1, e1.2.2.2, ho.build] at this
        exact this
      · simp only [countSymbol]; rw [hl.hist]; exact pushHistory_hist e1.2.2.1 e1.2.2.2 b
      · have : u.syms = s.syms := by unfold EncoderOnly at ho; rw [hu, ho]
        simp only [countSymbol]; rw [this]
    · rintro c u ⟨e, hso, hmu, hroom, hstop⟩
      have hend := hr.ended hw hmt
      rw [storeRoom_congr ho.build e1.1 e1.2.1 e1.2.2.1 e1.2.2.2] at hroom
      refine ⟨Or.inr (Or.inr ⟨e, hroom, hfits, htakes, ?_, ?_, hstop.congr ho.build e1.1 e1.2.2.1 e1.2.2.2⟩),
        ?_, ?_, ?_⟩
      · unfold StoreOnly at hso
        refine hcodes.encodedTo.of_writer ?_ ?_ ?_ ?_ ?_ ?_ ?_ ?_ <;> rw [hso]
      · unfold StoreOnly at hso; rw [hso]; exact e1.2.2.2
      · unfold StoreOnly at hso
        refine ⟨?_, ?_, ?_, ?_, hmu, ?_⟩
        · rw [hso]; exact hend.low
        · rw [hso]; exact hend.high
        · rw [hso]; exact hend.pending
        · rw [hso]; exact hend.outN
        · unfold SinkMoves; rw [hso]; exact hend.moves
      · unfold EncByteWrites; unfold StoreOnly at hso; unfold EncoderOnly at ho; rw [hso, ho]
      · unfold StoreOnly at hso; unfold EncoderOnly at ho; rw [hso, ho]
    · exact fun q u hf => hf.elim
  · intro c t hf
    have ho := hf.stopped.stopped.only
    refine ⟨hf.cause.imp (fun k => ⟨k.1, k.2, ho⟩) (fun k => Or.inl ⟨k.1, k.2.1, k.2.2, ho⟩),
      hf.stopped.ended hm, ho.encByte,
      ?_⟩
    unfold EncoderOnly at ho; rw [ho]
  · rintro q t ⟨hs, m⟩
    exact ⟨m, hs.ended hm, hs.stopped.only.encByte⟩

/-! ## ENC_FINISH -/

/-- ENC_FINISH completed (R205): EOF's bits in a PPM session, the finish bits, then zeros to a whole byte, all at the
sink. -/
structure EncFinishDone (s t : State) : Prop where
  writes : EncFinishWrites s t
  ended : EncEnd s t
  st : t.st = .done
  outN : t.outN = 0
  low : t.low = (finishCoded s).low
  high : t.high = (finishCoded s).high
  pending : t.pending = 0
  syms : t.syms = s.syms + (if s.raw then 0 else 1)
  stream : ∃ pad, pad < 8 ∧
    t.env.sunk.flatMap byteBits = writtenBits s ++ (finishCoded s).bits ++ List.replicate pad false
  bitsOut : t.bitsOut = s.bitsOut + BitVec.ofNat 32 (finishCoded s).bits.length
  sunk : s.env.sunk <+: t.env.sunk
  bytesOut : t.bytesOut = s.bytesOut + BitVec.ofNat 32 (t.env.sunk.length - s.env.sunk.length)
  fits : FinishFits s
  takes : SinkTakes (finishBytes s) s

theorem EncoderOnly.encFinish {s t : State} (h : EncoderOnly s t) : EncFinishWrites s t := by
  unfold EncoderOnly at h; unfold EncFinishWrites; rw [h]

/-- What coding EOF can do (R205). -/
theorem encodeEof_post {s : State} (h : EncodeOpen s) : (encodeEof s).Post
    (fun _ t => EncReady t ∧ Codes s { t with syms := s.syms } ((coded s).run s.build (finishSteps s)) ∧
      t.syms = s.syms + (if s.raw then 0 else 1) ∧ PendingFits s.build (finishSteps s) (coded s))
    (fun c t => EncFailed s (finishSteps s) c t)
    (fun _ t => EncStopped s t ∧ SinkStops .silent (filledBytes s (finishSteps s)) s) := by
  unfold encodeEof finishSteps
  split
  · next hraw => exact ⟨h.coder, ⟨Wrote.nil h.coder.room, rfl, rfl, rfl⟩, by simp, trivial⟩
  · next hraw =>
    unfold ppmEncode
    refine (ppmEncodeFrom_post (show esc < 257 by decide) (descentOrders s) h.coder h.model.tables).andThen ?_ ?_ ?_
    · rintro k t ⟨hr, hw, hf⟩
      have ho := hw.wrote.only
      have es : t.syms = s.syms := by unfold EncoderOnly at ho; rw [ho]
      refine ⟨⟨⟨hr.legal, hr.norm, hr.high⟩, hr.pending, hr.room⟩, ?_, ?_, hf⟩
      · have : ({ countSymbol t with syms := s.syms } : State) = t := by rw [← es]; rfl
        rw [this]; exact hw
      · simp only [countSymbol, es]
    · exact fun c t hf => hf
    · exact fun q t hs => hs

theorem FinishStops.mem {a : SnkAnswer} {s : State} (h : FinishStops a s) : a ∈ s.env.sink := by
  by_cases k : FinishFits s
  · exact (h.1 k).mem
  · exact (h.2 k).mem

/-- Where the sink stops EOF's coding steps it stops ENC_FINISH. -/
theorem SinkStops.finish {a : SnkAnswer} {s : State} (h : SinkStops a (filledBytes s (finishSteps s)) s) :
    FinishStops a s := by
  refine ⟨fun hf => ?_, fun _ => h⟩
  have hle : ((coded s).run s.build (finishSteps s)).bits.length ≤ (finishCoded s).bits.length := by
    simp [finishCoded, Coded.finish, Coded.emit]
  rw [filledBytes, sent_eq_run hf.1] at h
  unfold finishBytes
  rw [Nat.add_assoc]
  exact Blocked.mono h (by omega)

/-- What ENC_FINISH's rule can do (R205, R249). -/
theorem encFinishBody_post {s : State} (h : EncodeOpen s) : (encFinishBody s).Post
    (fun _ t => EncFinishDone s t)
    (fun c t => EncFinishCause s c ∧ EncEnd s t ∧ EncFinishWrites s t ∧ t.st = s.st)
    (fun _ t => FinishStops .silent s ∧ EncEnd s t ∧ EncFinishWrites s t ∧ t.st = s.st) := by
  have hm := h.model
  unfold encFinishBody
  refine (encodeEof_post h).andThen ?_ ?_ ?_
  · rintro - t ⟨hr, hcodes, hsyms, hfits⟩
    have hw := hcodes.wrote
    have ho := hw.only
    have eb : t.build = s.build := ho.build
    have et : EncFinishWrites s t := by
      unfold EncoderOnly at ho
      unfold EncFinishWrites
      have : t = { ({ t with syms := s.syms } : State) with syms := t.syms } := rfl
      rw [this, ho]
    have hmt : ModelOk t := (ho.modelOk hm).of_eq rfl rfl rfl rfl rfl
    have est : t.st = s.st := by
      have : ({ t with syms := s.syms } : State).st = s.st := by rw [ho]
      exact this
    have lift : ∀ {u}, EncStopped t u → EncEnd s u ∧ EncFinishWrites s u ∧ u.st = s.st := by
      intro u hu
      have hou := hu.stopped.only
      refine ⟨⟨eb ▸ hu.low, eb ▸ hu.high, eb ▸ hu.pending, hu.stopped.outN, hou.modelOk hmt,
        SinkMoves.trans (t := t) hw.moves hu.stopped.moves⟩, ?_, ?_⟩
      · unfold EncFinishWrites at et ⊢; unfold EncoderOnly at hou; rw [hou, et]
      · unfold EncoderOnly at hou; rw [hou]; exact est
    have hcoded : ((coded s).run s.build (finishSteps s)).after ((coded t).finish t.build) = finishCoded s := by
      have hbare := hcodes.bare
      have hbare' : ((coded s).run s.build (finishSteps s)).bare = coded t := hbare
      rw [eb, ← hbare', finishCoded]
      simp [Coded.after, Coded.finish, Coded.emit, Coded.bare]
    have eb2 : (finishCoded s).bits = ((coded s).run s.build (finishSteps s)).bits ++
        ((coded t).finish t.build).bits := by rw [← hcoded]; rfl
    have hlen : ((coded t).finish t.build).bits.length = t.pending + 2 := by
      simp [Coded.finish, Coded.emit, coded]
    have fits : t.pending + 1 ≤ t.build.pendingMax → FinishFits s := by
      intro k
      refine ⟨hfits, ?_⟩
      rw [← hcodes.pending, ← eb]
      exact k
    have back : ∀ {a}, t.pending + 1 ≤ t.build.pendingMax → Blocked a t (t.pending + 2 + 7) → FinishStops a s := by
      intro a k m
      refine ⟨fun _ => ?_, fun hn => absurd (fits k) hn⟩
      have := hw.blocked h.coder.room (show Blocked a ({ t with syms := s.syms } : State) _ from m)
      unfold finishBytes
      rw [eb2, List.length_append, hlen]
      simpa only [Blocked, Nat.add_assoc] using this
    refine (finish_post hr.room hr.toRangeReady.low hr.high hr.pending).andThen ?_ ?_ ?_
    · rintro - u ⟨hcu, ep, hfin⟩
      have hu := hcu.wrote
      have el : u.low = t.low := hcu.low
      have eh : u.high = t.high := hcu.high
      have hou := hu.only
      have ebu := hou.build
      have back7 : ∀ {a}, Blocked a u 7 → FinishStops a s := by
        intro a m
        have := hu.blocked hr.room m
        rw [hlen] at this
        exact back hfin this
      have hstop : ∀ {v}, WriterOnly u v → SinkStopped u v → EncStopped t v := by
        intro v hv hs
        have hc := hv.coder
        refine ⟨.after hu hs, ?_, ?_, ?_⟩
        · rw [hc.1, el]; exact hr.toRangeReady.low
        · rw [hc.2.1, eh]; exact hr.high
        · rw [hc.2.2, ep]; exact Nat.zero_le _
      refine (closeOut_post u hu.room).andThen ?_ ?_ ?_
      · rintro - v ⟨hv, hmv, htook, h0, hbits, hbytes, hsunk⟩
        have hc := hv.coder
        have hov := hv.toEncoder
        have hsv := hstop hv ⟨hov, hmv, by omega⟩
        obtain ⟨hend, hwr, -⟩ := lift hsv
        have el2 : (finishCoded s).low = t.low := by rw [← hcoded]; rfl
        have eh2 : (finishCoded s).high = t.high := by rw [← hcoded]; rfl
        have hwt : writtenBits t = writtenBits s ++ _ := hw.written
        have hct : t.bitsOut = s.bitsOut + _ := hw.counted
        have hbt : t.bytesOut = s.bytesOut + BitVec.ofNat 32 (t.env.sunk.length - s.env.sunk.length) := hw.bytes
        have hp1 : s.env.sunk <+: t.env.sunk := hw.moves.2
        refine ⟨?_, ?_, rfl, h0, ?_, ?_, ?_, ?_, ⟨if u.outN = 0 then 0 else 8 - u.outN, by split <;> omega, ?_⟩, ?_,
          ?_, ?_, fits hfin, ?_⟩
        · unfold EncFinishWrites at hwr ⊢; rw [hwr]
        · exact ⟨hend.low, hend.high, hend.pending, hend.outN, hend.model.of_eq rfl rfl rfl rfl rfl, hend.moves⟩
        · simp only [hc.1, el, el2]
        · simp only [hc.2.1, eh, eh2]
        · simp only [hc.2.2, ep]
        · simp only
          have e : v.syms = t.syms := by unfold EncoderOnly at hov hou; rw [hov, hou]
          rw [e]; exact hsyms
        · simp only [hsunk, hu.written, hwt, eb2, List.append_assoc]
        · simp only [hbits, hu.counted, hct, eb2, List.length_append, BitVec.ofNat_add, BitVec.add_assoc]
        · exact hp1.trans (hu.moves.2.trans hmv.2)
        · have l1 := hp1.length_le
          have l2 := hu.moves.2.length_le
          have l3 := hmv.2.length_le
          simp only [hbytes, hu.bytes, hbt, BitVec.add_assoc, ← BitVec.ofNat_add]
          congr 2; omega
        · have htk : SinkTook s v := hw.took.trans (SinkTook.trans (t := u) hu.took htook)
          have l1 := congrArg List.length hsunk
          have l2 := congrArg List.length hu.written
          have l3 := congrArg List.length hwt
          have l4 := hu.room
          have l5 := h.coder.room
          have l6 := hr.room
          have e0 : writtenBits v = v.env.sunk.flatMap byteBits := by
            unfold writtenBits; rw [h0]; exact List.append_nil _
          rw [← e0, List.length_append, List.length_replicate, writtenBits_length (by omega)] at l1
          rw [List.length_append, writtenBits_length (by omega)] at l2
          rw [List.length_append, writtenBits_length (by omega)] at l3
          have hb := congrArg List.length eb2
          rw [List.length_append] at hb
          have := htk.takes
          rwa [show v.env.sunk.length - s.env.sunk.length = finishBytes s by
            unfold finishBytes; rw [writtenBits_length (by omega)] at l1 l2 l3; split at l1 <;> omega] at this
      · rintro c v ⟨e, m, hv, hs⟩
        exact ⟨Or.inl ⟨e, back7 m⟩, lift (hstop hv hs)⟩
      · rintro q v ⟨m, hv, hs⟩
        exact ⟨back7 m, lift (hstop hv hs)⟩
    · rintro c u ⟨hs, hc⟩
      refine ⟨hc.imp (fun ⟨e, m, k⟩ => ⟨e, back k (m.mono (by omega))⟩) ?_, lift hs⟩
      rintro ⟨e, m⟩
      refine ⟨e, fun hf => ?_, hcodes.took_filled h.coder.room hfits⟩
      have := hf.2
      rw [← hcodes.pending, ← eb] at this
      simp only at this
      omega
    · rintro q u ⟨hs, m, k⟩
      exact ⟨back k (m.mono (by omega)), lift hs⟩
  · intro c t hf
    exact ⟨hf.cause.imp (fun ⟨e, m⟩ => ⟨e, m.finish⟩) fun ⟨e, m, k⟩ => ⟨e, fun j => m j.1, k⟩, hf.stopped.ended hm,
      hf.stopped.stopped.only.encFinish, by
        have := hf.stopped.stopped.only; unfold EncoderOnly at this; rw [this]⟩
  · rintro q t ⟨hs, m⟩
    exact ⟨m.finish, hs.ended hm, hs.stopped.only.encFinish, by
      have := hs.stopped.only; unfold EncoderOnly at this; rw [this]⟩

/-! ## RAW_ENC -/

/-- What RAW_ENC's rule can do (R207). -/
theorem rawEncBody_post {s : State} (h : EncodeOpen s) : (rawEncBody s).Post
    (fun _ t => IntervalOk s.build (cumLow s) (cumHigh s) (rawTotal s) ∧ EncodeOpen t ∧ RawEncWrites s t ∧
      SinkMoves s t ∧ EncodedTo s t ((coded s).code s.build ⟨cumLow s, cumHigh s, rawTotal s⟩) ∧
      t.syms = s.syms + 1 ∧ PendingFits s.build [⟨cumLow s, cumHigh s, rawTotal s⟩] (coded s) ∧
      SinkTakes (filledBytes s [⟨cumLow s, cumHigh s, rawTotal s⟩]) s)
    (fun c t => (¬ IntervalOk s.build (cumLow s) (cumHigh s) (rawTotal s) ∧ t = s ∧
        c = (if totalOk s.build (rawTotal s) then .badInterval else .badTotal)) ∨
      (IntervalOk s.build (cumLow s) (cumHigh s) (rawTotal s) ∧ EncEnd s t ∧ RawEncWrites s t ∧ t.syms = s.syms ∧
        ((c = .sinkFail ∧ SinkStops .fail (filledBytes s [⟨cumLow s, cumHigh s, rawTotal s⟩]) s) ∨
          (c = .pendingFull ∧ ¬ PendingFits s.build [⟨cumLow s, cumHigh s, rawTotal s⟩] (coded s) ∧
            SinkTakes (filledBytes s [⟨cumLow s, cumHigh s, rawTotal s⟩]) s))))
    (fun _ t => SinkStops .silent (filledBytes s [⟨cumLow s, cumHigh s, rawTotal s⟩]) s ∧ EncEnd s t ∧
      RawEncWrites s t) := by
  have frame : ∀ {t}, EncoderOnly s t → RawEncWrites s t ∧ t.syms = s.syms := by
    intro t ht
    unfold EncoderOnly at ht; unfold RawEncWrites
    exact ⟨by rw [ht], by rw [ht]⟩
  unfold rawEncBody
  refine (encodeInterval_post h.coder _ _ _).andThen ?_ ?_ ?_
  · rintro - t ⟨hi, hr, hcodes⟩
    have hw := hcodes.wrote
    have ho := hw.only
    refine ⟨hi, ⟨⟨⟨hr.legal, hr.norm, hr.high⟩, hr.pending, hr.room⟩, (ho.modelOk h.model).of_eq rfl rfl rfl rfl rfl⟩,
      ?_, hw.moves, hcodes.encodedTo.of_writer rfl rfl rfl rfl rfl rfl rfl rfl, ?_, hcodes.fits_one hr,
      Codes.took_filled (l := [_]) h.coder.room hcodes (hcodes.fits_one hr)⟩
    · have := (frame ho).1; unfold RawEncWrites countSymbol at *; rw [this]
    · simp only [countSymbol]; rw [(frame ho).2]
  · rintro c t (h' | ⟨hi, hf⟩)
    · exact Or.inl h'
    · have := frame hf.stopped.stopped.only
      exact Or.inr ⟨hi, hf.stopped.ended h.model, this.1, this.2, hf.cause⟩
  · rintro q t ⟨-, hs, m⟩
    exact ⟨m, hs.ended h.model, (frame hs.stopped.only).1⟩

/-! ## DEC_SYMBOL -/

/-- DEC_SYMBOL completed with a symbol (R206). -/
structure DecSymbolDone (sym : Nat) (s t : State) : Prop where
  alphabet : sym < 257
  opened : DecodeOpen t
  writes : DecSymbolWrites s t
  moves : t.env.source <:+ s.env.source
  coded : ∃ l, DecodePath s sym (descentOrders s) l ∧ DecodedTo s t ((coded s).run s.build l) ∧
    SourceGives ((coded s).run s.build l).steps s
  result : t.result = BitVec.ofNat 32 sym
  syms : t.syms = s.syms + 1
  literal : sym ≠ 256 → t.st = s.st ∧ t.eof = s.eof ∧ StoreUpdated sym (descentOrders s) 0 s t ∧
    t.hist = (pushHistory (BitVec.ofNat 8 sym) s).hist ∧ StoreRoom s
  eof : sym = 256 → t.st = .done ∧ t.eof = true ∧ t.store = s.store ∧ t.nodes = s.nodes ∧ t.hist = s.hist

/-- Why DEC_SYMBOL can fail (R249), and what stays of it (R245): where the source fails the model is as it was; a full
store stops only the learning of a literal (R183), which is decoded then, and the update has gone as far as there was
room. -/
def DecCause (s : State) (c : Cause) (t : State) : Prop :=
  (c = .sourceFail ∧ SourceStops .fail s ∧ DecoderOnly s t) ∨
  (c = .storeFull ∧ ¬ StoreRoom s ∧ ∃ sym < 256, ∃ l, DecodePath s sym (descentOrders s) l ∧
    CodeWithin s ((coded s).run s.build l) ∧ DecodedTo s t ((coded s).run s.build l) ∧ t.hist = s.hist ∧
    UpdateStopped sym s t ∧ SourceGives ((coded s).run s.build l).steps s)

/-- A decoder that has made the coding steps of `c` with CODE in the range: the stream lies in it. -/
theorem DecodedTo.within {s t : State} {c : Coded} (h : DecodedTo s t c) (h1 : t.low ≤ t.code)
    (h2 : t.code ≤ t.high) : CodeWithin s c := by
  have := h.code
  rw [h.low] at h1
  rw [h.high] at h2
  exact ⟨by omega, by omega⟩

theorem DecoderOnly.decSymbol {s t : State} (h : DecoderOnly s t) : DecSymbolWrites s t := by
  unfold DecoderOnly at h; unfold DecSymbolWrites; rw [h]

/-- What DEC_SYMBOL's rule can do (R206, R249): RESULT is written only where it completes. -/
theorem decSymbolBody_post {s : State} (h : DecodeOpen s) : (decSymbolBody s).Post
    (fun _ t => ∃ sym, DecSymbolDone sym s t)
    (fun c t => DecCause s c t ∧ DecEnd s t ∧ DecSymbolWrites s t ∧ t.result = s.result ∧ t.syms = s.syms ∧
      t.eof = s.eof ∧ t.st = s.st)
    (fun _ t => SourceStops .silent s ∧ DecEnd s t ∧ DecoderOnly s t) := by
  have hm := h.model
  unfold decSymbolBody ppmDecode
  refine (ppmDecodeFrom_post (descentOrders s) h.coder hm.tables).andThen ?_ ?_ ?_
  · rintro sym t ⟨hsym, hr, l, hpath, hdec⟩
    obtain ⟨bits, hlen, hw, -⟩ := hdec.reads
    have hgives : SourceGives ((coded s).run s.build l).steps s := hlen ▸ hw.gives
    have ho := hw.only
    have hmt := ho.modelOk hm
    have e1 := ho.model
    have ed : descentOrders t = descentOrders s := by unfold descentOrders; rw [e1.2.2.1, e1.2.2.2]
    unfold learnDecoded
    split
    · next hne =>
      have hne' : sym ≠ 256 := hne
      have hlt : sym < 256 := by omega
      have hval : (BitVec.ofNat 8 sym).toNat = sym := by rw [BitVec.toNat_ofNat]; omega
      refine (learn_post (BitVec.ofNat 8 sym) hr.legal hmt).andThen ?_ ?_ ?_
      · rintro - u hl
        have hu := hl.only
        have hdel : deliverSymbol sym u = { u with syms := u.syms + 1, result := BitVec.ofNat 32 sym } := by
          unfold deliverSymbol countSymbol
          rw [if_neg hne]
        have ebuild : u.build = t.build := by rw [hu]
        refine ⟨sym, hsym, ⟨⟨⟨?_, ?_, ?_⟩, ?_, ?_, ?_⟩, ?_⟩, ?_, ?_, ⟨l, hpath, ?_, hgives⟩, ?_, ?_, ?_,
          fun hc => absurd hc hne⟩
        · rw [hdel]; exact ebuild ▸ hr.legal
        · rw [hdel, hu]; exact hr.norm
        · rw [hdel, hu]; exact hr.high
        · rw [hdel, hu]; exact hr.inN
        · rw [hdel, hu]; exact hr.codeLow
        · rw [hdel, hu]; exact hr.codeHigh
        · rw [hdel]; exact hl.model.of_eq rfl rfl rfl rfl rfl
        · rw [hdel]; unfold DecoderOnly at ho; unfold DecSymbolWrites; rw [hu, ho]
        · rw [hdel, hu]; exact hw.moves
        · refine hdec.decodedTo.of_reader ?_ ?_ ?_ ?_ ?_ ?_ ?_ ?_ <;> rw [hdel, hu]
        · rw [hdel]
        · rw [hdel, hu]; unfold DecoderOnly at ho; rw [ho]
        · intro _
          refine ⟨?_, ?_, ?_, ?_, (storeRoom_congr ho.build e1.1 e1.2.1 e1.2.2.1 e1.2.2.2).mp hl.room⟩
          · rw [hdel, hu]; unfold DecoderOnly at ho; rw [ho]
          · rw [hdel, hu]; unfold DecoderOnly at ho; rw [ho]
          · intro key
            have := hl.store key
            rw [ed, e1.1, e1.2.2.2, ho.build, hval] at this
            rw [hdel]; exact this
          · rw [hdel]; simp only; rw [hl.hist]; exact pushHistory_hist e1.2.2.1 e1.2.2.2 _
      · rintro c u ⟨e, hso, hmu, hroom, hstop⟩
        have hend := hr.ended hw hmt
        have hstop := hstop.congr ho.build e1.1 e1.2.2.1 e1.2.2.2
        rw [hval] at hstop
        rw [storeRoom_congr ho.build e1.1 e1.2.1 e1.2.2.1 e1.2.2.2] at hroom
        unfold StoreOnly at hso
        unfold DecoderOnly at ho
        refine ⟨Or.inr ⟨e, hroom, sym, hlt, l, hpath, hdec.decodedTo.within hr.codeLow hr.codeHigh, ?_, ?_, hstop,
            hgives⟩,
          ⟨?_, ?_, ?_, ?_, hmu, ?_⟩, ?_, ?_, ?_, ?_, ?_⟩
        · refine hdec.decodedTo.of_reader ?_ ?_ ?_ ?_ ?_ ?_ ?_ ?_ <;> rw [hso]
        · rw [hso]; exact e1.2.2.2
        · rw [hso]; exact hend.low
        · rw [hso]; exact hend.high
        · rw [hso]; exact hend.code
        · rw [hso]; exact hend.inN
        · rw [hso]; exact hend.moves
        · unfold DecSymbolWrites; rw [hso, ho]
        all_goals rw [hso, ho]
      · exact fun q u hf => hf.elim
    · next he =>
      replace he : sym = esc := by simpa using he
      have hdel : deliverSymbol sym t =
          { t with syms := t.syms + 1, result := BitVec.ofNat 32 sym, eof := true, st := .done } := by
        unfold deliverSymbol countSymbol
        rw [if_pos he]
      rw [andThen_ok, hdel]
      refine ⟨sym, hsym, ⟨⟨⟨hr.legal, hr.norm, hr.high⟩, hr.inN, hr.codeLow, hr.codeHigh⟩,
        hmt.of_eq rfl rfl rfl rfl rfl⟩, ?_, hw.moves,
        ⟨l, hpath, hdec.decodedTo.of_reader rfl rfl rfl rfl rfl rfl rfl rfl, hgives⟩, rfl, ?_,
        fun hc => absurd he hc, ?_⟩
      · unfold DecoderOnly at ho; unfold DecSymbolWrites; rw [ho]
      · unfold DecoderOnly at ho; rw [ho]
      · exact fun _ => ⟨rfl, rfl, e1.1, e1.2.1, e1.2.2.2⟩
  · intro c t hf
    have ho := hf.stopped.only
    refine ⟨Or.inl ⟨hf.cause.1, hf.cause.2, ho⟩, hf.stopped.ended hm, ho.decSymbol, ?_, ?_, ?_, ?_⟩ <;>
      (unfold DecoderOnly at ho; rw [ho])
  · rintro q t ⟨hs, m⟩
    exact ⟨m, hs.ended hm, hs.only⟩

/-! ## RAW_DEC_APPLY -/

/-- The target value of the RAW decode commands (R150, R208). -/
def rawTarget (s : State) : Nat := targetValue s.low s.high s.code (rawTotal s)

/-- The target value lies in [ARG0, ARG1) (R154). -/
def TargetInside (s : State) : Prop := cumLow s ≤ rawTarget s ∧ rawTarget s < cumHigh s

/-- What RAW_DEC_APPLY's rule can do (R209). -/
theorem rawDecApplyBody_post {s : State} (h : DecodeOpen s) : (rawDecApplyBody s).Post
    (fun _ t => IntervalOk s.build (cumLow s) (cumHigh s) (rawTotal s) ∧ TargetInside s ∧ DecodeOpen t ∧
      RawDecApplyWrites s t ∧ t.env.source <:+ s.env.source ∧
      SourceGives ((coded s).code s.build ⟨cumLow s, cumHigh s, rawTotal s⟩).steps s ∧
      DecodedTo s t ((coded s).code s.build ⟨cumLow s, cumHigh s, rawTotal s⟩) ∧
      t.syms = s.syms + 1)
    (fun c t => (t = s ∧ c = .badTotal ∧ totalOk s.build (rawTotal s) = false) ∨
      (t = s ∧ totalOk s.build (rawTotal s) = true ∧ c = .targetOutside ∧ ¬ TargetInside s) ∨
      (t = s ∧ totalOk s.build (rawTotal s) = true ∧ c = .badInterval ∧ rawTotal s < cumHigh s ∧ TargetInside s) ∨
      (IntervalOk s.build (cumLow s) (cumHigh s) (rawTotal s) ∧ DecEnd s t ∧ RawDecApplyWrites s t ∧
        t.syms = s.syms ∧ c = .sourceFail ∧ SourceStops .fail s ∧
        ShortOf s ((coded s).code s.build ⟨cumLow s, cumHigh s, rawTotal s⟩)))
    (fun _ t => SourceStops .silent s ∧ DecEnd s t ∧ RawDecApplyWrites s t ∧
      ShortOf s ((coded s).code s.build ⟨cumLow s, cumHigh s, rawTotal s⟩)) := by
  have frame : ∀ {t}, DecoderOnly s t → RawDecApplyWrites s t ∧ t.syms = s.syms := by
    intro t ht
    unfold DecoderOnly at ht; unfold RawDecApplyWrites
    exact ⟨by rw [ht], by rw [ht]⟩
  unfold rawDecApplyBody
  refine (decodeApply_post h.coder _ _ _).andThen ?_ ?_ ?_
  · rintro - t ⟨hi, t1, t2, hr, hdec⟩
    obtain ⟨bits, hlen, hw, -⟩ := hdec.reads
    have ho := hw.only
    refine ⟨hi, ⟨t1, t2⟩, ⟨⟨⟨hr.legal, hr.norm, hr.high⟩, hr.inN, hr.codeLow, hr.codeHigh⟩,
      (ho.modelOk h.model).of_eq rfl rfl rfl rfl rfl⟩, ?_, hw.moves, hlen ▸ hw.gives,
      hdec.decodedTo.of_reader rfl rfl rfl rfl rfl rfl rfl rfl, ?_⟩
    · have := (frame ho).1; unfold RawDecApplyWrites countSymbol at *; rw [this]
    · simp only [countSymbol]; rw [(frame ho).2]
  · rintro c t (h' | ⟨h1, h2, h3, h4⟩ | ⟨h1, h2, h3, h4, h5⟩ | ⟨hi, hf, hk⟩)
    · exact Or.inl h'
    · exact Or.inr (Or.inl ⟨h1, h2, h3, h4⟩)
    · exact Or.inr (Or.inr (Or.inl ⟨h1, h2, h3, h4, h5⟩))
    · have := frame hf.stopped.only
      exact Or.inr (Or.inr (Or.inr ⟨hi, hf.stopped.ended h.model, this.1, this.2, hf.cause.1, hf.cause.2, hk⟩))
  · rintro q t ⟨hs, m, hk⟩
    exact ⟨m, hs.ended h.model, (frame hs.only).1, hk⟩

end Sys2Proof.Machine
end

