-- ==== Sys2Proof/Laws/Exec.lean ====
section
/-! SUPPORT. Every command answers a next state, and the invariant of the block is kept by commands and by steps. -/

namespace Sys2Proof.Machine

/-! ## What a command's rule keeps -/

/-- What holds at every point at which a command's rule can end. -/
structure Kept (s u : State) : Prop where
  build : u.build = s.build
  fit : RegistersFit u
  model : ModelOk u
  rawOrder : u.raw = true → u.order = -1
  host : HostSideSame s u
  cmd : u.pendingCmd = s.pendingCmd
  wait : u.portWait = s.portWait

/-- The session facts of a state between commands (R33, R34, R35, R41). -/
def Sides (u : State) : Prop :=
  (u.st = .enc → Normalised u.build u.low u.high ∧ u.dir = .encode ∧ u.outN ≤ 7 ∧ u.code = 0) ∧
  (u.st = .dec → Normalised u.build u.low u.high ∧ u.dir = .decode ∧ u.low ≤ u.code ∧ u.code ≤ u.high ∧
    u.pending = 0)

/-- A command's rule in order: it ends kept, and where it completes the session facts hold. -/
def BodyOk (s : State) (r : Res Unit) : Prop :=
  r.Post (fun _ u => Kept s u ∧ Sides u) (fun _ u => Kept s u) (fun _ u => Kept s u)

theorem Kept.refl {s : State} (h : Inv s) : Kept s s :=
  ⟨rfl, h.fit, h.model, h.session.rawOrder, ⟨rfl, rfl, rfl, rfl, rfl, rfl, rfl, rfl⟩, rfl, rfl⟩

theorem MayRun.notReset {s : State} (h : MayRun s) : s.inReset = false := by
  cases hr : s.inReset with
  | false => rfl
  | true => exact absurd (h.inv.session.resetIdle hr) h.cmd

/-- A command has run: the invariant holds, nothing on the host's side has changed, and it has completed or waits
on a port. -/
structure HasRun (s t : State) : Prop where
  inv : Inv t
  host : HostSideSame s t
  ended : t.portWait = none → t.pendingCmd = none

theorem Kept.error {s u : State} (h : MayRun s) (k : Kept s u) (opc : BitVec 8) (c : Cause) :
    HasRun s (enterError opc c u) := by
  have hb := h.inv.legal
  refine ⟨⟨k.build ▸ hb, ⟨k.fit.low, k.fit.high, k.fit.code, k.fit.pending, k.fit.outN, k.fit.inN, k.fit.orderLow,
      k.fit.orderHigh⟩, k.model.of_eq rfl rfl rfl rfl rfl, ⟨?_, ?_, k.rawOrder, ?_, fun _ => rfl⟩⟩, k.host,
      fun _ => rfl⟩
  · intro _ e; exact absurd e (by simp [enterError])
  · intro _ e; exact absurd e (by simp [enterError])
  · intro e
    have : u.portWait = none := k.wait.trans h.wait
    exact absurd this e

theorem Kept.waiting {s u : State} (h : MayRun s) (k : Kept s u) (w : PortWait) :
    HasRun s { u with portWait := some w } := by
  have hb := h.inv.legal
  refine ⟨⟨k.build ▸ hb, ⟨k.fit.low, k.fit.high, k.fit.code, k.fit.pending, k.fit.outN, k.fit.inN, k.fit.orderLow,
      k.fit.orderHigh⟩, k.model.of_eq rfl rfl rfl rfl rfl, ⟨?_, ?_, k.rawOrder, ?_, ?_⟩⟩, k.host, fun e => ?_⟩
  · intro e; exact absurd e (by simp)
  · intro e; exact absurd e (by simp)
  · intro _; simp only; rw [k.cmd]; exact h.cmd
  · intro e
    have : u.inReset = s.inReset := k.host.2.2.2.2.1
    simp only at e
    rw [this, h.notReset] at e
    exact absurd e (by simp)
  · exact absurd e (by simp)

theorem Kept.completed {s u : State} (h : MayRun s) (k : Kept s u) (hs : Sides u) : HasRun s (complete u) := by
  have hb := h.inv.legal
  refine ⟨⟨k.build ▸ hb, ⟨k.fit.low, k.fit.high, k.fit.code, k.fit.pending, k.fit.outN, k.fit.inN, k.fit.orderLow,
      k.fit.orderHigh⟩, k.model.of_eq rfl rfl rfl rfl rfl,
    ⟨fun _ => hs.1, fun _ => hs.2, k.rawOrder, ?_, fun _ => rfl⟩⟩, k.host, fun _ => rfl⟩
  intro e
  have : u.portWait = none := k.wait.trans h.wait
  exact absurd this e

/-- `raise` outside ERROR (R244). -/
theorem enterError_eq {s : State} (h : s.st ≠ .error) (opc : BitVec 8) (c : Cause) :
    enterError opc c s = raisedAt c.code c.sub opc s := by
  unfold enterError recordError raisedAt; rw [if_neg h]

/-- How a command can end (R200, R244, R277). -/
theorem finishCommand_cases {opc : BitVec 8} {st : SessionState} {r : Res Unit} {t : State}
    (h : finishCommand opc st r = .next t) :
    (∃ u, r = .ok () u ∧ t = complete u) ∨ (∃ c u, r = .raised c u ∧ t = enterError opc c u) ∨
    (∃ q u, r = .waiting q u ∧ t = { u with portWait := some { request := q, startedIn := st } }) := by
  cases r with
  | ok a u => cases h; exact Or.inl ⟨u, rfl, rfl⟩
  | raised c u => cases h; exact Or.inr (Or.inl ⟨c, u, rfl, rfl⟩)
  | waiting q u => cases h; exact Or.inr (Or.inr ⟨q, u, rfl, rfl⟩)

/-- How a session command can end: ignored in ERROR, not valid, or by its own rule (R200). -/
theorem dispatchSession_cases {opc : BitVec 8} {body : State → Res Unit} {s t : State} {valid : Bool}
    (h : dispatchSession opc valid body s = .next t) :
    (s.st = .error ∧ t = complete s) ∨
    (s.st ≠ .error ∧ valid = false ∧ t = raisedAt .illegalCommand 3 opc s) ∨
    (s.st ≠ .error ∧ valid = true ∧ finishCommand opc s.st (body s) = .next t) := by
  unfold dispatchSession at h
  split at h
  · next hs => cases h; exact Or.inl ⟨hs, rfl⟩
  · next hs =>
    split at h
    · next hv => exact Or.inr (Or.inr ⟨hs, hv, h⟩)
    · next hv => cases h; exact Or.inr (Or.inl ⟨hs, by simpa using hv, enterError_eq hs _ _⟩)

theorem finishCommand_run {s : State} (h : MayRun s) {r : Res Unit} (hr : BodyOk s r) (opc : BitVec 8)
    (st : SessionState) : ∃ t, finishCommand opc st r = .next t ∧ HasRun s t := by
  cases r with
  | ok a u => exact ⟨_, rfl, hr.1.completed h hr.2⟩
  | raised c u => exact ⟨_, rfl, Kept.error h hr opc c⟩
  | waiting q u => exact ⟨_, rfl, Kept.waiting h hr _⟩

theorem Inv.sides {s : State} (h : Inv s) (hw : s.portWait = none) : Sides s :=
  ⟨h.session.encode hw, h.session.decode hw⟩

theorem dispatchSession_run {s : State} (h : MayRun s) {body : State → Res Unit} {valid : Bool}
    (hr : valid = true → BodyOk s (body s)) (opc : BitVec 8) :
    ∃ t, dispatchSession opc valid body s = .next t ∧ HasRun s t := by
  unfold dispatchSession
  split
  · exact ⟨_, rfl, (Kept.refl h.inv).completed h (h.inv.sides h.wait)⟩
  · cases valid with
    | true => exact finishCommand_run h (hr rfl) opc s.st
    | false => exact ⟨_, rfl, (Kept.refl h.inv).error h opc .wrongState⟩

/-! ## Open sessions -/

theorem MayRun.encodeOpen {s : State} (h : MayRun s) (he : s.st = .enc) : EncodeOpen s := by
  obtain ⟨hn, -, ho, -⟩ := h.inv.session.encode h.wait he
  exact ⟨⟨⟨h.inv.legal, hn, h.inv.fit.high⟩, h.inv.fit.pending, ho⟩, h.inv.model⟩

theorem MayRun.decodeOpen {s : State} (h : MayRun s) (he : s.st = .dec) : DecodeOpen s := by
  obtain ⟨hn, -, h1, h2, -⟩ := h.inv.session.decode h.wait he
  exact ⟨⟨⟨h.inv.legal, hn, h.inv.fit.high⟩, h.inv.fit.inN, h1, h2⟩, h.inv.model⟩

/-- All that the encode commands write. -/
def EncodeWrites (s t : State) : Prop :=
  t = { s with
    low := t.low, high := t.high, pending := t.pending
    outBuf := t.outBuf, outN := t.outN, bitsOut := t.bitsOut, bytesOut := t.bytesOut
    store := t.store, nodes := t.nodes, hist := t.hist, syms := t.syms, st := t.st
    env := { s.env with sink := t.env.sink, sunk := t.env.sunk } }

/-- All that the decode commands write. -/
def DecodeWrites (s t : State) : Prop :=
  t = { s with
    low := t.low, high := t.high, code := t.code
    inBuf := t.inBuf, inN := t.inN, inEof := t.inEof, bytesIn := t.bytesIn
    store := t.store, nodes := t.nodes, hist := t.hist, syms := t.syms
    result := t.result, eof := t.eof, st := t.st
    env := { s.env with source := t.env.source } }

theorem EncByteWrites.encode {s t : State} (h : EncByteWrites s t) : EncodeWrites s t ∧ t.st = s.st := by
  unfold EncByteWrites at h; unfold EncodeWrites; exact ⟨by rw [h], by rw [h]⟩
theorem EncFinishWrites.encode {s t : State} (h : EncFinishWrites s t) : EncodeWrites s t := by
  unfold EncFinishWrites at h; unfold EncodeWrites; rw [h]
theorem RawEncWrites.encode {s t : State} (h : RawEncWrites s t) : EncodeWrites s t ∧ t.st = s.st := by
  unfold RawEncWrites at h; unfold EncodeWrites; exact ⟨by rw [h], by rw [h]⟩
theorem DecSymbolWrites.decode {s t : State} (h : DecSymbolWrites s t) : DecodeWrites s t := h
theorem RawDecApplyWrites.decode {s t : State} (h : RawDecApplyWrites s t) : DecodeWrites s t ∧ t.st = s.st := by
  unfold RawDecApplyWrites at h; unfold DecodeWrites; exact ⟨by rw [h], by rw [h]⟩

theorem EncodeWrites.kept {s t : State} (h : Inv s) (he : EncEnd s t) (hw : EncodeWrites s t) : Kept s t := by
  have hf := h.fit
  unfold EncodeWrites at hw
  have eb : t.build = s.build := by rw [hw]
  have eo : t.order = s.order := by rw [hw]
  refine ⟨eb, ⟨?_, ?_, ?_, ?_, he.outN, ?_, ?_, ?_⟩, he.model, ?_, ⟨?_, ?_, ?_, ?_, ?_, ?_, ?_, ?_⟩, ?_, ?_⟩
  · rw [eb]; exact he.low
  · rw [eb]; exact he.high
  · rw [hw]; exact hf.code
  · rw [eb]; exact he.pending
  · rw [hw]; exact hf.inN
  · rw [eo]; exact hf.orderLow
  · rw [eo, eb]; exact hf.orderHigh
  · rw [eo, show t.raw = s.raw by rw [hw]]; exact h.session.rawOrder
  all_goals rw [hw]

theorem DecodeWrites.kept {s t : State} (h : Inv s) (he : DecEnd s t) (hw : DecodeWrites s t) : Kept s t := by
  have hf := h.fit
  unfold DecodeWrites at hw
  have eb : t.build = s.build := by rw [hw]
  have eo : t.order = s.order := by rw [hw]
  refine ⟨eb, ⟨?_, ?_, ?_, ?_, ?_, he.inN, ?_, ?_⟩, he.model, ?_, ⟨?_, ?_, ?_, ?_, ?_, ?_, ?_, ?_⟩, ?_, ?_⟩
  · rw [eb]; exact he.low
  · rw [eb]; exact he.high
  · rw [eb]; exact he.code
  · rw [hw]; exact hf.pending
  · rw [hw]; exact hf.outN
  · rw [eo]; exact hf.orderLow
  · rw [eo, eb]; exact hf.orderHigh
  · rw [eo, show t.raw = s.raw by rw [hw]]; exact h.session.rawOrder
  all_goals rw [hw]

theorem EncodeOpen.ended {s t : State} (h : EncodeOpen t) (eb : t.build = s.build) (hm : SinkMoves s t) :
    EncEnd s t :=
  ⟨eb ▸ h.coder.low, eb ▸ h.coder.high, eb ▸ h.coder.pending, by have := h.coder.room; omega, h.model, hm⟩

theorem DecodeOpen.ended {s t : State} (h : DecodeOpen t) (eb : t.build = s.build)
    (hm : t.env.source <:+ s.env.source) : DecEnd s t :=
  ⟨eb ▸ h.coder.low, eb ▸ h.coder.high, eb ▸ h.coder.code, h.coder.inN, h.model, hm⟩

theorem EncodeOpen.sides {s t : State} (h : MayRun s) (he : s.st = .enc) (ho : EncodeOpen t)
    (hw : EncodeWrites s t) (hst : t.st = s.st) : Sides t := by
  obtain ⟨-, hd, -, hc⟩ := h.inv.session.encode h.wait he
  unfold EncodeWrites at hw
  refine ⟨fun _ => ⟨ho.coder.norm, ?_, ho.coder.room, ?_⟩, fun e => ?_⟩
  · rw [hw]; exact hd
  · rw [hw]; exact hc
  · rw [hst, he] at e; exact absurd e (by simp)

theorem DecodeOpen.sides {s t : State} (h : MayRun s) (he : s.st = .dec) (ho : DecodeOpen t)
    (hw : DecodeWrites s t) (hst : t.st = .dec ∨ t.st = .done) : Sides t := by
  obtain ⟨-, hd, -, -, hp⟩ := h.inv.session.decode h.wait he
  unfold DecodeWrites at hw
  refine ⟨fun e => ?_, fun _ => ⟨ho.coder.norm, ?_, ho.coder.codeLow, ho.coder.codeHigh, ?_⟩⟩
  · rcases hst with hst | hst <;> rw [hst] at e <;> exact absurd e (by simp)
  · rw [hw]; exact hd
  · rw [hw]; exact hp

/-! ## START -/

theorem clearSession_kept {s : State} (h : Inv s) : Kept s (clearSession s) := by
  have hq := full_eq h.legal
  have hq' := quarter_ge h.legal
  have hm : s.build.mask < s.build.full := by rw [mask_eq]; omega
  refine ⟨rfl, ⟨?_, hm, ?_, ?_, ?_, ?_, ?_, ?_⟩, ⟨rfl, ?_, ?_, ?_, rfl, ?_, ?_⟩, fun _ => rfl,
    ⟨rfl, rfl, rfl, rfl, rfl, rfl, rfl, rfl⟩, rfl, rfl⟩
  · simp only [clearSession]; omega
  · simp only [clearSession]; omega
  · exact Nat.zero_le _
  · exact Nat.zero_le _
  · exact Nat.zero_le _
  · simp [clearSession]
  · simp only [clearSession]; omega
  · intro k n hk; simp [clearSession, storeGet] at hk
  · intro k t hk; simp [clearSession, storeGet] at hk
  · intro k hk; simp [clearSession, storeGet] at hk
  · intro c hc; exact Nat.zero_le _
  · simp [clearSession]

theorem clearSession_sides (s : State) : Sides (clearSession s) :=
  ⟨fun e => absurd e (by simp [clearSession]), fun e => absurd e (by simp [clearSession])⟩

/-- The range at a session's start is normalised (R33, R141). -/
theorem start_normalised {b : Build} (hb : b.legal = true) : Normalised b 0 b.mask := by
  have hq := full_eq hb
  have hq' := quarter_ge hb
  have hm := mask_eq b
  unfold Normalised; omega

/-- What decInit can do from a session's start (R151): CODE is the first W bits to read, padded with zeros. -/
theorem decInit_post {s : State} (hb : s.build.legal = true) (hl : s.low = 0) (hh : s.high = s.build.mask)
    (hc : s.code = 0) (hn : s.inN ≤ 8) : (decInit s).Post
    (fun _ t => DecReady t ∧ DecoderOnly s t ∧ unreadBits t = (unreadBits s).drop s.build.width ∧
      t.bytesIn = s.bytesIn + BitVec.ofNat 32 ((unreadBytes s).length - (unreadBytes t).length) ∧
      t.env.source <:+ s.env.source ∧
      t.code = bitsValue (padded s.build.width (unreadBits s)) ∧ t.low = 0 ∧ t.high = s.build.mask ∧
      SourceGives s.build.width s)
    (fun c t => c = .sourceFail ∧ SourceStops .fail s ∧ DecStopped s t ∧ t.low = 0 ∧ t.high = s.build.mask ∧
      (unreadBits s).length < s.build.width)
    (fun _ t => SourceStops .silent s ∧ DecStopped s t ∧ t.low = 0 ∧ t.high = s.build.mask ∧
      (unreadBits s).length < s.build.width) := by
  have hq := full_eq hb
  have hq' := quarter_ge hb
  have hm := mask_eq s.build
  unfold decInit
  refine (fillCode_post s.build.width s hb hn (by omega) (by omega) (by omega)).imp ?_
    (fun _ _ k => by rwa [hl, hh] at k) (fun _ _ k => by rwa [hl, hh] at k)
  rintro - t ⟨bits, hlen, hr, ec, el, eh⟩
  have eb := hr.only.build
  have hbits : bits = padded s.build.width (unreadBits s) := by rw [← hlen]; exact hr.value
  have hlt : bitsValue bits < s.build.full := by
    have := bitsValue_lt bits; rw [hlen] at this; exact this
  rw [hc, Nat.zero_mul, Nat.zero_add, Nat.mod_eq_of_lt hlt] at ec
  rw [hl] at el
  rw [hh] at eh
  refine ⟨⟨⟨eb ▸ hb, ?_, ?_⟩, hr.inN, ?_, ?_⟩, hr.only, ?_, hr.bytes, hr.moves, ?_, el, eh,
    hlen ▸ hr.gives⟩
  · rw [eb, el, eh]; exact start_normalised hb
  · rw [eb, eh]; omega
  · rw [el]; exact Nat.zero_le _
  · rw [eh, ec]; omega
  · rw [hr.rest, hlen]
  · rw [ec, hbits]

theorem capacity_pos {b : Build} (h : b.legal = true) : b.nodeCapacity ≠ some 0 := by
  have := legal_capacity h
  intro e
  rw [e] at this
  simp [capacityLegal] at this

/-- START, whole (R202, R173): its four ends. -/
theorem start_eq {s : State} (hb : s.build.legal = true) (d : Direction) (order : Int) (alpha : Nat) (rawf : Bool) :
    start d order alpha rawf s =
      if rawf = true ∧ ¬ (order = 0 ∧ alpha = 0) then .raised .reservedBit s
      else if rawf = false ∧ alpha ≠ alphabetSize then .raised .badAlphabet (clearSession s)
      else if rawf = false ∧ ¬ (-1 ≤ order ∧ order ≤ s.build.maxOrder) then .raised .badOrder (clearSession s)
      else match d with
        | .encode => .ok () (opened .encode order rawf s)
        | .decode => decInit (opened .decode order rawf s) := by
  have hcap := capacity_pos hb
  unfold start startCleared startImmZero orderOk openModel openSession
  cases rawf with
  | true =>
    by_cases h : order = 0 ∧ alpha = 0
    · cases d <;> simp [h, opened, openState, clearSession]
    · simp [h]
  | false =>
    by_cases ha : alpha = alphabetSize
    · by_cases ho : -1 ≤ order ∧ order ≤ s.build.maxOrder
      · by_cases h0 : 0 ≤ order
        · have hfull : storeIsFull { clearSession s with order := order } = false := by
            simp only [storeIsFull, clearSession, beq_eq_false_iff_ne]; exact hcap
          have hcreate : create [] { clearSession s with order := order } =
              .ok () { clearSession s with order := order, store := [([], freshTable)], nodes := 1 } := by
            unfold create
            rw [hfull]; rfl
          cases d <;> simp only [h0, if_true, hcreate, andThen_ok] <;>
            simp [ha, ho, h0, opened, openState, clearSession]
        · cases d <;> simp [ha, ho, h0, opened, openState, clearSession]
      · simp [ha, ho]
    · simp [ha]

/-- How START can end (R202, R203). -/
theorem start_cases {d : Direction} {order : Int} {alpha : Nat} {rawf : Bool} {opc : BitVec 8} {s t : State}
    (hb : s.build.legal = true) (h : finishCommand opc s.st (start d order alpha rawf s) = .next t) :
    (rawf = true ∧ ¬ (order = 0 ∧ alpha = 0) ∧ t = enterError opc .reservedBit s) ∨
    (∃ c, (c = .badAlphabet ∨ c = .badOrder) ∧ t = enterError opc c (clearSession s)) ∨
    (d = .encode ∧ t = complete (opened .encode order rawf s)) ∨
    (d = .decode ∧ finishCommand opc s.st (decInit (opened .decode order rawf s)) = .next t) := by
  rw [start_eq hb] at h
  split at h
  · next k => cases h; exact Or.inl ⟨k.1, k.2, rfl⟩
  · split at h
    · cases h; exact Or.inr (Or.inl ⟨_, Or.inl rfl, rfl⟩)
    · split at h
      · cases h; exact Or.inr (Or.inl ⟨_, Or.inr rfl, rfl⟩)
      · cases d
        · cases h; exact Or.inr (Or.inr (Or.inl ⟨rfl, rfl⟩))
        · exact Or.inr (Or.inr (Or.inr ⟨rfl, h⟩))

theorem opened_kept {s : State} (h : Inv s) {order : Int} {alpha : Nat} {rawf : Bool}
    (ha : StartAccepted s.build order alpha rawf) (d : Direction) : Kept s (opened d order rawf s) := by
  have hk := clearSession_kept h
  unfold StartAccepted at ha
  have hm : ModelOk (opened d order rawf s) := by
    by_cases hc : rawf = false ∧ 0 ≤ order
    · obtain ⟨u, hu⟩ : ∃ u : State, u = { clearSession s with order := order } := ⟨_, rfl⟩
      have ebuild : u.build = s.build := by rw [hu]; rfl
      have estore : u.store = [] := by rw [hu]; rfl
      have enodes : u.nodes = 0 := by rw [hu]; rfl
      have eorder : u.order = order := by rw [hu]
      have ehist : u.hist = [] := by rw [hu]; rfl
      have base : ModelOk u := by
        refine ⟨by rw [estore]; rfl, ?_, ?_, ?_, by rw [estore, enodes]; rfl, ?_, ?_⟩
        · intro k n hk; rw [estore] at hk; simp [storeGet] at hk
        · intro k t hk; rw [estore] at hk; simp [storeGet] at hk
        · intro k hk; rw [estore] at hk; simp [storeGet] at hk
        · intro c _; rw [enodes]; exact Nat.zero_le _
        · rw [ehist]; simp
      have hfull : storeIsFull u = false := by
        simp only [storeIsFull, ebuild, enodes, beq_eq_false_iff_ne]; exact capacity_pos h.legal
      refine (base.create (key := []) (ebuild ▸ h.legal) (by rw [estore]; rfl) (by rw [eorder]; simpa using hc.2)
        (fun k hk => absurd hk (by simp)) hfull).of_eq ?_ ?_ ?_ ?_ ?_
      · simp only [ebuild]; rfl
      · simp [opened, hc, estore, storePut]
      · simp [opened, hc, enodes]
      · simp [opened, hc, eorder]
      · simp only [ehist]; rfl
    · refine ⟨?_, ?_, ?_, ?_, ?_, ?_, ?_⟩
      · simp [opened, hc, storeSorted]
      · intro k n hk; simp [opened, hc, storeGet] at hk
      · intro k t hk; simp [opened, hc, storeGet] at hk
      · intro k hk; simp [opened, hc, storeGet] at hk
      · simp [opened, hc]
      · intro c _; simp [opened, hc]
      · simp [opened]
  refine ⟨rfl, ⟨hk.fit.low, hk.fit.high, hk.fit.code, hk.fit.pending, hk.fit.outN, hk.fit.inN, ?_, ?_⟩, hm, ?_,
    hk.host, rfl, rfl⟩
  · simp only [opened]; split
    · omega
    · next hr => rw [if_neg hr] at ha; exact ha.2.1
  · simp only [opened]; split
    · omega
    · next hr => rw [if_neg hr] at ha; exact ha.2.2
  · intro e
    have : rawf = true := e
    simp [opened, this]

theorem opened_sides {s : State} (hb : s.build.legal = true) (order : Int) (rawf : Bool) :
    Sides (opened .encode order rawf s) := by
  refine ⟨fun _ => ⟨start_normalised hb, rfl, Nat.zero_le _, rfl⟩, fun e => ?_⟩
  simp [opened, openState] at e

theorem start_ok {s : State} (h : MayRun s) (d : Direction) (order : Int) (alpha : Nat) (rawf : Bool) :
    BodyOk s (start d order alpha rawf s) := by
  have hb := h.inv.legal
  rw [start_eq hb]
  split
  · exact Kept.refl h.inv
  · next h1 =>
    split
    · exact clearSession_kept h.inv
    · next h2 =>
      split
      · exact clearSession_kept h.inv
      · next h3 =>
        have ha : StartAccepted s.build order alpha rawf := by
          unfold StartAccepted
          cases rawf with
          | true => simpa using h1
          | false =>
            simp only [Bool.false_eq_true, if_false]
            simp only [true_and, not_not] at h2 h3
            exact ⟨h2, h3⟩
        cases d with
        | encode => exact ⟨opened_kept h.inv ha .encode, opened_sides hb order rawf⟩
        | decode =>
          have hk := opened_kept h.inv ha .decode
          have hpost := decInit_post (s := opened .decode order rawf s) hb rfl rfl rfl (Nat.zero_le _)
          have lift : ∀ {u}, DecoderOnly (opened .decode order rawf s) u →
              DecEnd (opened .decode order rawf s) u → Kept s u := by
            intro u ho he
            have eo := ho
            unfold DecoderOnly at eo
            have e1 : u.order = (opened .decode order rawf s).order := by rw [eo]
            have e2 : u.build = s.build := by rw [eo]; rfl
            refine ⟨e2, ⟨e2 ▸ he.low, e2 ▸ he.high, e2 ▸ he.code, ?_, ?_, he.inN, ?_, ?_⟩, he.model, ?_,
              ⟨?_, ?_, ?_, ?_, ?_, ?_, ?_, ?_⟩, ?_, ?_⟩
            · rw [eo]; exact hk.fit.pending
            · rw [eo]; exact hk.fit.outN
            · rw [e1]; exact hk.fit.orderLow
            · rw [e1, e2]; exact hk.fit.orderHigh
            · rw [e1, show u.raw = (opened .decode order rawf s).raw by rw [eo]]; exact hk.rawOrder
            all_goals rw [eo]; rfl
          refine hpost.imp ?_ ?_ ?_
          · rintro - u ⟨hr, ho, -, -, hmv, -⟩
            have e2 : u.build = s.build := by unfold DecoderOnly at ho; rw [ho]; rfl
            refine ⟨lift ho ((DecodeOpen.mk hr (ho.modelOk hk.model)).ended ho.build hmv), fun e => ?_, fun _ =>
              ⟨hr.norm, ?_, hr.codeLow, hr.codeHigh, ?_⟩⟩
            · unfold DecoderOnly at ho; rw [ho] at e; simp [opened, openState] at e
            · unfold DecoderOnly at ho; rw [ho]; rfl
            · unfold DecoderOnly at ho; rw [ho]; rfl
          · rintro c u ⟨-, -, hs, -⟩; exact lift hs.only (hs.ended hk.model)
          · rintro q u ⟨-, hs, -⟩; exact lift hs.only (hs.ended hk.model)

/-! ## Every command runs -/

theorem encByteBody_ok {s : State} (h : MayRun s) (b : Byte) (he : s.st = .enc) : BodyOk s (encByteBody b s) := by
  refine (encByteBody_post b (h.encodeOpen he)).imp ?_ ?_ ?_
  · rintro - t ht
    have hw := ht.writes.encode
    have eb : t.build = s.build := by have := hw.1; unfold EncodeWrites at this; rw [this]
    exact ⟨hw.1.kept h.inv (ht.opened.ended eb ht.moves), EncodeOpen.sides h he ht.opened hw.1 hw.2⟩
  · rintro c t ⟨-, hend, hw, -⟩; exact hw.encode.1.kept h.inv hend
  · rintro q t ⟨-, hend, hw⟩; exact hw.encode.1.kept h.inv hend

theorem encFinishBody_ok {s : State} (h : MayRun s) (he : s.st = .enc) : BodyOk s (encFinishBody s) := by
  refine (encFinishBody_post (h.encodeOpen he)).imp ?_ ?_ ?_
  · rintro - t ht
    refine ⟨ht.writes.encode.kept h.inv ht.ended, fun e => ?_, fun e => ?_⟩ <;>
      (rw [ht.st] at e; exact absurd e (by simp))
  · rintro c t ⟨-, hend, hw, -⟩; exact hw.encode.kept h.inv hend
  · rintro q t ⟨-, hend, hw, -⟩; exact hw.encode.kept h.inv hend

theorem rawEncBody_ok {s : State} (h : MayRun s) (he : s.st = .enc) : BodyOk s (rawEncBody s) := by
  refine (rawEncBody_post (h.encodeOpen he)).imp ?_ ?_ ?_
  · rintro - t ⟨-, ho, hw', hm, -, -, -⟩
    have hw := hw'.encode
    have eb : t.build = s.build := by have := hw.1; unfold EncodeWrites at this; rw [this]
    exact ⟨hw.1.kept h.inv (ho.ended eb hm), EncodeOpen.sides h he ho hw.1 hw.2⟩
  · rintro c t (⟨-, e, -⟩ | ⟨-, hend, hw, -⟩)
    · rw [e]; exact .refl h.inv
    · exact hw.encode.1.kept h.inv hend
  · rintro q t ⟨-, hend, hw⟩; exact hw.encode.1.kept h.inv hend

theorem decSymbolBody_ok {s : State} (h : MayRun s) (he : s.st = .dec) : BodyOk s (decSymbolBody s) := by
  refine (decSymbolBody_post (h.decodeOpen he)).imp ?_ ?_ ?_
  · rintro - t ⟨sym, ht⟩
    have hw := ht.writes.decode
    have eb : t.build = s.build := by unfold DecodeWrites at hw; rw [hw]
    refine ⟨hw.kept h.inv (ht.opened.ended eb ht.moves), DecodeOpen.sides h he ht.opened hw ?_⟩
    by_cases e : sym = 256
    · exact Or.inr (ht.eof e).1
    · exact Or.inl ((ht.literal e).1.trans he)
  · rintro c t ⟨-, hend, hw, -⟩; exact hw.decode.kept h.inv hend
  · rintro q t ⟨-, hend, hw⟩; exact hw.decSymbol.decode.kept h.inv hend

theorem rawDecTargetBody_post {s : State} (h : DecodeOpen s) : (rawDecTargetBody s).Post
    (fun _ t => totalOk s.build (rawTotal s) = true ∧ rawTarget s < rawTotal s ∧
      t = { s with result := BitVec.ofNat 32 (rawTarget s) })
    (fun c t => c = .badTotal ∧ totalOk s.build (rawTotal s) = false ∧ t = s)
    (fun _ _ => False) := by
  unfold rawDecTargetBody
  refine (target_post h.coder _).andThen ?_ (fun _ _ h => h) (fun _ _ h => h)
  rintro v t ⟨h1, h2, h3, h4⟩
  subst h4
  refine ⟨h1, ?_, ?_⟩
  · unfold rawTarget; rw [← h2]; exact h3
  · unfold rawTarget; rw [h2]

theorem rawDecTargetBody_ok {s : State} (h : MayRun s) (he : s.st = .dec) : BodyOk s (rawDecTargetBody s) := by
  have hk := Kept.refl h.inv
  have hs := h.inv.sides h.wait
  refine (rawDecTargetBody_post (h.decodeOpen he)).imp ?_ ?_ ?_
  · rintro - t ⟨-, -, ht⟩
    subst ht
    exact ⟨⟨rfl, ⟨hk.fit.low, hk.fit.high, hk.fit.code, hk.fit.pending, hk.fit.outN, hk.fit.inN, hk.fit.orderLow,
      hk.fit.orderHigh⟩, hk.model.of_eq rfl rfl rfl rfl rfl, hk.rawOrder, hk.host, rfl, rfl⟩, hs⟩
  · rintro c t ⟨-, -, ht⟩; rw [ht]; exact hk
  · exact fun q t hf => hf.elim

theorem rawDecApplyBody_ok {s : State} (h : MayRun s) (he : s.st = .dec) : BodyOk s (rawDecApplyBody s) := by
  have hk := Kept.refl h.inv
  refine (rawDecApplyBody_post (h.decodeOpen he)).imp ?_ ?_ ?_
  · rintro - t ⟨-, -, ho, hw', hm, -⟩
    have hw := hw'.decode
    have eb : t.build = s.build := by have := hw.1; unfold DecodeWrites at this; rw [this]
    exact ⟨hw.1.kept h.inv (ho.ended eb hm), DecodeOpen.sides h he ho hw.1 (Or.inl (hw.2.trans he))⟩
  · rintro c t (⟨e, -⟩ | ⟨e, -⟩ | ⟨e, -⟩ | ⟨-, hend, hw, -⟩)
    · rw [e]; exact hk
    · rw [e]; exact hk
    · rw [e]; exact hk
    · exact hw.decode.1.kept h.inv hend
  · rintro q t ⟨-, hend, hw, -⟩; exact hw.decode.1.kept h.inv hend

theorem rawDecEndBody_ok {s : State} (h : MayRun s) : BodyOk s (rawDecEndBody s) := by
  have hk := Kept.refl h.inv
  refine ⟨⟨rfl, ⟨hk.fit.low, hk.fit.high, hk.fit.code, hk.fit.pending, hk.fit.outN, hk.fit.inN, hk.fit.orderLow,
      hk.fit.orderHigh⟩, hk.model.of_eq rfl rfl rfl rfl rfl, hk.rawOrder, hk.host, rfl, rfl⟩,
    fun e => absurd e (by simp), fun e => absurd e (by simp)⟩

/-- Every command answers a next state and keeps the invariant. -/
theorem exec_run {s : State} (h : MayRun s) (i : Instr) : ∃ t, exec i s = .next t ∧ HasRun s t := by
  cases i with
  | encStart order alpha rawf => exact finishCommand_run h (start_ok h .encode order alpha rawf) _ _
  | decStart order alpha rawf => exact finishCommand_run h (start_ok h .decode order alpha rawf) _ _
  | encByte b =>
    refine dispatchSession_run h (fun hv => encByteBody_ok h b ?_) _
    simp only [Bool.and_eq_true, decide_eq_true_eq] at hv; exact hv.1
  | encFinish =>
    refine dispatchSession_run h (fun hv => encFinishBody_ok h ?_) _
    simpa using hv
  | decSymbol =>
    refine dispatchSession_run h (fun hv => decSymbolBody_ok h ?_) _
    simp only [Bool.and_eq_true, decide_eq_true_eq] at hv; exact hv.1
  | rawEnc =>
    refine dispatchSession_run h (fun hv => rawEncBody_ok h ?_) _
    simp only [Bool.and_eq_true, decide_eq_true_eq] at hv; exact hv.1
  | rawDecTarget =>
    refine dispatchSession_run h (fun hv => rawDecTargetBody_ok h ?_) _
    simp only [rawDecValid, Bool.and_eq_true, decide_eq_true_eq] at hv; exact hv.1
  | rawDecApply =>
    refine dispatchSession_run h (fun hv => rawDecApplyBody_ok h ?_) _
    simp only [rawDecValid, Bool.and_eq_true, decide_eq_true_eq] at hv; exact hv.1
  | rawDecEnd => exact dispatchSession_run h (fun _ => rawDecEndBody_ok h) _
  | abort imm => exact ⟨_, rfl, (clearSession_kept h.inv).completed h (clearSession_sides s)⟩

end Sys2Proof.Machine
end

