-- ==== Sys2Proof/Laws/Frames.lean ====
section
/-! SUPPORT. What no command writes, in any state at all: ARG0 to ARG2, the build, the reset input, and of the outside
world all but the ports (10_state.md R21). -/

namespace Sys2Proof.Machine

theorem HostSideSame.refl (s : State) : HostSideSame s s := ⟨rfl, rfl, rfl, rfl, rfl, rfl, rfl, rfl⟩

theorem HostSideSame.trans {s t u : State} (h : HostSideSame s t) (k : HostSideSame t u) : HostSideSame s u := by
  unfold HostSideSame at *; simp only [h, k, and_self]

/-- A micro-operation that leaves the host's side alone, however it ends. -/
def Quiet {α : Type} (s : State) (r : Res α) : Prop :=
  r.Post (fun _ t => HostSideSame s t) (fun _ t => HostSideSame s t) (fun _ t => HostSideSame s t)

variable {α β : Type}

theorem Quiet.ok {s t : State} (a : α) (h : HostSideSame s t) : Quiet s (.ok a t) := h
theorem Quiet.raised {s t : State} (c : Cause) (h : HostSideSame s t) : Quiet s (Res.raised (α := α) c t) := h

theorem Quiet.andThen {s : State} {r : Res α} {f : α → State → Res β} (h : Quiet s r)
    (k : ∀ a t, HostSideSame s t → Quiet t (f a t)) : Quiet s (r.andThen f) :=
  Res.Post.andThen h (fun a t ht => (k a t ht).imp (fun _ _ x => ht.trans x) (fun _ _ x => ht.trans x)
    (fun _ _ x => ht.trans x)) (fun _ _ x => x) (fun _ _ x => x)

/-- From a state that differs only where a command may write. -/
theorem Quiet.of {s t : State} {r : Res α} (e : HostSideSame s t) (h : Quiet t r) : Quiet s r :=
  Res.Post.imp h (fun _ _ x => e.trans x) (fun _ _ x => e.trans x) (fun _ _ x => e.trans x)

/-- Two states that agree on the host's side by computation. -/
theorem HostSideSame.by_rfl {s t : State} (h : (t.arg0, t.arg1, t.arg2, t.build, t.inReset, t.env.arrivals,
    t.env.reads, t.env.draws) = (s.arg0, s.arg1, s.arg2, s.build, s.inReset, s.env.arrivals, s.env.reads,
    s.env.draws)) : HostSideSame s t := by
  simp only [Prod.mk.injEq] at h
  exact h

/-! ## Ports and bits -/

theorem snkWrite_quiet (b : Byte) (s : State) : Quiet s (snkWrite b s) := by
  unfold snkWrite
  split <;> exact .refl s

theorem srcRead_quiet (s : State) : Quiet s (srcRead s) := by
  unfold srcRead
  split <;> exact .refl s

theorem sendOutBuf_quiet (s : State) : Quiet s (sendOutBuf s) := by
  unfold sendOutBuf
  refine (snkWrite_quiet _ s).andThen fun a t _ => ?_
  split <;> exact .refl t

theorem writeBit_quiet (b : Bool) (s : State) : Quiet s (writeBit b s) := by
  unfold writeBit
  dsimp only
  split
  · exact .of (HostSideSame.by_rfl rfl) (sendOutBuf_quiet _)
  · exact HostSideSame.refl s

theorem closeOut_quiet (s : State) : Quiet s (closeOut s) := by
  unfold closeOut
  split
  · exact .of (HostSideSame.by_rfl rfl) (sendOutBuf_quiet _)
  · exact HostSideSame.refl s

theorem readBit_quiet (s : State) : Quiet s (readBit s) := by
  unfold readBit
  split
  · split
    · exact HostSideSame.refl s
    · refine (srcRead_quiet s).andThen fun a t _ => ?_
      split <;> exact HostSideSame.refl t
  · exact HostSideSame.refl s

theorem writeBits_quiet (n : Nat) (b : Bool) (s : State) : Quiet s (writeBits n b s) := by
  induction n generalizing s with
  | zero => exact HostSideSame.refl s
  | succ n ih => exact (writeBit_quiet b s).andThen fun _ t _ => ih t

theorem emit_quiet (b : Bool) (s : State) : Quiet s (emit b s) := by
  unfold emit
  exact (writeBit_quiet b s).andThen fun _ t _ => (writeBits_quiet _ _ t).andThen fun _ u _ => .refl u

/-! ## The coder -/

theorem narrow_quiet (cl ch tot : Nat) (s : State) : Quiet s (narrow cl ch tot s) := by
  unfold narrow
  split
  · exact HostSideSame.refl s
  · split
    · exact HostSideSame.refl s
    · split <;> exact HostSideSame.refl s

theorem bumpPending_quiet (s : State) : Quiet s (bumpPending s) := by
  unfold bumpPending; split <;> exact HostSideSame.refl s

theorem shiftLoopEnc_quiet (n : Nat) (s : State) : Quiet s (shiftLoopEnc n s) := by
  induction n generalizing s with
  | zero => exact HostSideSame.refl s
  | succ n ih =>
    unfold shiftLoopEnc
    split
    · exact (emit_quiet _ s).andThen fun _ t _ => .of (HostSideSame.by_rfl rfl) (ih _)
    · exact HostSideSame.refl s

theorem e3LoopEnc_quiet (n : Nat) (s : State) : Quiet s (e3LoopEnc n s) := by
  induction n generalizing s with
  | zero => exact HostSideSame.refl s
  | succ n ih =>
    unfold e3LoopEnc
    split
    · exact (bumpPending_quiet s).andThen fun _ t _ => .of (HostSideSame.by_rfl rfl) (ih _)
    · exact HostSideSame.refl s

theorem encodeInterval_quiet (cl ch tot : Nat) (s : State) : Quiet s (encodeInterval cl ch tot s) :=
  (narrow_quiet cl ch tot s).andThen fun _ t _ =>
    (shiftLoopEnc_quiet _ t).andThen fun _ u _ => e3LoopEnc_quiet _ u

theorem encodeSymbol_quiet (t : Table) (sym : Nat) (s : State) : Quiet s (encodeSymbol t sym s) :=
  encodeInterval_quiet _ _ _ s

theorem finish_quiet (s : State) : Quiet s (finish s) :=
  (bumpPending_quiet s).andThen fun _ t _ => emit_quiet _ t

theorem target_quiet (tot : Nat) (s : State) : Quiet s (target tot s) := by
  unfold target
  split
  · exact HostSideSame.refl s
  · split <;> exact HostSideSame.refl s

theorem fillCode_quiet (n : Nat) (s : State) : Quiet s (fillCode n s) := by
  induction n generalizing s with
  | zero => exact HostSideSame.refl s
  | succ n ih => exact (readBit_quiet s).andThen fun _ t _ => .of (HostSideSame.by_rfl rfl) (ih _)

theorem shiftLoopDec_quiet (n : Nat) (s : State) : Quiet s (shiftLoopDec n s) := by
  induction n generalizing s with
  | zero => exact HostSideSame.refl s
  | succ n ih =>
    unfold shiftLoopDec
    split
    · exact .of (HostSideSame.by_rfl rfl)
        ((readBit_quiet _).andThen fun _ t _ => .of (HostSideSame.by_rfl rfl) (ih _))
    · exact HostSideSame.refl s

theorem e3LoopDec_quiet (n : Nat) (s : State) : Quiet s (e3LoopDec n s) := by
  induction n generalizing s with
  | zero => exact HostSideSame.refl s
  | succ n ih =>
    unfold e3LoopDec
    split
    · exact .of (HostSideSame.by_rfl rfl)
        ((readBit_quiet _).andThen fun _ t _ => .of (HostSideSame.by_rfl rfl) (ih _))
    · exact HostSideSame.refl s

theorem normDec_quiet (s : State) : Quiet s (normDec s) :=
  (shiftLoopDec_quiet _ s).andThen fun _ t _ => e3LoopDec_quiet _ t

theorem decodeSymbol_quiet (t : Table) (s : State) : Quiet s (decodeSymbol t s) := by
  unfold decodeSymbol
  refine (target_quiet _ s).andThen fun v u _ => ?_
  unfold decodeOffset
  split
  · exact HostSideSame.refl u
  · exact (narrow_quiet _ _ _ u).andThen fun _ v _ => (normDec_quiet v).andThen fun _ w _ => .refl w

theorem decodeApply_quiet (cl ch tot : Nat) (s : State) : Quiet s (decodeApply cl ch tot s) := by
  unfold decodeApply
  refine (target_quiet _ s).andThen fun v u _ => ?_
  split
  · exact HostSideSame.refl u
  · exact (narrow_quiet _ _ _ u).andThen fun _ v _ => normDec_quiet v

/-! ## The model -/

theorem ppmEncodeFrom_quiet (sym n : Nat) (s : State) : Quiet s (ppmEncodeFrom sym n s) := by
  induction n generalizing s with
  | zero =>
    unfold ppmEncodeFrom
    generalize uniformTable = t
    exact (encodeSymbol_quiet t sym s).andThen fun _ u _ => .refl u
  | succ n ih =>
    unfold ppmEncodeFrom
    split
    · exact ih s
    · split
      · exact (encodeSymbol_quiet _ _ s).andThen fun _ u _ => .refl u
      · exact (encodeSymbol_quiet _ _ s).andThen fun _ u _ => ih u

theorem ppmDecodeFrom_quiet (n : Nat) (s : State) : Quiet s (ppmDecodeFrom n s) := by
  induction n generalizing s with
  | zero =>
    unfold ppmDecodeFrom
    generalize uniformTable = t
    exact decodeSymbol_quiet t s
  | succ n ih =>
    unfold ppmDecodeFrom
    split
    · exact ih s
    · refine (decodeSymbol_quiet _ s).andThen fun sym u _ => ?_
      split
      · exact HostSideSame.refl u
      · exact ih u

theorem create_quiet (key : Key) (s : State) : Quiet s (create key s) := by
  unfold create; split <;> exact HostSideSame.refl s

theorem incrementAt_same (key : Key) (sym : Nat) (s : State) : HostSideSame s (incrementAt key sym s) := by
  unfold incrementAt; split <;> exact HostSideSame.refl s

theorem updateFrom_quiet (sym n k : Nat) (s : State) : Quiet s (updateFrom sym n k s) := by
  induction n generalizing k s with
  | zero => exact HostSideSame.refl s
  | succ n ih =>
    unfold updateFrom ensureContext
    refine Quiet.andThen ?_ fun _ t _ => .of (incrementAt_same _ _ t) (ih _ _)
    split
    · exact create_quiet _ s
    · exact HostSideSame.refl s

theorem learn_quiet (b : Byte) (s : State) : Quiet s (learn b s) := by
  unfold learn
  refine (updateFrom_quiet _ _ _ s).andThen fun _ t _ => ?_
  unfold pushHistory
  split <;> exact HostSideSame.refl t

/-! ## The commands -/

theorem start_quiet (d : Direction) (order : Int) (alpha : Nat) (rawf : Bool) (s : State) :
    Quiet s (start d order alpha rawf s) := by
  have hopen : ∀ t, Quiet t (openSession d rawf t) := by
    intro t
    unfold openSession
    cases d with
    | encode => exact HostSideSame.refl t
    | decode => exact .of (HostSideSame.by_rfl rfl) (fillCode_quiet _ _)
  have hclear : HostSideSame s (clearSession s) := HostSideSame.by_rfl rfl
  unfold start startCleared
  split
  · exact HostSideSame.refl s
  · refine .of hclear ?_
    split
    · exact hopen _
    · split
      · exact HostSideSame.refl _
      · split
        · exact HostSideSame.refl _
        · refine Quiet.andThen ?_ fun _ t _ => hopen t
          unfold openModel
          split
          · exact .of (HostSideSame.by_rfl rfl) (create_quiet _ _)
          · exact HostSideSame.refl _

theorem encByteBody_quiet (b : Byte) (s : State) : Quiet s (encByteBody b s) :=
  (ppmEncodeFrom_quiet _ _ s).andThen fun _ t _ => (learn_quiet b t).andThen fun _ u _ => .refl u

theorem encFinishBody_quiet (s : State) : Quiet s (encFinishBody s) := by
  unfold encFinishBody encodeEof
  refine Quiet.andThen ?_ fun _ t _ => (finish_quiet t).andThen fun _ u _ =>
    (closeOut_quiet u).andThen fun _ v _ => .refl v
  split
  · exact HostSideSame.refl s
  · exact (ppmEncodeFrom_quiet _ _ s).andThen fun _ t _ => .refl t

theorem decSymbolBody_quiet (s : State) : Quiet s (decSymbolBody s) := by
  unfold decSymbolBody
  refine (ppmDecodeFrom_quiet _ s).andThen fun sym t _ => Quiet.andThen ?_ fun _ u _ => ?_
  · unfold learnDecoded
    split
    · exact learn_quiet _ t
    · exact HostSideSame.refl t
  · unfold deliverSymbol
    dsimp only
    split <;> exact HostSideSame.refl u

theorem finishCommand_same {s : State} {r : Res Unit} (h : Quiet s r) (opc : BitVec 8) (st : SessionState) :
    ∃ t, finishCommand opc st r = .next t ∧ HostSideSame s t := by
  cases r with
  | ok a u => exact ⟨_, rfl, h⟩
  | raised c u => exact ⟨_, rfl, h⟩
  | waiting q u => exact ⟨_, rfl, h⟩

theorem dispatchSession_same {s : State} {body : State → Res Unit} (h : Quiet s (body s)) (opc : BitVec 8)
    (valid : Bool) : ∃ t, dispatchSession opc valid body s = .next t ∧ HostSideSame s t := by
  unfold dispatchSession
  split
  · exact ⟨_, rfl, .refl s⟩
  · split
    · exact finishCommand_same h opc s.st
    · exact ⟨_, rfl, .refl s⟩

theorem rejectWord_same (r : Reject) (s : State) : HostSideSame s (rejectWord r s) := by
  unfold rejectWord
  split <;> split <;> exact HostSideSame.refl s

end Sys2Proof.Machine
end

