-- ==== Sys2Proof/Laws/Mirror.lean ====
section
/-! SUPPORT. Why the decoder is the mirror of the encoder (42_arith_coder.md R149, R152, R156): the finished stream,
read as a number in the frame of any earlier moment, lies in the range of that moment. -/

namespace Sys2Proof.Machine

/-! ## A stream as a number -/

theorem padded_succ (n : Nat) (B : List Bool) : padded (n + 1) B = padded n B ++ [B.getD n false] := by
  rw [padded_append, padded_one]
  congr 2
  rw [List.headD_eq_head?_getD, List.head?_drop, List.getD_eq_getElem?_getD]

theorem bitsValue_single (b : Bool) : bitsValue [b] = bitVal b := by simp [bitsValue]

theorem value_succ (n : Nat) (B : List Bool) :
    bitsValue (padded (n + 1) B) = 2 * bitsValue (padded n B) + bitVal (B.getD n false) := by
  rw [padded_succ, bitsValue_append, bitsValue_single, List.length_singleton]
  ring

theorem padded_length (n : Nat) (B : List Bool) : (padded n B).length = n := by
  unfold padded
  rw [List.length_append, List.length_take, List.length_replicate]
  omega

theorem padded_zeros (n m : Nat) (B : List Bool) : padded n (B ++ List.replicate m false) = padded n B := by
  unfold padded
  rw [List.take_append, List.take_replicate, List.length_append, List.length_replicate, List.append_assoc,
    ← List.replicate_add]
  congr 2; omega

theorem bitsValue_replicate_false (n : Nat) : bitsValue (List.replicate n false) = 0 := by
  induction n with
  | zero => rfl
  | succ n ih =>
    rw [List.replicate_succ', bitsValue_append, ih, bitsValue_single]; rfl

theorem bitsValue_replicate_true (n : Nat) : bitsValue (List.replicate n true) = 2 ^ n - 1 := by
  induction n with
  | zero => rfl
  | succ n ih =>
    rw [List.replicate_succ', bitsValue_append, ih, bitsValue_single, List.length_singleton]
    have := Nat.one_le_two_pow (n := n)
    simp only [bitVal, if_true, Nat.pow_succ]
    omega

/-- A whole stream padded further. -/
theorem value_padded (n : Nat) (B : List Bool) (h : B.length ≤ n) :
    bitsValue (padded n B) = bitsValue B * 2 ^ (n - B.length) := by
  unfold padded
  rw [List.take_of_length_le h, bitsValue_append, bitsValue_replicate_false, List.length_replicate, Nat.add_zero]

/-! ## The frame of the encoder -/

/-- The stream `B`, read as W bits in the frame of `c`, lies in the range of `c`: a decoder there has CODE in its
range (R34). -/
def Holds (b : Build) (B : List Bool) (c : Coded) : Prop :=
  c.low + c.off ≤ bitsValue (padded (b.width + c.steps) B) ∧
  bitsValue (padded (b.width + c.steps) B) ≤ c.high + c.off

theorem Holds.of_frame {b : Build} {B : List Bool} {c d : Coded} (f : SameFrame c d) (h : Holds b B c) :
    Holds b B d := by
  unfold Holds at *; rw [f.low, f.high, f.steps, f.off]; exact h

/-- A normalisation step doubles the scale, so it can be undone. -/
theorem holds_normStep {b : Build} {B : List Bool} {c d : Coded} (hlh : c.low ≤ c.high)
    (h : c.normStep b = some d) (hd : Holds b B d) : Holds b B c ∧ d.low ≤ d.high := by
  have hv := value_succ (b.width + c.steps) B
  have hbit := bitVal_le (B.getD (b.width + c.steps) false)
  have key : ∀ k, k ≤ c.low → d.low = 2 * (c.low - k) → d.high = 2 * (c.high - k) + 1 → d.steps = c.steps + 1 →
      d.off = 2 * (c.off + k) → Holds b B c ∧ d.low ≤ d.high := by
    intro k hk e1 e2 e3 e4
    unfold Holds at hd ⊢
    rw [e1, e2, e3, e4, ← Nat.add_assoc, hv] at hd
    constructor
    · omega
    · omega
  unfold Coded.normStep at h
  split at h
  · cases h; exact key 0 (Nat.zero_le _) rfl rfl rfl rfl
  · split at h
    · next h2 => cases h; exact key b.half h2 rfl rfl rfl rfl
    · split at h
      · next h3 => cases h; exact key b.quarter h3.1 rfl rfl rfl rfl
      · cases h

theorem normStep_range {b : Build} {c d : Coded} (hlh : c.low ≤ c.high) (h : c.normStep b = some d) :
    d.low ≤ d.high := by
  unfold Coded.normStep at h
  split at h
  · cases h; simp only [Coded.expand, Coded.emit]; omega
  · split at h
    · cases h; simp only [Coded.expand, Coded.emit]; omega
    · split at h
      · cases h; simp only [Coded.expand]; omega
      · cases h

theorem holds_norm {b : Build} {B : List Bool} (n : Nat) {c : Coded} (hlh : c.low ≤ c.high)
    (h : Holds b B (c.norm b n)) : Holds b B c := by
  induction n generalizing c with
  | zero => exact h
  | succ n ih =>
    unfold Coded.norm at h
    cases hd : c.normStep b with
    | none => rw [hd] at h; exact h
    | some d =>
      rw [hd] at h
      exact (holds_normStep hlh hd (ih (normStep_range hlh hd) h)).1

/-- The coder as numbers between coding steps: a normalised range of W-bit values (R33). -/
structure CodedReady (b : Build) (c : Coded) : Prop where
  norm : Normalised b c.low c.high
  high : c.high < b.full

/-- An interval the coder accepts (R142). -/
def Interval.ok (b : Build) (i : Interval) : Prop := IntervalOk b i.cl i.ch i.tot

theorem narrow_inside {b : Build} (hb : b.legal = true) {c : Coded} (h : CodedReady b c) {i : Interval}
    (hi : i.ok b) : c.low ≤ (c.narrow i).low ∧ (c.narrow i).low ≤ (c.narrow i).high ∧ (c.narrow i).high ≤ c.high := by
  have hn := narrow_range hb h.norm hi.1 hi.2.1 hi.2.2
  have hnn := h.norm
  have e : c.high - c.low + 1 = rangeOf c.low c.high := by unfold Normalised at hnn; unfold rangeOf; omega
  unfold Coded.narrow
  simp only [e]
  unfold narrowLow narrowHighSucc at hn
  omega

theorem code_ready {b : Build} (hb : b.legal = true) {c : Coded} (h : CodedReady b c) {i : Interval} (hi : i.ok b) :
    CodedReady b (c.code b i) := by
  obtain ⟨h1, h2, h3⟩ := narrow_inside hb h hi
  have hf := h.high
  have hn := norm_eq hb h2 (by omega) c.pending
  have f : SameFrame ⟨(c.narrow i).low, (c.narrow i).high, c.pending, [], 0, 0⟩
      { c.narrow i with steps := 0, off := 0 } :=
    ⟨rfl, rfl, rfl, rfl⟩
  have g := norm_frame b b.width f
  have hs := normRange_spec hb h2 (show (c.narrow i).high < b.full by omega)
  have e1 := hn.1
  have split : c.code b i = c.after (c.bare.code b i) := code_split b i c
  have e2 : (c.bare.code b i).low = (normRange b (c.narrow i).low (c.narrow i).high).1 ∧
      (c.bare.code b i).high = (normRange b (c.narrow i).low (c.narrow i).high).2 := by
    have e3 : c.bare.code b i = Coded.norm b b.width ⟨(c.narrow i).low, (c.narrow i).high, c.pending, [], 0, 0⟩ := rfl
    rw [e3, ← e1]; exact ⟨rfl, rfl⟩
  rw [split]
  exact ⟨by simp only [Coded.after]; rw [e2.1, e2.2]; exact hs.1, by simp only [Coded.after]; rw [e2.2]; exact hs.2⟩

/-- If the stream lies in the range after a coding step, it lies in the narrowed range and in the range before. -/
theorem holds_code {b : Build} (hb : b.legal = true) {B : List Bool} {c : Coded} (hr : CodedReady b c) {i : Interval}
    (hi : i.ok b) (h : Holds b B (c.code b i)) : Holds b B (c.narrow i) ∧ Holds b B c := by
  obtain ⟨h1, h2, h3⟩ := narrow_inside hb hr hi
  have hn := holds_norm b.width h2 h
  refine ⟨hn, ?_⟩
  unfold Holds at *
  have e1 : (c.narrow i).steps = c.steps := rfl
  have e2 : (c.narrow i).off = c.off := rfl
  rw [e1, e2] at hn
  omega

theorem run_ready {b : Build} (hb : b.legal = true) (l : List Interval) {c : Coded} (h : CodedReady b c)
    (hl : ∀ i ∈ l, i.ok b) : CodedReady b (c.run b l) := by
  induction l generalizing c with
  | nil => exact h
  | cons i l ih =>
    rw [run_cons]
    exact ih (code_ready hb h (hl i List.mem_cons_self)) fun j hj => hl j (List.mem_cons_of_mem _ hj)

theorem holds_run {b : Build} (hb : b.legal = true) {B : List Bool} (l : List Interval) {c : Coded}
    (hr : CodedReady b c) (hl : ∀ i ∈ l, i.ok b) (h : Holds b B (c.run b l)) : Holds b B c := by
  induction l generalizing c with
  | nil => exact h
  | cons i l ih =>
    rw [run_cons] at h
    have hi := hl i List.mem_cons_self
    exact (holds_code hb hr hi (ih (code_ready hb hr hi) (fun j hj => hl j (List.mem_cons_of_mem _ hj)) h)).2

/-! ## What the encoder owes -/

/-- The frame of an encoder that started a session: the bits written, and the pending ones in the middle of the
range they stand for. -/
structure Owes (b : Build) (c : Coded) : Prop where
  steps : c.steps = c.bits.length + c.pending
  off : c.off = b.full * (bitsValue c.bits * 2 ^ c.pending) + b.half * (2 ^ c.pending - 1)

theorem bitsValue_emit (bits : List Bool) (b : Bool) (p : Nat) :
    bitsValue (bits ++ b :: List.replicate p (!b)) = bitsValue bits * 2 ^ (p + 1) + (2 ^ p - 1) + bitVal b := by
  rw [show bits ++ b :: List.replicate p (!b) = bits ++ ([b] ++ List.replicate p (!b)) from rfl, bitsValue_append,
    bitsValue_append, bitsValue_single]
  simp only [List.length_append, List.length_singleton, List.length_replicate, Nat.add_comm 1 p]
  have := Nat.one_le_two_pow (n := p)
  cases b with
  | false =>
    have e : bitsValue (List.replicate p !false) = 2 ^ p - 1 := bitsValue_replicate_true p
    rw [e]; simp [bitVal]
  | true =>
    have e : bitsValue (List.replicate p !true) = 0 := bitsValue_replicate_false p
    rw [e]; simp only [bitVal, if_true]; omega

theorem owes_normStep {b : Build} (hb : b.legal = true) {c d : Coded} (h : Owes b c) (hs : c.normStep b = some d) :
    Owes b d := by
  have hq := full_eq hb
  have hp := Nat.one_le_two_pow (n := c.pending)
  obtain ⟨x, hx⟩ : ∃ x, 2 ^ c.pending = x + 1 := ⟨2 ^ c.pending - 1, by omega⟩
  have hsteps := normStep_steps hs
  refine ⟨by rw [hsteps.1, hsteps.2, h.steps], ?_⟩
  have ho := h.off
  rw [hx, Nat.add_sub_cancel] at ho
  unfold Coded.normStep at hs
  split at hs
  · cases hs
    simp only [Coded.emit, Coded.expand]
    rw [bitsValue_emit, ho, hx, Nat.pow_succ, hx, hq.1]
    simp only [Nat.pow_zero, bitVal, Bool.false_eq_true, if_false, Nat.sub_self, Nat.add_sub_cancel]
    ring
  · split at hs
    · cases hs
      simp only [Coded.emit, Coded.expand]
      rw [bitsValue_emit, ho, hx, Nat.pow_succ, hx, hq.1]
      simp only [Nat.pow_zero, bitVal, if_true, Nat.sub_self, Nat.add_sub_cancel]
      ring
    · split at hs
      · cases hs
        simp only [Coded.expand]
        rw [ho, Nat.pow_succ, hx, show (x + 1) * 2 - 1 = 2 * x + 1 by omega, hq.1, hq.2]
        ring
      · cases hs

theorem owes_norm {b : Build} (hb : b.legal = true) (n : Nat) {c : Coded} (h : Owes b c) : Owes b (c.norm b n) := by
  induction n generalizing c with
  | zero => exact h
  | succ n ih =>
    unfold Coded.norm
    cases hd : c.normStep b with
    | none => exact h
    | some d => exact ih (owes_normStep hb h hd)

theorem owes_run {b : Build} (hb : b.legal = true) (l : List Interval) {c : Coded} (h : Owes b c) :
    Owes b (c.run b l) := by
  induction l generalizing c with
  | nil => exact h
  | cons i l ih => rw [run_cons]; exact ih (owes_norm hb b.width ⟨h.steps, h.off⟩)

/-- R149: the finish bits, and zeros after them, put the stream in the last range. -/
theorem holds_finish {b : Build} (hb : b.legal = true) {c : Coded} (hr : CodedReady b c) (h : Owes b c)
    (m : Nat) : Holds b ((c.finish b).bits ++ List.replicate m false) c := by
  have hq := full_eq hb
  have hw := legal_width hb
  have hn := hr.norm
  have hp := Nat.one_le_two_pow (n := c.pending)
  obtain ⟨x, hx⟩ : ∃ x, 2 ^ c.pending = x + 1 := ⟨2 ^ c.pending - 1, by omega⟩
  have hlen : (c.finish b).bits.length = c.bits.length + (c.pending + 2) := by
    simp [Coded.finish, Coded.emit]
  have hval : bitsValue (padded (b.width + c.steps) ((c.finish b).bits ++ List.replicate m false)) =
      c.off + (if c.low < b.quarter then b.quarter else b.half) := by
    rw [padded_zeros, value_padded _ _ (by rw [hlen, h.steps]; omega), hlen, h.steps,
      show b.width + (c.bits.length + c.pending) - (c.bits.length + (c.pending + 2)) = b.width - 2 by omega]
    have eq : 2 ^ (b.width - 2) = b.quarter := rfl
    rw [eq, h.off, hx, Nat.add_sub_cancel]
    unfold Coded.finish Coded.emit
    simp only
    rw [bitsValue_emit, Nat.pow_succ, Nat.pow_succ, hx, show (x + 1) * 2 - 1 = 2 * x + 1 by omega, hq.1, hq.2]
    split
    · next hl => simp only [hl, not_true, decide_false, bitVal, Bool.false_eq_true, if_false]; ring
    · next hl => simp only [hl, not_false_eq_true, decide_true, bitVal, if_true]; ring
  unfold Holds
  rw [hval]
  unfold Normalised at hn
  split <;> omega

/-! ## The decoder follows -/

/-- A decoder at `d` follows the coder `c` on the stream `B`: the same range; CODE is the stream in the frame of
`c`; the bits still to read are those after the first W + steps. -/
structure Follows (B : List Bool) (d : State) (c : Coded) : Prop where
  low : d.low = c.low
  high : d.high = c.high
  code : d.code + c.off = bitsValue (padded (d.build.width + c.steps) B)
  rest : unreadBits d = B.drop (d.build.width + c.steps)

/-- A decode step follows a coding step. -/
theorem Follows.next {B : List Bool} {d t : State} {c : Coded} {l : List Interval} (h : Follows B d c)
    (eb : t.build = d.build) (k : DecodedTo d t ((coded d).run d.build l)) : Follows B t (c.run d.build l) := by
  have f : SameFrame c.bare (coded d) := ⟨h.low, h.high, rfl, rfl⟩
  have g := run_frame d.build l f
  have split := run_split d.build l c
  have elow : (c.run d.build l).low = ((coded d).run d.build l).low := by rw [split, g.low]; rfl
  have ehigh : (c.run d.build l).high = ((coded d).run d.build l).high := by rw [split, g.high]; rfl
  have esteps : (c.run d.build l).steps = c.steps + ((coded d).run d.build l).steps := by rw [split, g.steps]; rfl
  have eoff : (c.run d.build l).off =
      c.off * 2 ^ ((coded d).run d.build l).steps + ((coded d).run d.build l).off := by
    rw [split, g.off, g.steps]; rfl
  refine ⟨k.low.trans elow.symm, k.high.trans ehigh.symm, ?_, ?_⟩
  · have e0 : d.build.width + (c.steps + ((coded d).run d.build l).steps) =
        (d.build.width + c.steps) + ((coded d).run d.build l).steps := by omega
    rw [eoff, esteps, eb, e0, padded_append, bitsValue_append, ← h.rest, padded_length, ← h.code]
    have := k.code
    calc t.code + (c.off * 2 ^ ((coded d).run d.build l).steps + ((coded d).run d.build l).off) =
        (t.code + ((coded d).run d.build l).off) + c.off * 2 ^ ((coded d).run d.build l).steps := by ring
      _ = _ := by rw [this]; ring
  · rw [k.rest, h.rest, esteps, eb, List.drop_drop, Nat.add_assoc]

/-- Where the decoder follows, CODE in the range is the stream in the range. -/
theorem Follows.holds {B : List Bool} {d : State} {c : Coded} (h : Follows B d c) (h1 : d.low ≤ d.code)
    (h2 : d.code ≤ d.high) : Holds d.build B c := by
  unfold Holds
  rw [← h.code, ← h.low, ← h.high]
  omega

/-- The target value lies in the interval whose narrowed range holds the stream. -/
theorem Follows.target {B : List Bool} {d : State} {c : Coded} (h : Follows B d c) (hd : DecReady d) {i : Interval}
    (hi : i.ok d.build) (hh : Holds d.build B (c.narrow i)) :
    i.cl ≤ targetValue d.low d.high d.code i.tot ∧ targetValue d.low d.high d.code i.tot < i.ch := by
  have h0 : 0 < i.tot := by have := hi.2.1; have := hi.2.2; omega
  obtain ⟨k1, k2⟩ := target_mem_iff (cl := i.cl) (ch := i.ch) hd.codeLow hd.codeHigh h0
  have hn := hd.norm
  have e : c.high - c.low + 1 = rangeOf d.low d.high := by
    rw [← h.low, ← h.high]; unfold Normalised at hn; unfold rangeOf; omega
  unfold Holds at hh
  have e1 : (c.narrow i).steps = c.steps := rfl
  have e2 : (c.narrow i).off = c.off := rfl
  have e3 : (c.narrow i).low = narrowLow d.low d.high i.cl i.tot := by
    unfold Coded.narrow narrowLow; simp only [e, h.low]
  have e4 : (c.narrow i).high = narrowHighSucc d.low d.high i.ch i.tot - 1 := by
    unfold Coded.narrow narrowHighSucc; simp only [e, h.low]
  have hpos := narrow_range hd.legal hn hi.1 hi.2.1 hi.2.2
  rw [e1, e2, e3, e4, ← h.code] at hh
  exact ⟨k1.mpr (by omega), k2.mpr (by omega)⟩

/-! ## The decoder of the model takes the encoder's path -/

theorem symbolInterval_ok {b : Build} {t : Table} (ht : totalOk b (tableTotal t) = true) {sym : Nat}
    (hs : 0 < tableGet t sym) : (symbolInterval t sym).ok b := symbol_interval ht hs

theorem uniform_ok {b : Build} (hb : b.legal = true) {sym : Nat} (hs : sym < 257) :
    (symbolInterval uniformTable sym).ok b := by
  have hpos : 0 < tableGet uniformTable sym := by rw [uniform_get hs]; exact Nat.one_pos
  have htot := total_ok_uniform hb
  generalize uniformTable = t at hpos htot
  exact symbolInterval_ok htot hpos

theorem descentSteps_ok {s : State} (hb : s.build.legal = true) (ht : TablesOk s) {sym : Nat} (hs : sym < 257)
    (n : Nat) : ∀ i ∈ descentSteps s sym n, i.ok s.build := by
  have hT := (legal_threshold hb).2
  induction n with
  | zero =>
    intro i hi
    rw [descentSteps, List.mem_singleton] at hi
    rw [hi]; exact uniform_ok hb hs
  | succ n ih =>
    intro i hi
    unfold descentSteps at hi
    split at hi
    · exact ih i hi
    · next t hl =>
      have hok := ht _ _ hl
      have htot := total_ok_of_table hb hok hT
      split at hi
      · next hg => rw [List.mem_singleton] at hi; rw [hi]; exact symbolInterval_ok htot hg.2
      · rcases List.mem_cons.mp hi with hi | hi
        · rw [hi]; exact symbolInterval_ok htot (esc_pos hok)
        · exact ih i hi

theorem decodePath_ok {s : State} (hb : s.build.legal = true) (ht : TablesOk s) {sym : Nat} (hs : sym < 257)
    (n : Nat) : ∀ l, DecodePath s sym n l → ∀ i ∈ l, i.ok s.build := by
  have hT := (legal_threshold hb).2
  induction n with
  | zero =>
    intro l hl i hi
    rw [DecodePath] at hl
    rw [hl, List.mem_singleton] at hi
    rw [hi]; exact uniform_ok hb hs
  | succ n ih =>
    intro l hl i hi
    unfold DecodePath at hl
    split at hl
    · exact ih l hl i hi
    · next t hg =>
      have hok := ht _ _ hg
      have htot := total_ok_of_table hb hok hT
      rcases hl with ⟨-, hp, rfl⟩ | ⟨rest, rfl, hr⟩
      · rw [List.mem_singleton] at hi; rw [hi]; exact symbolInterval_ok htot hp
      · rcases List.mem_cons.mp hi with hi | hi
        · rw [hi]; exact symbolInterval_ok htot (esc_pos hok)
        · exact ih rest hr i hi

/-- Two symbols of one table whose narrowed ranges both hold the stream are one symbol (R130). -/
theorem same_symbol {b : Build} (hb : b.legal = true) {B : List Bool} {c : Coded} (hr : CodedReady b c) {t : Table}
    {u v : Nat} (hu : (symbolInterval t u).ok b) (hv : (symbolInterval t v).ok b)
    (h1 : Holds b B (c.narrow (symbolInterval t u))) (h2 : Holds b B (c.narrow (symbolInterval t v))) : u = v := by
  have h0 : 0 < tableTotal t := by have := hu.2.1; have := hu.2.2; simp only [symbolInterval] at *; omega
  have hn := hr.norm
  have e : c.high - c.low + 1 = rangeOf c.low c.high := by unfold Normalised at hn; unfold rangeOf; omega
  have inside : ∀ w, (symbolInterval t w).ok b → Holds b B (c.narrow (symbolInterval t w)) →
      ∃ x, x + c.off = bitsValue (padded (b.width + c.steps) B) ∧ c.low ≤ x ∧ x ≤ c.high ∧
        tableLow t w ≤ targetValue c.low c.high x (tableTotal t) ∧
        targetValue c.low c.high x (tableTotal t) < tableHigh t w := by
    intro w hw hh
    obtain ⟨g1, g2, g3⟩ := narrow_inside hb hr hw
    have hpos := narrow_range hb hn hw.1 hw.2.1 hw.2.2
    have e3 : (c.narrow (symbolInterval t w)).low = narrowLow c.low c.high (tableLow t w) (tableTotal t) := by
      unfold Coded.narrow narrowLow symbolInterval; simp only [e]
    have e4 : (c.narrow (symbolInterval t w)).high =
        narrowHighSucc c.low c.high (tableHigh t w) (tableTotal t) - 1 := by
      unfold Coded.narrow narrowHighSucc symbolInterval; simp only [e]
    unfold Holds at hh
    have e1 : (c.narrow (symbolInterval t w)).steps = c.steps := rfl
    have e2 : (c.narrow (symbolInterval t w)).off = c.off := rfl
    rw [e1, e2] at hh
    refine ⟨bitsValue (padded (b.width + c.steps) B) - c.off, by omega, by omega, by omega, ?_⟩
    obtain ⟨k1, k2⟩ := target_mem_iff (l := c.low) (h := c.high) (cl := tableLow t w) (ch := tableHigh t w)
      (code := bitsValue (padded (b.width + c.steps) B) - c.off) (by omega) (by omega) h0
    simp only [symbolInterval] at hpos
    exact ⟨k1.mpr (by omega), k2.mpr (by omega)⟩
  obtain ⟨x, ex, -, -, x1, x2⟩ := inside u hu h1
  obtain ⟨y, ey, -, -, y1, y2⟩ := inside v hv h2
  have : x = y := by omega
  subst this
  exact interval_unique t x1 x2 y1 y2

/-- A decoder has one path through the model on which the stream stays in the range (R177). -/
theorem path_unique {B : List Bool} {s : State} (hb : s.build.legal = true) (ht : TablesOk s) {u v : Nat}
    (hu : u < 257) (hv : v < 257) (n : Nat) : ∀ {c : Coded} {l l' : List Interval}, CodedReady s.build c →
    DecodePath s u n l → DecodePath s v n l' → Holds s.build B (c.run s.build l) →
    Holds s.build B (c.run s.build l') → u = v ∧ l = l' := by
  have hT := (legal_threshold hb).2
  induction n with
  | zero =>
    intro c l l' hr hp hp' h1 h2
    rw [DecodePath] at hp hp'
    subst hp hp'
    have := same_symbol hb hr (uniform_ok hb hu) (uniform_ok hb hv) (holds_code hb hr (uniform_ok hb hu) h1).1
      (holds_code hb hr (uniform_ok hb hv) h2).1
    exact ⟨this, by rw [this]⟩
  | succ n ih =>
    intro c l l' hr hp hp' h1 h2
    have hok := fun w (hw : w < 257) => decodePath_ok hb ht hw n
    unfold DecodePath at hp hp'
    split at hp
    · next hg => simp only [hg] at hp'; exact ih hr hp hp' h1 h2
    · next t hg =>
      simp only [hg] at hp'
      have htab := ht _ _ hg
      have htot := total_ok_of_table hb htab hT
      have hesc := symbolInterval_ok htot (esc_pos htab)
      have first : ∀ w rest, w < 257 → DecodePath s w n rest →
          Holds s.build B (c.run s.build (symbolInterval t esc :: rest)) →
          Holds s.build B (c.narrow (symbolInterval t esc)) := fun w rest hw hrest h =>
        (holds_code hb hr hesc (holds_run hb _ (code_ready hb hr hesc) (hok w hw rest hrest) h)).1
      rcases hp with ⟨hne, hpos, rfl⟩ | ⟨rest, rfl, hrest⟩
      · have hui := symbolInterval_ok htot hpos
        have h1' := (holds_code hb hr hui h1).1
        rcases hp' with ⟨hne', hpos', rfl⟩ | ⟨rest', rfl, hrest'⟩
        · have hvi := symbolInterval_ok htot hpos'
          have := same_symbol hb hr hui hvi h1' (holds_code hb hr hvi h2).1
          exact ⟨this, by rw [this]⟩
        · exact absurd (same_symbol hb hr hui hesc h1' (first v rest' hv hrest' h2)) hne
      · rcases hp' with ⟨hne', hpos', rfl⟩ | ⟨rest', rfl, hrest'⟩
        · have hvi := symbolInterval_ok htot hpos'
          exact absurd (same_symbol hb hr hvi hesc (holds_code hb hr hvi h2).1 (first u rest hu hrest h1)) hne'
        · obtain ⟨e1, e2⟩ := ih (code_ready hb hr hesc) hrest hrest' h1 h2
          exact ⟨e1, by rw [e2]⟩

/-- The encoder's coding steps are a decoder's path (R176, R177). -/
theorem descentSteps_path (s : State) (sym n : Nat) : DecodePath s sym n (descentSteps s sym n) := by
  induction n with
  | zero => rfl
  | succ n ih =>
    unfold DecodePath descentSteps
    cases storeGet s.store (s.hist.take n) with
    | none => exact ih
    | some t =>
      dsimp only
      split
      · next hg => exact Or.inl ⟨hg.1, hg.2, rfl⟩
      · exact Or.inr ⟨_, rfl, ih⟩

theorem codingSteps_path (s : State) (sym : Nat) : DecodePath s sym (descentOrders s) (codingSteps s sym) :=
  descentSteps_path s sym _

/-- Where the decoder follows, `decodeSymbol` selects the symbol whose narrowed range holds the stream. -/
theorem Follows.selects {B : List Bool} {d : State} {c : Coded} (h : Follows B d c) (hd : DecReady d) {t : Table}
    {sym : Nat} (hi : (symbolInterval t sym).ok d.build) (hh : Holds d.build B (c.narrow (symbolInterval t sym))) :
    Selects d t sym := h.target hd hi hh

theorem Selects.unique {s : State} {t : Table} {u v : Nat} (h : Selects s t u) (k : Selects s t v) : u = v :=
  interval_unique t h.1 h.2 k.1 k.2

/-- The bits of a run are those of its first step and then of the others. -/
theorem run_cons_steps {s t : State} {i : Interval} (l : List Interval) (h : Decodes s t ((coded s).code s.build i))
    (eb : t.build = s.build) : ((coded s).run s.build (i :: l)).steps =
      ((coded s).code s.build i).steps + ((coded t).run t.build l).steps := by
  have hf := run_frame s.build l (c := ((coded s).code s.build i).bare) (d := coded t) ⟨h.low, h.high, rfl, rfl⟩
  rw [eb, run_cons, run_split, hf.steps]; rfl

theorem run_cons_steps_le (s : State) (i : Interval) (l : List Interval) :
    ((coded s).code s.build i).steps ≤ ((coded s).run s.build (i :: l)).steps := by
  rw [run_cons, run_split]
  exact Nat.le_add_right _ _

/-- The decoder stops at the source only where what is left to read is short of the path it is on (R103, R177). -/
theorem ppmDecodeFrom_short {B : List Bool} {sym : Nat} (hs : sym < 257) (n : Nat) :
    ∀ {s : State} {c : Coded} {l : List Interval}, DecReady s → TablesOk s → Follows B s c →
    DecodePath s sym n l → Holds s.build B (c.run s.build l) → (ppmDecodeFrom n s).Post (fun _ _ => True)
      (fun _ _ => SourceStops .fail s ∧ ShortOf s ((coded s).run s.build l))
      (fun _ _ => SourceStops .silent s ∧ ShortOf s ((coded s).run s.build l)) := by
  induction n with
  | zero =>
    intro s c l hr ht hf hp hh
    rw [DecodePath] at hp
    subst hp
    have hcr : CodedReady s.build c := ⟨hf.low ▸ hf.high ▸ hr.norm, hf.high ▸ hr.high⟩
    have hi := uniform_ok hr.legal hs
    have hsel := hf.selects hr hi (holds_code hr.legal hcr hi hh).1
    have htot := total_ok_uniform hr.legal
    unfold ppmDecodeFrom
    generalize uniformTable = tab at *
    refine (decodeSymbol_post hr htot).imp (fun _ _ _ => trivial) ?_ ?_
    · rintro x u ⟨hfail, w, hw, k⟩; rw [← hsel.unique hw] at k; exact ⟨hfail.cause.2, k⟩
    · rintro - u ⟨-, m, w, hw, k⟩; rw [← hsel.unique hw] at k; exact ⟨m, k⟩
  | succ n ih =>
    intro s c l hr ht hf hp hh
    have hcr : CodedReady s.build c := ⟨hf.low ▸ hf.high ▸ hr.norm, hf.high ▸ hr.high⟩
    unfold DecodePath at hp
    unfold ppmDecodeFrom
    rw [show lookup s n = storeGet s.store (s.hist.take n) from rfl]
    cases hg : storeGet s.store (s.hist.take n) with
    | none => rw [hg] at hp; exact ih hr ht hf hp hh
    | some tab =>
      rw [hg] at hp
      dsimp only at hp ⊢
      have hok := ht _ _ hg
      have htot := total_ok_of_table hr.legal hok (legal_threshold hr.legal).2
      have hesc := symbolInterval_ok htot (esc_pos hok)
      have first : ∃ w rest, Selects s tab w ∧ l = symbolInterval tab w :: rest ∧
          (w = esc → DecodePath s sym n rest) := by
        rcases hp with ⟨hne, hpos, rfl⟩ | ⟨rest, rfl, hrest⟩
        · have hi := symbolInterval_ok htot hpos
          exact ⟨sym, [], hf.selects hr hi (holds_code hr.legal hcr hi hh).1, rfl, fun e => absurd e hne⟩
        · have hh' := holds_run hr.legal _ (code_ready hr.legal hcr hesc) (decodePath_ok hr.legal ht hs n rest hrest) hh
          exact ⟨esc, rest, hf.selects hr hesc (holds_code hr.legal hcr hesc hh').1, rfl, fun _ => hrest⟩
      obtain ⟨w, rest, hsel, rfl, hrest⟩ := first
      refine (decodeSymbol_post hr htot).andThen ?_ ?_ ?_
      · rintro x t ⟨-, hrt, hdec, hx⟩
        obtain rfl := hsel.unique hx
        split
        · trivial
        · next he =>
          replace he : w = esc := by simpa using he
          obtain ⟨bits, hlen, hread, -⟩ := hdec.reads
          have ho := hread.only
          have eb := ho.build
          have hft : Follows B t (c.run s.build [symbolInterval tab w]) := hf.next eb hdec.decodedTo
          have hpt := (DecodePath_congr ho.model.1 ho.model.2.2.2 sym n rest).mpr (hrest he)
          have key : ∀ {a}, SourceStops a t → ShortOf t ((coded t).run t.build rest) →
              ShortOf s ((coded s).run s.build (symbolInterval tab w :: rest)) := by
            intro a m k
            unfold ShortOf at k ⊢
            rw [run_cons_steps rest hdec eb, ← hlen]
            exact hread.short m k
          refine (ih hrt (ho.tables ht) hft hpt (by rw [eb]; exact hh)).imp (fun _ _ _ => trivial) ?_ ?_
          · rintro - - ⟨m, k⟩; exact ⟨hread.back m, key m k⟩
          · rintro - - ⟨m, k⟩; exact ⟨hread.back m, key m k⟩
      · rintro y u ⟨hfail, x, hx, k⟩
        rw [← hsel.unique hx] at k
        exact ⟨hfail.cause.2, Nat.lt_of_lt_of_le k (run_cons_steps_le s _ rest)⟩
      · rintro - u ⟨-, m, x, hx, k⟩
        rw [← hsel.unique hx] at k
        exact ⟨m, Nat.lt_of_lt_of_le k (run_cons_steps_le s _ rest)⟩

/-! ## The stream a decoder sees -/

/-- The n low bits of a number, most significant first. -/
def numberBits : (n v : Nat) → List Bool
  | 0, _ => []
  | n + 1, v => numberBits n (v / 2) ++ [decide (v % 2 = 1)]

theorem numberBits_length (n v : Nat) : (numberBits n v).length = n := by
  induction n generalizing v with
  | zero => rfl
  | succ n ih => rw [numberBits, List.length_append, ih, List.length_singleton]

theorem numberBits_value (n : Nat) {v : Nat} (h : v < 2 ^ n) : bitsValue (numberBits n v) = v := by
  induction n generalizing v with
  | zero => rw [Nat.pow_zero] at h; rw [show v = 0 by omega]; rfl
  | succ n ih =>
    rw [Nat.pow_succ] at h
    rw [numberBits, bitsValue_append, ih (by omega), bitsValue_single, List.length_singleton]
    by_cases hv : v % 2 = 1 <;> simp [bitVal, hv] <;> omega

/-- What a decoder has of its stream: CODE as W bits, then the bits still to read. -/
def seenBits (s : State) : List Bool := numberBits s.build.width s.code ++ unreadBits s

/-- CODE as W bits and n bits more, as a number. -/
theorem seenBits_value {s : State} (h : s.code < s.build.full) (n : Nat) :
    bitsValue (padded (s.build.width + n) (seenBits s)) = s.code * 2 ^ n + bitsValue (padded n (unreadBits s)) := by
  have hl := numberBits_length s.build.width s.code
  have e1 : padded s.build.width (seenBits s) = numberBits s.build.width s.code := by
    unfold padded seenBits
    rw [List.take_left' hl, List.length_append, hl, show s.build.width - (s.build.width + _) = 0 by omega,
      List.replicate_zero, List.append_nil]
  have e2 : (seenBits s).drop s.build.width = unreadBits s := List.drop_left' hl
  rw [padded_append, bitsValue_append, e1, e2, numberBits_value _ h, padded_length]

theorem holds_seen {s : State} (h : s.code < s.build.full) (c : Coded) :
    Holds s.build (seenBits s) c ↔ CodeWithin s c := by
  unfold Holds CodeWithin
  rw [seenBits_value h]

/-- A decoder follows its own coder on the stream it sees. -/
theorem follows_seen {s : State} (h : s.code < s.build.full) : Follows (seenBits s) s (coded s) := by
  refine ⟨rfl, rfl, ?_, ?_⟩
  · have := seenBits_value h 0
    simp only [padded, List.take_zero, List.nil_append, Nat.zero_sub, List.replicate_zero, bitsValue, List.foldl_nil,
      Nat.pow_zero, Nat.mul_one, Nat.add_zero] at this
    exact this.symm
  · exact (List.drop_left' (numberBits_length s.build.width s.code)).symm

/-- The path by which CODE stays in the range is a decoder's only one. -/
theorem code_path_unique {s : State} (h : DecodeOpen s) {u v : Nat} (hu : u < 257) (hv : v < 257)
    {l l' : List Interval} (hp : DecodePath s u (descentOrders s) l) (hp' : DecodePath s v (descentOrders s) l')
    (h1 : CodeWithin s ((coded s).run s.build l)) (h2 : CodeWithin s ((coded s).run s.build l')) : u = v ∧ l = l' :=
  path_unique h.coder.legal h.model.tables hu hv (descentOrders s) (c := coded s) ⟨h.coder.norm, h.coder.high⟩ hp hp'
    ((holds_seen h.coder.code _).mpr h1) ((holds_seen h.coder.code _).mpr h2)

/-- DEC_SYMBOL stops at the source only where what is left to read is short of the path CODE selects (R206). -/
theorem decSymbolBody_short {s : State} (h : DecodeOpen s) {sym : Nat} (hs : sym < 257) {l : List Interval}
    (hp : DecodePath s sym (descentOrders s) l) (hw : CodeWithin s ((coded s).run s.build l)) :
    (decSymbolBody s).Post (fun _ _ => True)
      (fun c _ => c = .sourceFail → ShortOf s ((coded s).run s.build l))
      (fun _ _ => ShortOf s ((coded s).run s.build l)) := by
  unfold decSymbolBody ppmDecode
  refine ((ppmDecodeFrom_post (descentOrders s) h.coder h.model.tables).and
    (ppmDecodeFrom_short hs (descentOrders s) h.coder h.model.tables (follows_seen h.coder.code) hp
      ((holds_seen h.coder.code _).mpr hw))).andThen ?_ (fun _ _ k _ => k.2.2) (fun _ _ k => k.2.2)
  rintro x t ⟨⟨-, hr, l', -, hdec⟩, -⟩
  obtain ⟨bits, -, hread, -⟩ := hdec.reads
  unfold learnDecoded
  split
  · refine (learn_post (BitVec.ofNat 8 x) hr.legal (hread.only.modelOk h.model)).andThen (fun _ _ _ => trivial) ?_ ?_
    · rintro c u ⟨e, -⟩ e'; rw [e] at e'; cases e'
    · exact fun q u k => k.elim
  · trivial

theorem sourceBytes_map (l : List Byte) : sourceBytes (l.map .byte) = l := by
  induction l with
  | nil => rfl
  | cons x l ih => simp [sourceBytes, ih]

/-- CODE and the bits after it always select a symbol (R130, R153): a source that ended where this one stops would let
the decoder run. -/
theorem code_path_exists {s : State} (h : DecodeOpen s) : ∃ sym < 257, ∃ l,
    DecodePath s sym (descentOrders s) l ∧ CodeWithin s ((coded s).run s.build l) := by
  obtain ⟨u, hu⟩ : ∃ u : State, u = { s with
    env := { s.env with source := (sourceBytes s.env.source).map .byte } } := ⟨_, rfl⟩
  have hbits : unreadBits u = unreadBits s := by rw [hu]; unfold unreadBits; simp only [sourceBytes_map]
  have hno : ∀ a, ¬ SourceStops a u := by
    intro a m
    have key : ∀ l : List Byte, stopAnswer (l.map .byte) = none := by
      intro l; induction l with
      | nil => rfl
      | cons x l ih => exact ih
    have := m.2
    rw [hu] at this
    simp only [key] at this
    cases this
  have hr : DecReady u := by rw [hu]; exact ⟨⟨h.coder.legal, h.coder.norm, h.coder.high⟩, h.coder.inN, h.coder.codeLow,
    h.coder.codeHigh⟩
  have P := ppmDecodeFrom_post (descentOrders s) hr (by rw [hu]; exact h.model.tables)
  cases e : ppmDecodeFrom (descentOrders s) u with
  | ok sym t =>
    obtain ⟨hs, hrt, l, hp, hd⟩ := P.of_ok e
    have hw := hd.decodedTo.within hrt.codeLow hrt.codeHigh
    refine ⟨sym, hs, l, (DecodePath_congr (by rw [hu]) (by rw [hu]) sym _ l).mp hp, ?_⟩
    unfold CodeWithin at hw ⊢
    rw [hbits] at hw
    rw [hu] at hw
    exact hw
  | raised c t => exact absurd (P.of_raised e).cause.2 (hno _)
  | waiting q t => exact absurd (P.of_waiting e).2 (hno _)

end Sys2Proof.Machine
end

