-- ==== Sys2Proof/Laws/PerInstr.lean ====
section
/-! SUPPORT. A fact about every command, one lemma per constructor: the word of a command carries its opcode in
bits 31 to 24 (30_encoding.md R80, R86). -/

namespace Sys2Proof.Laws.EncodeOpc

/-- The high byte of the command's word is the opcode of R86. -/
def Statement (i : Instr) : Prop := opcOf (encode i) = opcode i

/-- The high byte of an appended word. -/
theorem opc_append (o : BitVec 8) (m : BitVec 24) : opcOf (o ++ m) = o := by
  unfold opcOf
  apply BitVec.eq_of_toNat_eq
  have ho := o.isLt
  have hm := m.isLt
  rw [BitVec.extractLsb'_toNat, BitVec.toNat_append, ← Nat.shiftLeft_add_eq_or_of_lt hm, Nat.shiftLeft_eq,
    Nat.shiftRight_eq_div_pow]
  omega

theorem encStart (order : Int) (alpha : Nat) (rawf : Bool) : Statement (.encStart order alpha rawf) := opc_append _ _
theorem decStart (order : Int) (alpha : Nat) (rawf : Bool) : Statement (.decStart order alpha rawf) := opc_append _ _
theorem encByte (b : Byte) : Statement (.encByte b) := opc_append _ _
theorem encFinish : Statement .encFinish := opc_append _ _
theorem decSymbol : Statement .decSymbol := opc_append _ _
theorem rawEnc : Statement .rawEnc := opc_append _ _
theorem rawDecTarget : Statement .rawDecTarget := opc_append _ _
theorem rawDecApply : Statement .rawDecApply := opc_append _ _
theorem rawDecEnd : Statement .rawDecEnd := opc_append _ _
theorem abort (imm : BitVec 24) : Statement (.abort imm) := opc_append _ _

end Sys2Proof.Laws.EncodeOpc
end

