-- ==== Sys2Proof/Laws/Step.lean ====
section
/-! SUPPORT. What arrives from outside, and a step, do to the invariant (20_memory.md R61 to R65, 70_reset_and_hazards.md
R270). -/

namespace Sys2Proof.Machine

/-! ## Host accesses touch only the host's side -/

/-- `t` is `s` but for ARG0 to ARG2, CMD_DROPPED and the outside world. -/
def HostOnly (s t : State) : Prop :=
  t = { s with arg0 := t.arg0, arg1 := t.arg1, arg2 := t.arg2, cmdDropped := t.cmdDropped, env := t.env }

theorem HostOnly.trans {s t u : State} (h : HostOnly s t) (k : HostOnly t u) : HostOnly s u := by
  unfold HostOnly at *; rw [k, h]

theorem HostOnly.inv {s t : State} (h : HostOnly s t) (k : Inv s) : Inv t := by
  unfold HostOnly at h
  rw [h]
  exact ⟨k.legal, ⟨k.fit.low, k.fit.high, k.fit.code, k.fit.pending, k.fit.outN, k.fit.inN, k.fit.orderLow,
    k.fit.orderHigh⟩, k.model.of_eq rfl rfl rfl rfl rfl,
    ⟨k.session.encode, k.session.decode, k.session.rawOrder, k.session.waitBusy, k.session.resetIdle⟩⟩

theorem logRead_only (v : Word) (s : State) : HostOnly s (logRead v s) := rfl
theorem logFree_only (s : State) : HostOnly s (logFree s) := rfl
theorem dropArrivals_only (rest : List Arrival) (s : State) : HostOnly s (dropArrivals rest s) := rfl

/-- A read while BUSY = 0 changes only the log of reads (R63). -/
theorem idleRead_only (offset : BitVec 8) (bytes : Nat) (s : State) : HostOnly s (idleRead offset bytes s) := by
  unfold idleRead; split <;> rfl

/-- A read while BUSY = 1 changes only the log of reads and the draws (R63, R65). -/
theorem busyRead_only (st : SessionState) (offset : BitVec 8) (bytes : Nat) (s : State) :
    HostOnly s (busyRead st offset bytes s) := by
  unfold busyRead; split <;> rfl

/-- A write while BUSY = 1 changes only CMD_DROPPED (R64). -/
theorem busyWrite_only (offset : BitVec 8) (bytes : Nat) (s : State) : HostOnly s (busyWrite offset bytes s) := by
  unfold busyWrite; split <;> rfl

theorem busyAccess_only (st : SessionState) (a : Access) (s : State) : HostOnly s (busyAccess st a s) := by
  cases a with
  | read o b => exact busyRead_only st o b s
  | write o b v => exact busyWrite_only o b s

/-- A write while BUSY = 0 accepts a command or stays on the host's side (R61 to R63, R200). -/
theorem idleWrite_cases (offset : BitVec 8) (bytes : Nat) (v : Word) (s : State) :
    idleWrite offset bytes v s = { s with pendingCmd := some v } ∨ HostOnly s (idleWrite offset bytes v s) := by
  unfold idleWrite
  split
  · left; rfl
  all_goals right; rfl

theorem landLate_only (st : SessionState) (l : List Arrival) (s : State) : HostOnly s (landLate st l s) := by
  induction l generalizing s with
  | nil => rfl
  | cons a rest ih =>
    cases a with
    | access a l =>
      cases l with
      | asBusyEnds => exact ((dropArrivals_only rest s).trans (busyAccess_only st a _)).trans (ih _)
      | whenIdle => rfl
      | whileBusy => rfl
    | assertReset => rfl
    | releaseReset => rfl
    | connectSource _ => rfl
    | connectSink _ => rfl

theorem landLate_cmd (st : SessionState) (l : List Arrival) (s : State) :
    (landLate st l s).pendingCmd = s.pendingCmd := by
  have h := landLate_only st l s
  unfold HostOnly at h; rw [h]

/-! ## Reset -/

/-- The reset values of R43 are in order for every build R9 to R12 allow, whatever the reset input and the outside
world (R270). -/
theorem resetOf_ok {b : Build} (hb : b.legal = true) (r : Bool) (e : Env) :
    Inv { State.resetOf b with inReset := r, env := e } := by
  have hq := full_eq hb
  have hq' := quarter_ge hb
  have hm := mask_eq b
  refine ⟨hb, ⟨?_, ?_, ?_, Nat.zero_le _, Nat.zero_le _, Nat.zero_le _, ?_, ?_⟩,
    ⟨rfl, ?_, ?_, ?_, rfl, ?_, ?_⟩, ⟨?_, ?_, fun _ => rfl, ?_, fun _ => rfl⟩⟩
  · simp only [State.resetOf]; omega
  · simp only [State.resetOf]; omega
  · simp only [State.resetOf]; omega
  · simp [State.resetOf]
  · simp only [State.resetOf]; omega
  · intro k n hk; simp [State.resetOf, storeGet] at hk
  · intro k t hk; simp [State.resetOf, storeGet] at hk
  · intro k hk; simp [State.resetOf, storeGet] at hk
  · intro c _; exact Nat.zero_le _
  · simp [State.resetOf]
  · intro _ e; simp [State.resetOf] at e
  · intro _ e; simp [State.resetOf] at e
  · intro e; exact absurd rfl e

theorem assertReset_inv {s : State} (h : Inv s) : Inv (assertReset s) := resetOf_ok h.legal true _

theorem releaseReset_inv {s : State} (k : Inv s) : Inv (releaseReset s) :=
  ⟨k.legal, ⟨k.fit.low, k.fit.high, k.fit.code, k.fit.pending, k.fit.outN, k.fit.inN, k.fit.orderLow,
    k.fit.orderHigh⟩, k.model.of_eq rfl rfl rfl rfl rfl,
    ⟨k.session.encode, k.session.decode, k.session.rawOrder, k.session.waitBusy,
      fun e => absurd e (by simp [releaseReset])⟩⟩

/-! ## Arrivals -/

theorem landAccess_inv {s : State} (k : Inv s) (hr : s.inReset = false) (a : Access) : Inv (landAccess a s) := by
  unfold landAccess
  split
  · exact (busyAccess_only _ a s).inv k
  · unfold idleAccess
    split
    · exact (idleRead_only _ _ s).inv k
    · next o b v =>
      rcases idleWrite_cases o b v s with e | e
      · rw [e]
        exact ⟨k.legal, ⟨k.fit.low, k.fit.high, k.fit.code, k.fit.pending, k.fit.outN, k.fit.inN, k.fit.orderLow,
          k.fit.orderHigh⟩, k.model.of_eq rfl rfl rfl rfl rfl,
          ⟨k.session.encode, k.session.decode, k.session.rawOrder, fun _ => by simp,
            fun e => absurd e (by simp [hr])⟩⟩
      · exact e.inv k

theorem land_inv {s : State} (k : Inv s) (a : Arrival) : Inv (land a s) := by
  unfold land
  split
  · split
    · exact k
    · next a l hr => exact landAccess_inv k (by simpa using hr) a
  · exact assertReset_inv k
  · exact releaseReset_inv k
  · exact HostOnly.inv rfl k
  · exact HostOnly.inv rfl k

/-- What one step can be: an arrival that lands, nothing, or the run of the command in flight and then the accesses
that land as BUSY falls. -/
theorem step_cases {s t : State} (h : step s = .next t) :
    (∃ a rest, s.env.arrivals = a :: rest ∧ t = land a (dropArrivals rest s)) ∨
    (s.pendingCmd = none ∧ t = s) ∨
    (∃ w u, s.pendingCmd = some w ∧ s.portWait = none ∧ runWord w s = .next u ∧ HostOnly u t) := by
  unfold step at h
  split at h
  · next a rest hn =>
    cases h
    unfold nextArrival at hn
    split at hn
    · cases hn
    · next x l hx =>
      split at hn
      · cases hn; exact Or.inl ⟨_, _, hx, rfl⟩
      · cases hn
  · unfold coreMove at h
    split at h
    · next hp => cases h; exact Or.inr (Or.inl ⟨hp, rfl⟩)
    · next w hp =>
      split at h
      · cases h
      · next hw =>
        refine Or.inr (Or.inr ?_)
        cases hu : runWord w s with
        | next u =>
          refine ⟨w, u, hp, hw, hu, ?_⟩
          rw [hu] at h
          unfold afterCommand at h
          dsimp only at h
          split at h
          · cases h; rfl
          · cases h; exact landLate_only _ _ _
        | fault f => rw [hu] at h; cases h
        | refused r => rw [hu] at h; cases h

end Sys2Proof.Machine
end

