-- ==== Sys2Proof/Machine/HostProgram.lean ====
section
/-! DEFINITION. Host programs in the syntax of 30_encoding.md R89, as the accesses they make (log 26). -/

namespace Sys2Proof.Machine

/-- The offset of a register (R61). -/
def regOffset : Reg → BitVec 8
  | .id => 0x00#8
  | .cmd => 0x04#8
  | .status => 0x08#8
  | .err => 0x0C#8
  | .result => 0x10#8
  | .arg0 => 0x14#8
  | .arg1 => 0x18#8
  | .arg2 => 0x1C#8
  | .session => 0x20#8
  | .param0 => 0x24#8
  | .param1 => 0x28#8
  | .param2 => 0x2C#8
  | .bitsOut => 0x30#8
  | .bytesOut => 0x34#8
  | .bytesIn => 0x38#8
  | .syms => 0x3C#8
  | .nodes => 0x40#8
  | .dbgLow => 0x44#8
  | .dbgHigh => 0x48#8
  | .dbgCode => 0x4C#8
  | .dbgPending => 0x50#8

/-- A line of a host program: the rows of R89's two tables. -/
inductive Line where
  /-- `WR <reg>, imm` -/
  | wr (r : Reg) (imm : Word)
  /-- `RD <reg>` -/
  | rd (r : Reg)
  /-- `ENC_START order` -/
  | encStart (order : Int)
  /-- `DEC_START order` -/
  | decStart (order : Int)
  | encStartRaw
  | decStartRaw
  /-- `ENC_BYTE b` -/
  | encByte (b : Byte)
  | encFinish
  | decSymbol
  | rawDecTarget
  | rawDecEnd
  | abort
  /-- `WAIT`: the poll of STATUS that reads BUSY = 0; the polls before it are `RD STATUS` lines. -/
  | wait
  /-- `RAW_ENC cl, ch, tot` -/
  | rawEncOf (cl ch tot : Word)
  /-- `RAW_DEC_TARGET tot` -/
  | rawDecTargetOf (tot : Word)
  /-- `RAW_DEC_APPLY cl, ch, tot` -/
  | rawDecApplyOf (cl ch tot : Word)
  deriving DecidableEq, Repr

/-- `WR <reg>, imm` as an access (R89). -/
def writeReg (r : Reg) (imm : Word) : Access := .write (regOffset r) 4 imm

/-- `RD <reg>` as an access (R89). -/
def readReg (r : Reg) : Access := .read (regOffset r) 4

/-- The word of a PPM start: the opcode, 0x10100 and zext_8(order) (R89). -/
def startWord (opc : Word) (order : Int) : Word := opc ||| 0x10100#32 ||| BitVec.setWidth 32 (BitVec.ofInt 8 order)

/-- The accesses of a line, in order (R89). -/
def Line.accesses : Line → List Access
  | .wr r imm => [writeReg r imm]
  | .rd r => [readReg r]
  | .encStart order => [writeReg .cmd (startWord 0x01000000#32 order)]
  | .decStart order => [writeReg .cmd (startWord 0x02000000#32 order)]
  | .encStartRaw => [writeReg .cmd 0x01020000#32]
  | .decStartRaw => [writeReg .cmd 0x02020000#32]
  | .encByte b => [writeReg .cmd (0x03000000#32 ||| BitVec.setWidth 32 b)]
  | .encFinish => [writeReg .cmd 0x04000000#32]
  | .decSymbol => [writeReg .cmd 0x05000000#32]
  | .rawDecTarget => [writeReg .cmd 0x07000000#32]
  | .rawDecEnd => [writeReg .cmd 0x09000000#32]
  | .abort => [writeReg .cmd 0x0F000000#32]
  | .wait => [readReg .status]
  | .rawEncOf cl ch tot => [writeReg .arg0 cl, writeReg .arg1 ch, writeReg .arg2 tot, writeReg .cmd 0x06000000#32]
  | .rawDecTargetOf tot => [writeReg .arg2 tot, writeReg .cmd 0x07000000#32]
  | .rawDecApplyOf cl ch tot =>
    [writeReg .arg0 cl, writeReg .arg1 ch, writeReg .arg2 tot, writeReg .cmd 0x08000000#32]

/-- A program as arrivals: each line with when its accesses reach the block, should a command be in flight; those of
`WAIT` wait for BUSY = 0. `<command>!` is the command's line and then `WAIT` (R89). -/
def programArrivals (p : List (Line × Landing)) : List Arrival :=
  p.flatMap fun x => x.1.accesses.map fun a => .access a (if x.1 = .wait then .whenIdle else x.2)

end Sys2Proof.Machine
end

