-- ==== Sys2Proof/Tests/Slice0.lean ====
section
/-! SUPPORT. Tests against the words of 30_encoding.md and the vectors of 95_test_vectors.md, and a witness for the
hypotheses of each statement. The expected values are the spec's. -/

namespace Sys2Proof.Machine.Test

-- Many small kernel evaluations: one after another, each in no thread of its own.
set_option Elab.async false

/-! ## Well-formedness refuses what has no encoding (R81) -/

theorem test_order_above_field : (Instr.encStart 128 257 false).wellFormed = false := by decide
theorem test_order_below_field : (Instr.decStart (-129) 257 false).wellFormed = false := by decide
theorem test_alpha_above_field : (Instr.encStart 2 512 false).wellFormed = false := by decide
theorem test_alpha_above_field_dec : (Instr.decStart 2 512 true).wellFormed = false := by decide

/-! ## Words written out field by field (R80 to R86): OPC, reserved, RAWF, ALPHA, ORDER -/

theorem test_decode_enc_start :
    decode (0b00000001#8 ++ 0b000000#6 ++ 0b0#1 ++ 0b100000001#9 ++ 0b00000010#8) = .ok (.encStart 2 257 false) := by
  decide
theorem test_decode_enc_start_raw :
    decode (0b00000001#8 ++ 0b000000#6 ++ 0b1#1 ++ 0b000000000#9 ++ 0b00000000#8) = .ok (.encStart 0 0 true) := by
  decide
theorem test_decode_dec_start :
    decode (0b00000010#8 ++ 0b000000#6 ++ 0b0#1 ++ 0b100000001#9 ++ 0b11111111#8) = .ok (.decStart (-1) 257 false) := by
  decide
theorem test_decode_enc_byte :
    decode (0b00000011#8 ++ 0b0000000000000000#16 ++ 0b10000001#8) = .ok (.encByte 0x81#8) := by decide
theorem test_decode_enc_finish : decode (0b00000100#8 ++ 0#24) = .ok .encFinish := by decide
theorem test_decode_dec_symbol : decode (0b00000101#8 ++ 0#24) = .ok .decSymbol := by decide
theorem test_decode_raw_enc : decode (0b00000110#8 ++ 0#24) = .ok .rawEnc := by decide
theorem test_decode_raw_dec_target : decode (0b00000111#8 ++ 0#24) = .ok .rawDecTarget := by decide
theorem test_decode_raw_dec_apply : decode (0b00001000#8 ++ 0#24) = .ok .rawDecApply := by decide
theorem test_decode_raw_dec_end : decode (0b00001001#8 ++ 0#24) = .ok .rawDecEnd := by decide
theorem test_decode_abort : decode (0b00001111#8 ++ 0x123456#24) = .ok (.abort 0x123456#24) := by decide

/-- R87's rejections: V-CMD-7, V-CMD-8, a format N word with IMM = 1, V-CMD-13's START, the all-zero word. -/
theorem test_decode_rejects :
    decode 0x20000000#32 = .error (.undefinedOpcode 0x20#8) ∧ decode 0x03000141#32 = .error (.reservedBits 0x03#8) ∧
    decode 0x04000001#32 = .error (.reservedBits 0x04#8) ∧ decode 0x01040000#32 = .error (.reservedBits 0x01#8) ∧
    decode 0x00000000#32 = .error (.undefinedOpcode 0x00#8) := by decide

/-! ## Small states -/

/-- The word is accepted and runs in the next step. -/
def inFlight (w : Word) (s : State) : State := { s with pendingCmd := some w }

/-- The state after one step; the reset state where there is none. -/
def after (s : State) : State :=
  match step s with
  | .next t => t
  | _ => State.reset

/-- The state after a command that runs from here. -/
def ran (w : Word) (s : State) : State := after (inFlight w s)

def withSource (l : List SrcAnswer) (s : State) : State := { s with env := { s.env with source := l } }
def withSink (l : List SnkAnswer) (s : State) : State := { s with env := { s.env with sink := l } }
def withArrivals (l : List Arrival) (s : State) : State := { s with env := { s.env with arrivals := l } }

/-- The build of V-AC-20: W = 10, PENDING_WIDTH = 1; T = 258, the only one R10 allows there. -/
def small : Build := { Build.reference with width := 10, threshold := 258, pendingWidth := 1 }

/-- A build whose store holds one context. -/
def tight : Build := { Build.reference with nodeCapacity := some 1 }

/-- ENC_START 2 from reset. -/
def enc2 : State := ran 0x01010102#32 State.reset
/-- ENC_START 0 from reset. -/
def enc0 : State := ran 0x01010100#32 State.reset
/-- ENC_START_RAW from reset, W = 10. -/
def rawEnc10 : State := ran 0x01020000#32 (State.resetOf small)
/-- V-AC-20: RAW_ENC (1,2,3), PENDING = 1 = 2^1 - 1. -/
def rawFull : State := ran 0x06000000#32 (withArgs ⟨1, 2, 3⟩ rawEnc10)
/-- DEC_START 2 on the ABABA stream of V-PPM-1. -/
def dec2 : State := ran 0x02010102#32
  (withSource [.byte 0x41, .byte 0x5F, .byte 0x8A, .byte 0x36, .byte 0x40] State.reset)
/-- DEC_START 2 on the stream of no bytes, V-PPM-1. -/
def decEmpty : State := ran 0x02010102#32 (withSource [.byte 0xFF, .byte 0x40] State.reset)
/-- DEC_START 2 on a source that fails after 32 bits. -/
def decFails : State := ran 0x02010102#32
  (withSource [.byte 0x41, .byte 0x5F, .byte 0x8A, .byte 0x36, .fail] State.reset)
/-- DEC_START_RAW, W = 10, on V-AC-1's stream. -/
def rawDec10 : State := ran 0x02020000#32 (withSource [.byte 0x60] (State.resetOf small))
/-- DEC_START_RAW, W = 10, on a source that fails after two bytes. -/
def rawDecFails : State := ran 0x02020000#32 (withSource [.byte 0x60, .byte 0x00, .fail] (State.resetOf small))
/-- V-CMD-10: ENC_BYTE in IDLE. -/
def failed : State := ran 0x03000041#32 State.reset
/-- A store with no room for ENC_BYTE's second byte: ENC_START 2, ENC_BYTE 0x41, NODE_CAPACITY = 1. -/
def fullStore : State := ran 0x03000041#32 (ran 0x01010102#32 (State.resetOf tight))
/-- DEC_START 2 and one DEC_SYMBOL where the store has room for one context: the stream of "A" at order 2, so EOF is
next; and that of ABABA (V-PPM-1), so a literal is. -/
def fullAtEof : State := ran 0x05000000#32
  (ran 0x02010102#32 (withSource [.byte 0x41, .byte 0xBE, .byte 0x00] (State.resetOf tight)))
def fullAtLiteral : State := ran 0x05000000#32 (ran 0x02010102#32
  (withSource [.byte 0x41, .byte 0x5F, .byte 0x8A, .byte 0x36, .byte 0x40] (State.resetOf tight)))
/-- ENC_FINISH waits on a sink that never answers. -/
def hung : State := ran 0x04000000#32 (withSink [.silent] enc2)

/-! ## One step of each command, on the vectors of 95_test_vectors.md -/

/-- V-CMD-1. -/
theorem test_enc_start_opens :
    regValue .status enc2 = 0x00000001#32 ∧ regValue .session enc2 = 0x00000002#32 ∧ enc2.nodes = 1 := by
  decide +kernel

/-- V-CMD-3. -/
theorem test_enc_start_bad_order : errWord (ran 0x01010104#32 State.reset).err = 0x00010103#32 ∧
    regValue .session (ran 0x01010104#32 State.reset) = 0x000000FF#32 := by decide +kernel

/-- 32 bits of the stream fill CODE. -/
theorem test_dec_start_fills_code : dec2.code = 0x415F8A36 ∧ dec2.bytesIn = 4#32 := by decide +kernel

/-- V-CMD-21. -/
theorem test_dec_start_source_fails :
    errWord (ran 0x02010102#32 (withSource [.fail] State.reset)).err = 0x00020101#32 ∧
    regValue .session (ran 0x02010102#32 (withSource [.fail] State.reset)) = 0x00000102#32 := by decide +kernel

/-- V-CMD-2. -/
theorem test_enc_byte_first :
    (ran 0x03000041#32 enc2).low = 0x5FA05F80 ∧ (ran 0x03000041#32 enc2).high = 0xDF20DEFF ∧
    (ran 0x03000041#32 enc2).bitsOut = 7#32 ∧ regValue .session (ran 0x03000041#32 enc2) = 0x00010002#32 := by
  decide +kernel

/-- V-CMD-10. -/
theorem test_enc_byte_idle : errWord failed.err = 0x00030305#32 := by decide +kernel

/-- V-CMD-22: A fills no byte, so the sink's `Fail` ends the B. -/
theorem test_enc_byte_rejected :
    let s := ran 0x03000041#32 (withSink [.fail] (ran 0x010101FF#32 State.reset))
    let t := ran 0x03000042#32 s
    s.st = .enc ∧ s.bitsOut = 7 ∧ errWord t.err = 0x00030201#32 ∧ t.bitsOut = 8 ∧ t.bytesOut = 0 ∧ t.syms = 1 ∧
      t.low = 0x805EC1FC ∧ t.high = 0x80DDC379 := by decide +kernel

/-- R204 and R245: the byte that finds the store full is coded, and its count at order 0 stays; SYMS and H do not move. -/
theorem test_enc_byte_full_store :
    let t := ran 0x03000042#32 fullStore
    errWord t.err = 0x00030104#32 ∧ t.nodes = 1 ∧ ((storeGet t.store []).map fun c => tableGet c 66) = some 1 ∧
    (storeGet t.store [0x41#8]).isNone = true ∧ t.syms = 1#32 ∧ t.hist = [0x41#8] ∧
    fullStore.bitsOut.toNat < t.bitsOut.toNat := by decide +kernel

/-- P1: the stream of no bytes. -/
theorem test_enc_finish_empty :
    (ran 0x04000000#32 enc2).env.sunk = [0xFF#8, 0x40#8] ∧ (ran 0x04000000#32 enc2).bitsOut = 10#32 ∧
    (ran 0x04000000#32 enc2).low = 0x00FF0000 ∧ (ran 0x04000000#32 enc2).high = 0xFFFFFFFF := by decide +kernel

/-- V-AC-21. -/
theorem test_enc_finish_pending_full : errWord (ran 0x04000000#32 rawFull).err = 0x00040204#32 := by decide +kernel

/-- P1: the end of the stream of no bytes. -/
theorem test_dec_symbol_eof :
    (ran 0x05000000#32 decEmpty).result = 0x100#32 ∧ regValue .status (ran 0x05000000#32 decEmpty) = 0x00000013#32 := by
  decide +kernel

/-- V-PPM-3: the first symbol. -/
theorem test_dec_symbol_literal :
    (ran 0x05000000#32 dec2).result = 0x41#32 ∧ (ran 0x05000000#32 dec2).hist = [0x41#8] := by decide +kernel

/-- V-AC-1. -/
theorem test_raw_enc_middle :
    rawFull.low = 0x0AA ∧ rawFull.high = 0x353 ∧ rawFull.pending = 1 ∧ rawFull.bitsOut = 0#32 := by
  decide +kernel

/-- V-AC-13. -/
theorem test_raw_enc_empty_interval :
    errWord (ran 0x06000000#32 (withArgs ⟨0, 0, 3⟩ rawEnc10)).err = 0x00060202#32 := by decide +kernel

/-- V-AC-11. -/
theorem test_raw_dec_target : (ran 0x07000000#32 (withArgs ⟨0, 0, 3⟩ rawDec10)).result = 1#32 := by decide +kernel

/-- R208: a total of 0. -/
theorem test_raw_dec_target_zero :
    errWord (ran 0x07000000#32 (withArgs ⟨0, 0, 0⟩ rawDec10)).err = 0x00070102#32 := by decide +kernel

/-- V-AC-1, decoded. -/
theorem test_raw_dec_apply :
    let t := ran 0x08000000#32 (withArgs ⟨1, 2, 3⟩ rawDec10)
    t.low = 0x0AA ∧ t.high = 0x353 ∧ t.code = 0x100 ∧ t.syms = 1#32 := by decide +kernel

/-- V-AC-12. -/
theorem test_raw_dec_apply_outside :
    let t := ran 0x08000000#32 (withArgs ⟨0, 1, 3⟩ rawDec10)
    errWord t.err = 0x00080502#32 ∧ t.low = 0 ∧ t.high = 0x3FF ∧ t.code = 0x180 := by decide +kernel

/-- R210. -/
theorem test_raw_dec_end : (ran 0x09000000#32 rawDec10).st = .done := by decide +kernel

/-- V-CMD-20. -/
theorem test_abort :
    let t := ran 0x0F123456#32 (withArgs ⟨7, 8, 9⟩ (ran 0x03000041#32 enc2))
    regValue .session t = 0x000000FF#32 ∧ t.st = .idle ∧ t.high = 0xFFFFFFFF ∧ t.arg0 = 7#32 ∧ t.arg2 = 9#32 := by
  decide +kernel

/-! ## Tables, streams, window, reset -/

/-- V-FT-7. -/
theorem test_rescale :
    let t : Table := ⟨List.replicate 65 0 ++ [1, 2, 3, 251] ++ List.replicate 187 0 ++ [1]⟩
    let u := tableIncrement 258 t 68
    tableGet u 65 = 1 ∧ tableGet u 66 = 1 ∧ tableGet u 67 = 1 ∧ tableGet u 68 = 126 ∧ tableTotal u = 130 := by
  decide +kernel

/-- V-FT-2. -/
theorem test_uniform :
    tableLow uniformTable 65 = 65 ∧ tableTotal uniformTable = 257 ∧ tableFind uniformTable 200 = some 200 := by
  decide +kernel

/-- V-RST-1: STATUS, SESSION, DBG_HIGH and the parameters after reset. -/
theorem test_reset_registers :
    regValue .status State.reset = 0#32 ∧ regValue .session State.reset = 0x000000FF#32 ∧
    regValue .dbgHigh State.reset = 0xFFFFFFFF#32 ∧ regValue .param0 State.reset = 0x00032020#32 ∧
    regValue .param1 State.reset = 0x00010000#32 ∧ regValue .param2 State.reset = 0#32 := by decide +kernel

/-- V-CMD-25: a CMD write while BUSY = 1 is dropped. -/
theorem test_write_while_busy :
    let s := withArrivals [.access (.write 0x04 4 0x0F000000#32) .whileBusy] (inFlight 0x04000000#32 enc2)
    (after s).cmdDropped = true ∧ (after s).pendingCmd = some 0x04000000#32 := by decide +kernel

/-- R89 and R90: lines of a host program are the accesses their table says. -/
theorem test_host_program :
    (Line.encStart (-1)).accesses = [.write 0x04 4 0x010101FF#32] ∧
    (Line.decStart 2).accesses = [.write 0x04 4 0x02010102#32] ∧
    (Line.encByte 0x41).accesses = [.write 0x04 4 0x03000041#32] ∧
    (Line.rawEncOf 1 2 3).accesses =
      [.write 0x14 4 1, .write 0x18 4 2, .write 0x1C 4 3, .write 0x04 4 0x06000000#32] := by decide

/-- The offsets of the lines are those of the map of R61. -/
theorem test_reg_offsets : regAt (regOffset .id) = some .id ∧ regAt (regOffset .dbgPending) = some .dbgPending := by
  decide

/-! ## What the witnesses share -/

/-- A closed outcome is a next state of which `p` holds. -/
theorem next_of {o : Host.Outcome State Fault Refusal} (p : State → Prop) [DecidablePred p]
    (h : (match o with | .next t => decide (p t) | _ => false) = true) : ∃ t, o = .next t ∧ p t := by
  split at h
  · exact ⟨_, rfl, of_decide_eq_true h⟩
  · exact absurd h (by decide)

/-- A word may be put in flight wherever the invariant holds and reset is not asserted. -/
theorem inFlight_inv {s : State} (h : Inv s) (hr : s.inReset = false) (w : Word) : Inv (inFlight w s) :=
  ⟨h.legal, ⟨h.fit.low, h.fit.high, h.fit.code, h.fit.pending, h.fit.outN, h.fit.inN, h.fit.orderLow,
    h.fit.orderHigh⟩, h.model.of_eq rfl rfl rfl rfl rfl,
    ⟨h.session.encode, h.session.decode, h.session.rawOrder, fun _ => by simp [inFlight],
      fun e => absurd e (by simp [inFlight, hr])⟩⟩

theorem mayRun_of {s : State} (h : Inv s) (hr : s.inReset = false) (hw : s.portWait = none) (w : Word) :
    MayRun (inFlight w s) :=
  ⟨inFlight_inv h hr w, by simp [inFlight], hw⟩

theorem ran_inv {s : State} {w : Word} {i : Instr} (h : Inv s) (hr : s.inReset = false) (hw : s.portWait = none)
    (hd : decode w = .ok i) : Inv (ran w s) := by
  unfold ran after
  split
  · next t ht =>
    rcases step_cases ht with ⟨a, rest, -, rfl⟩ | ⟨e, -⟩ | ⟨v, u, e, -, hu, hk⟩
    · exact land_inv ((dropArrivals_only _ _).inv (inFlight_inv h hr w)) a
    · cases e
    · cases e
      obtain ⟨t', ht', hrun⟩ := exec_run (mayRun_of h hr hw w) i
      simp only [runWord, hd, ht', Host.Outcome.next.injEq] at hu
      exact hk.inv (hu ▸ hrun.inv)
  · exact resetOf_ok (b := .reference) (by decide) false .initial

theorem withSource_inv {s : State} (h : Inv s) (l : List SrcAnswer) : Inv (withSource l s) :=
  HostOnly.inv (s := s) rfl h
theorem withSink_inv {s : State} (h : Inv s) (l : List SnkAnswer) : Inv (withSink l s) := HostOnly.inv (s := s) rfl h
theorem withArrivals_inv {s : State} (h : Inv s) (l : List Arrival) : Inv (withArrivals l s) :=
  HostOnly.inv (s := s) rfl h
theorem withArgs_inv {s : State} (h : Inv s) (i : Interval) : Inv (withArgs i s) := HostOnly.inv (s := s) rfl h

theorem reset_inv : Inv State.reset := resetOf_ok (b := .reference) (by decide) false .initial
theorem small_inv : Inv (State.resetOf small) := resetOf_ok (b := small) (by decide) false .initial
theorem tight_inv : Inv (State.resetOf tight) := resetOf_ok (b := tight) (by decide) false .initial
theorem enc2_inv : Inv enc2 := ran_inv reset_inv rfl rfl rfl
theorem enc0_inv : Inv enc0 := ran_inv reset_inv rfl rfl rfl
theorem rawEnc10_inv : Inv rawEnc10 := ran_inv small_inv rfl rfl rfl
theorem rawFull_inv : Inv rawFull := ran_inv (withArgs_inv rawEnc10_inv _) (by decide +kernel) (by decide +kernel) rfl
theorem dec2_inv : Inv dec2 := ran_inv (withSource_inv reset_inv _) rfl rfl rfl
theorem decEmpty_inv : Inv decEmpty := ran_inv (withSource_inv reset_inv _) rfl rfl rfl
theorem decFails_inv : Inv decFails := ran_inv (withSource_inv reset_inv _) rfl rfl rfl
theorem rawDec10_inv : Inv rawDec10 := ran_inv (withSource_inv small_inv _) rfl rfl rfl
theorem rawDecFails_inv : Inv rawDecFails := ran_inv (withSource_inv small_inv _) rfl rfl rfl
theorem failed_inv : Inv failed := ran_inv reset_inv rfl rfl rfl
theorem fullStore_inv : Inv fullStore :=
  ran_inv (ran_inv tight_inv rfl rfl rfl) (by decide +kernel) (by decide +kernel) rfl
theorem fullAtEof_inv : Inv fullAtEof :=
  ran_inv (ran_inv (withSource_inv tight_inv _) rfl rfl rfl) (by decide +kernel) (by decide +kernel) rfl
theorem fullAtLiteral_inv : Inv fullAtLiteral :=
  ran_inv (ran_inv (withSource_inv tight_inv _) rfl rfl rfl) (by decide +kernel) (by decide +kernel) rfl
theorem hung_inv : Inv hung := ran_inv (withSink_inv enc2_inv _) (by decide +kernel) (by decide +kernel) rfl

/-- The word is in flight in a state of a session and may run. -/
theorem enc2_run (w : Word) : MayRun (inFlight w enc2) := mayRun_of enc2_inv (by decide +kernel) (by decide +kernel) w
theorem dec2_run (w : Word) : MayRun (inFlight w dec2) := mayRun_of dec2_inv (by decide +kernel) (by decide +kernel) w
theorem decEmpty_run (w : Word) : MayRun (inFlight w decEmpty) :=
  mayRun_of decEmpty_inv (by decide +kernel) (by decide +kernel) w
theorem decFails_run (w : Word) : MayRun (inFlight w decFails) :=
  mayRun_of decFails_inv (by decide +kernel) (by decide +kernel) w
theorem fullAtEof_run (w : Word) : MayRun (inFlight w fullAtEof) :=
  mayRun_of fullAtEof_inv (by decide +kernel) (by decide +kernel) w
theorem fullAtLiteral_run (w : Word) : MayRun (inFlight w fullAtLiteral) :=
  mayRun_of fullAtLiteral_inv (by decide +kernel) (by decide +kernel) w
theorem reset_run (w : Word) : MayRun (inFlight w State.reset) := mayRun_of reset_inv rfl rfl w
theorem failed_run (w : Word) : MayRun (inFlight w failed) :=
  mayRun_of failed_inv (by decide +kernel) (by decide +kernel) w
theorem fullStore_run (w : Word) : MayRun (inFlight w fullStore) :=
  mayRun_of fullStore_inv (by decide +kernel) (by decide +kernel) w
theorem rawEnc10_run (i : Interval) (w : Word) : MayRun (inFlight w (withArgs i rawEnc10)) :=
  mayRun_of (withArgs_inv rawEnc10_inv i) (by show rawEnc10.inReset = false; decide +kernel)
    (by show rawEnc10.portWait = none; decide +kernel) w
theorem rawFull_run (i : Interval) (w : Word) : MayRun (inFlight w (withArgs i rawFull)) :=
  mayRun_of (withArgs_inv rawFull_inv i) (by show rawFull.inReset = false; decide +kernel)
    (by show rawFull.portWait = none; decide +kernel) w
theorem rawDec10_run (i : Interval) (w : Word) : MayRun (inFlight w (withArgs i rawDec10)) :=
  mayRun_of (withArgs_inv rawDec10_inv i) (by show rawDec10.inReset = false; decide +kernel)
    (by show rawDec10.portWait = none; decide +kernel) w
theorem rawDecFails_run (i : Interval) (w : Word) : MayRun (inFlight w (withArgs i rawDecFails)) :=
  mayRun_of (withArgs_inv rawDecFails_inv i) (by show rawDecFails.inReset = false; decide +kernel)
    (by show rawDecFails.portWait = none; decide +kernel) w

/-! ## Witnesses: command words -/

/-- Each clause of DecodingByFormat at the ends of its range. -/
theorem witness_DecodingByFormat :
    (0x0103FFFF#32).toNat / 2 ^ 24 = 0x01 ∧ (0x0103FFFF#32).toNat % 2 ^ 24 / 2 ^ 18 = 0 ∧
    (0x01040000#32).toNat % 2 ^ 24 / 2 ^ 18 ≠ 0 ∧ (0x02FFFFFF#32).toNat / 2 ^ 24 = 0x02 ∧
    (0x030000FF#32).toNat / 2 ^ 24 = 0x03 ∧ (0x03000100#32).toNat % 2 ^ 24 / 2 ^ 8 ≠ 0 ∧
    (0x04000000#32).toNat / 2 ^ 24 = 0x04 ∧ (0x09000001#32).toNat / 2 ^ 24 = 0x09 ∧
    (0x0FFFFFFF#32).toNat / 2 ^ 24 = 0x0F ∧ ¬ definedOpc ((0x00FFFFFF#32).toNat / 2 ^ 24) ∧
    ¬ definedOpc ((0x0A000000#32).toNat / 2 ^ 24) ∧ ¬ definedOpc ((0x0EFFFFFF#32).toNat / 2 ^ 24) ∧
    ¬ definedOpc ((0x10000000#32).toNat / 2 ^ 24) := by
  unfold definedOpc; decide

theorem witness_DecodeOfEncode :
    (Instr.encStart (-128) 511 true).wellFormed = true ∧ (Instr.decStart 127 0 false).wellFormed = true ∧
    (Instr.abort 0xFFFFFF#24).wellFormed = true := by decide

theorem witness_EncodeOfDecode : decode 0x0103FF80#32 = .ok (.encStart (-128) 511 true) := by decide

theorem witness_IllegalWords :
    State.reset.st ≠ .error ∧ ¬ definedOpc ((0x0A000000#32).toNat / 2 ^ 24) ∧
    (definedOpc ((0x09000001#32).toNat / 2 ^ 24) ∧ reservedSet 0x09 ((0x09000001#32).toNat % 2 ^ 24)) ∧
    (definedOpc 0x03 ∧ ¬ reservedSet 0x03 ((0x03000041#32).toNat % 2 ^ 24) ∧
      validIn 0x03 State.reset.st false = false) ∧
    (definedOpc 0x09 ∧ ¬ reservedSet 0x09 0 ∧ validIn 0x09 State.reset.st State.reset.raw = false) ∧
    reservedSet 0x01 0x020001 ∧ ¬ reservedSet 0x0F 0xFFFFFF := by
  unfold definedOpc reservedSet; decide

/-! ## Witnesses: steps, acceptance, the window -/

theorem witness_StepRunsAcceptedWord :
    let s := inFlight 0x01010102#32 State.reset
    s.pendingCmd = some 0x01010102#32 ∧ s.portWait = none ∧ nextArrival s = none ∧ s.env.arrivals = [] ∧
    decode 0x01010102#32 = .ok (.encStart 2 257 false) ∧ decode 0x00000000#32 = .error (.undefinedOpcode 0x00#8) ∧
    decodeTableWord 32 0x01010102 = some (.encStart 2 257 false) := by
  refine ⟨rfl, rfl, rfl, rfl, ?_, ?_, ?_⟩ <;> decide

/-- A CMD write: at BUSY = 0, early in a busy period, late in a wait; and, not yet, of a host that polls first, and late
before the command has run. -/
theorem witness_StepLandsAccess :
    let w : Access := .write 0x04 4 0x01010102#32
    let idle := withArrivals [.access w .whenIdle] State.reset
    let early := withArrivals [.access w .whileBusy] (inFlight 0x04000000#32 enc2)
    let waiting := withArrivals [.access w .asBusyEnds] hung
    let late := withArrivals [.access w .asBusyEnds] (inFlight 0x04000000#32 enc2)
    (idle.inReset = false ∧ idle.busy = false ∧ ∃ t, step idle = .next t ∧ t.pendingCmd = some 0x01010102#32) ∧
    (early.inReset = false ∧ early.busy = true ∧ ∃ t, step early = .next t ∧ t.cmdDropped = true) ∧
    (waiting.inReset = false ∧ waiting.portWait ≠ none ∧ ∃ t, step waiting = .next t ∧ t.cmdDropped = true) ∧
    (late.inReset = false ∧ late.busy = true ∧ late.portWait = none ∧
      ∃ t, step late = .next t ∧ t.st = .done ∧ t.busy = false ∧ t.cmdDropped = true) := by
  refine ⟨⟨rfl, rfl, next_of _ (by decide +kernel)⟩,
    ⟨by decide +kernel, by decide +kernel, next_of _ (by decide +kernel)⟩,
    ⟨by decide +kernel, by decide +kernel, next_of _ (by decide +kernel)⟩,
    by decide +kernel, by decide +kernel, by decide +kernel, next_of _ (by decide +kernel)⟩

/-- The other arrivals, an access in reset, and no arrival. -/
theorem witness_StepTakesArrivals :
    let quiet := assertReset enc2
    (quiet.inReset = true ∧
      ∃ t, step (withArrivals [.access (.write 0x04 4 0x01010102#32) .whenIdle] quiet) = .next t ∧ t = quiet) ∧
    (∃ t, step (withArrivals [.releaseReset] quiet) = .next t ∧ t.inReset = false) ∧
    (after (withArrivals [.connectSource [.fail]] enc2)).env.source = [.fail] ∧
    (after (withArrivals [.connectSink [.fail]] enc2)).env.sink = [.fail] ∧
    (State.reset.env.arrivals = [] ∧ State.reset.pendingCmd = none) :=
  ⟨⟨by decide +kernel, next_of _ (by decide +kernel)⟩, next_of _ (by decide +kernel), by decide +kernel,
    by decide +kernel, rfl, rfl⟩

theorem witness_CommandAcceptance :
    (inFlight 0x04000000#32 enc2).busy = true ∧ State.reset.busy = false ∧
    ∃ t, runWord 0x01010102#32 (inFlight 0x01010102#32 State.reset) = .next t ∧ t.portWait = none ∧ t.st = .enc :=
  ⟨by decide +kernel, rfl, next_of _ (by decide +kernel)⟩

/-- The same state is busy for DroppedWhileBusy and for BusyReads; reset's is the idle one. -/
theorem witness_DroppedWhileBusy :
    (inFlight 0x04000000#32 enc2).busy = true ∧ (0x1C#8) ∈ [0x04#8, 0x14#8, 0x18#8, 0x1C#8] := by decide +kernel

theorem witness_RefusedAccesses :
    (0x02#8).toNat % 4 ≠ 0 ∧ 0x50 < (0x54#8).toNat ∧ 1 ≠ 4 ∧ 0x08#8 ∉ [0x04#8, 0x14#8, 0x18#8, 0x1C#8] := by decide

theorem witness_RegisterMap : Inv State.reset ∧ State.reset.busy = false ∧ State.reset.nodes < 2 ^ 32 :=
  ⟨reset_inv, rfl, by decide⟩

theorem witness_IdleAccesses : State.reset.busy = false := rfl

theorem witness_BusyReads :
    (inFlight 0x04000000#32 enc2).busy = true ∧ State.reset.busy = false ∧ regAt 0x50#8 = some .dbgPending ∧
    (0x50#8) ∉ [0x00#8, 0x08#8, 0x24#8, 0x28#8, 0x2C#8] ∧ regAt 0x00#8 = some .id ∧
    hung.busy = true ∧ hung.portWait ≠ none := by decide +kernel

theorem witness_BuildConstants : ∃ t, step (inFlight 0x01010102#32 State.reset) = .next t ∧ t.st = .enc :=
  next_of _ (by decide +kernel)

/-! ## Witnesses: reset and ports -/

/-- Reset arrives while ENC_FINISH waits on the sink (V-RST-2). -/
theorem witness_ResetLeaves :
    (withArrivals [.assertReset] hung).env.arrivals = .assertReset :: [] ∧ hung.portWait ≠ none ∧
    (assertReset hung).inReset = true := by decide +kernel

theorem witness_SilentPort :
    (withSink [.silent] enc2).env.sink = .silent :: [] ∧ (withSource [.silent] dec2).env.source = .silent :: [] ∧
    hung.pendingCmd = some 0x04000000#32 ∧ hung.portWait = some { request := .snkWrite 0xFF#8, startedIn := .enc } ∧
    Arrival.access (.write 0x04 4 0x0F000000#32) .whileBusy ≠ .assertReset ∧ nextArrival hung = none ∧
    nextArrival (withArrivals [.assertReset] hung) = some (.assertReset, []) := by decide +kernel

/-- The paths are to a literal the root has not seen, by an escape, and to one it has, by an escape all the same. -/
theorem witness_CommandsComplete :
    MayRun (inFlight 0x05000000#32 dec2) ∧ SinkAnswers (inFlight 0x05000000#32 dec2) ∧
    SourceAnswers (inFlight 0x05000000#32 dec2) ∧
    DecodePath dec2 0x41 (descentOrders dec2) [⟨0, 1, 1⟩, ⟨65, 66, 257⟩] ∧
    DecodePath fullAtEof 0x41 (descentOrders fullAtEof) [⟨1, 2, 2⟩, ⟨65, 66, 257⟩] := by
  refine ⟨dec2_run _, by unfold SinkAnswers; decide +kernel, by unfold SourceAnswers; decide +kernel, ?_, ?_⟩
  · rw [show descentOrders dec2 = 1 by decide +kernel]
    unfold DecodePath
    rw [show storeGet dec2.store (dec2.hist.take 0) = some freshTable by decide +kernel]
    refine Or.inr ⟨[⟨65, 66, 257⟩], by decide +kernel, ?_⟩
    unfold DecodePath; decide +kernel
  · rw [show descentOrders fullAtEof = 2 by decide +kernel]
    unfold DecodePath
    rw [show storeGet fullAtEof.store (fullAtEof.hist.take 1) = none by decide +kernel]
    unfold DecodePath
    rw [show storeGet fullAtEof.store (fullAtEof.hist.take 0) = some (tableIncrement 65536 freshTable 0x41) by
      decide +kernel]
    refine Or.inr ⟨[⟨65, 66, 257⟩], by decide +kernel, ?_⟩
    unfold DecodePath; decide +kernel

theorem witness_PortsByDirection :
    (∃ t, exec (.encByte 0x41) (inFlight 0x03000041#32 enc2) = .next t ∧ t.st = .enc) ∧ enc2.st ≠ .dec ∧
    (∃ t, exec .decSymbol (inFlight 0x05000000#32 dec2) = .next t ∧ t.st = .dec) ∧ dec2.st ≠ .enc ∧
    (∃ t, exec (.decStart 2 257 false) (inFlight 0x02010102#32 enc2) = .next t ∧ t.st = .dec) ∧
    MayRun (inFlight 0x03000041#32 enc2) ∧ MayRun (inFlight 0x05000000#32 dec2) ∧
    MayRun (inFlight 0x02010102#32 enc2) :=
  ⟨next_of _ (by decide +kernel), by decide +kernel, next_of _ (by decide +kernel), by decide +kernel,
    next_of _ (by decide +kernel), enc2_run _, dec2_run _, enc2_run _⟩

/-! ## Witnesses: errors -/

/-- An error is recorded by the step, from a state with none; and one is kept, from a state with one. -/
theorem witness_ErrorRecordedIsKept :
    (Inv (inFlight 0x03000041#32 State.reset) ∧ ErrorRecorded (inFlight 0x03000041#32 State.reset) ∧
      ∃ t, step (inFlight 0x03000041#32 State.reset) = .next t ∧ t.st = .error) ∧
    (Inv (inFlight 0x20000000#32 failed) ∧ ErrorRecorded (inFlight 0x20000000#32 failed) ∧
      ∃ t, step (inFlight 0x20000000#32 failed) = .next t ∧ t.st = .error) := by
  refine ⟨⟨(reset_run _).inv, ?_, next_of _ (by decide +kernel)⟩, (failed_run _).inv, ?_, next_of _ (by decide +kernel)⟩
  · unfold ErrorRecorded; rw [if_neg (by decide)]; rfl
  · unfold ErrorRecorded
    rw [if_pos (by decide +kernel)]
    exact ⟨.wrongState, 0x03#8, by decide +kernel⟩

/-- V-CMD-12 and V-CMD-13. -/
theorem witness_ErrorKeepsFirst :
    failed.st = .error ∧ (0x20000000#32).toNat / 2 ^ 24 ∉ [0x01, 0x02, 0x0F] ∧
    (0x01040000#32).toNat / 2 ^ 24 ∈ [0x01, 0x02] ∧ reservedSet 0x01 ((0x01040000#32).toNat % 2 ^ 24) ∧
    reservedSet 0x02 ((0x02020001#32).toNat % 2 ^ 24) := by
  unfold reservedSet; decide +kernel

/-- The ways out of ERROR: reset, ABORT, each START (V-CMD-14). -/
theorem witness_WaysOutOfError :
    (Inv (withArrivals [.assertReset] failed) ∧ (withArrivals [.assertReset] failed).st = .error ∧
      ∃ t, step (withArrivals [.assertReset] failed) = .next t ∧ t.st = .idle) ∧
    Inv (inFlight 0x0F000000#32 failed) ∧ Inv (inFlight 0x01010102#32 failed) ∧
    Inv (inFlight 0x02010102#32 failed) ∧ failed.st = .error ∧
    (∃ t, step (inFlight 0x0F000000#32 failed) = .next t ∧ t.st = .idle) ∧
    (∃ t, step (inFlight 0x01010102#32 failed) = .next t ∧ t.st = .enc) ∧
    (∃ t, step (inFlight 0x02010102#32 failed) = .next t ∧ t.st = .dec) :=
  ⟨⟨withArrivals_inv failed_inv _, by decide +kernel, next_of _ (by decide +kernel)⟩, (failed_run _).inv,
    (failed_run _).inv, (failed_run _).inv, by decide +kernel,
    next_of _ (by decide +kernel), next_of _ (by decide +kernel), next_of _ (by decide +kernel)⟩

/-- A cell of each kind of R212: a transition, ILLEGAL_COMMAND, ignored, a reserved bit outside and in ERROR, and
DEC_SYMBOL's two ends. -/
theorem witness_StateTransitions :
    (∃ t, runWord 0x03000041#32 (inFlight 0x03000041#32 enc2) = .next t ∧ t.portWait = none ∧ t.st = .enc) ∧
    (∃ t, runWord 0x04000000#32 (inFlight 0x04000000#32 State.reset) = .next t ∧ t.portWait = none ∧ t.st = .error) ∧
    (∃ t, runWord 0x20000000#32 (inFlight 0x20000000#32 failed) = .next t ∧ t.portWait = none ∧ t.st = .error) ∧
    (∃ t, runWord 0x01040000#32 (inFlight 0x01040000#32 enc2) = .next t ∧ t.portWait = none ∧ t.st = .error) ∧
    (∃ t, runWord 0x01040000#32 (inFlight 0x01040000#32 failed) = .next t ∧ t.portWait = none ∧ t.st = .error) ∧
    (∃ t, runWord 0x05000000#32 (inFlight 0x05000000#32 dec2) = .next t ∧ t.portWait = none ∧ t.st = .dec) ∧
    (∃ t, runWord 0x05000000#32 (inFlight 0x05000000#32 decEmpty) = .next t ∧ t.portWait = none ∧ t.st = .done) ∧
    MayRun (inFlight 0x03000041#32 enc2) ∧ MayRun (inFlight 0x04000000#32 State.reset) ∧
    MayRun (inFlight 0x20000000#32 failed) ∧ MayRun (inFlight 0x05000000#32 decEmpty) :=
  ⟨next_of _ (by decide +kernel), next_of _ (by decide +kernel), next_of _ (by decide +kernel),
    next_of _ (by decide +kernel), next_of _ (by decide +kernel), next_of _ (by decide +kernel),
    next_of _ (by decide +kernel), enc2_run _, reset_run _, failed_run _, decEmpty_run _⟩

/-- ENC_FINISH at a sink that rejects its first byte. -/
def finishRejected : State := inFlight 0x04000000#32 (withSink [.fail] enc2)

theorem finishRejected_run : MayRun finishRejected :=
  mayRun_of (withSink_inv enc2_inv _) (by decide +kernel) (by decide +kernel) _

/-- V-CMD-22 at order 2: the sink rejects the first byte, which ENC_BYTE's second byte fills. -/
def byteRejected : State := inFlight 0x03000042#32 (withSink [.fail] (ran 0x03000041#32 enc2))

theorem byteRejected_run : MayRun byteRejected :=
  mayRun_of (withSink_inv (ran_inv enc2_inv (by decide +kernel) (by decide +kernel) rfl) _) (by decide +kernel)
    (by decide +kernel) _

theorem witness_PpmErrors :
    (MayRun (inFlight 0x03000042#32 fullStore) ∧ fullStore.st = .enc ∧ fullStore.raw = false ∧
      ∃ t, exec (.encByte 0x42) (inFlight 0x03000042#32 fullStore) = .next t ∧ t.st = .error) ∧
    (MayRun finishRejected ∧ finishRejected.st = .enc ∧ finishRejected.raw = false ∧
      ∃ t, exec .encFinish finishRejected = .next t ∧ t.st = .error) ∧
    (MayRun (inFlight 0x05000000#32 decFails) ∧ decFails.st = .dec ∧ decFails.raw = false ∧
      ∃ t, exec .decSymbol (inFlight 0x05000000#32 decFails) = .next t ∧ t.st = .error) :=
  ⟨⟨fullStore_run _, by decide +kernel, by decide +kernel, next_of _ (by decide +kernel)⟩,
    ⟨finishRejected_run, by decide +kernel, by decide +kernel, next_of _ (by decide +kernel)⟩,
    decFails_run _, by decide +kernel, by decide +kernel, next_of _ (by decide +kernel)⟩

/-! ## Witnesses: the commands -/

/-- The clauses of EncStart and DecStart on the reference build: accepted at both ends of M, a RAW start with and
without operands, an alphabet of 2, orders on either side of the range; outside ERROR and in it. -/
theorem witness_EncStart :
    State.reset.build.legal = true ∧ StartAccepted State.reset.build (-1) 257 false ∧
    StartAccepted State.reset.build 3 257 false ∧ StartAccepted State.reset.build 0 0 true ∧
    ¬ ((1 : Int) = 0 ∧ 0 = 0) ∧ ¬ ((0 : Int) = 0 ∧ 1 = 0) ∧ State.reset.st ≠ .error ∧ failed.st = .error ∧
    ¬ (-1 ≤ (4 : Int) ∧ (4 : Int) ≤ State.reset.build.maxOrder) ∧
    ¬ (-1 ≤ (-2 : Int) ∧ (-2 : Int) ≤ State.reset.build.maxOrder) ∧
    (0x01040000#32).toNat / 2 ^ 24 = 0x01 ∧ (0x01040000#32).toNat / 2 ^ 18 % 2 ^ 6 ≠ 0 := by
  unfold StartAccepted; decide +kernel

theorem witness_DecStart :
    State.reset.build.legal = true ∧ StartAccepted State.reset.build 2 257 false ∧
    SourceReadable (withSource [.byte 0x41] State.reset) ∧ SourceAnswers (withSource [.fail] State.reset) ∧
    (∃ t, exec (.decStart 2 257 false) (withSource [.byte 0x41] State.reset) = .next t ∧ t.st = .dec) ∧
    (∃ t, exec (.decStart 2 257 false) (withSource [.fail] State.reset) = .next t ∧ t.st = .error) :=
  ⟨by decide, by unfold StartAccepted; decide, by unfold SourceReadable; decide, by unfold SourceAnswers; decide,
    next_of _ (by decide +kernel), next_of _ (by decide +kernel)⟩

/-- DEC_START where the source comes to `Fail`, or falls silent, within W bits, and where only after them. -/
theorem witness_DecStartShort :
    8 * (sourceBytes [.byte 0x41, .fail]).length < State.reset.build.width ∧
    stopAnswer [.byte 0x41, .fail] = some .fail ∧ stopAnswer [.byte 0x41, .silent] = some .silent ∧
    stopAnswer [.byte 0x41, .endOfInput, .fail] = none ∧
    stopAnswer [.byte 0x41, .byte 0x5F, .byte 0x8A, .byte 0x36, .fail] = some .fail ∧
    State.reset.build.width ≤ 8 * (sourceBytes [.byte 0x41, .byte 0x5F, .byte 0x8A, .byte 0x36, .fail]).length ∧
    (∃ t, exec (.decStart 2 257 false) (withSource [.byte 0x41, .fail] State.reset) = .next t ∧
      errWord t.err = 0x00020101#32) :=
  ⟨by decide, by decide, by decide, by decide, by decide, by decide, next_of _ (by decide +kernel)⟩

/-- Room in a store without a bound. -/
theorem roomy {s : State} (h : s.build.nodeCapacity = none) : StoreRoom s := fun c e => by rw [h] at e; cases e

/-- Whether PENDING fits, evaluated. -/
def fitsAll (b : Build) : List Interval → Coded → Bool
  | [], _ => true
  | i :: l, c => decide ((c.code b i).pending ≤ b.pendingMax) && fitsAll b l (c.code b i)

theorem fits_iff (b : Build) (l : List Interval) (c : Coded) : PendingFits b l c ↔ fitsAll b l c = true := by
  induction l generalizing c with
  | nil => simp [PendingFits, fitsAll]
  | cons i l ih => simp [PendingFits, fitsAll, ih]

theorem finishFits_iff (s : State) : FinishFits s ↔ fitsAll s.build (finishSteps s) (coded s) = true ∧
    ((coded s).run s.build (finishSteps s)).pending + 1 ≤ s.build.pendingMax := by
  unfold FinishFits; rw [fits_iff]

/-- ENC_BYTE of A where the sink rejects its first byte, which A does not fill (V-CMD-22). -/
def byteBefore : State := inFlight 0x03000041#32 (withSink [.fail] enc2)
/-- W = 10, PENDING_WIDTH = 1, order -1: the interval of 0x80 holds the middle of the range. -/
def bytePending : State := inFlight 0x03000080#32 (ran 0x010101FF#32 (State.resetOf small))
/-- As `byteRejected`, at a sink that falls silent. -/
def byteHangs : State := inFlight 0x03000042#32 (withSink [.silent] (ran 0x03000041#32 enc2))

theorem witness_EncByte :
    (MayRun byteBefore ∧ byteBefore.st = .enc ∧ byteBefore.raw = false ∧
      SinkTakes (filledBytes byteBefore (codingSteps byteBefore 0x41)) byteBefore ∧
      PendingFits byteBefore.build (codingSteps byteBefore 0x41) (coded byteBefore) ∧ StoreRoom byteBefore ∧
      ∃ t, exec (.encByte 0x41) byteBefore = .next t ∧ t.st = .enc) ∧
    (SinkTakes (filledBytes fullStore (codingSteps fullStore 0x42)) fullStore ∧
      PendingFits fullStore.build (codingSteps fullStore 0x42) (coded fullStore) ∧ ¬ StoreRoom fullStore ∧
      ∃ t, exec (.encByte 0x42) (inFlight 0x03000042#32 fullStore) = .next t ∧ errWord t.err = 0x00030104#32) ∧
    (MayRun bytePending ∧ bytePending.st = .enc ∧ bytePending.raw = false ∧
      SinkTakes (filledBytes bytePending (codingSteps bytePending 0x80)) bytePending ∧
      ¬ PendingFits bytePending.build (codingSteps bytePending 0x80) (coded bytePending) ∧
      ∃ t, exec (.encByte 0x80) bytePending = .next t ∧ errWord t.err = 0x00030204#32) ∧
    (MayRun byteRejected ∧ SinkAnswers byteRejected ∧ byteRejected.st = .enc ∧ byteRejected.raw = false ∧
      SinkStops .fail (filledBytes byteRejected (codingSteps byteRejected 0x42)) byteRejected ∧
      ∃ t, exec (.encByte 0x42) byteRejected = .next t ∧ errWord t.err = 0x00030201#32) ∧
    (MayRun byteHangs ∧ SinkStops .silent (filledBytes byteHangs (codingSteps byteHangs 0x42)) byteHangs ∧
      ∃ t, exec (.encByte 0x42) byteHangs = .next t ∧ t.busy = true) := by
  simp only [fits_iff]
  unfold SinkTakes SinkStops SinkTakes
  exact ⟨⟨mayRun_of (withSink_inv enc2_inv _) (by decide +kernel) (by decide +kernel) _, by decide +kernel,
    by decide +kernel, by decide +kernel, by decide +kernel, roomy (by decide +kernel), next_of _ (by decide +kernel)⟩,
    ⟨by decide +kernel, by decide +kernel, fun h => absurd (h 1 (by decide +kernel)) (by decide +kernel),
    next_of _ (by decide +kernel)⟩,
    ⟨mayRun_of (ran_inv small_inv rfl rfl rfl) (by decide +kernel) (by decide +kernel) _, by decide +kernel,
    by decide +kernel, by decide +kernel, by decide +kernel, next_of _ (by decide +kernel)⟩,
    ⟨byteRejected_run, by unfold SinkAnswers; decide +kernel, by decide +kernel, by decide +kernel, by decide +kernel,
    next_of _ (by decide +kernel)⟩,
    mayRun_of (withSink_inv (ran_inv enc2_inv (by decide +kernel) (by decide +kernel) rfl) _) (by decide +kernel)
      (by decide +kernel) _, by decide +kernel, next_of _ (by decide +kernel)⟩

/-- ENC_FINISH of two bytes, FF 40, where the sink rejects the third. -/
def finishBefore : State := inFlight 0x04000000#32 (withSink [.accept, .accept, .fail] enc2)
/-- As `finishRejected`, at a sink that falls silent. -/
def finishHangs : State := inFlight 0x04000000#32 (withSink [.silent] enc2)

/-- PPM ends at FF 40 before the sink fails; RAW ends; PENDING is full (V-AC-21); the sink rejects, or is silent. -/
theorem witness_EncFinish :
    (MayRun finishBefore ∧ finishBefore.st = .enc ∧ SinkTakes (finishBytes finishBefore) finishBefore ∧
      FinishFits finishBefore ∧ ∃ t, exec .encFinish finishBefore = .next t ∧ t.env.sunk = [0xFF, 0x40]) ∧
    (MayRun (inFlight 0x04000000#32 (withArgs ⟨0, 0, 0⟩ rawEnc10)) ∧ rawEnc10.st = .enc ∧
      SinkTakes (finishBytes rawEnc10) rawEnc10 ∧ FinishFits rawEnc10) ∧
    (MayRun (inFlight 0x04000000#32 (withArgs ⟨1, 2, 3⟩ rawFull)) ∧
      SinkTakes (filledBytes rawFull (finishSteps rawFull)) rawFull ∧ ¬ FinishFits rawFull ∧
      ∃ t, exec .encFinish (inFlight 0x04000000#32 (withArgs ⟨1, 2, 3⟩ rawFull)) = .next t ∧
        errWord t.err = 0x00040204#32) ∧
    (MayRun finishRejected ∧ SinkAnswers finishRejected ∧ FinishStops .fail finishRejected ∧
      ∃ t, exec .encFinish finishRejected = .next t ∧ errWord t.err = 0x00040201#32) ∧
    (MayRun finishHangs ∧ FinishStops .silent finishHangs ∧
      ∃ t, exec .encFinish finishHangs = .next t ∧ t.busy = true) := by
  simp only [FinishStops, finishFits_iff]
  unfold SinkTakes SinkStops SinkTakes
  exact ⟨⟨mayRun_of (withSink_inv enc2_inv _) (by decide +kernel) (by decide +kernel) _, by decide +kernel,
    by decide +kernel, by decide +kernel, next_of _ (by decide +kernel)⟩,
    ⟨rawEnc10_run _ _, by decide +kernel, by decide +kernel, by decide +kernel⟩,
    ⟨rawFull_run _ _, by decide +kernel, by decide +kernel, next_of _ (by decide +kernel)⟩,
    ⟨finishRejected_run, by unfold SinkAnswers; decide +kernel, by decide +kernel, next_of _ (by decide +kernel)⟩,
    mayRun_of (withSink_inv enc2_inv _) (by decide +kernel) (by decide +kernel) _, by decide +kernel,
    next_of _ (by decide +kernel)⟩

/-- CODE selects the literal 0x41; EOF where the store is full; a literal there. -/
theorem witness_DecSymbolSelected :
    (CodeWithin (inFlight 0x05000000#32 dec2) ((coded dec2).run dec2.build (codingSteps dec2 0x41)) ∧
      StoreRoom (inFlight 0x05000000#32 dec2)) ∧
    (MayRun (inFlight 0x05000000#32 fullAtEof) ∧ fullAtEof.st = .dec ∧ fullAtEof.raw = false ∧
      ¬ StoreRoom (inFlight 0x05000000#32 fullAtEof) ∧ SourceReadable (inFlight 0x05000000#32 fullAtEof) ∧
      CodeWithin (inFlight 0x05000000#32 fullAtEof)
        ((coded fullAtEof).run fullAtEof.build (codingSteps fullAtEof 256)) ∧
      ∃ t, exec .decSymbol (inFlight 0x05000000#32 fullAtEof) = .next t ∧ t.result = 256#32 ∧ t.st = .done) ∧
    (MayRun (inFlight 0x05000000#32 fullAtLiteral) ∧ SourceAnswers (inFlight 0x05000000#32 fullAtLiteral) ∧
      ∃ t, exec .decSymbol (inFlight 0x05000000#32 fullAtLiteral) = .next t ∧ errWord t.err = 0x00050104#32 ∧
        t.result = 0x41#32) := by
  refine ⟨⟨by unfold CodeWithin; decide +kernel, roomy (by decide +kernel)⟩, ⟨fullAtEof_run _, by decide +kernel,
    by decide +kernel, fun h => absurd (h 1 (by decide +kernel)) (by decide +kernel),
    ⟨by decide +kernel, by decide +kernel⟩, by unfold CodeWithin; decide +kernel, next_of _ (by decide +kernel)⟩,
    fullAtLiteral_run _, by unfold SourceAnswers; decide +kernel, next_of _ (by decide +kernel)⟩

/-- A literal, EOF, and a source that fails. -/
theorem witness_DecSymbol :
    (MayRun (inFlight 0x05000000#32 dec2) ∧ dec2.st = .dec ∧ dec2.raw = false ∧
      SourceReadable (inFlight 0x05000000#32 dec2) ∧ StoreRoom (inFlight 0x05000000#32 dec2) ∧
      ∃ t, exec .decSymbol (inFlight 0x05000000#32 dec2) = .next t ∧ t.result ≠ 256#32) ∧
    (MayRun (inFlight 0x05000000#32 decEmpty) ∧
      ∃ t, exec .decSymbol (inFlight 0x05000000#32 decEmpty) = .next t ∧ t.result = 256#32) ∧
    (MayRun (inFlight 0x05000000#32 decFails) ∧ SourceAnswers (inFlight 0x05000000#32 decFails) ∧
      ∃ t, exec .decSymbol (inFlight 0x05000000#32 decFails) = .next t ∧ t.err.code = .ioFailure) :=
  ⟨⟨dec2_run _, by decide +kernel, by decide +kernel, ⟨by decide +kernel, by decide +kernel⟩, roomy (by decide +kernel),
    next_of _ (by decide +kernel)⟩, ⟨decEmpty_run _, next_of _ (by decide +kernel)⟩, decFails_run _,
    by unfold SourceAnswers; decide +kernel, next_of _ (by decide +kernel)⟩

/-- A source that comes to no stop gives any number of bits. -/
theorem gives_of {s : State} (h : stopAnswer s.env.source = none) (n : Nat) : SourceGives n s := by
  intro a m
  have := m.2
  rw [h] at this
  cases this

/-- The path of 0x41 where the source fails, or falls silent, within its bits; and that of 0x42 where the source gives
them and the store is full. -/
theorem witness_DecSymbolStops :
    (DecodePath decFails 0x41 (descentOrders decFails) (codingSteps decFails 0x41) ∧
      CodeWithin decFails ((coded decFails).run decFails.build (codingSteps decFails 0x41)) ∧
      (unreadBits decFails).length < ((coded decFails).run decFails.build (codingSteps decFails 0x41)).steps ∧
      SourceStops .fail decFails ∧ SourceStops .silent (withSource [.silent] decFails)) ∧
    (DecodePath fullAtLiteral 0x42 (descentOrders fullAtLiteral) (codingSteps fullAtLiteral 0x42) ∧
      CodeWithin fullAtLiteral ((coded fullAtLiteral).run fullAtLiteral.build (codingSteps fullAtLiteral 0x42)) ∧
      SourceGives ((coded fullAtLiteral).run fullAtLiteral.build (codingSteps fullAtLiteral 0x42)).steps fullAtLiteral ∧
      ¬ StoreRoom fullAtLiteral) ∧
    (MayRun (inFlight 0x05000000#32 (withSource [.silent] decFails)) ∧
      ∃ t, exec .decSymbol (inFlight 0x05000000#32 (withSource [.silent] decFails)) = .next t ∧ t.busy = true) := by
  refine ⟨⟨?_, by unfold CodeWithin; decide +kernel, by decide +kernel, by unfold SourceStops; decide +kernel,
    by unfold SourceStops; decide +kernel⟩, ⟨?_, by unfold CodeWithin; decide +kernel, gives_of (by decide +kernel) _,
    fun h => absurd (h 1 (by decide +kernel)) (by decide +kernel)⟩,
    mayRun_of (withSource_inv decFails_inv _) (by decide +kernel) (by decide +kernel) _, next_of _ (by decide +kernel)⟩
  · generalize decFails = s; exact codingSteps_path s 0x41
  · generalize fullAtLiteral = s; exact codingSteps_path s 0x42

/-- The largest total W = 10 allows (V-AC-18), one more (V-AC-19), 0, an empty interval, ch > tot (V-AC-14), and
PENDING past its width (V-AC-22). -/
theorem witness_RawEnc :
    (MayRun (inFlight 0x06000000#32 (withArgs ⟨0, 1, 258⟩ rawEnc10)) ∧ rawEnc10.st = .enc ∧ rawEnc10.raw = true ∧
      258 ≤ rawEnc10.build.quarter + 2 ∧
      SinkTakes (filledBytes rawEnc10 [⟨0, 1, 258⟩]) (withSink [.accept, .fail] rawEnc10) ∧
      PendingFits rawEnc10.build [⟨0, 1, 258⟩] (coded rawEnc10)) ∧
    ¬ (1 ≤ 259 ∧ 259 ≤ rawEnc10.build.quarter + 2) ∧ ¬ (1 ≤ 0 ∧ 0 ≤ rawEnc10.build.quarter + 2) ∧
    ¬ (0 < 0 ∧ 0 ≤ 3) ∧ ¬ (2 < 4 ∧ 4 ≤ 3) ∧
    (MayRun (inFlight 0x06000000#32 (withArgs ⟨1, 2, 3⟩ rawFull)) ∧ SinkAnswers rawFull ∧
      SinkTakes (filledBytes rawFull [⟨1, 2, 3⟩]) rawFull ∧
      ¬ PendingFits rawFull.build [⟨1, 2, 3⟩] (coded rawFull) ∧
      ∃ t, exec .rawEnc (inFlight 0x06000000#32 (withArgs ⟨1, 2, 3⟩ rawFull)) = .next t ∧
        t.err.code = .resourceExhausted) := by
  simp only [fits_iff]
  unfold SinkTakes
  exact ⟨⟨rawEnc10_run _ _, by decide +kernel, by decide +kernel, by decide +kernel, by decide +kernel,
    by decide +kernel⟩, by decide +kernel, by decide +kernel, by decide, by decide,
    rawFull_run _ _, by unfold SinkAnswers; decide +kernel, by decide +kernel, by decide +kernel,
    next_of _ (by decide +kernel)⟩

/-- RAW_ENC of eight bits at a sink that rejects their byte, or falls silent at it. -/
theorem witness_RawEncStops :
    MayRun (inFlight 0x06000000#32 (withSink [.fail] (withArgs ⟨0, 1, 258⟩ rawEnc10))) ∧
    SinkStops .fail (filledBytes rawEnc10 [⟨0, 1, 258⟩]) (withSink [.fail] rawEnc10) ∧
    SinkStops .silent (filledBytes rawEnc10 [⟨0, 1, 258⟩]) (withSink [.silent] rawEnc10) ∧
    (∃ t, exec .rawEnc (inFlight 0x06000000#32 (withSink [.fail] (withArgs ⟨0, 1, 258⟩ rawEnc10))) = .next t ∧
      t.err.code = .ioFailure) := by
  unfold SinkStops SinkTakes
  exact ⟨mayRun_of (withSink_inv (withArgs_inv rawEnc10_inv _) _) (by decide +kernel) (by decide +kernel) _,
    by decide +kernel, by decide +kernel, next_of _ (by decide +kernel)⟩

theorem witness_RawDecTarget :
    MayRun (inFlight 0x07000000#32 (withArgs ⟨0, 0, 3⟩ rawDec10)) ∧ rawDec10.st = .dec ∧ rawDec10.raw = true ∧
    1 ≤ (3#32).toNat ∧ (3#32).toNat ≤ rawDec10.build.quarter + 2 ∧
    ¬ (1 ≤ (259#32).toNat ∧ (259#32).toNat ≤ rawDec10.build.quarter + 2) ∧
    ¬ (1 ≤ (0#32).toNat ∧ (0#32).toNat ≤ rawDec10.build.quarter + 2) :=
  ⟨rawDec10_run _ _, by decide +kernel, by decide +kernel, by decide, by decide +kernel,
    by decide +kernel, by decide +kernel⟩

/-- V-AC-1's interval, V-AC-12's, a bad total, an interval past its total, and a source that fails. The target value
for total 3 is 1 at CODE = 0x180. -/
theorem witness_RawDecApply :
    (MayRun (inFlight 0x08000000#32 (withArgs ⟨1, 2, 3⟩ rawDec10)) ∧ rawDec10.st = .dec ∧ rawDec10.raw = true ∧
      ((rawDec10.code - rawDec10.low + 1) * 3 - 1) / (rawDec10.high - rawDec10.low + 1) = 1 ∧
      SourceReadable (inFlight 0x08000000#32 (withArgs ⟨1, 2, 3⟩ rawDec10))) ∧
    ¬ (1 ≤ 0 ∧ 0 ≤ rawDec10.build.quarter + 2) ∧ ¬ (0 ≤ 1 ∧ 1 < 1) ∧ (1 ≤ 1 ∧ 1 < 4 ∧ 3 < 4) ∧
    (MayRun (inFlight 0x08000000#32 (withArgs ⟨97, 98, 258⟩ rawDecFails)) ∧
      SourceAnswers (inFlight 0x08000000#32 (withArgs ⟨97, 98, 258⟩ rawDecFails)) ∧
      ∃ t, exec .rawDecApply (inFlight 0x08000000#32 (withArgs ⟨97, 98, 258⟩ rawDecFails)) = .next t ∧
        t.err.code = .ioFailure) :=
  ⟨⟨rawDec10_run _ _, by decide +kernel, by decide +kernel, by decide +kernel, ⟨by decide +kernel, by decide +kernel⟩⟩,
    by decide +kernel, by decide, by decide, rawDecFails_run _ _, by unfold SourceAnswers; decide +kernel,
    next_of _ (by decide +kernel)⟩

/-- Where the source gives the bits of the step, and where it comes to `Fail` or silence within them. The target value
for total 258 is 97 at CODE = 0x180. -/
theorem witness_RawDecApplyShort :
    SourceGives ((coded rawDec10).code rawDec10.build ⟨1, 2, 3⟩).steps rawDec10 ∧
    ((rawDecFails.code - rawDecFails.low + 1) * 258 - 1) / (rawDecFails.high - rawDecFails.low + 1) = 97 ∧
    258 ≤ rawDecFails.build.quarter + 2 ∧
    (unreadBits rawDecFails).length < ((coded rawDecFails).code rawDecFails.build ⟨97, 98, 258⟩).steps ∧
    SourceStops .fail rawDecFails ∧ SourceStops .silent (withSource [.silent] rawDecFails) :=
  ⟨gives_of (by decide +kernel) _, by decide +kernel, by decide +kernel, by decide +kernel,
    by unfold SourceStops; decide +kernel, by unfold SourceStops; decide +kernel⟩

theorem witness_RawDecEnd : rawDec10.st = .dec ∧ rawDec10.raw = true := by decide +kernel

/-! ## Witnesses: frames -/

/-- Each command of R213 completes somewhere; the states are those of the command tests. -/
theorem witness_Footprints :
    (∃ t, exec (.encByte 0x41) (inFlight 0x03000041#32 enc2) = .next t ∧ t.st = .enc) ∧
    (∃ t, exec .encFinish (inFlight 0x04000000#32 enc2) = .next t ∧ t.st = .done) ∧
    (∃ t, exec .decSymbol (inFlight 0x05000000#32 dec2) = .next t ∧ t.st = .dec) ∧
    (∃ t, exec .rawEnc (inFlight 0x06000000#32 (withArgs ⟨1, 2, 3⟩ rawEnc10)) = .next t ∧ t.st = .enc) ∧
    (∃ t, exec .rawDecTarget (inFlight 0x07000000#32 (withArgs ⟨1, 2, 3⟩ rawDec10)) = .next t ∧ t.st = .dec) ∧
    (∃ t, exec .rawDecApply (inFlight 0x08000000#32 (withArgs ⟨1, 2, 3⟩ rawDec10)) = .next t ∧ t.st = .dec) ∧
    (∃ t, exec .rawDecEnd (inFlight 0x09000000#32 (withArgs ⟨1, 2, 3⟩ rawDec10)) = .next t ∧ t.st = .done) ∧
    (∃ t, exec (.encStart 2 257 false) (inFlight 0x01010102#32 State.reset) = .next t ∧ t.st = .enc) ∧
    (∃ t, exec (.decStart 2 257 false) (inFlight 0x02010102#32 State.reset) = .next t ∧ t.st = .dec) ∧
    (∃ t, exec (.abort 0) (inFlight 0x0F000000#32 enc2) = .next t ∧ t.st = .idle) ∧
    MayRun (inFlight 0x03000041#32 enc2) ∧ MayRun (inFlight 0x05000000#32 dec2) ∧
    MayRun (inFlight 0x06000000#32 (withArgs ⟨1, 2, 3⟩ rawEnc10)) ∧
    MayRun (inFlight 0x09000000#32 (withArgs ⟨1, 2, 3⟩ rawDec10)) ∧ MayRun (inFlight 0x01010102#32 State.reset) :=
  ⟨next_of _ (by decide +kernel), next_of _ (by decide +kernel), next_of _ (by decide +kernel),
    next_of _ (by decide +kernel), next_of _ (by decide +kernel), next_of _ (by decide +kernel),
    next_of _ (by decide +kernel), next_of _ (by decide +kernel), next_of _ (by decide +kernel),
    next_of _ (by decide +kernel), enc2_run _, dec2_run _, rawEnc10_run _ _, rawDec10_run _ _, reset_run _⟩

theorem witness_CommandsLeaveHostSide :
    ∃ t, runWord 0x03000041#32 (inFlight 0x03000041#32 enc2) = .next t ∧ t.st = .enc := next_of _ (by decide +kernel)

/-- The hypotheses of EofFlag and of ResultRegister, met with EOF set and with RESULT written. -/
theorem witness_EofFlag :
    MayRun (inFlight 0x05000000#32 decEmpty) ∧
    ∃ t, exec .decSymbol (inFlight 0x05000000#32 decEmpty) = .next t ∧ t.eof = true ∧ t.st = .done :=
  ⟨decEmpty_run _, next_of _ (by decide +kernel)⟩

theorem witness_ResultRegister :
    MayRun (inFlight 0x07000000#32 (withArgs ⟨0, 0, 3⟩ rawDec10)) ∧
    ∃ t, exec .rawDecTarget (inFlight 0x07000000#32 (withArgs ⟨0, 0, 3⟩ rawDec10)) = .next t ∧ t.result = 1#32 :=
  ⟨rawDec10_run _ _, next_of _ (by decide +kernel)⟩

/-- The STARTs of EofFlag and of ResultRegister: refused before its clearing step, EOF and RESULT stay; refused or
accepted after it, they are cleared. -/
theorem witness_StartKeepsOrClears :
    let ended := ran 0x05000000#32 decEmpty
    (ended.eof = true ∧ ended.result = 256#32 ∧ ended.inReset = false ∧ ended.portWait = none) ∧
    (∃ t, exec (.encStart 1 0 true) (inFlight 0x01020001#32 ended) = .next t ∧
      t.st = .error ∧ t.eof = true ∧ t.result = 256#32) ∧
    (∃ t, exec (.decStart 0 1 true) (inFlight 0x02020100#32 ended) = .next t ∧
      t.st = .error ∧ t.eof = true ∧ t.result = 256#32) ∧
    (∃ t, exec (.encStart 4 257 false) (inFlight 0x01010104#32 ended) = .next t ∧
      t.st = .error ∧ t.eof = false ∧ t.result = 0) ∧
    (∃ t, exec (.decStart 0 0 true) (inFlight 0x02020000#32 ended) = .next t ∧
      t.st = .dec ∧ t.eof = false ∧ t.result = 0) :=
  ⟨by decide +kernel, next_of _ (by decide +kernel), next_of _ (by decide +kernel), next_of _ (by decide +kernel),
    next_of _ (by decide +kernel)⟩

/-! ## Witnesses: tables, streams, the coder, the model -/

theorem witness_Increment : freshTable.counts.length = 257 ∧ 65 < 257 ∧ ¬ tableTotal freshTable + 1 > 258 ∧
    tableTotal uniformTable + 1 > 257 := by decide +kernel

theorem witness_IncrementKeepsTable : 258 ≤ 258 ∧ freshTable.counts.length = 257 ∧ tableTotal freshTable ≤ 258 ∧
    256 < 257 ∧ 1 ≤ tableGet freshTable 256 ∧ tableGet freshTable 0 = 0 := by decide +kernel

theorem witness_FindSymbol : uniformTable.counts.length = 257 ∧ 256 < tableTotal uniformTable ∧
    tableTotal uniformTable ≤ 257 := by decide +kernel

theorem witness_WriteBit :
    State.reset.outN < 7 ∧ ({ State.reset with outN := 7 } : State).env.sink = [] ∧
    (withSink [.accept] { State.reset with outN := 7 }).env.sink = .accept :: [] ∧
    (withSink [.fail] { State.reset with outN := 7 }).env.sink = .fail :: [] ∧
    (withSink [.fail] { State.reset with outN := 7 }).outN = 7 := by decide

theorem witness_CloseOut :
    State.reset.outN = 0 ∧ 1 ≤ ({ State.reset with outN := 1 } : State).outN ∧
    SinkTakes 1 (withSink [.accept, .fail] { State.reset with outN := 7 }) ∧
    (withSink [.fail] { State.reset with outN := 1 }).env.sink = .fail :: [] := by
  unfold SinkTakes; decide

theorem witness_ReadBit :
    ({ State.reset with inN := 8 } : State).inN = 7 + 1 ∧ ({ State.reset with inEof := true } : State).inN = 0 ∧
    State.reset.inEof = false ∧ State.reset.env.source = [] ∧
    (withSource [.byte 0xA5] State.reset).env.source = .byte 0xA5#8 :: [] ∧
    (withSource [.endOfInput] State.reset).env.source = .endOfInput :: [] ∧
    (withSource [.fail] State.reset).env.source = .fail :: [] := by decide

theorem witness_Narrow : State.reset.build.legal = true ∧ State.reset.low ≤ State.reset.high ∧
    State.reset.high < 2 ^ State.reset.build.width := by decide

/-- The start of a RAW session at W = 10, with the largest total and its narrowest intervals. -/
theorem witness_NarrowStaysInside :
    rawEnc10.build.legal = true ∧ Normalised rawEnc10.build rawEnc10.low rawEnc10.high ∧
    rawEnc10.high < 2 ^ rawEnc10.build.width ∧ 258 ≤ 2 ^ (rawEnc10.build.width - 2) + 2 ∧ 257 < 258 := by
  unfold Normalised; decide +kernel

theorem witness_Emit : rawFull.outN ≤ 7 ∧ rawFull.pending = 1 ∧
    SinkTakes ((rawFull.outN + (rawFull.pending + 1)) / 8) (withSink [.fail] rawFull) := by
  unfold SinkTakes; decide +kernel

/-- V-AC-1 before its normalisation, and V-AC-22's second E3 step. -/
theorem witness_NormEnc :
    (let s : State := { rawEnc10 with low := 0x155, high := 0x2A9 }
     s.build.legal = true ∧ s.low ≤ s.high ∧ s.high < 2 ^ s.build.width ∧ s.pending ≤ s.build.pendingMax ∧ s.outN ≤ 7 ∧
      SinkTakes ((s.outN + ((coded s).norm s.build s.build.width).bits.length) / 8) s ∧
      ((coded s).norm s.build s.build.width).pending ≤ s.build.pendingMax) ∧
    (let s : State := { rawFull with low := 0x18D, high := 0x26F }
     s.build.legal = true ∧ s.low ≤ s.high ∧ s.high < 2 ^ s.build.width ∧ s.pending ≤ s.build.pendingMax ∧ s.outN ≤ 7 ∧
      SinkTakes ((s.outN + ((coded s).norm s.build s.build.width).bits.length) / 8) s ∧
      s.build.pendingMax < ((coded s).norm s.build s.build.width).pending) := by
  unfold SinkTakes; decide +kernel

theorem witness_Finish :
    (rawFull.outN ≤ 7 ∧ rawFull.pending = rawFull.build.pendingMax) ∧
    (rawEnc10.outN ≤ 7 ∧ rawEnc10.pending < rawEnc10.build.pendingMax ∧
      SinkTakes ((rawEnc10.outN + (rawEnc10.pending + 2)) / 8) (withSink [.fail] rawEnc10) ∧
      rawEnc10.low < 2 ^ (rawEnc10.build.width - 2)) ∧
    ¬ ({ rawEnc10 with low := 0x100 } : State).low < 2 ^ (rawEnc10.build.width - 2) := by
  unfold SinkTakes; decide +kernel

/-- CODE at LOW, at HIGH, and outside. -/
theorem witness_Target :
    rawDec10.low ≤ rawDec10.high ∧ ({ rawDec10 with code := 0 } : State).code = rawDec10.low ∧
    ({ rawDec10 with code := 0x3FF } : State).code = rawDec10.high ∧ 258 ≤ rawDec10.high - rawDec10.low + 1 ∧
    ¬ (rawFull.low ≤ 0x0A9 ∧ 0x0A9 ≤ rawFull.high) := by decide +kernel

/-- The source gives the bits, and comes to `Fail` only after them. -/
theorem witness_NormDec :
    let s : State := { rawDecFails with low := 0x155, high := 0x2A9 }
    s.build.legal = true ∧ s.inN ≤ 8 ∧ s.low ≤ s.code ∧ s.code ≤ s.high ∧ s.high < 2 ^ s.build.width ∧
    SourceGives ((coded s).norm s.build s.build.width).steps s :=
  ⟨by decide +kernel, by decide +kernel, by decide +kernel, by decide +kernel, by decide +kernel,
    fun _ _ => by decide +kernel⟩

/-- The stream of ABABA selects 65 in the uniform table. -/
theorem witness_DecodeSymbol :
    dec2.build.legal = true ∧ Normalised dec2.build dec2.low dec2.high ∧ dec2.high < 2 ^ dec2.build.width ∧
    dec2.low ≤ dec2.code ∧ dec2.code ≤ dec2.high ∧ dec2.inN ≤ 8 ∧
    1 ≤ tableTotal uniformTable ∧ tableTotal uniformTable ≤ 2 ^ (dec2.build.width - 2) + 2 ∧
    SourceGives ((coded dec2).code dec2.build (symbolInterval uniformTable 65)).steps dec2 ∧
    (match decodeSymbol uniformTable dec2 with | .ok sym _ => sym == 65 | _ => false) = true := by
  unfold Normalised
  exact ⟨by decide +kernel, by decide +kernel, by decide +kernel, by decide +kernel, by decide +kernel,
    by decide +kernel, by decide +kernel, by decide +kernel, gives_of (by decide +kernel) _, by decide +kernel⟩

/-- Order -1; room; no room. -/
theorem witness_Update :
    (State.reset.build.legal = true ∧ ModelOk State.reset ∧ State.reset.order = -1) ∧
    (enc2.build.legal = true ∧ ModelOk enc2 ∧ StoreRoom enc2) ∧
    (fullStore.build.legal = true ∧ ModelOk fullStore ∧ ¬ StoreRoom fullStore) := by
  refine ⟨⟨by decide, reset_inv.model, rfl⟩, ⟨by decide +kernel, enc2_inv.model, roomy (by decide +kernel)⟩,
    by decide +kernel, fullStore_inv.model, fun h => ?_⟩
  exact absurd (h 1 (by decide +kernel)) (by decide +kernel)

/-- M = 2 with one byte in H, M = 0, M = -1. -/
theorem witness_PushHistory :
    (fullStore.hist.length : Int) ≤ max fullStore.order 0 ∧ 1 ≤ fullStore.order ∧
    (enc0.hist.length : Int) ≤ max enc0.order 0 ∧ (State.reset.hist.length : Int) ≤ max State.reset.order 0 := by
  decide +kernel

/-! ## Witnesses: round trips -/

/-- The commands in order, each completing without an error; `none` where one does not. -/
def runAll : List Instr → State → Option State
  | [], s => some s
  | i :: l, s =>
    match exec i (inFlight (encode i) s) with
    | .next t => if t.portWait = none ∧ t.st ≠ .error then runAll l t else none
    | _ => none

theorem completesAll_of {l : List Instr} {s t : State} (h : runAll l s = some t) : CompletesAll l s t := by
  induction l generalizing s with
  | nil => cases h; rfl
  | cons i l ih =>
    unfold runAll at h
    split at h
    · next u hu =>
      split at h
      · next hc => exact ⟨u, ⟨hu, hc⟩, ih h⟩
      · cases h
    · cases h

theorem completes_of {i : Instr} {s t : State} (h : runAll [i] s = some t) : Completes i s t := by
  obtain ⟨u, hu, e⟩ := completesAll_of h
  exact e ▸ hu

theorem idle_of {s : State} (h : Inv s) (h1 : s.pendingCmd = none) (h2 : s.inReset = false) : Idle s := ⟨h, h1, h2⟩

/-- What is left of an option that is closed data. -/
theorem some_of {o : Option State} (p : State → Prop) [DecidablePred p]
    (h : (match o with | some t => decide (p t) | none => false) = true) : ∃ t, o = some t ∧ p t := by
  split at h
  · exact ⟨_, rfl, of_decide_eq_true h⟩
  · cases h

/-- V-PPM-1, "A" at order 0. -/
theorem witness_PpmRoundTrip :
    ∃ t, CompletesAll (.encStart 0 257 false :: ([0x41#8].map .encByte ++ [.encFinish])) State.reset t ∧
      t.env.sunk = State.reset.env.sunk ++ [0x41#8, 0xBE#8, 0x00#8] ∧ Idle State.reset ∧
      Idle (withSource ([0x41#8, 0xBE#8, 0x00#8].map .byte) State.reset) := by
  obtain ⟨t, h, e⟩ := some_of (o := runAll [.encStart 0 257 false, .encByte 0x41#8, .encFinish] State.reset)
    (fun t => t.env.sunk = [0x41#8, 0xBE#8, 0x00#8]) (by decide +kernel)
  exact ⟨t, completesAll_of h, e, idle_of reset_inv rfl rfl, idle_of (withSource_inv reset_inv _) rfl rfl⟩

/-- V-AC-3. -/
theorem witness_RawRoundTrip :
    ∃ e0 e1 e2, Completes (.encStart 0 0 true) (State.resetOf small) e0 ∧ RawEncodes [⟨0, 1, 4⟩] e0 e1 ∧
      Completes .encFinish e1 e2 ∧ e2.env.sunk = (State.resetOf small).env.sunk ++ [0x10#8] ∧
      Interval.fits ⟨0, 1, 4⟩ ∧ Idle (State.resetOf small) ∧
      Idle (withSource ([0x10#8].map .byte) (State.resetOf small)) := by
  obtain ⟨e2, h2, k2⟩ := some_of
    (o := runAll [.encFinish] (ran 0x06000000#32 (withArgs ⟨0, 1, 4⟩ rawEnc10)))
    (fun t => t.env.sunk = [0x10#8]) (by decide +kernel)
  exact ⟨rawEnc10, _, e2, completes_of (by decide +kernel), ⟨_, completes_of (by decide +kernel), rfl⟩,
    completes_of h2, k2, by unfold Interval.fits; decide, idle_of small_inv rfl rfl,
    idle_of (withSource_inv small_inv _) rfl rfl⟩

theorem witness_InvAtReset : small.legal = true ∧ tight.legal = true := by decide

theorem witness_InvKeptByEveryStep :
    Inv (inFlight 0x03000041#32 enc2) ∧ ∃ t, step (inFlight 0x03000041#32 enc2) = .next t ∧ t.st = .enc :=
  ⟨(enc2_run _).inv, next_of _ (by decide +kernel)⟩

theorem witness_SessionFacts :
    (Inv enc2 ∧ enc2.portWait = none ∧ enc2.st = .enc) ∧ (Inv dec2 ∧ dec2.portWait = none ∧ dec2.st = .dec) ∧
    MayRun (inFlight 0x05000000#32 dec2) ∧
    ∃ t, runWord 0x05000000#32 (inFlight 0x05000000#32 dec2) = .next t ∧ t.portWait = none :=
  ⟨⟨enc2_inv, by decide +kernel, by decide +kernel⟩, ⟨dec2_inv, by decide +kernel, by decide +kernel⟩, dec2_run _,
    next_of _ (by decide +kernel)⟩

end Sys2Proof.Machine.Test
end

section
/-! How commands end and what they leave: the rules by which a claim about a command follows from the three ends of its
rule (44_commands.md R200, 60_exceptions.md R244, 70_reset_and_hazards.md R277). -/

namespace Sys2Proof.Machine

/-! ## The three ends of a command -/

/-- `P` holds at whichever of its three ends a micro-operation comes to. -/
def Throughout {α : Type} (P : State → Prop) (r : Res α) : Prop :=
  r.Post (fun _ u => P u) (fun _ u => P u) (fun _ u => P u)

theorem Throughout.imp {α : Type} {P Q : State → Prop} {r : Res α} (h : Throughout P r) (k : ∀ u, P u → Q u) :
    Throughout Q r :=
  Res.Post.imp h (fun _ => k) (fun _ => k) (fun _ => k)

/-- What a command leaves, from the ends of its rule. -/
theorem finishCommand_rule {Q : State → Prop} {opc : BitVec 8} {st : SessionState} {r : Res Unit} {t : State}
    (h : r.Post (fun _ u => Q (complete u)) (fun c u => Q (enterError opc c u))
      (fun q u => Q { u with portWait := some { request := q, startedIn := st } }))
    (e : finishCommand opc st r = .next t) : Q t := by
  rcases finishCommand_cases e with ⟨u, rfl, rfl⟩ | ⟨c, u, rfl, rfl⟩ | ⟨q, u, rfl, rfl⟩ <;> exact h

/-- What a session command leaves: ignored in ERROR, refused, or from the ends of its rule. -/
theorem dispatchSession_rule {Q : State → Prop} {opc : BitVec 8} {valid : Bool} {body : State → Res Unit}
    {s t : State} (hi : Q (complete s)) (hv : Q (enterError opc .wrongState s))
    (hb : s.st ≠ .error → valid = true →
      (body s).Post (fun _ u => Q (complete u)) (fun c u => Q (enterError opc c u))
      (fun q u => Q { u with portWait := some { request := q, startedIn := s.st } }))
    (e : dispatchSession opc valid body s = .next t) : Q t := by
  rcases dispatchSession_cases e with ⟨-, rfl⟩ | ⟨hs, -, ht⟩ | ⟨hs, hvalid, hf⟩
  · exact hi
  · have : t = enterError opc .wrongState s := ht.trans (enterError_eq hs opc .wrongState).symm
    exact this ▸ hv
  · exact finishCommand_rule (hb hs hvalid) hf

/-- The STATE column of R86, read off a command's validity. -/
theorem st_of_valid {s : State} {st : SessionState} {b : Bool} (h : (decide (s.st = st) && b) = true) : s.st = st :=
  of_decide_eq_true (Bool.and_eq_true_iff.mp h).1

/-! ## What the session commands leave alone -/

/-- No error has been recorded, and STATE is not ERROR. -/
def ErrUntouched (s u : State) : Prop := u.err = s.err ∧ u.st ≠ .error

/-- EOF and RESULT are as they were. -/
def Undelivered (s u : State) : Prop := u.eof = s.eof ∧ u.result = s.result

/-- Neither ERR nor EOF nor RESULT has changed, and STATE is not ERROR. -/
def Untouched (s u : State) : Prop := ErrUntouched s u ∧ Undelivered s u

/-- A symbol is in RESULT: a literal leaves STATE = DEC and EOF, 256 sets EOF and ends the session (R206). -/
def DeliversSymbol (s u : State) : Prop :=
  ∃ sym < 257, u.result = BitVec.ofNat 32 sym ∧
    ((sym ≠ 256 ∧ u.st = .dec ∧ u.eof = s.eof) ∨ (sym = 256 ∧ u.st = .done ∧ u.eof = true))

theorem EncodeWrites.untouched {s u : State} (h : EncodeWrites s u) (hst : u.st ≠ .error) : Untouched s u := by
  unfold EncodeWrites at h
  exact ⟨⟨by rw [h], hst⟩, by rw [h], by rw [h]⟩

theorem DecodeWrites.errUntouched {s u : State} (h : DecodeWrites s u) (hst : u.st ≠ .error) : ErrUntouched s u := by
  unfold DecodeWrites at h
  exact ⟨by rw [h], hst⟩

theorem DecoderOnly.untouched {s u : State} (h : DecoderOnly s u) (hst : s.st ≠ .error) : Untouched s u := by
  unfold DecoderOnly at h
  exact ⟨⟨by rw [h], by rw [h]; exact hst⟩, by rw [h], by rw [h]⟩

theorem RawDecApplyWrites.untouched {s u : State} (h : RawDecApplyWrites s u) (hst : s.st ≠ .error) :
    Untouched s u := by
  unfold RawDecApplyWrites at h
  exact ⟨⟨by rw [h], by rw [h]; exact hst⟩, by rw [h], by rw [h]⟩

theorem Untouched.refl {s : State} (hst : s.st ≠ .error) : Untouched s s :=
  ⟨⟨rfl, hst⟩, rfl, rfl⟩

section
variable {s : State} (h : MayRun s)
include h

theorem encByteBody_untouched (he : s.st = .enc) (b : Byte) : Throughout (Untouched s) (encByteBody b s) := by
  have key : ∀ {u}, EncByteWrites s u → Untouched s u := fun hw =>
    hw.encode.1.untouched (by rw [hw.encode.2, he]; decide)
  refine (encByteBody_post b (h.encodeOpen he)).imp (fun _ _ k => key k.writes) ?_ ?_
  · rintro _ u ⟨-, -, hw, -⟩; exact key hw
  · rintro _ u ⟨-, -, hw⟩; exact key hw

theorem encFinishBody_untouched (he : s.st = .enc) : Throughout (Untouched s) (encFinishBody s) := by
  refine (encFinishBody_post (h.encodeOpen he)).imp ?_ ?_ ?_
  · intro _ u k
    exact k.writes.encode.untouched (by rw [k.st]; decide)
  · rintro _ u ⟨-, -, hw, hst⟩
    exact hw.encode.untouched (by rw [hst, he]; decide)
  · rintro _ u ⟨-, -, hw, hst⟩
    exact hw.encode.untouched (by rw [hst, he]; decide)

theorem rawEncBody_untouched (he : s.st = .enc) : Throughout (Untouched s) (rawEncBody s) := by
  have hst : s.st ≠ .error := by rw [he]; decide
  have key : ∀ {u}, RawEncWrites s u → Untouched s u := fun hw =>
    hw.encode.1.untouched (by rwa [hw.encode.2])
  refine (rawEncBody_post (h.encodeOpen he)).imp ?_ ?_ ?_
  · rintro _ u ⟨-, -, hw, -⟩; exact key hw
  · rintro _ u (⟨-, rfl, -⟩ | ⟨-, -, hw, -⟩)
    · exact .refl hst
    · exact key hw
  · rintro _ u ⟨-, -, hw⟩; exact key hw

/-- DEC_SYMBOL records no error of its own; EOF and RESULT change only where it delivers a symbol (R206). -/
theorem decSymbolBody_delivers (he : s.st = .dec) : (decSymbolBody s).Post
    (fun _ u => ErrUntouched s u ∧ DeliversSymbol s u)
    (fun _ u => Untouched s u)
    (fun _ u => Untouched s u) := by
  have hst : s.st ≠ .error := by rw [he]; decide
  refine (decSymbolBody_post (h.decodeOpen he)).imp ?_ ?_ ?_
  · rintro _ u ⟨sym, hd⟩
    by_cases e : sym = 256
    · obtain ⟨hdone, heof, -⟩ := hd.eof e
      exact ⟨hd.writes.decode.errUntouched (by rw [hdone]; decide), sym, hd.alphabet, hd.result,
        .inr ⟨e, hdone, heof⟩⟩
    · obtain ⟨hsame, heof, -⟩ := hd.literal e
      exact ⟨hd.writes.decode.errUntouched (by rwa [hsame]), sym, hd.alphabet, hd.result,
        .inl ⟨e, hsame.trans he, heof⟩⟩
  · rintro _ u ⟨-, -, hw, hresult, -, heof, hsame⟩
    exact ⟨hw.decode.errUntouched (by rwa [hsame]), heof, hresult⟩
  · rintro _ u ⟨-, -, ho⟩
    exact ho.untouched hst

/-- RAW_DEC_TARGET writes RESULT only, with a value below ARG2, and only where it completes (R208). -/
theorem rawDecTargetBody_delivers (he : s.st = .dec) : (rawDecTargetBody s).Post
    (fun _ u => ErrUntouched s u ∧ u.eof = s.eof ∧ u.result.toNat < s.arg2.toNat ∧ u.st = .dec)
    (fun _ u => Untouched s u)
    (fun _ u => Untouched s u) := by
  have hst : s.st ≠ .error := by rw [he]; decide
  refine (rawDecTargetBody_post (h.decodeOpen he)).imp ?_ ?_ (fun _ _ k => k.elim)
  · rintro _ u ⟨-, hlt, rfl⟩
    have hmod : (BitVec.ofNat 32 (rawTarget s)).toNat ≤ rawTarget s := by
      rw [BitVec.toNat_ofNat]; exact Nat.mod_le _ _
    exact ⟨⟨rfl, hst⟩, rfl, Nat.lt_of_le_of_lt hmod hlt, he⟩
  · rintro _ u ⟨-, -, rfl⟩
    exact .refl hst

theorem rawDecApplyBody_untouched (he : s.st = .dec) : Throughout (Untouched s) (rawDecApplyBody s) := by
  have hst : s.st ≠ .error := by rw [he]; decide
  refine (rawDecApplyBody_post (h.decodeOpen he)).imp ?_ ?_ ?_
  · rintro _ u ⟨-, -, -, hw, -⟩; exact hw.untouched hst
  · rintro _ u (⟨rfl, -⟩ | ⟨rfl, -⟩ | ⟨rfl, -⟩ | ⟨-, -, hw, -⟩)
    · exact .refl hst
    · exact .refl hst
    · exact .refl hst
    · exact hw.untouched hst
  · rintro _ u ⟨-, -, hw, -⟩; exact hw.untouched hst

end

theorem rawDecEndBody_untouched (s : State) : Throughout (Untouched s) (rawDecEndBody s) :=
  ⟨⟨rfl, nofun⟩, rfl, rfl⟩

/-! ## START's clearing step -/

/-- ERR, EOF and RESULT as R202's clearing step leaves them, and STATE not ERROR. -/
structure Cleared (u : State) : Prop where
  err : u.err = .clear
  st : u.st ≠ .error
  eof : u.eof = false
  result : u.result = 0

theorem clearSession_cleared (s : State) : Cleared (clearSession s) := ⟨rfl, nofun, rfl, rfl⟩

theorem opened_cleared (d : Direction) (order : Int) (rawf : Bool) (s : State) : Cleared (opened d order rawf s) :=
  ⟨rfl, by cases d <;> nofun, rfl, rfl⟩

theorem Cleared.decoder {s u : State} (h : Cleared s) (ho : DecoderOnly s u) : Cleared u := by
  obtain ⟨⟨herr, hst⟩, heof, hresult⟩ := ho.untouched h.st
  exact ⟨herr.trans h.err, hst, heof.trans h.eof, hresult.trans h.result⟩

/-- A RAW start whose order or alphabet operand is not 0 is refused before its clearing step (R202). -/
theorem start_refused {order : Int} {alpha : Nat} {rawf : Bool} (hr : rawf = true ∧ ¬ (order = 0 ∧ alpha = 0))
    (d : Direction) {s : State} (hb : s.build.legal = true) : start d order alpha rawf s = .raised .reservedBit s := by
  rw [start_eq hb, if_pos hr]

/-- Every other START clears first, and nothing it does then records an error or delivers a value (R202, log 25). -/
theorem start_cleared {order : Int} {alpha : Nat} {rawf : Bool} (hr : ¬ (rawf = true ∧ ¬ (order = 0 ∧ alpha = 0)))
    (d : Direction) {s : State} (hb : s.build.legal = true) : Throughout Cleared (start d order alpha rawf s) := by
  rw [start_eq hb, if_neg hr]
  split
  · exact clearSession_cleared s
  · split
    · exact clearSession_cleared s
    · cases d with
      | encode => exact opened_cleared .encode order rawf s
      | decode =>
        have hopen := opened_cleared .decode order rawf s
        have hpost := decInit_post (s := opened .decode order rawf s) hb rfl rfl rfl (Nat.zero_le _)
        refine hpost.imp ?_ ?_ ?_
        · rintro _ u ⟨-, ho, -⟩; exact hopen.decoder ho
        · rintro _ u ⟨-, -, hstop, -⟩; exact hopen.decoder hstop.only
        · rintro _ u ⟨-, hstop, -⟩; exact hopen.decoder hstop.only

end Sys2Proof.Machine
end

section
/-! What no command, step and reset of the block disturbs: the invariant, the record of the error, the host's side. -/

namespace Sys2Proof.Machine

/-! ## The run of any word -/

/-- A word that is no command is ignored or raises an error (R87, R200). -/
theorem rejectWord_cases (r : Reject) (s : State) :
    rejectWord r s = complete s ∨ ∃ opc c, rejectWord r s = enterError opc c s := by
  unfold rejectWord
  split <;> split
  · exact .inl rfl
  · exact .inr ⟨_, _, rfl⟩
  · exact .inl rfl
  · exact .inr ⟨_, _, rfl⟩

theorem runWord_of_ok {w : Word} {i : Instr} (h : decode w = .ok i) (s : State) : runWord w s = exec i s := by
  unfold runWord; rw [h]

theorem runWord_of_error {w : Word} {r : Reject} (h : decode w = .error r) (s : State) :
    runWord w s = .next (rejectWord r s) := by
  unfold runWord; rw [h]

/-- A claim about the run of any word, from the commands and the two ends of a rejected word. -/
theorem runWord_rule {Q : State → Prop} {w : Word} {s t : State} (hx : ∀ i, exec i s = .next t → Q t)
    (hc : Q (complete s)) (he : ∀ opc c, Q (enterError opc c s)) (e : runWord w s = .next t) : Q t := by
  cases hd : decode w with
  | ok i => exact hx i (runWord_of_ok hd s ▸ e)
  | error r =>
    rw [runWord_of_error hd] at e
    cases e
    rcases rejectWord_cases r s with hr | ⟨opc, c, hr⟩
    · exact hr ▸ hc
    · exact hr ▸ he opc c

/-! ## The host's side (R21) -/

theorem rawEncBody_quiet (s : State) : Quiet s (rawEncBody s) :=
  (encodeInterval_quiet _ _ _ s).andThen fun _ t _ => .refl t

theorem rawDecTargetBody_quiet (s : State) : Quiet s (rawDecTargetBody s) :=
  (target_quiet _ s).andThen fun _ t _ => .refl t

theorem rawDecApplyBody_quiet (s : State) : Quiet s (rawDecApplyBody s) :=
  (decodeApply_quiet _ _ _ s).andThen fun _ t _ => .refl t

theorem rawDecEndBody_quiet (s : State) : Quiet s (rawDecEndBody s) := HostSideSame.refl s

/-- In any state at all a command answers a next state, with the host's side as it was. -/
theorem exec_same (i : Instr) (s : State) : ∃ t, exec i s = .next t ∧ HostSideSame s t := by
  cases i with
  | encStart order alpha rawf => exact finishCommand_same (start_quiet .encode order alpha rawf s) _ _
  | decStart order alpha rawf => exact finishCommand_same (start_quiet .decode order alpha rawf s) _ _
  | encByte b => exact dispatchSession_same (encByteBody_quiet b s) _ _
  | encFinish => exact dispatchSession_same (encFinishBody_quiet s) _ _
  | decSymbol => exact dispatchSession_same (decSymbolBody_quiet s) _ _
  | rawEnc => exact dispatchSession_same (rawEncBody_quiet s) _ _
  | rawDecTarget => exact dispatchSession_same (rawDecTargetBody_quiet s) _ _
  | rawDecApply => exact dispatchSession_same (rawDecApplyBody_quiet s) _ _
  | rawDecEnd => exact dispatchSession_same (rawDecEndBody_quiet s) _ _
  | abort imm => exact ⟨_, rfl, HostSideSame.refl s⟩

theorem runWord_same {w : Word} {s t : State} (e : runWord w s = .next t) : HostSideSame s t := by
  refine runWord_rule (fun i hx => ?_) (HostSideSame.refl s) (fun _ _ => HostSideSame.refl s) e
  obtain ⟨u, hu, hsame⟩ := exec_same i s
  cases hx.symm.trans hu
  exact hsame

/-- Settles O36: every command leaves the host's side alone, and so does a rejected word. -/
theorem commandsLeaveHostSide : Obligations.CommandsLeaveHostSide :=
  fun _ _ _ e => runWord_same e

/-! ## The invariant -/

theorem runWord_run {w : Word} {s t : State} (h : MayRun s) (e : runWord w s = .next t) : HasRun s t := by
  have hk := Kept.refl h.inv
  refine runWord_rule (fun i hx => ?_) (hk.completed h (h.inv.sides h.wait)) (hk.error h) e
  obtain ⟨u, hu, hrun⟩ := exec_run h i
  cases hx.symm.trans hu
  exact hrun

/-- Settles O59, from the invariant's own lemmas for an arrival, the run of a word and the accesses that land late. -/
theorem invKeptByEveryStep : Obligations.InvKeptByEveryStep := by
  intro s t h e
  rcases step_cases e with ⟨a, rest, -, rfl⟩ | ⟨-, rfl⟩ | ⟨w, u, hw, hwait, hu, hlate⟩
  · exact land_inv ((dropArrivals_only rest s).inv h) a
  · exact h
  · exact hlate.inv (runWord_run ⟨h, by simp [hw], hwait⟩ hu).inv

/-- R33: the third fact about a normalised range follows from the first two. -/
theorem Normalised.range_ge {b : Build} (hb : b.legal = true) {low high : Nat} (h : Normalised b low high) :
    b.quarter + 2 ≤ high - low + 1 := by
  obtain ⟨hlow, hhigh, hmid⟩ := h
  obtain ⟨-, hhalf⟩ := full_eq hb
  omega

/-- Settles O60: the facts are the invariant's own, and the run of a word keeps it. -/
theorem sessionFacts : Obligations.SessionFacts := by
  refine ⟨fun s h hwait hopen => ?_, fun _ _ _ h e _ => (runWord_run h e).inv⟩
  have hnorm : Normalised s.build s.low s.high := by
    rcases hopen with he | hd
    · exact (h.session.encode hwait he).1
    · exact (h.session.decode hwait hd).1
  have ⟨hlow, hhigh, hmid⟩ := hnorm
  refine ⟨hlow, hhigh, hmid, hnorm.range_ge h.legal, fun hd => ?_⟩
  obtain ⟨-, -, hcodeLow, hcodeHigh, -⟩ := h.session.decode hwait hd
  exact ⟨hcodeLow, hcodeHigh⟩

/-- Settles O58, from the lemma that the reset values are in order whatever the outside world. -/
theorem invAtReset : Obligations.InvAtReset := by
  have hinv : ∀ b : Build, b.legal = true → Inv (State.resetOf b) := fun b hb => resetOf_ok hb false .initial
  exact ⟨fun b hb => ⟨hinv b hb, rfl⟩, hinv .reference (by decide)⟩

/-! ## The record of the error -/

theorem ErrorRecorded.of_clear {s : State} (hst : s.st ≠ .error) (herr : s.err = .clear) : ErrorRecorded s := by
  unfold ErrorRecorded
  rwa [if_neg hst]

/-- Only STATE and ERR count. -/
theorem ErrorRecorded.congr {s t : State} (h : ErrorRecorded s) (hst : t.st = s.st) (herr : t.err = s.err) :
    ErrorRecorded t := by
  unfold ErrorRecorded at *
  rwa [hst, herr]

/-- `raise` records the cause outside ERROR and keeps the first error in it (R244, R246). -/
theorem ErrorRecorded.enterError {s : State} (h : ErrorRecorded s) (opc : BitVec 8) (c : Cause) :
    ErrorRecorded (enterError opc c s) := by
  by_cases hst : s.st = .error
  · refine h.congr hst.symm ?_
    rw [enterError_err, recordError, if_pos hst]
  · rw [enterError_eq hst]
    exact ⟨c, opc, rfl⟩

theorem HostOnly.errorRecorded {s t : State} (h : HostOnly s t) (k : ErrorRecorded s) : ErrorRecorded t := by
  unfold HostOnly at h
  exact k.congr (by rw [h]) (by rw [h])

theorem ErrUntouched.errorRecorded {s u : State} (h : ErrUntouched s u) (hst : s.st ≠ .error) (k : ErrorRecorded s) :
    ErrorRecorded u := by
  unfold ErrorRecorded at k
  rw [if_neg hst] at k
  exact .of_clear h.2 (h.1.trans k)

theorem Cleared.errorRecorded {u : State} (h : Cleared u) : ErrorRecorded u := .of_clear h.st h.err

/-- A command whose rule ends with the record in order leaves it in order. -/
theorem finishCommand_recorded {opc : BitVec 8} {st : SessionState} {r : Res Unit} {t : State}
    (h : Throughout ErrorRecorded r) (e : finishCommand opc st r = .next t) : ErrorRecorded t :=
  finishCommand_rule (Res.Post.imp h (fun _ _ k => k) (fun c _ k => k.enterError opc c) (fun _ _ k => k)) e

theorem dispatchSession_recorded {opc : BitVec 8} {valid : Bool} {body : State → Res Unit} {s t : State}
    (k : ErrorRecorded s) (hb : valid = true → Throughout (ErrUntouched s) (body s))
    (e : dispatchSession opc valid body s = .next t) : ErrorRecorded t := by
  refine dispatchSession_rule k (k.enterError _ _) (fun hst hv => ?_) e
  have hkeep := (hb hv).imp fun _ x => x.errorRecorded hst k
  exact Res.Post.imp hkeep (fun _ _ x => x) (fun c _ x => x.enterError opc c) (fun _ _ x => x)

theorem start_recorded {s : State} (hb : s.build.legal = true) (k : ErrorRecorded s) (d : Direction) (order : Int)
    (alpha : Nat) (rawf : Bool) : Throughout ErrorRecorded (start d order alpha rawf s) := by
  by_cases hr : rawf = true ∧ ¬ (order = 0 ∧ alpha = 0)
  · rw [start_refused hr d hb]; exact k
  · exact (start_cleared hr d hb).imp fun _ => Cleared.errorRecorded

/-- Every command keeps the record of the error. -/
theorem exec_recorded {i : Instr} {s t : State} (h : MayRun s) (k : ErrorRecorded s) (e : exec i s = .next t) :
    ErrorRecorded t := by
  cases i with
  | encStart order alpha rawf => exact finishCommand_recorded (start_recorded h.inv.legal k .encode ..) e
  | decStart order alpha rawf => exact finishCommand_recorded (start_recorded h.inv.legal k .decode ..) e
  | encByte b =>
    exact dispatchSession_recorded k (fun hv => (encByteBody_untouched h (st_of_valid hv) b).imp fun _ x => x.1) e
  | encFinish =>
    exact dispatchSession_recorded k
      (fun hv => (encFinishBody_untouched h (of_decide_eq_true hv)).imp fun _ x => x.1) e
  | decSymbol =>
    refine dispatchSession_recorded k (fun hv => ?_) e
    exact (decSymbolBody_delivers h (st_of_valid hv)).imp (fun _ _ x => x.1) (fun _ _ x => x.1) (fun _ _ x => x.1)
  | rawEnc =>
    exact dispatchSession_recorded k (fun hv => (rawEncBody_untouched h (st_of_valid hv)).imp fun _ x => x.1) e
  | rawDecTarget =>
    refine dispatchSession_recorded k (fun hv => ?_) e
    exact (rawDecTargetBody_delivers h (st_of_valid hv)).imp (fun _ _ x => x.1) (fun _ _ x => x.1) (fun _ _ x => x.1)
  | rawDecApply =>
    exact dispatchSession_recorded k (fun hv => (rawDecApplyBody_untouched h (st_of_valid hv)).imp fun _ x => x.1) e
  | rawDecEnd => exact dispatchSession_recorded k (fun _ => (rawDecEndBody_untouched s).imp fun _ x => x.1) e
  | abort imm =>
    cases e
    exact (clearSession_cleared s).errorRecorded

theorem landAccess_recorded {s : State} (k : ErrorRecorded s) (a : Access) : ErrorRecorded (landAccess a s) := by
  unfold landAccess
  split
  · exact (busyAccess_only _ a s).errorRecorded k
  · cases a with
    | read offset bytes => exact (idleRead_only offset bytes s).errorRecorded k
    | write offset bytes v =>
      rcases idleWrite_cases offset bytes v s with e | e
      · change ErrorRecorded (idleWrite offset bytes v s)
        rw [e]
        exact k
      · exact e.errorRecorded k

/-- An access is ignored while reset is asserted, and lands otherwise (R270). -/
theorem land_access (a : Access) (l : Landing) (s : State) :
    land (.access a l) s = if s.inReset then s else landAccess a s := rfl

/-- Nothing that arrives from outside touches the record, but for reset, which clears it (R270). -/
theorem land_recorded {s : State} (k : ErrorRecorded s) (a : Arrival) : ErrorRecorded (land a s) := by
  cases a with
  | access a l =>
    rw [land_access]
    split
    · exact k
    · exact landAccess_recorded k a
  | assertReset => exact rfl
  | releaseReset => exact k
  | connectSource answers => exact k
  | connectSink answers => exact k

/-- Settles O20: an arrival, the run of a word and the accesses that land late each keep the record. -/
theorem errorRecordedIsKept : Obligations.ErrorRecordedIsKept := by
  intro s t h k e
  rcases step_cases e with ⟨a, rest, -, rfl⟩ | ⟨-, rfl⟩ | ⟨w, u, hw, hwait, hu, hlate⟩
  · exact land_recorded ((dropArrivals_only rest s).errorRecorded k) a
  · exact k
  · have hrun : MayRun s := ⟨h, by simp [hw], hwait⟩
    exact hlate.errorRecorded (runWord_rule (fun _ => exec_recorded hrun k) k k.enterError hu)

/-! ## EOF and RESULT -/

/-- START clears EOF and RESULT, unless it is refused before its clearing step (R202, log 25). -/
theorem start_delivered {d : Direction} {order : Int} {alpha : Nat} {rawf : Bool} {opc : BitVec 8} {s t : State}
    (hb : s.build.legal = true) (e : finishCommand opc s.st (start d order alpha rawf s) = .next t) :
    (if rawf = true ∧ ¬ (order = 0 ∧ alpha = 0) then t.st = .error ∧ t.eof = s.eof else t.eof = false) ∧
    (if rawf = true ∧ ¬ (order = 0 ∧ alpha = 0) then t.st = .error ∧ t.result = s.result else t.result = 0) := by
  by_cases hr : rawf = true ∧ ¬ (order = 0 ∧ alpha = 0)
  · rw [start_refused hr d hb] at e
    cases e
    rw [if_pos hr, if_pos hr]
    exact ⟨⟨rfl, rfl⟩, rfl, rfl⟩
  · rw [if_neg hr, if_neg hr]
    exact finishCommand_rule (Q := fun u => u.eof = false ∧ u.result = 0)
      ((start_cleared hr d hb).imp fun _ k => ⟨k.eof, k.result⟩) e

theorem dispatchSession_undelivered {opc : BitVec 8} {valid : Bool} {body : State → Res Unit} {s t : State}
    (hb : valid = true → Throughout (Untouched s) (body s))
    (e : dispatchSession opc valid body s = .next t) : Undelivered s t :=
  dispatchSession_rule (Q := Undelivered s) ⟨rfl, rfl⟩ ⟨rfl, rfl⟩ (fun _ hv => (hb hv).imp fun _ k => k.2) e

/-- DEC_SYMBOL leaves EOF and RESULT, or delivers a symbol (R206). -/
theorem execDecSymbol_delivers {s t : State} (h : MayRun s) (e : execDecSymbol s = .next t) :
    Undelivered s t ∨ DeliversSymbol s t := by
  refine dispatchSession_rule (Q := fun t => Undelivered s t ∨ DeliversSymbol s t)
    (.inl ⟨rfl, rfl⟩) (.inl ⟨rfl, rfl⟩) (fun _ hv => ?_) e
  exact (decSymbolBody_delivers h (st_of_valid hv)).imp (fun _ _ k => .inr k.2) (fun _ _ k => .inl k.2)
    (fun _ _ k => .inl k.2)

/-- RAW_DEC_TARGET leaves EOF; it leaves RESULT or writes a value below ARG2 and stays in DEC (R208). -/
theorem execRawDecTarget_delivers {s t : State} (h : MayRun s) (e : execRawDecTarget s = .next t) :
    t.eof = s.eof ∧ (t.result = s.result ∨ (t.result.toNat < s.arg2.toNat ∧ t.st = .dec)) := by
  refine dispatchSession_rule
    (Q := fun t => t.eof = s.eof ∧ (t.result = s.result ∨ (t.result.toNat < s.arg2.toNat ∧ t.st = .dec)))
    ⟨rfl, .inl rfl⟩ ⟨rfl, .inl rfl⟩ (fun _ hv => ?_) e
  refine (rawDecTargetBody_delivers h (st_of_valid hv)).imp ?_ ?_ ?_
  · rintro _ u ⟨-, heof, hresult⟩; exact ⟨heof, .inr hresult⟩
  · rintro _ u ⟨-, heof, hresult⟩; exact ⟨heof, .inl hresult⟩
  · rintro _ u ⟨-, heof, hresult⟩; exact ⟨heof, .inl hresult⟩

/-- The commands that may write EOF or RESULT: START, ABORT, DEC_SYMBOL and RAW_DEC_TARGET. -/
def mayDeliver : Instr → Bool
  | .encStart _ _ _ => true
  | .decStart _ _ _ => true
  | .decSymbol => true
  | .rawDecTarget => true
  | .abort _ => true
  | _ => false

/-- Every other command leaves both. -/
theorem exec_undelivered {i : Instr} {s t : State} (hi : mayDeliver i = false) (h : MayRun s)
    (e : exec i s = .next t) : Undelivered s t := by
  cases i with
  | encStart order alpha rawf => cases hi
  | decStart order alpha rawf => cases hi
  | decSymbol => cases hi
  | rawDecTarget => cases hi
  | abort imm => cases hi
  | encByte b => exact dispatchSession_undelivered (fun hv => encByteBody_untouched h (st_of_valid hv) b) e
  | encFinish => exact dispatchSession_undelivered (fun hv => encFinishBody_untouched h (of_decide_eq_true hv)) e
  | rawEnc => exact dispatchSession_undelivered (fun hv => rawEncBody_untouched h (st_of_valid hv)) e
  | rawDecApply => exact dispatchSession_undelivered (fun hv => rawDecApplyBody_untouched h (st_of_valid hv)) e
  | rawDecEnd => exact dispatchSession_undelivered (fun _ => rawDecEndBody_untouched s) e

/-- Settles O37, command by command. -/
theorem eofFlag : Obligations.EofFlag := by
  refine ⟨fun i s t h e => ?_, fun _ => rfl⟩
  cases i with
  | encStart order alpha rawf => exact (start_delivered h.inv.legal e).1
  | decStart order alpha rawf => exact (start_delivered h.inv.legal e).1
  | encByte b => exact (exec_undelivered rfl h e).1
  | encFinish => exact (exec_undelivered rfl h e).1
  | decSymbol =>
    rcases execDecSymbol_delivers h e with hk | ⟨sym, -, hresult, ⟨-, -, heof⟩ | ⟨hsym, hst, heof⟩⟩
    · exact .inl hk.1
    · exact .inl heof
    · exact .inr ⟨heof, hst, hsym ▸ hresult⟩
  | rawEnc => exact (exec_undelivered rfl h e).1
  | rawDecTarget => exact (execRawDecTarget_delivers h e).1
  | rawDecApply => exact (exec_undelivered rfl h e).1
  | rawDecEnd => exact (exec_undelivered rfl h e).1
  | abort imm => cases e; rfl

/-- Settles O38, command by command. -/
theorem resultRegister : Obligations.ResultRegister := by
  intro i s t h e
  cases i with
  | encStart order alpha rawf => exact (start_delivered h.inv.legal e).2
  | decStart order alpha rawf => exact (start_delivered h.inv.legal e).2
  | encByte b => exact (exec_undelivered rfl h e).2
  | encFinish => exact (exec_undelivered rfl h e).2
  | decSymbol =>
    rcases execDecSymbol_delivers h e with hk | ⟨sym, hlt, hresult, hend⟩
    · exact .inl hk.2
    · refine .inr ⟨?_, hend.imp (fun k => k.2.1) (fun k => k.2.1)⟩
      rw [hresult, BitVec.toNat_ofNat]
      omega
  | rawEnc => exact (exec_undelivered rfl h e).2
  | rawDecTarget => exact (execRawDecTarget_delivers h e).2
  | rawDecApply => exact (exec_undelivered rfl h e).2
  | rawDecEnd => exact (exec_undelivered rfl h e).2
  | abort imm => cases e; rfl

end Sys2Proof.Machine
end

section
/-! The turns of a step and of what arrives (44_commands.md R200, R201; log 2, log 3), and reads while BUSY = 1
(20_memory.md R65). -/

namespace Sys2Proof.Machine

/-! ## What arrives first -/

theorem nextArrival_nil {s : State} (h : s.env.arrivals = []) : nextArrival s = none := by
  unfold nextArrival; rw [h]

theorem nextArrival_cons {s : State} {a : Arrival} {rest : List Arrival} (h : s.env.arrivals = a :: rest) :
    nextArrival s = if landsNow s a then some (a, rest) else none := by
  unfold nextArrival; rw [h]

theorem step_arrival {s : State} {a : Arrival} {rest : List Arrival} (h : nextArrival s = some (a, rest)) :
    step s = .next (land a (dropArrivals rest s)) := by
  unfold step; rw [h]

/-- An arrival at the head of the list that takes effect now is the step. -/
theorem step_lands {s : State} {a : Arrival} {rest : List Arrival} (h : s.env.arrivals = a :: rest)
    (hn : landsNow s a = true) : step s = .next (land a (dropArrivals rest s)) :=
  step_arrival (by rw [nextArrival_cons h, if_pos hn])

theorem landsNow_access (s : State) (a : Access) (l : Landing) :
    landsNow s (.access a l) = (s.inReset || !s.busy || landsInFlight s.portWait.isSome l) := rfl

/-- Outside reset an access lands in the step: BUSY = 0, or its host does not wait for that (log 3). -/
theorem step_access {s : State} {a : Access} {l : Landing} {rest : List Arrival} (hr : s.inReset = false)
    (h : s.env.arrivals = .access a l :: rest)
    (hn : s.busy = false ∨ l = .whileBusy ∨ (l = .asBusyEnds ∧ s.portWait ≠ none)) :
    step s = .next (landAccess a (dropArrivals rest s)) := by
  have hnow : landsNow s (.access a l) = true := by
    rw [landsNow_access]
    rcases hn with hb | rfl | ⟨rfl, hw⟩
    · simp [hb]
    · simp [landsInFlight]
    · simp [landsInFlight, Option.isSome_iff_ne_none.mpr hw]
  have hr' : ¬ (dropArrivals rest s).inReset = true := by simp [hr]
  rw [step_lands h hnow, land_access, if_neg hr']

/-- An access that waits for BUSY = 0, or comes as BUSY falls, is no arrival while the command runs (log 3). -/
theorem nextArrival_waits {s : State} {a : Access} {l : Landing} {rest : List Arrival} (hr : s.inReset = false)
    (h : s.env.arrivals = .access a l :: rest) (hb : s.busy = true)
    (hl : l = .whenIdle ∨ (l = .asBusyEnds ∧ s.portWait = none)) : nextArrival s = none := by
  have hnow : landsNow s (.access a l) = false := by
    rw [landsNow_access]
    rcases hl with rfl | ⟨rfl, hw⟩
    · simp [hr, hb, landsInFlight]
    · simp [hr, hb, landsInFlight, hw]
  rw [nextArrival_cons h, if_neg (by simp [hnow])]

/-! ## The core's turn -/

theorem step_idle {s : State} (hn : nextArrival s = none) (hp : s.pendingCmd = none) : step s = .next s := by
  unfold step coreMove; rw [hn, hp]

/-- The word in flight runs, and then what lands late (log 3). -/
theorem step_runWord {s : State} {w : Word} (hp : s.pendingCmd = some w) (hw : s.portWait = none)
    (hn : nextArrival s = none) : step s = afterCommand s.st (runWord w s) := by
  unfold step coreMove; rw [hn, hp, hw]

/-- Only accesses that come as BUSY falls land late. -/
theorem landLate_stop {l : List Arrival} (h : ∀ a rest, l ≠ .access a .asBusyEnds :: rest) (st : SessionState)
    (t : State) : landLate st l t = t := by
  unfold landLate
  split
  · next a rest => exact absurd rfl (h a rest)
  · rfl

theorem afterCommand_next (st : SessionState) (t : State) :
    afterCommand st (.next t) = .next (if t.busy then t else landLate st t.env.arrivals t) :=
  (apply_ite Host.Outcome.next _ _ _).symm

/-- Where no access at the head of the arrivals comes as BUSY falls, the step of a command is its meaning. -/
theorem step_exec {s : State} {w : Word} {i : Instr} (hp : s.pendingCmd = some w) (hw : s.portWait = none)
    (hn : nextArrival s = none) (hd : decode w = .ok i)
    (hl : ∀ a rest, s.env.arrivals ≠ .access a .asBusyEnds :: rest) : step s = exec i s := by
  obtain ⟨t, ht, hsame⟩ := exec_same i s
  obtain ⟨-, -, -, -, -, harr, -⟩ := hsame
  rw [step_runWord hp hw hn, runWord_of_ok hd, ht, afterCommand_next, harr, landLate_stop hl, ite_self]

/-! ## A word put in flight -/

theorem decode_of_decodeTableWord {nbits w : Nat} {i : Instr} (h : decodeTableWord nbits w = some i) :
    decode (tableWord nbits w) = .ok i := by
  unfold decodeTableWord at h
  split at h
  · next j hj => cases h; exact hj
  · cases h

/-- What `withFetchWord` leaves at the head of the arrivals is an access that waits for BUSY = 0. -/
theorem withFetchWord_arrivals {s : State} {nbits w : Nat} {a : Arrival} {rest : List Arrival}
    (h : (s.withFetchWord nbits w).env.arrivals = a :: rest) : ∃ x, a = .access x .whenIdle := by
  have hstop : mayOvertake a = false := by
    have hdrop : s.env.arrivals.dropWhile mayOvertake = a :: rest := h
    have hne : s.env.arrivals.dropWhile mayOvertake ≠ [] := hdrop ▸ List.cons_ne_nil a rest
    simpa only [hdrop, List.head_cons] using List.head_dropWhile_not mayOvertake hne
  unfold mayOvertake at hstop
  split at hstop
  · next x => exact ⟨x, rfl⟩
  · cases hstop

theorem withFetchWord_nextArrival (s : State) (nbits w : Nat) : nextArrival (s.withFetchWord nbits w) = none := by
  cases h : (s.withFetchWord nbits w).env.arrivals with
  | nil => exact nextArrival_nil h
  | cons a rest =>
    obtain ⟨x, rfl⟩ := withFetchWord_arrivals h
    exact nextArrival_waits rfl h rfl (.inl rfl)

/-- A table word put in flight runs by the meaning of its command. -/
theorem step_withFetchWord {nbits w : Nat} {i : Instr} (h : decodeTableWord nbits w = some i) (s : State) :
    step (s.withFetchWord nbits w) = exec i (s.withFetchWord nbits w) := by
  refine step_exec rfl rfl (withFetchWord_nextArrival s nbits w) (decode_of_decodeTableWord h) fun a rest harr => ?_
  obtain ⟨x, hx⟩ := withFetchWord_arrivals harr
  cases hx

/-- Settles O6, turn by turn. -/
theorem stepRunsAcceptedWord : Obligations.StepRunsAcceptedWord := by
  refine ⟨fun s w hp hw hn => ⟨step_runWord hp hw hn, fun i hd => runWord_of_ok hd s,
      fun r hd => runWord_of_error hd s, fun i hd harr => step_exec hp hw hn hd (by simp [harr])⟩,
    fun s nbits w i h => step_withFetchWord h s,
    fun s a l rest hr h => ⟨step_access hr h, nextArrival_waits hr h⟩,
    fun s rest => ⟨fun a l hr h => ?_, fun h => step_lands h rfl, fun l h => step_lands h rfl,
      fun l h => step_lands h rfl⟩,
    fun s a rest => step_arrival,
    fun s h => ⟨nextArrival_nil h, step_idle (nextArrival_nil h)⟩,
    afterCommand_next, fun _ _ _ _ => rfl, fun st l t h => landLate_stop h st t⟩
  have hr' : (dropArrivals rest s).inReset = true := by simp [hr]
  rw [step_lands h (by simp [landsNow_access, hr]), land_access, if_pos hr']

/-! ## Reads while BUSY = 1 -/

/-- The register map has one offset per register (R61). -/
theorem eq_regOffset_of_regAt {offset : BitVec 8} {r : Reg} (h : regAt offset = some r) : offset = regOffset r := by
  unfold regAt at h
  split at h <;> cases h <;> exact BitVec.eq_of_toNat_eq ‹_›

theorem landAccess_idle_read {s : State} (hb : s.busy = false) {offset : BitVec 8} {r : Reg}
    (h : regAt offset = some r) : landAccess (.read offset 4) s = logRead (regValue r s) s := by
  simp [landAccess, hb, idleAccess, idleRead, reached, h]

theorem landAccess_busy_read {s : State} (hb : s.busy = true) (offset : BitVec 8) :
    landAccess (.read offset 4) s = busyRead (startedIn s) offset 4 s := by
  simp [landAccess, hb, busyAccess]

/-- The registers with a defined value while BUSY = 1 (R65). -/
def readsWhileBusy : List Reg := [.id, .status, .param0, .param1, .param2]

theorem busyRead_free {offset : BitVec 8} {r : Reg} (h : regAt offset = some r) (hr : r ∉ readsWhileBusy)
    (st : SessionState) (s : State) : busyRead st offset 4 s = logFree s := by
  have hreached : reached offset 4 = some r := h
  unfold busyRead
  rw [hreached]
  split
  · next e => cases e
  case h_7 => rfl
  all_goals next e => cases e; exact absurd (by decide) hr

theorem toNat_append_eq_add {m n : Nat} (x : BitVec m) (y : BitVec n) :
    (x ++ y).toNat = x.toNat * 2 ^ n + y.toNat := by
  rw [BitVec.toNat_append, ← Nat.shiftLeft_add_eq_or_of_lt y.isLt, Nat.shiftLeft_eq]

/-- STATUS as a number: STATE at bit 0, BUSY at 3, EOF at 4, CMD_DROPPED at 5 (R23 to R27). -/
theorem statusWord_toNat (st : SessionState) (busy eof dropped : Bool) : (statusWord st busy eof dropped).toNat =
    st.bits.toNat + 2 ^ 3 * busy.toNat + 2 ^ 4 * eof.toNat + 2 ^ 5 * dropped.toNat := by
  simp only [statusWord, toNat_append_eq_add, BitVec.toNat_ofBool, BitVec.toNat_ofNat]
  omega

/-- Settles O12: STATUS as a number, the constants, the free draws, and every register once BUSY = 0. -/
theorem busyReads : Obligations.BusyReads := by
  intro s log
  refine ⟨fun hb => ?_, fun hb offset r h => landAccess_idle_read hb h⟩
  have hread : ∀ offset, landAccess (.read offset 4) s = busyRead (startedIn s) offset 4 s := landAccess_busy_read hb
  refine ⟨⟨statusWord (startedIn s) true s.eof s.cmdDropped, hread 0x08, ?_⟩, hread 0x00, hread 0x24, hread 0x28,
    hread 0x2C, fun offset r h hoff => ?_⟩
  · have hbits : (startedIn s).bits.toNat = match startedIn s with
        | .idle => 0 | .enc => 1 | .dec => 2 | .done => 3 | .error => 4 := by
      cases startedIn s <;> rfl
    rw [statusWord_toNat, hbits]
    rfl
  · have hr : r ∉ readsWhileBusy := fun hmem => hoff (by
      rw [eq_regOffset_of_regAt h]; exact List.mem_map_of_mem (f := regOffset) hmem)
    rw [hread, busyRead_free h hr]
    rfl

end Sys2Proof.Machine
end

section
/-! Which port a command uses, by the direction of its session (20_memory.md R71). -/

namespace Sys2Proof.Machine

/-- The source is as `s` has it. -/
def SourceUnused (s : State) (e : Env) : Prop := e.source = s.env.source

/-- The sink and its bytes are as `s` has them. -/
def SinkUnused (s : State) (e : Env) : Prop := e.sink = s.env.sink ∧ e.sunk = s.env.sunk

/-- Whichever end a micro-operation comes to, `Q` holds of the outside world it leaves. -/
def EnvThroughout {α : Type} (Q : Env → Prop) (r : Res α) : Prop := Throughout (fun u => Q u.env) r

/-! ## How a command ends, seen from the outside world -/

/-- The end of a command does not touch the outside world (R200, R244, R277). -/
theorem finishCommand_env {Q : Env → Prop} {opc : BitVec 8} {st : SessionState} {r : Res Unit} {t : State}
    (h : EnvThroughout Q r) (e : finishCommand opc st r = .next t) : Q t.env :=
  finishCommand_rule (Q := fun u => Q u.env) h e

/-- Nor does a session command that is ignored or refused. -/
theorem dispatchSession_env {Q : Env → Prop} {opc : BitVec 8} {valid : Bool} {body : State → Res Unit} {s t : State}
    (hs : Q s.env) (hb : valid = true → EnvThroughout Q (body s))
    (e : dispatchSession opc valid body s = .next t) : Q t.env :=
  dispatchSession_rule (Q := fun u => Q u.env) hs hs (fun _ => hb) e

/-! ## The port of each rule -/

theorem EncodeWrites.source {s t : State} (h : EncodeWrites s t) : SourceUnused s t.env := by
  unfold EncodeWrites at h; unfold SourceUnused; rw [h]

theorem DecodeWrites.sink {s t : State} (h : DecodeWrites s t) : SinkUnused s t.env := by
  unfold DecodeWrites at h; unfold SinkUnused; rw [h]; exact ⟨rfl, rfl⟩

theorem DecoderOnly.sink {s t : State} (h : DecoderOnly s t) : SinkUnused s t.env := by
  unfold DecoderOnly at h; unfold SinkUnused; rw [h]; exact ⟨rfl, rfl⟩

section
variable {s : State} (h : MayRun s)
include h

theorem encByteBody_source (he : s.st = .enc) (b : Byte) : EnvThroughout (SourceUnused s) (encByteBody b s) := by
  refine (encByteBody_post b (h.encodeOpen he)).imp (fun _ _ k => k.writes.encode.1.source) ?_ ?_
  · rintro _ u ⟨-, -, hw, -⟩; exact hw.encode.1.source
  · rintro _ u ⟨-, -, hw⟩; exact hw.encode.1.source

theorem encFinishBody_source (he : s.st = .enc) : EnvThroughout (SourceUnused s) (encFinishBody s) := by
  refine (encFinishBody_post (h.encodeOpen he)).imp (fun _ _ k => k.writes.encode.source) ?_ ?_
  · rintro _ u ⟨-, -, hw, -⟩; exact hw.encode.source
  · rintro _ u ⟨-, -, hw, -⟩; exact hw.encode.source

theorem rawEncBody_source (he : s.st = .enc) : EnvThroughout (SourceUnused s) (rawEncBody s) := by
  refine (rawEncBody_post (h.encodeOpen he)).imp ?_ ?_ ?_
  · rintro _ u ⟨-, -, hw, -⟩; exact hw.encode.1.source
  · rintro _ u (⟨-, rfl, -⟩ | ⟨-, -, hw, -⟩)
    · exact rfl
    · exact hw.encode.1.source
  · rintro _ u ⟨-, -, hw⟩; exact hw.encode.1.source

theorem decSymbolBody_sink (he : s.st = .dec) : EnvThroughout (SinkUnused s) (decSymbolBody s) := by
  refine (decSymbolBody_post (h.decodeOpen he)).imp ?_ ?_ ?_
  · rintro _ u ⟨_, hd⟩; exact hd.writes.decode.sink
  · rintro _ u ⟨-, -, hw, -⟩; exact hw.decode.sink
  · rintro _ u ⟨-, -, ho⟩; exact ho.sink

theorem rawDecTargetBody_sink (he : s.st = .dec) : EnvThroughout (SinkUnused s) (rawDecTargetBody s) := by
  refine (rawDecTargetBody_post (h.decodeOpen he)).imp ?_ ?_ (fun _ _ k => k.elim)
  · rintro _ u ⟨-, -, rfl⟩; exact ⟨rfl, rfl⟩
  · rintro _ u ⟨-, -, rfl⟩; exact ⟨rfl, rfl⟩

theorem rawDecApplyBody_sink (he : s.st = .dec) : EnvThroughout (SinkUnused s) (rawDecApplyBody s) := by
  refine (rawDecApplyBody_post (h.decodeOpen he)).imp ?_ ?_ ?_
  · rintro _ u ⟨-, -, -, hw, -⟩; exact hw.decode.1.sink
  · rintro _ u (⟨rfl, -⟩ | ⟨rfl, -⟩ | ⟨rfl, -⟩ | ⟨-, -, hw, -⟩)
    · exact ⟨rfl, rfl⟩
    · exact ⟨rfl, rfl⟩
    · exact ⟨rfl, rfl⟩
    · exact hw.decode.1.sink
  · rintro _ u ⟨-, -, hw, -⟩; exact hw.decode.1.sink

end

theorem rawDecEndBody_sink (s : State) : EnvThroughout (SinkUnused s) (rawDecEndBody s) := ⟨rfl, rfl⟩

/-- START for an encode session uses neither port (R202). -/
theorem encStart_source {s : State} (hb : s.build.legal = true) (order : Int) (alpha : Nat) (rawf : Bool) :
    EnvThroughout (SourceUnused s) (start .encode order alpha rawf s) := by
  rw [start_eq hb]
  split
  · exact rfl
  · split
    · exact rfl
    · split <;> exact rfl

/-- Neither START uses the sink: decInit only reads (R151, R202, R203). -/
theorem start_sink {s : State} (hb : s.build.legal = true) (d : Direction) (order : Int) (alpha : Nat)
    (rawf : Bool) : EnvThroughout (SinkUnused s) (start d order alpha rawf s) := by
  rw [start_eq hb]
  split
  · exact ⟨rfl, rfl⟩
  · split
    · exact ⟨rfl, rfl⟩
    · split
      · exact ⟨rfl, rfl⟩
      · cases d with
        | encode => exact ⟨rfl, rfl⟩
        | decode =>
          refine (decInit_post (s := opened .decode order rawf s) hb rfl rfl rfl (Nat.zero_le _)).imp ?_ ?_ ?_
          · rintro _ u ⟨-, ho, -⟩; exact ho.sink
          · rintro _ u ⟨-, -, hstop, -⟩; exact hstop.only.sink
          · rintro _ u ⟨-, hstop, -⟩; exact hstop.only.sink

/-! ## The port of each command -/

/-- Outside DEC no command but DEC_START uses the source. -/
theorem exec_source {i : Instr} {s t : State} (h : MayRun s) (e : exec i s = .next t)
    (hi : ∀ o a r, i ≠ .decStart o a r) (hst : s.st ≠ .dec) : SourceUnused s t.env := by
  cases i with
  | encStart order alpha rawf => exact finishCommand_env (encStart_source h.inv.legal order alpha rawf) e
  | decStart order alpha rawf => exact absurd rfl (hi order alpha rawf)
  | encByte b => exact dispatchSession_env rfl (fun hv => encByteBody_source h (st_of_valid hv) b) e
  | encFinish => exact dispatchSession_env rfl (fun hv => encFinishBody_source h (of_decide_eq_true hv)) e
  | decSymbol => exact dispatchSession_env rfl (fun hv => absurd (st_of_valid hv) hst) e
  | rawEnc => exact dispatchSession_env rfl (fun hv => rawEncBody_source h (st_of_valid hv)) e
  | rawDecTarget => exact dispatchSession_env rfl (fun hv => absurd (st_of_valid hv) hst) e
  | rawDecApply => exact dispatchSession_env rfl (fun hv => absurd (st_of_valid hv) hst) e
  | rawDecEnd => exact dispatchSession_env rfl (fun hv => absurd (st_of_valid hv) hst) e
  | abort imm => cases e; rfl

/-- Outside ENC no command uses the sink. -/
theorem exec_sink {i : Instr} {s t : State} (h : MayRun s) (e : exec i s = .next t) (hst : s.st ≠ .enc) :
    SinkUnused s t.env := by
  have hs : SinkUnused s s.env := ⟨rfl, rfl⟩
  cases i with
  | encStart order alpha rawf => exact finishCommand_env (start_sink h.inv.legal .encode order alpha rawf) e
  | decStart order alpha rawf => exact finishCommand_env (start_sink h.inv.legal .decode order alpha rawf) e
  | encByte b => exact dispatchSession_env hs (fun hv => absurd (st_of_valid hv) hst) e
  | encFinish => exact dispatchSession_env hs (fun hv => absurd (of_decide_eq_true hv) hst) e
  | decSymbol => exact dispatchSession_env hs (fun hv => decSymbolBody_sink h (st_of_valid hv)) e
  | rawEnc => exact dispatchSession_env hs (fun hv => absurd (st_of_valid hv) hst) e
  | rawDecTarget => exact dispatchSession_env hs (fun hv => rawDecTargetBody_sink h (st_of_valid hv)) e
  | rawDecApply => exact dispatchSession_env hs (fun hv => rawDecApplyBody_sink h (st_of_valid hv)) e
  | rawDecEnd => exact dispatchSession_env hs (fun _ => rawDecEndBody_sink s) e
  | abort imm => cases e; exact hs

/-- Settles O17: the source by `exec_source`, the sink by `exec_sink`, and by `start_sink` in every STATE. -/
theorem portsByDirection : Obligations.PortsByDirection := by
  refine fun i s t h e => ⟨exec_source h e, exec_sink h e, ?_⟩
  rintro ⟨order, alpha, rawf, rfl | rfl⟩
  · exact finishCommand_env (start_sink h.inv.legal .encode order alpha rawf) e
  · exact finishCommand_env (start_sink h.inv.legal .decode order alpha rawf) e

end Sys2Proof.Machine
end

section
/-! The register window: which register an access reaches, what a refused access leaves, and what each register reads as
a number (20_memory.md R61 to R64). -/

namespace Sys2Proof.Machine

/-! ## Which register an access reaches (R62) -/

theorem regAt_regOffset (r : Reg) : regAt (regOffset r) = some r := by
  cases r <;> rfl

theorem reached_eq_some {offset : BitVec 8} {bytes : Nat} {r : Reg} :
    reached offset bytes = some r ↔ bytes = 4 ∧ offset = regOffset r := by
  constructor
  · intro h
    unfold reached at h
    split at h
    · next hb => exact ⟨hb, eq_regOffset_of_regAt h⟩
    · cases h
  · rintro ⟨rfl, rfl⟩
    exact regAt_regOffset r

/-- Every register lies at a multiple of 4 up to 0x50 (R61). -/
theorem regOffset_aligned (r : Reg) : (regOffset r).toNat % 4 = 0 ∧ (regOffset r).toNat ≤ 0x50 := by
  cases r <;> decide

theorem reached_eq_none {offset : BitVec 8} {bytes : Nat}
    (h : bytes ≠ 4 ∨ offset.toNat % 4 ≠ 0 ∨ 0x50 < offset.toNat) : reached offset bytes = none := by
  refine Option.eq_none_iff_forall_ne_some.mpr fun r hr => ?_
  obtain ⟨rfl, rfl⟩ := reached_eq_some.mp hr
  have hr := regOffset_aligned r
  omega

/-! ## Accesses by the state of BUSY -/

theorem landAccess_idle {s : State} (hb : s.busy = false) (a : Access) : landAccess a s = idleAccess a s := by
  simp [landAccess, hb]

theorem landAccess_busy {s : State} (hb : s.busy = true) (a : Access) :
    landAccess a s = busyAccess (startedIn s) a s := by
  simp [landAccess, hb]

/-- What a read answers while BUSY = 0: the register's value, or 0 where it reaches none (R61, R62). -/
def readValue (offset : BitVec 8) (bytes : Nat) (s : State) : Word :=
  match reached offset bytes with
  | none => 0
  | some r => regValue r s

theorem idleRead_eq (offset : BitVec 8) (bytes : Nat) (s : State) :
    idleRead offset bytes s = logRead (readValue offset bytes s) s := by
  unfold idleRead readValue
  cases reached offset bytes <;> rfl

/-- No register shows the log of reads. -/
theorem regValue_logRead (r : Reg) (v : Word) (s : State) : regValue r (logRead v s) = regValue r s := by
  cases r <;> rfl

theorem readValue_logRead (offset : BitVec 8) (bytes : Nat) (v : Word) (s : State) :
    readValue offset bytes (logRead v s) = readValue offset bytes s := by
  unfold readValue
  split
  · rfl
  · exact regValue_logRead _ v s

theorem landAccess_read_unreached {offset : BitVec 8} {bytes : Nat} (h : reached offset bytes = none) (s : State) :
    landAccess (.read offset bytes) s = logRead 0 s := by
  cases hb : s.busy with
  | false => rw [landAccess_idle hb]; simp [idleAccess, idleRead, h]
  | true => rw [landAccess_busy hb]; simp [busyAccess, busyRead, h]

/-! ## Writes (R61, R64) -/

/-- The registers a host can write. -/
def writable : List Reg := [.cmd, .arg0, .arg1, .arg2]

theorem idleWrite_refused {offset : BitVec 8} {bytes : Nat} (h : ∀ r ∈ writable, reached offset bytes ≠ some r)
    (v : Word) (s : State) : idleWrite offset bytes v s = s := by
  unfold idleWrite
  split
  case h_5 => rfl
  all_goals next e => exact absurd e (h _ (by decide))

theorem busyWrite_refused {offset : BitVec 8} {bytes : Nat} (h : ∀ r ∈ writable, reached offset bytes ≠ some r)
    (s : State) : busyWrite offset bytes s = s := by
  unfold busyWrite
  split
  case h_5 => rfl
  all_goals next e => exact absurd e (h _ (by decide))

/-- A write that reaches none of the four has no effect, busy or not (R62). -/
theorem landAccess_write_refused {offset : BitVec 8} {bytes : Nat}
    (h : ∀ r ∈ writable, reached offset bytes ≠ some r) (v : Word) (s : State) :
    landAccess (.write offset bytes v) s = s := by
  cases hb : s.busy with
  | false => exact (landAccess_idle hb _).trans (idleWrite_refused h v s)
  | true => exact (landAccess_busy hb _).trans (busyWrite_refused h s)

/-- While BUSY = 1 a write to one of the four only sets CMD_DROPPED (R64). -/
theorem busyWrite_dropped {r : Reg} (h : r ∈ writable) (s : State) :
    busyWrite (regOffset r) 4 s = { s with cmdDropped := true } := by
  unfold busyWrite
  rw [reached_eq_some.mpr ⟨rfl, rfl⟩]
  fin_cases h <;> rfl

/-- Settles O8, by the write that each end of the busy period makes. -/
theorem droppedWhileBusy : Obligations.DroppedWhileBusy := by
  intro s offset v hoff
  obtain ⟨r, hr, rfl⟩ : ∃ r ∈ writable, regOffset r = offset := List.mem_map.mp hoff
  exact ⟨fun hb => (landAccess_busy hb _).trans (busyWrite_dropped hr s), fun _ => busyWrite_dropped hr s⟩

/-- Settles O9: such an access reaches no register, and a write elsewhere none of the four. -/
theorem refusedAccesses : Obligations.RefusedAccesses := by
  refine fun s offset bytes v => ⟨fun h => ?_, fun hoff => ?_⟩
  · have hnone := reached_eq_none h
    exact ⟨landAccess_write_refused (by simp [hnone]) v s, landAccess_read_unreached hnone s⟩
  · refine landAccess_write_refused (fun r hr hreach => hoff ?_) v s
    rw [(reached_eq_some.mp hreach).2]
    exact List.mem_map_of_mem (f := regOffset) hr

/-- Settles O11: a read's value does not depend on the log, and a write goes by the register it reaches. -/
theorem idleAccesses : Obligations.IdleAccesses := by
  intro s hb
  refine ⟨fun offset bytes => ⟨readValue offset bytes s, ?_⟩, fun offset bytes v => ?_⟩
  · have hread : ∀ t : State, t.busy = false →
        landAccess (.read offset bytes) t = logRead (readValue offset bytes t) t :=
      fun t ht => (landAccess_idle ht _).trans (idleRead_eq offset bytes t)
    refine ⟨hread s hb, ?_⟩
    rw [hread s hb, hread (logRead _ s) hb, readValue_logRead]
    rfl
  · rw [landAccess_idle hb]
    split
    · next h => obtain ⟨rfl, rfl⟩ := h; rfl
    split
    · next h => obtain ⟨rfl, rfl⟩ := h; rfl
    split
    · next h => obtain ⟨rfl, rfl⟩ := h; rfl
    split
    · next h => obtain ⟨rfl, rfl⟩ := h; rfl
    next hcmd harg0 harg1 harg2 =>
      refine idleWrite_refused (fun r hr hreach => ?_) v s
      have hoff := reached_eq_some.mp hreach
      fin_cases hr
      · exact hcmd hoff
      · exact harg0 hoff
      · exact harg1 hoff
      · exact harg2 hoff

/-! ## The registers as numbers (R61) -/

theorem SessionState.bits_toNat (st : SessionState) : st.bits.toNat =
    match st with | .idle => 0 | .enc => 1 | .dec => 2 | .done => 3 | .error => 4 := by
  cases st <;> rfl

theorem Direction.bit_toNat (d : Direction) : d.bit.toNat = match d with | .encode => 0 | .decode => 1 := by
  cases d <;> rfl

theorem ErrCode.bits_toNat (c : ErrCode) : c.bits.toNat =
    match c with
    | .none => 0 | .ioFailure => 1 | .modelCorruption => 2 | .configurationError => 3 | .resourceExhausted => 4
    | .illegalCommand => 5 := by
  cases c <;> rfl

/-- ERR as a number: CODE at bit 0, SUB at 8, OPC at 16 (R28). -/
theorem errWord_toNat (e : ErrReg) :
    (errWord e).toNat = e.code.bits.toNat + 2 ^ 8 * e.sub.toNat + 2 ^ 16 * e.opc.toNat := by
  simp only [errWord, toNat_append_eq_add, BitVec.toNat_ofNat]
  omega

/-- SESSION as a number: M mod 256 at bit 0, DIR at 8, RAW at 9, HIST_LEN at 16 (R61). -/
theorem sessionWord_toNat (order : Int) (dir : Direction) (raw : Bool) {n : Nat} (hn : n < 2 ^ 8) :
    (sessionWord order dir raw n).toNat =
      (order % 2 ^ 8).toNat + 2 ^ 8 * dir.bit.toNat + 2 ^ 9 * raw.toNat + 2 ^ 16 * n := by
  simp only [sessionWord, toNat_append_eq_add, BitVec.toNat_ofNat, BitVec.toNat_ofBool, BitVec.toNat_ofInt,
    Nat.mod_eq_of_lt hn]
  push_cast
  omega

/-- PARAM0 as a number: W at bit 0, PENDING_WIDTH at 8, MAX_ORDER at 16 (R61). -/
theorem param0Word_toNat {b : Build} (h : b.legal = true) :
    (param0Word b).toNat = b.width + 2 ^ 8 * b.pendingWidth + 2 ^ 16 * b.maxOrder := by
  have hw := legal_width h
  have hp := legal_pendingWidth h
  have hm := legal_maxOrder h
  simp only [param0Word, toNat_append_eq_add, BitVec.toNat_ofNat]
  omega

theorem param1Word_toNat {b : Build} (h : b.legal = true) : (param1Word b).toNat = b.threshold := by
  have ⟨_, hmax⟩ := legal_threshold h
  have ⟨hfull, hhalf⟩ := full_eq h
  have hle := full_le h
  have hq := quarter_ge h
  unfold Build.maxTotal at hmax
  exact Nat.mod_eq_of_lt (by omega)

/-- PARAM2 as a number: 0 for UNBOUNDED (R12, R61). -/
theorem param2Word_toNat {b : Build} (h : b.legal = true) : (param2Word b).toNat = b.nodeCapacity.getD 0 := by
  refine Nat.mod_eq_of_lt ?_
  have hcap := legal_capacity h
  cases hc : b.nodeCapacity with
  | none => decide
  | some c =>
    rw [hc] at hcap
    exact (of_decide_eq_true hcap).2

theorem nodesWord_toNat {n : Nat} (h : n < 2 ^ 32) : (nodesWord n).toNat = n := by
  rw [nodesWord, if_pos h]
  exact Nat.mod_eq_of_lt h

/-- LOW, HIGH and CODE, which are below FULL, fit their DBG registers (R9, R61). -/
theorem toNat_ofNat_of_lt_full {b : Build} (h : b.legal = true) {n : Nat} (hn : n < b.full) :
    (BitVec.ofNat 32 n).toNat = n :=
  Nat.mod_eq_of_lt (lt_of_lt_of_le hn (full_le h))

theorem pendingMax_lt {b : Build} (h : b.legal = true) : b.pendingMax < 2 ^ 32 := by
  have hle : 2 ^ b.pendingWidth ≤ 2 ^ 32 := Nat.pow_le_pow_right (by decide) (legal_pendingWidth h).2
  have hpos := Nat.two_pow_pos b.pendingWidth
  unfold Build.pendingMax
  omega

/-- HIST_LEN fits its 8 bits: it is at most M, which is at most 127 (R11, R40). -/
theorem Inv.histLen_lt {s : State} (h : Inv s) : s.hist.length < 2 ^ 8 := by
  have hhist := h.model.history
  have horder := h.fit.orderHigh
  have hmax := legal_maxOrder h.legal
  omega

/-- While BUSY = 0 a read of a register answers its number and changes only the log of reads. -/
theorem read_of_toNat {s : State} (hb : s.busy = false) (r : Reg) {n : Nat} (hn : (regValue r s).toNat = n) :
    ∃ v : Word, v.toNat = n ∧
      landAccess (.read (regOffset r) 4) s = { s with env := { s.env with reads := s.env.reads ++ [v] } } :=
  ⟨regValue r s, hn, landAccess_idle_read hb (regAt_regOffset r)⟩

/-- Settles O10, register by register. -/
theorem registerMap : Obligations.RegisterMap := by
  intro s h hb state dir code
  have hstate : s.st.bits.toNat = state := s.st.bits_toNat
  have hdir : s.dir.bit.toNat = dir := s.dir.bit_toNat
  have hcode : s.err.code.bits.toNat = code := s.err.code.bits_toNat
  have hstatus : (statusWord s.st s.busy s.eof s.cmdDropped).toNat =
      state + 2 ^ 4 * s.eof.toNat + 2 ^ 5 * s.cmdDropped.toNat := by
    rw [statusWord_toNat, hstate, hb]; rfl
  have herr : (errWord s.err).toNat = code + 2 ^ 8 * s.err.sub.toNat + 2 ^ 16 * s.err.opc.toNat :=
    hcode ▸ errWord_toNat s.err
  have hsession : (sessionWord s.order s.dir s.raw s.hist.length).toNat =
      (s.order % 2 ^ 8).toNat + 2 ^ 8 * dir + 2 ^ 9 * s.raw.toNat + 2 ^ 16 * s.hist.length :=
    hdir ▸ sessionWord_toNat s.order s.dir s.raw h.histLen_lt
  have hpending : (BitVec.ofNat 32 s.pending).toNat = s.pending :=
    Nat.mod_eq_of_lt (lt_of_le_of_lt h.fit.pending (pendingMax_lt h.legal))
  have reads := read_of_toNat hb
  simp only [List.forall_mem_append, List.forall_mem_cons]
  refine ⟨⟨reads .id rfl, reads .cmd rfl, reads .status hstatus, reads .err herr, reads .result rfl,
    reads .arg0 rfl, reads .arg1 rfl, reads .arg2 rfl, reads .session hsession,
    reads .param0 (param0Word_toNat h.legal), reads .param1 (param1Word_toNat h.legal),
    reads .param2 (param2Word_toNat h.legal), reads .bitsOut rfl, reads .bytesOut rfl, reads .bytesIn rfl,
    reads .syms rfl, reads .dbgLow (toNat_ofNat_of_lt_full h.legal h.fit.low),
    reads .dbgHigh (toNat_ofNat_of_lt_full h.legal h.fit.high),
    reads .dbgCode (toNat_ofNat_of_lt_full h.legal h.fit.code), reads .dbgPending hpending, nofun⟩, ?_⟩
  split
  · next hn => exact List.forall_mem_singleton.mpr (reads .nodes (nodesWord_toNat hn))
  · exact nofun

end Sys2Proof.Machine
end

section
/-! Decoding and encoding as two readings of one word: OPC and IMM as numbers, the fields a command's format reads from
IMM, and the bits it reserves (30_encoding.md R80 to R87). -/

namespace Sys2Proof

theorem eq_zero_iff_toNat {n : Nat} (x : BitVec n) : x = 0 ↔ x.toNat = 0 := by
  rw [← BitVec.toNat_inj]; simp

/-! ## OPC and IMM (R80) -/

theorem opcOf_toNat (w : Word) : (opcOf w).toNat = w.toNat / 2 ^ 24 := by
  rw [opcOf, BitVec.extractLsb'_toNat, Nat.shiftRight_eq_div_pow]
  exact Nat.mod_eq_of_lt (by omega)

theorem immOf_toNat (w : Word) : (immOf w).toNat = w.toNat % 2 ^ 24 := by
  rw [immOf, BitVec.extractLsb'_toNat, Nat.shiftRight_zero]

theorem opcOf_append_immOf (w : Word) : opcOf w ++ immOf w = w := by
  apply BitVec.eq_of_toNat_eq
  rw [Machine.toNat_append_eq_add, opcOf_toNat, immOf_toNat]
  exact Nat.div_add_mod' w.toNat (2 ^ 24)

theorem opcOf_encode (i : Instr) : opcOf (encode i) = opcode i :=
  Laws.EncodeOpc.opc_append _ _

theorem immOf_encode (i : Instr) : immOf (encode i) = immediate i := by
  apply BitVec.eq_of_toNat_eq
  rw [immOf_toNat, encode, Machine.toNat_append_eq_add]
  have := (immediate i).isLt
  omega

/-! ## The fields of IMM as numbers (R81, R82) -/

theorem imm7to0_toNat (w : Word) : (imm7to0 w).toNat = (immOf w).toNat % 2 ^ 8 := by
  rw [imm7to0, BitVec.extractLsb'_toNat, Nat.shiftRight_zero, immOf_toNat]
  omega

theorem orderOf_eq (w : Word) : orderOf w =
    if (immOf w).toNat % 2 ^ 8 < 2 ^ 7 then (((immOf w).toNat % 2 ^ 8 : Nat) : Int)
    else ((immOf w).toNat % 2 ^ 8 : Nat) - 2 ^ 8 := by
  rw [orderOf, BitVec.toInt_eq_toNat_cond, imm7to0_toNat]
  split <;> split <;> omega

theorem alphaOf_eq (w : Word) : alphaOf w = (immOf w).toNat / 2 ^ 8 % 2 ^ 9 := by
  rw [alphaOf, BitVec.extractLsb'_toNat, Nat.shiftRight_eq_div_pow, immOf_toNat]
  omega

theorem rawfOf_eq (w : Word) : rawfOf w = decide ((immOf w).toNat / 2 ^ 17 % 2 = 1) := by
  rw [rawfOf, BitVec.getLsbD, Nat.testBit_eq_decide_div_mod_eq, immOf_toNat]
  congr 1
  apply propext
  omega

theorem reservedS_eq_zero (w : Word) : reservedS w = 0 ↔ (immOf w).toNat / 2 ^ 18 = 0 := by
  rw [eq_zero_iff_toNat, reservedS, BitVec.extractLsb'_toNat, Nat.shiftRight_eq_div_pow, immOf_toNat]
  omega

theorem reservedB_eq_zero (w : Word) : reservedB w = 0 ↔ (immOf w).toNat / 2 ^ 8 = 0 := by
  rw [eq_zero_iff_toNat, reservedB, BitVec.extractLsb'_toNat, Nat.shiftRight_eq_div_pow, immOf_toNat]
  omega

/-! ## The format of a command (R81 to R84) -/

/-- How many bits of IMM the command's format reads; the format reserves those above. -/
def Instr.immBits : Instr → Nat
  | .encStart _ _ _ | .decStart _ _ _ => 18
  | .encByte _ => 8
  | .abort _ => 24
  | _ => 0

/-- The command of the same opcode with the fields of `w`. -/
def Instr.withFieldsOf (w : Word) : Instr → Instr
  | .encStart _ _ _ => .encStart (orderOf w) (alphaOf w) (rawfOf w)
  | .decStart _ _ _ => .decStart (orderOf w) (alphaOf w) (rawfOf w)
  | .encByte _ => .encByte (imm7to0 w)
  | .abort _ => .abort (immOf w)
  | i => i

theorem opcode_withFieldsOf (w : Word) (i : Instr) : opcode (i.withFieldsOf w) = opcode i := by
  cases i <;> rfl

/-- A word with a command's opcode is that command with the word's fields, or is refused for a bit above them. -/
theorem decode_of_opcode {w : Word} {i : Instr} (h : opcOf w = opcode i) : decode w =
    if (immOf w).toNat / 2 ^ i.immBits = 0 then .ok (i.withFieldsOf w)
    else .error (.reservedBits (opcode i)) := by
  have hS : ∀ mk, decodeS mk w =
      if (immOf w).toNat / 2 ^ 18 = 0 then .ok (mk (orderOf w) (alphaOf w) (rawfOf w))
      else .error (.reservedBits (opcode i)) := by
    simp only [decodeS, reservedS_eq_zero, h, implies_true]
  have hB : decodeB w = if (immOf w).toNat / 2 ^ 8 = 0 then .ok (.encByte (imm7to0 w))
      else .error (.reservedBits (opcode i)) := by
    simp only [decodeB, reservedB_eq_zero, h]
  have hN : ∀ j, decodeN j w = if (immOf w).toNat / 2 ^ 0 = 0 then .ok j
      else .error (.reservedBits (opcode i)) := by
    simp only [decodeN, eq_zero_iff_toNat, pow_zero, Nat.div_one, h, implies_true]
  have hA : (immOf w).toNat / 2 ^ 24 = 0 := Nat.div_eq_of_lt (immOf w).isLt
  unfold decode
  rw [h]
  cases i with
  | encStart _ _ _ | decStart _ _ _ => exact hS _
  | encByte _ => exact hB
  | abort _ => exact (if_pos hA).symm
  | encFinish | decSymbol | rawEnc | rawDecTarget | rawDecApply | rawDecEnd => exact hN _

theorem decode_of_unreserved {w : Word} {i : Instr} (h : opcOf w = opcode i)
    (hz : (immOf w).toNat / 2 ^ i.immBits = 0) : decode w = .ok (i.withFieldsOf w) :=
  (decode_of_opcode h).trans (if_pos hz)

theorem decode_of_reserved {w : Word} {i : Instr} (h : opcOf w = opcode i)
    (hz : (immOf w).toNat / 2 ^ i.immBits ≠ 0) : decode w = .error (.reservedBits (opcode i)) :=
  (decode_of_opcode h).trans (if_neg hz)

/-- R86's opcodes are those of the ten commands. -/
theorem definedOpc_iff {o : BitVec 8} : Machine.definedOpc o.toNat ↔ ∃ i, opcode i = o := by
  constructor
  · intro h
    have hmem : ∀ n < 16, Machine.definedOpc n → n ∈ ([.encStart 0 0 false, .decStart 0 0 false, .encByte 0,
        .encFinish, .decSymbol, .rawEnc, .rawDecTarget, .rawDecApply, .rawDecEnd, .abort 0] : List Instr).map
        fun i => (opcode i).toNat := by
      unfold Machine.definedOpc; decide
    have hlt : o.toNat < 16 := by unfold Machine.definedOpc at h; omega
    obtain ⟨i, -, hi⟩ := List.mem_map.mp (hmem o.toNat hlt h)
    exact ⟨i, BitVec.eq_of_toNat_eq hi⟩
  · rintro ⟨i, rfl⟩
    unfold Machine.definedOpc
    cases i <;> simp [opcode]

theorem decode_of_undefined {w : Word} (h : ¬ Machine.definedOpc (opcOf w).toNat) :
    decode w = .error (.undefinedOpcode (opcOf w)) := by
  unfold decode
  split
  case h_11 => rfl
  all_goals next e => exact absurd (by rw [e]; unfold Machine.definedOpc; decide) h

/-! ## The immediate, field by field -/

theorem immS_toNat (order : Int) (alpha : Nat) (rawf : Bool) : (immS order alpha rawf).toNat =
    (order % 2 ^ 8).toNat + 2 ^ 8 * (alpha % 2 ^ 9) + 2 ^ 17 * rawf.toNat := by
  simp only [immS, Machine.toNat_append_eq_add, BitVec.toNat_ofNat, BitVec.toNat_ofBool, BitVec.toNat_ofInt]
  push_cast
  omega

theorem immediate_encByte_toNat (b : Byte) : (immediate (.encByte b)).toNat = b.toNat := by
  simp only [immediate, Machine.toNat_append_eq_add, BitVec.toNat_ofNat]
  omega

/-- An immediate sets no bit that its format reserves. -/
theorem immediate_unreserved (i : Instr) : (immediate i).toNat / 2 ^ i.immBits = 0 := by
  have hS : ∀ order alpha rawf, (immS order alpha rawf).toNat / 2 ^ 18 = 0 := by
    intro order alpha rawf
    have := Bool.toNat_le rawf
    rw [immS_toNat]
    omega
  cases i with
  | encStart order alpha rawf | decStart order alpha rawf => exact hS order alpha rawf
  | encByte b => exact (immediate_encByte_toNat b).symm ▸ Nat.div_eq_of_lt b.isLt
  | abort imm => exact Nat.div_eq_of_lt imm.isLt
  | encFinish | decSymbol | rawEnc | rawDecTarget | rawDecApply | rawDecEnd => rfl

theorem orderOf_of_immS {w : Word} {order : Int} {alpha : Nat} {rawf : Bool} (h : immOf w = immS order alpha rawf)
    (ho : orderFits order = true) : orderOf w = order := by
  have ⟨h1, h2⟩ : -128 ≤ order ∧ order ≤ 127 := of_decide_eq_true ho
  rw [orderOf_eq, h, immS_toNat]
  split <;> omega

theorem alphaOf_of_immS {w : Word} {order : Int} {alpha : Nat} {rawf : Bool} (h : immOf w = immS order alpha rawf)
    (ha : alphaFits alpha = true) : alphaOf w = alpha := by
  have ha : alpha < 512 := of_decide_eq_true ha
  rw [alphaOf_eq, h, immS_toNat]
  omega

theorem rawfOf_of_immS {w : Word} {order : Int} {alpha : Nat} {rawf : Bool} (h : immOf w = immS order alpha rawf) :
    rawfOf w = rawf := by
  rw [rawfOf_eq, h, immS_toNat]
  cases rawf with
  | false => exact decide_eq_false (by rw [Bool.toNat_false]; omega)
  | true => exact decide_eq_true (by rw [Bool.toNat_true]; omega)

/-- A well-formed command's fields are those of any word that carries its immediate. -/
theorem withFieldsOf_of_immediate {w : Word} {i : Instr} (hi : i.wellFormed = true) (h : immOf w = immediate i) :
    i.withFieldsOf w = i := by
  cases i with
  | encStart order alpha rawf | decStart order alpha rawf =>
    obtain ⟨ho, ha⟩ := Bool.and_eq_true_iff.mp hi
    rw [Instr.withFieldsOf, orderOf_of_immS h ho, alphaOf_of_immS h ha, rawfOf_of_immS h]
  | encByte b =>
    refine congrArg Instr.encByte (BitVec.eq_of_toNat_eq ?_)
    rw [imm7to0_toNat, h, immediate_encByte_toNat]
    exact Nat.mod_eq_of_lt b.isLt
  | abort imm => exact congrArg Instr.abort h
  | encFinish | decSymbol | rawEnc | rawDecTarget | rawDecApply | rawDecEnd => rfl

/-- Settles O3: the word has the command's opcode, no reserved bit, and the command's own fields. -/
theorem decodeOfEncode : Obligations.DecodeOfEncode := by
  intro i hi
  have hz : (immOf (encode i)).toNat / 2 ^ i.immBits = 0 := immOf_encode i ▸ immediate_unreserved i
  rw [decode_of_unreserved (opcOf_encode i) hz, withFieldsOf_of_immediate hi (immOf_encode i)]

/-! ## The fields put together again -/

theorem immS_fields {w : Word} (h : (immOf w).toNat / 2 ^ 18 = 0) :
    immS (orderOf w) (alphaOf w) (rawfOf w) = immOf w := by
  apply BitVec.eq_of_toNat_eq
  rw [immS_toNat, orderOf_eq, alphaOf_eq, rawfOf_eq]
  have hraw : (decide ((immOf w).toNat / 2 ^ 17 % 2 = 1)).toNat = (immOf w).toNat / 2 ^ 17 % 2 := by
    rcases Nat.mod_two_eq_zero_or_one ((immOf w).toNat / 2 ^ 17) with e | e <;> rw [e] <;> rfl
  rw [hraw]
  split <;> omega

theorem orderOf_fits (w : Word) : orderFits (orderOf w) = true := by
  apply decide_eq_true
  rw [orderOf_eq]
  split <;> omega

theorem alphaOf_fits (w : Word) : alphaFits (alphaOf w) = true :=
  decide_eq_true (alphaOf_eq w ▸ Nat.mod_lt _ (by decide))

theorem withFieldsOf_wellFormed (w : Word) (i : Instr) : (i.withFieldsOf w).wellFormed = true := by
  cases i with
  | encStart _ _ _ | decStart _ _ _ => exact Bool.and_eq_true_iff.mpr ⟨orderOf_fits w, alphaOf_fits w⟩
  | _ => rfl

/-- The fields are all of IMM where no reserved bit is set. -/
theorem immediate_withFieldsOf {w : Word} {i : Instr} (h : (immOf w).toNat / 2 ^ i.immBits = 0) :
    immediate (i.withFieldsOf w) = immOf w := by
  have hN : (immOf w).toNat / 2 ^ 0 = 0 → 0 = immOf w := by
    rw [pow_zero, Nat.div_one]
    exact fun h => ((eq_zero_iff_toNat _).mpr h).symm
  cases i with
  | encStart _ _ _ | decStart _ _ _ => exact immS_fields h
  | encByte b =>
    have hlt : (immOf w).toNat < 2 ^ 8 := Nat.lt_of_div_eq_zero (by decide) h
    apply BitVec.eq_of_toNat_eq
    rw [Instr.withFieldsOf, immediate_encByte_toNat, imm7to0_toNat, Nat.mod_eq_of_lt hlt]
  | abort _ => rfl
  | encFinish | decSymbol | rawEnc | rawDecTarget | rawDecApply | rawDecEnd => exact hN h

/-- A word that decodes has the opcode of a command, whose format reserves none of its set bits. -/
theorem decode_eq_ok {w : Word} {i : Instr} (h : decode w = .ok i) :
    ∃ j, opcode j = opcOf w ∧ (immOf w).toNat / 2 ^ j.immBits = 0 ∧ i = j.withFieldsOf w := by
  by_cases hd : Machine.definedOpc (opcOf w).toNat
  · obtain ⟨j, hj⟩ := definedOpc_iff.mp hd
    rw [decode_of_opcode hj.symm] at h
    split at h
    · next hr => cases h; exact ⟨j, hj, hr, rfl⟩
    · cases h
  · rw [decode_of_undefined hd] at h
    cases h

/-- Settles O4: the word's opcode and fields are the command's. -/
theorem encodeOfDecode : Obligations.EncodeOfDecode := by
  intro w i h
  obtain ⟨j, hj, hr, rfl⟩ := decode_eq_ok h
  refine ⟨?_, withFieldsOf_wellFormed w j⟩
  rw [encode, opcode_withFieldsOf, immediate_withFieldsOf hr, hj, opcOf_append_immOf]

/-! ## Every word by its format, in arithmetic (R80 to R84, R90) -/

/-- Settles O1, word by word. -/
theorem encodingExamples : Obligations.EncodingExamples := by
  unfold Obligations.EncodingExamples; decide

/-- A word whose high byte is a command's opcode, in arithmetic. -/
theorem opcOf_eq_opcode {w : Word} {i : Instr} (h : w.toNat / 2 ^ 24 = (opcode i).toNat) : opcOf w = opcode i :=
  BitVec.eq_of_toNat_eq ((opcOf_toNat w).trans h)

/-- Settles O2: each opcode's clause is `decode_of_opcode` at a command of that opcode. -/
theorem decodingByFormat : Obligations.DecodingByFormat := by
  intro w opc imm byte order alpha rawf
  have himm : (immOf w).toNat = imm := immOf_toNat w
  have hopc : (opcOf w).toNat = opc := opcOf_toNat w
  have horder : orderOf w = order := by rw [orderOf_eq, himm]
  have halpha : alphaOf w = alpha := by rw [alphaOf_eq, himm]
  have hrawf : rawfOf w = rawf := by rw [rawfOf_eq, himm]
  have hbyte : imm7to0 w = BitVec.ofNat 8 imm :=
    BitVec.eq_of_toNat_eq (by rw [imm7to0_toNat, himm, BitVec.toNat_ofNat])
  have habort : immOf w = BitVec.ofNat 24 imm := by rw [← himm, BitVec.ofNat_toNat, BitVec.setWidth_eq]
  have hdec : ∀ i : Instr, opc = (opcode i).toNat → decode w =
      if imm / 2 ^ i.immBits = 0 then .ok (i.withFieldsOf w) else .error (.reservedBits (opcode i)) :=
    fun i h => himm ▸ decode_of_opcode (opcOf_eq_opcode h)
  refine ⟨fun h => ?_, fun h => ?_, fun h => ?_, ?_, fun h => ?_, fun h => ?_⟩
  · rw [← horder, ← halpha, ← hrawf]; exact hdec (.encStart 0 0 false) h
  · rw [← horder, ← halpha, ← hrawf]; exact hdec (.decStart 0 0 false) h
  · rw [← hbyte]; exact hdec (.encByte 0) h
  · have hN : ∀ i : Instr, i.immBits = 0 → i.withFieldsOf w = i → opc = (opcode i).toNat → decode w =
        if imm = 0 then .ok i else .error (.reservedBits (BitVec.ofNat 8 opc)) := by
      intro i hbits hfields h
      rw [hdec i h, hbits, hfields, pow_zero, Nat.div_one, h, BitVec.ofNat_toNat, BitVec.setWidth_eq]
    simp only [List.forall_mem_cons]
    exact ⟨hN .encFinish rfl rfl, hN .decSymbol rfl rfl, hN .rawEnc rfl rfl, hN .rawDecTarget rfl rfl,
      hN .rawDecApply rfl rfl, hN .rawDecEnd rfl rfl, nofun⟩
  · have hlt : imm / 2 ^ 24 = 0 := Nat.div_eq_of_lt (Nat.mod_lt _ (by decide))
    rw [← habort, hdec (.abort 0) h]
    exact if_pos hlt
  · rw [← hopc, BitVec.ofNat_toNat, BitVec.setWidth_eq]
    exact decode_of_undefined (hopc ▸ h)

end Sys2Proof
end

section
/-! The refusals of R87: which words carry a reserved bit, and how a word ends that is no command or stands outside its
command's states. -/

namespace Sys2Proof.Machine

/-! ## Reserved bits -/

/-- A RAW start whose ORDER or ALPHA is not 0: the one command that R202 refuses for its IMM. -/
def refusedRawStart : Instr → Bool
  | .encStart order alpha rawf | .decStart order alpha rawf => rawf && !startImmZero order alpha
  | _ => false

theorem startImmZero_iff (w : Word) :
    startImmZero (orderOf w) (alphaOf w) = true ↔ (immOf w).toNat % 2 ^ 17 = 0 := by
  rw [startImmZero, decide_eq_true_iff, orderOf_eq, alphaOf_eq]
  split <;> omega

/-- R87's reserved bits are those above the format's fields, and IMM[16:0] of a RAW start. -/
theorem reservedSet_iff (w : Word) (i : Instr) : reservedSet (opcode i).toNat (immOf w).toNat ↔
    (immOf w).toNat / 2 ^ i.immBits ≠ 0 ∨ refusedRawStart (i.withFieldsOf w) = true := by
  have hS : (immOf w).toNat / 2 ^ 18 ≠ 0 ∨ ((immOf w).toNat / 2 ^ 17 % 2 = 1 ∧ (immOf w).toNat % 2 ^ 17 ≠ 0) ↔
      (immOf w).toNat / 2 ^ 18 ≠ 0 ∨ (rawfOf w && !startImmZero (orderOf w) (alphaOf w)) = true := by
    rw [Bool.and_eq_true_iff, Bool.not_eq_true', ← Bool.not_eq_true, startImmZero_iff, rawfOf_eq, decide_eq_true_iff]
  have hA : (immOf w).toNat / 2 ^ 24 = 0 := Nat.div_eq_of_lt (immOf w).isLt
  cases i with
  | encStart _ _ _ | decStart _ _ _ => exact hS
  | abort _ => exact iff_of_false (by simp [reservedSet, opcode]) (not_or.mpr ⟨not_not_intro hA, nofun⟩)
  | encByte _ | encFinish | decSymbol | rawEnc | rawDecTarget | rawDecApply | rawDecEnd =>
    simp [reservedSet, opcode, Instr.immBits, Instr.withFieldsOf, refusedRawStart]

/-- The commands 0x03 to 0x09 run their rule under the acceptance checks of R200, in the states of R86. -/
theorem exec_eq_dispatchSession {i : Instr} (h : 0x03 ≤ (opcode i).toNat ∧ (opcode i).toNat ≤ 0x09) (s : State) :
    exec i s = dispatchSession (opcode i) (validIn (opcode i).toNat s.st s.raw)
      (ruleOf (opcode i).toNat (immediate i).toNat) s := by
  have hppm : ∀ st, (decide (s.st = st) && !s.raw) = decide (s.st = st ∧ s.raw = false) := by
    intro st; cases s.raw <;> simp
  have hraw : ∀ st, (decide (s.st = st) && s.raw) = decide (s.st = st ∧ s.raw = true) := by
    intro st; cases s.raw <;> simp
  cases i with
  | encStart _ _ _ | decStart _ _ _ | abort _ => simp [opcode] at h
  | encByte b =>
    have hb : BitVec.ofNat 8 (immediate (.encByte b)).toNat = b := by
      rw [immediate_encByte_toNat, BitVec.ofNat_toNat, BitVec.setWidth_eq]
    exact congrArg₂ (dispatchSession 0x03#8 · · s) (hppm .enc) (congrArg encByteBody hb.symm)
  | encFinish => rfl
  | decSymbol => exact congrArg (dispatchSession _ · _ s) (hppm .dec)
  | rawEnc => exact congrArg (dispatchSession _ · _ s) (hraw .enc)
  | rawDecTarget | rawDecApply | rawDecEnd => exact congrArg (dispatchSession _ · _ s) (hraw .dec)

/-! ## How each refused word ends outside ERROR -/

section
variable {s : State} (hs : s.st ≠ .error) {w : Word} {i : Instr}
include hs

theorem runWord_of_undefined (h : ¬ definedOpc (opcOf w).toNat) :
    runWord w s = .next (raisedAt .illegalCommand 1 (opcOf w) s) := by
  rw [runWord_of_error (decode_of_undefined h)]
  simp [rejectWord, hs, enterError_eq, Cause.code, Cause.sub]

theorem exec_refusedRawStart (h : refusedRawStart i = true) :
    exec i s = .next (raisedAt .illegalCommand 2 (opcode i) s) := by
  have hstart : ∀ d order alpha rawf opc, (rawf && !startImmZero order alpha) = true →
      finishCommand opc s.st (start d order alpha rawf s) = .next (raisedAt .illegalCommand 2 opc s) := by
    intro d order alpha rawf opc hraw
    rw [start, if_pos hraw]
    exact congrArg _ (enterError_eq hs opc .reservedBit)
  cases i with
  | encStart _ _ _ | decStart _ _ _ => exact hstart _ _ _ _ _ h
  | _ => cases h

/-- A reserved bit is refused by the decoder, or by the RAW start whose fields it sets. -/
theorem runWord_of_reserved (h : opcOf w = opcode i) (hr : reservedSet (opcode i).toNat (immOf w).toNat) :
    runWord w s = .next (raisedAt .illegalCommand 2 (opcode i) s) := by
  by_cases hz : (immOf w).toNat / 2 ^ i.immBits = 0
  · have hraw := ((reservedSet_iff w i).mp hr).resolve_left (not_not_intro hz)
    rw [runWord_of_ok (decode_of_unreserved h hz), exec_refusedRawStart hs hraw, opcode_withFieldsOf]
  · rw [runWord_of_error (decode_of_reserved h hz)]
    simp [rejectWord, hs, enterError_eq, Cause.code, Cause.sub]

theorem exec_of_wrongState (h : 0x03 ≤ (opcode i).toNat ∧ (opcode i).toNat ≤ 0x09)
    (hv : validIn (opcode i).toNat s.st s.raw = false) :
    exec i s = .next (raisedAt .illegalCommand 3 (opcode i) s) := by
  rw [exec_eq_dispatchSession h s, dispatchSession, if_neg hs, hv, enterError_eq hs]
  rfl

end

/-- Settles O5: a defined opcode is a command's, whose word is refused for a reserved bit or decodes. -/
theorem illegalWords : Obligations.IllegalWords := by
  intro s w hs opc imm
  have hopc : opc = (opcOf w).toNat := (opcOf_toNat w).symm
  have himm : imm = (immOf w).toNat := (immOf_toNat w).symm
  have hdecode : ∀ i, opcode i = opcOf w → ¬ reservedSet (opcOf w).toNat (immOf w).toNat →
      decode w = .ok (i.withFieldsOf w) := by
    intro i hi hr
    rw [← hi, reservedSet_iff, not_or, not_not] at hr
    exact decode_of_unreserved hi.symm hr.1
  rw [hopc, himm, BitVec.ofNat_toNat, BitVec.setWidth_eq]
  refine ⟨runWord_of_undefined hs, fun hd hr => ?_, fun hd hr hlo hhi hv => ?_, fun hd hr => ?_⟩
  · obtain ⟨i, hi⟩ := definedOpc_iff.mp hd
    rw [← hi] at hr ⊢
    exact runWord_of_reserved hs hi.symm hr
  · obtain ⟨i, hi⟩ := definedOpc_iff.mp hd
    have hfields : opcode (i.withFieldsOf w) = opcOf w := (opcode_withFieldsOf w i).trans hi
    rw [runWord_of_ok (hdecode i hi hr), ← hfields]
    exact exec_of_wrongState hs (hfields ▸ ⟨hlo, hhi⟩) (hfields ▸ hv)
  · obtain ⟨i, hi⟩ := definedOpc_iff.mp hd
    exact ⟨_, hdecode i hi hr⟩

end Sys2Proof.Machine
end

section
/-! The bit streams: what `writeBit`, `closeOut` and `readBit` leave, exactly, for each answer of the port they use
(40_bitstream.md R101 to R103). -/

namespace Sys2Proof.Machine

/-! ## The ports' answers (R69, R70) -/

/-- The sink takes one byte where it answers Ok, or has no answer left to give. -/
theorem sinkTakes_one_iff {s : State} :
    SinkTakes 1 s ↔ s.env.sink = [] ∨ ∃ rest, s.env.sink = .accept :: rest := by
  unfold SinkTakes
  cases s.env.sink <;> simp

theorem snkWrite_of_takes {s : State} (h : SinkTakes 1 s) (b : Byte) : snkWrite b s =
    .ok true { s with env := { s.env with sink := s.env.sink.tail, sunk := s.env.sunk ++ [b] } } := by
  obtain h | ⟨rest, h⟩ := sinkTakes_one_iff.mp h <;> simp [snkWrite, h]

theorem snkWrite_of_fail {s : State} {rest : List SnkAnswer} (h : s.env.sink = .fail :: rest) (b : Byte) :
    snkWrite b s = .ok false { s with env := { s.env with sink := rest } } := by
  simp [snkWrite, h]

theorem srcRead_of_nil {s : State} (h : s.env.source = []) : srcRead s = .ok .endOfInput s := by
  simp [srcRead, h]

theorem srcRead_of_cons {s : State} {a : SrcAnswer} {rest : List SrcAnswer} (h : s.env.source = a :: rest)
    (ha : a ≠ .silent) : srcRead s = .ok a { s with env := { s.env with source := rest } } := by
  cases a with
  | silent => exact absurd rfl ha
  | _ => simp [srcRead, h]

/-! ## OUT_BUF as a number -/

theorem shiftLeft_eq_ofNat (buf : Byte) (k : Nat) : buf <<< k = BitVec.ofNat 8 (buf.toNat * 2 ^ k) := by
  rw [← BitVec.toNat_inj, BitVec.toNat_shiftLeft, Nat.shiftLeft_eq, BitVec.toNat_ofNat]

/-- A new right bit doubles the byte, dropping its left one, and adds itself. -/
theorem pushBit_eq_ofNat (buf : Byte) (b : Bool) : pushBit buf b = BitVec.ofNat 8 (2 * buf.toNat + b.toNat) := by
  have hbit : b.toNat < 2 ^ 1 := b.toNat_lt
  have hor : 2 * buf.toNat + b.toNat = buf.toNat * 2 ^ 1 ||| b.toNat := by
    rw [← Nat.shiftLeft_eq, ← Nat.shiftLeft_add_eq_or_of_lt hbit, Nat.shiftLeft_eq, pow_one, Nat.mul_comm]
  rw [pushBit, shiftLeft_eq_ofNat, hor, BitVec.ofNat_or]
  cases b <;> rfl

/-! ## Sending OUT_BUF -/

/-- An accepted OUT_BUF is counted and emptied. -/
theorem sendOutBuf_of_takes {s : State} (h : SinkTakes 1 s) : sendOutBuf s = .ok () { s with
    outBuf := 0, outN := 0, bytesOut := s.bytesOut + 1
    env := { s.env with sink := s.env.sink.tail, sunk := s.env.sunk ++ [s.outBuf] } } := by
  rw [sendOutBuf, snkWrite_of_takes h]
  rfl

/-- A rejected OUT_BUF raises IO_FAILURE 2; only the sink's answer is used up. -/
theorem sendOutBuf_of_fail {s : State} {rest : List SnkAnswer} (h : s.env.sink = .fail :: rest) :
    sendOutBuf s = .raised .sinkFail { s with env := { s.env with sink := rest } } := by
  rw [sendOutBuf, snkWrite_of_fail h]
  rfl

/-! ## `writeBit` -/

/-- The state with the bit in OUT_BUF and counted, whatever becomes of the byte. -/
def bitPushed (b : Bool) (s : State) : State :=
  { s with outBuf := pushBit s.outBuf b, outN := s.outN + 1, bitsOut := s.bitsOut + 1 }

theorem writeBit_of_room {s : State} (h : s.outN < 7) (b : Bool) : writeBit b s = .ok () (bitPushed b s) :=
  if_neg (by simp only; omega)

theorem writeBit_of_eighth {s : State} (h : s.outN = 7) (b : Bool) : writeBit b s = sendOutBuf (bitPushed b s) :=
  if_pos (by simp only [h])

theorem writeBit_of_takes {s : State} (h : s.outN = 7) (hsink : SinkTakes 1 s) (b : Bool) :
    writeBit b s = .ok () { s with
      outBuf := 0, outN := 0, bitsOut := s.bitsOut + 1, bytesOut := s.bytesOut + 1
      env := { s.env with sink := s.env.sink.tail, sunk := s.env.sunk ++ [pushBit s.outBuf b] } } :=
  have hpushed : SinkTakes 1 (bitPushed b s) := hsink
  (writeBit_of_eighth h b).trans (sendOutBuf_of_takes hpushed)

/-- Settles O43: a bit that leaves room stays in OUT_BUF, and the eighth goes by the sink's answer. -/
theorem writeBit_spec : Obligations.WriteBit := by
  intro b s buf
  have hbuf : pushBit s.outBuf b = buf := pushBit_eq_ofNat s.outBuf b
  refine ⟨fun h => ?_, fun h hsink => ?_, fun rest h hsink => ?_, fun rest h hsink => ?_⟩
  · rw [writeBit_of_room h, bitPushed, hbuf]
  · rw [writeBit_of_takes h (sinkTakes_one_iff.mpr (.inl hsink)), hbuf, hsink, List.tail_nil, ← hsink]
  · rw [writeBit_of_takes h (sinkTakes_one_iff.mpr (.inr ⟨rest, hsink⟩)), hbuf, hsink, List.tail_cons]
  · have hfail : (bitPushed b s).env.sink = .fail :: rest := hsink
    exact ⟨_, (writeBit_of_eighth h b).trans (sendOutBuf_of_fail hfail), rfl, rfl, rfl⟩

/-! ## `closeOut` -/

theorem closeOut_of_empty {s : State} (h : s.outN = 0) : closeOut s = .ok () s :=
  if_neg (by omega)

theorem closeOut_of_partial {s : State} (h : 1 ≤ s.outN) :
    closeOut s = sendOutBuf { s with outBuf := s.outBuf <<< (8 - s.outN) } :=
  if_pos h

/-- Settles O44: nothing is sent of an empty OUT_BUF, and a partial byte goes by the sink's answer. -/
theorem closeOut_spec : Obligations.CloseOut := by
  refine fun s => ⟨closeOut_of_empty, fun h _ htakes => ?_, fun rest h hfail => ?_⟩
  · refine ⟨_, (closeOut_of_partial h).trans (sendOutBuf_of_takes htakes), ?_, rfl⟩
    rw [shiftLeft_eq_ofNat]
  · exact ⟨_, (closeOut_of_partial h).trans (sendOutBuf_of_fail hfail), rfl, rfl, rfl⟩

/-! ## `readBit` -/

theorem readBit_of_buffered {s : State} {n : Nat} (h : s.inN = n + 1) :
    readBit s = .ok (s.inBuf.getLsbD n) { s with inN := n } := by
  rw [readBit, if_neg (by omega), takeBit, h, Nat.add_sub_cancel]

theorem readBit_of_ended {s : State} (h : s.inN = 0) (he : s.inEof = true) : readBit s = .ok false s := by
  rw [readBit, if_pos h, if_pos he]

/-- What `readBit` makes of the source's answer. -/
def useAnswer (a : SrcAnswer) (s : State) : Res Bool :=
  match a with
  | .byte v => takeBit { s with inBuf := v, inN := 8, bytesIn := s.bytesIn + 1 }
  | .endOfInput => .ok false { s with inEof := true }
  | .fail => .raised .sourceFail s
  | .silent => .waiting .srcRead s

theorem readBit_of_fetch {s t : State} {a : SrcAnswer} (h : s.inN = 0) (he : s.inEof = false)
    (ha : srcRead s = .ok a t) : readBit s = useAnswer a t := by
  rw [readBit, if_pos h, if_neg (by simp [he]), ha, andThen_ok]
  rfl

/-- Settles O45: a buffered bit, the zero after End, and a fetch for each answer of the source. -/
theorem readBit_spec : Obligations.ReadBit := by
  refine fun s => ⟨fun n => readBit_of_buffered, readBit_of_ended, fun v rest h he hsrc => ?_, fun h he hsrc => ?_,
    fun rest h he hsrc => ?_, fun rest h he hsrc => ?_⟩
  · exact readBit_of_fetch h he (srcRead_of_cons hsrc nofun)
  · exact readBit_of_fetch h he (srcRead_of_nil hsrc)
  · exact readBit_of_fetch h he (srcRead_of_cons hsrc nofun)
  · exact readBit_of_fetch h he (srcRead_of_cons hsrc nofun)

end Sys2Proof.Machine
end

section
/-! The Frequency Table (41_frequency_table.md R125 to R130): the counts after an increment, the partition into
intervals, `find`, and the two first tables. -/

namespace Sys2Proof.Machine

/-! ## The partition into intervals -/

theorem tableLow_zero (t : Table) : tableLow t 0 = 0 := by
  simp [tableLow]

/-- The interval of the last symbol ends at the total (R123). -/
theorem tableHigh_last {t : Table} (h : t.counts.length = 257) : tableHigh t 256 = tableTotal t := by
  rw [tableHigh_eq, tableLow, tableTotal, List.take_of_length_le h.le]

/-- A symbol with a value in its interval is one of the table's 257. -/
theorem sym_lt_of_interval {t : Table} (h : t.counts.length = 257) {sym v : Nat} (hlo : tableLow t sym ≤ v)
    (hhi : v < tableHigh t sym) : sym < 257 :=
  h ▸ get_lt_length ((tableLow_lt_high t sym).mp (hlo.trans_lt hhi))

/-- Settles O42: `find` answers by `tableFind_spec`, alone by `interval_unique`; past the total `findFrom` runs out. -/
theorem findSymbol : Obligations.FindSymbol := by
  refine fun t v hlen => ⟨fun hv => ?_, fun hv => ?_⟩
  · obtain ⟨sym, hfind, hlo, hhi⟩ := tableFind_spec t hv
    exact ⟨sym, sym_lt_of_interval hlen hlo hhi, hfind, hlo, hhi, (tableLow_lt_high t sym).mp (hlo.trans_lt hhi),
      fun u _ hlo' hhi' => interval_unique t hlo' hhi' hlo hhi⟩
  · have hnone : tableFind t v = none := findFrom_none t.counts 0 v hv
    exact ⟨hnone, fun s => by rw [decodeOffset, hnone]⟩

/-! ## Increment -/

/-- The symbol's own count plus one, the others as they were, in the form R125 writes it. -/
theorem count_succ_eq (t : Table) (sym u : Nat) :
    (if u = sym then tableGet t sym + 1 else tableGet t u) = tableGet t u + if u = sym then 1 else 0 := by
  split
  case isTrue h => rw [h]
  case isFalse => rfl

/-- Settles O39: the counts are those of `increment_get`, and `halveCount` is R125's halving. -/
theorem increment : Obligations.Increment := by
  intro T t sym hlen hsym
  refine ⟨by rw [increment_length, hlen], fun u _ => ?_⟩
  rw [increment_get T t sym u (hlen ▸ hsym), count_succ_eq]
  rfl

/-- A count is positive after an increment exactly when it was, or is the symbol's own (R126, facts 2 and 3). -/
theorem increment_get_pos (T : Nat) {t : Table} {sym : Nat} (h : sym < t.counts.length) (u : Nat) :
    0 < tableGet (tableIncrement T t sym) u ↔ 0 < tableGet t u ∨ u = sym := by
  have hcount : 0 < (if u = sym then tableGet t sym + 1 else tableGet t u) ↔ 0 < tableGet t u ∨ u = sym := by
    split <;> simp [*]
  rw [increment_get T t sym u h]
  split
  · rw [halveCount_pos, hcount]
  · exact hcount

/-- Settles O40: the total by `increment_total`, the counts by `increment_get_pos`, the partition by O42. -/
theorem incrementKeepsTable : Obligations.IncrementKeepsTable := by
  intro T t sym hT hlen htotal hsym t'
  have hsym' : sym < t.counts.length := hlen ▸ hsym
  have hlen' : t'.counts.length = 257 := by rw [increment_length, hlen]
  have hpos (u : Nat) : 0 < tableGet t' u ↔ 0 < tableGet t u ∨ u = sym := increment_get_pos T hsym' u
  refine ⟨increment_total T t sym hsym' hlen.le hT htotal, fun u _ h => (hpos u).mpr (.inl h), fun u _ h hne => ?_,
    tableLow_zero t', tableHigh_last hlen', fun u _ => (tableHigh_eq t' u).symm, fun v hv => ?_⟩
  · exact Nat.eq_zero_of_not_pos fun hp => ((hpos u).mp hp).elim h.not_gt hne
  · obtain ⟨u, hu, -, hlo, hhi, -, huniq⟩ := (findSymbol t' v hlen').1 hv
    exact ⟨u, hu, hlo, hhi, huniq⟩

/-! ## The first tables -/

theorem uniform_length : uniformTable.counts.length = 257 :=
  List.length_replicate

/-- Settles O41, from the tables' own lemmas. -/
theorem firstTables : Obligations.FirstTables := by
  refine ⟨⟨fresh_length, fresh_get 256, fun u hu => ?_, fresh_total⟩, uniform_length, uniform_total, fun u hu => ?_⟩
  · rw [fresh_get, if_neg hu.ne]
  · exact ⟨uniform_get hu, uniform_low hu.le, by rw [tableHigh_eq, uniform_low hu]⟩

end Sys2Proof.Machine
end

section
/-! The arithmetic coder (42_arith_coder.md R142 to R153): its operations against their arithmetic, where the ports give
what they ask for. -/

namespace Sys2Proof.Machine

/-! ## Operations whose other ends do not arise -/

theorem Res.Post.exists_ok {α : Type} {r : Res α} {P : α → State → Prop} {E W} (h : r.Post P E W)
    (he : ∀ c t, ¬ E c t) (hw : ∀ q t, ¬ W q t) : ∃ a t, r = .ok a t ∧ P a t := by
  cases r with
  | ok a t => exact ⟨a, t, rfl, h⟩
  | raised c t => exact absurd h (he c t)
  | waiting q t => exact absurd h (hw q t)

theorem Res.Post.exists_raised {α : Type} {r : Res α} {P : α → State → Prop} {E W} (h : r.Post P E W)
    (hp : ∀ a t, ¬ P a t) (hw : ∀ q t, ¬ W q t) : ∃ c t, r = .raised c t ∧ E c t := by
  cases r with
  | ok a t => exact absurd h (hp a t)
  | raised c t => exact ⟨c, t, rfl, h⟩
  | waiting q t => exact absurd h (hw q t)

/-- A sink that takes the bytes that the next bits fill does not stop the writer at one of them. -/
theorem SinkTakes.not_blocked {s : State} {j : Nat} (h : SinkTakes ((s.outN + j) / 8) s) {a : SnkAnswer}
    (m : Blocked a s j) (ha : a ≠ .accept) : False :=
  h.not_stops ha m

/-- A source that gives the bits of a decoding step does not stop it. -/
theorem SourceGives.not_short {s : State} {c : Coded} (h : SourceGives c.steps s) {a : SrcAnswer}
    (m : SourceStops a s) : ¬ ShortOf s c :=
  Nat.not_lt.mpr (h a m)

/-! ## The spec's spelling of the coder's numbers -/

theorem rangeOf_eq {low high : Nat} (h : low ≤ high) : rangeOf low high = high - low + 1 := by
  unfold rangeOf; omega

theorem targetValue_eq {low high code : Nat} (h1 : low ≤ code) (h2 : low ≤ high) (tot : Nat) :
    targetValue low high code tot = ((code - low + 1) * tot - 1) / (high - low + 1) := by
  rw [targetValue, rangeOf_eq h2, show code + 1 - low = code - low + 1 by omega]

theorem totalOk_iff {b : Build} {tot : Nat} : totalOk b tot = true ↔ 1 ≤ tot ∧ tot ≤ 2 ^ (b.width - 2) + 2 :=
  decide_eq_true_iff

theorem not_totalOk (b : Build) (tot : Nat) :
    ((!totalOk b tot) = true) = ¬ (1 ≤ tot ∧ tot ≤ 2 ^ (b.width - 2) + 2) := by
  rw [Bool.not_eq_true', ← Bool.not_eq_true, totalOk_iff]

/-! ## Narrowing (R142, R143) -/

/-- An interval within its total narrows to at most the old HIGH, whatever the range. -/
theorem narrowHighSucc_le {low high ch tot : Nat} (hlh : low ≤ high) (hc : ch ≤ tot) :
    narrowHighSucc low high ch tot ≤ high + 1 := by
  have hdiv : rangeOf low high * ch / tot ≤ rangeOf low high :=
    Nat.div_le_of_le_mul (by rw [Nat.mul_comm tot]; exact Nat.mul_le_mul_left _ hc)
  unfold narrowHighSucc
  unfold rangeOf at *
  omega

/-- The whole total narrows to the old HIGH. -/
theorem narrowHighSucc_self {low high tot : Nat} (hlh : low ≤ high) (ht : 0 < tot) :
    narrowHighSucc low high tot tot = high + 1 := by
  rw [narrowHighSucc, Nat.mul_div_cancel _ ht]
  unfold rangeOf
  omega

theorem narrowLow_zero (low high tot : Nat) : narrowLow low high 0 tot = low := by
  simp [narrowLow]

/-- Settles O46: the checks are the model's, and the quotients, made on naturals, are below 2^W. -/
theorem narrow_spec : Obligations.Narrow := by
  intro s cl ch tot _ hlh hf rng newLow newHigh
  have hlow : newLow = narrowLow s.low s.high cl tot := by
    simp only [newLow, rng, narrowLow, rangeOf_eq hlh]; push_cast; rfl
  have hhigh : newHigh = narrowHighSucc s.low s.high ch tot - 1 := by
    simp only [newHigh, rng, narrowHighSucc, rangeOf_eq hlh]; push_cast; rfl
  rw [hlow, hhigh, narrow]
  refine ite_congr (not_totalOk _ _) (fun _ => rfl) fun _ => ite_congr rfl (fun _ => rfl) fun hint => ?_
  have hle := narrowHighSucc_le hlh (not_not.mp hint).2
  refine ite_congr (propext (by omega)) (fun _ => rfl) fun hcol => ?_
  unfold Build.full
  rw [Nat.mod_eq_of_lt (by omega), Nat.mod_eq_of_lt (by omega)]
  congr 2
  omega

/-- Settles O47: by `narrow_post` no check fails, and `next_range` places the new range in the old. -/
theorem narrowStaysInside : Obligations.NarrowStaysInside := by
  intro s cl ch tot hb hn hf h1 h2 hc hct
  have hr : RangeReady s := ⟨hb, hn, hf⟩
  have hi : IntervalOk s.build cl ch tot := ⟨totalOk_iff.mpr ⟨h1, h2⟩, hc, hct⟩
  have hlh : s.low ≤ s.high := by obtain ⟨hlow, hhigh, -⟩ := hn; omega
  obtain ⟨⟨⟩, t, e, -, rfl⟩ := (narrow_post hr cl ch tot).exists_ok
    (by
      rintro c t ⟨-, ⟨-, hbad⟩ | ⟨-, -, hbad⟩⟩
      · rw [hi.1] at hbad; cases hbad
      · exact hbad hi.2)
    (fun _ _ k => k)
  obtain ⟨g1, g2, g3⟩ := next_range hr hi
  refine ⟨_, e, g1, g2, g3, ?_, ?_⟩
  · rintro rfl
    exact congrArg (· - 1) (narrowHighSucc_self hlh h1)
  · rintro rfl
    exact narrowLow_zero s.low s.high tot

/-! ## Emitting (R144, R149) -/

/-- Where the encoder has kept LOW and HIGH, only the writer and PENDING differ. -/
theorem EncoderOnly.writer {s t : State} {p : Nat} (h : EncoderOnly s t) (hl : t.low = s.low) (hh : t.high = s.high)
    (hp : t.pending = p) : WriterOnly { s with pending := p } t := by
  unfold EncoderOnly at h
  rw [hl, hh, hp] at h
  exact h

/-- Settles O48: by `emit_post`, the sink taking the bytes that the bits fill. -/
theorem emit_spec : Obligations.Emit := by
  intro b s hroom htakes
  rw [Nat.add_comm s.pending] at htakes
  obtain ⟨⟨⟩, t, e, hw, hl, hh, hp⟩ := (emit_post b s hroom).exists_ok
    (fun _ _ ⟨_, hstop, _⟩ => htakes.not_blocked hstop nofun) (fun _ _ ⟨hstop, _⟩ => htakes.not_blocked hstop nofun)
  refine ⟨t, e, hw.only.writer hl hh hp, hw.written, ?_⟩
  rw [hw.counted, List.length_cons, List.length_replicate]

theorem finish_of_full {s : State} (h : s.pending = s.build.pendingMax) : finish s = .raised .pendingFull s := by
  rw [finish, bumpPending, if_pos h, andThen_raised]

theorem finish_of_room {s : State} (h : s.pending < s.build.pendingMax) :
    finish s = emit (decide (¬ s.low < s.build.quarter)) { s with pending := s.pending + 1 } := by
  rw [finish, bumpPending, if_neg h.ne, andThen_ok]

/-- Settles O50: `finish` counts PENDING once more and emits, by O48. -/
theorem finish_spec : Obligations.Finish := by
  refine fun s hroom => ⟨finish_of_full, fun hp htakes => ?_⟩
  obtain ⟨t, e, hw, hbits, hcount⟩ :=
    emit_spec (decide (¬ s.low < s.build.quarter)) { s with pending := s.pending + 1 } hroom htakes
  refine ⟨t, (finish_of_room hp).trans e, hw, hbits.trans ?_, hcount⟩
  have hq : s.build.quarter = 2 ^ (s.build.width - 2) := rfl
  rw [hq]
  by_cases hl : s.low < 2 ^ (s.build.width - 2)
  · rw [if_pos hl, decide_eq_false (not_not_intro hl)]; rfl
  · rw [if_neg hl, decide_eq_true hl]; rfl

/-! ## Normalisation (R145, R146) -/

/-- No step is due exactly where R33's first two facts hold. -/
theorem normStep_eq_none_iff {b : Build} {c : Coded} : c.normStep b = none ↔ Normalised b c.low c.high := by
  unfold Coded.normStep Normalised
  split
  · simp; omega
  · split
    · simp; omega
    · split <;> simp <;> omega

/-- Each step doubles the range. -/
theorem normStep_doubles {b : Build} {c d : Coded} (hlh : c.low ≤ c.high) (h : c.normStep b = some d) :
    d.high - d.low + 1 = 2 * (c.high - c.low + 1) := by
  unfold Coded.normStep at h
  split at h
  · cases h; simp only [Coded.expand, Coded.emit]; omega
  · split at h
    · cases h; simp only [Coded.expand, Coded.emit]; omega
    · split at h
      · cases h; simp only [Coded.expand]; omega
      · cases h

/-- Normalisation multiplies the range by two to the number of its steps. -/
theorem norm_doubles (b : Build) (n : Nat) {c : Coded} (hlh : c.low ≤ c.high) :
    ∃ k ≤ n, (c.norm b n).steps = c.steps + k ∧
      (c.norm b n).high - (c.norm b n).low + 1 = (c.high - c.low + 1) * 2 ^ k := by
  induction n generalizing c with
  | zero => exact ⟨0, le_rfl, rfl, (Nat.mul_one _).symm⟩
  | succ n ih =>
    unfold Coded.norm
    cases hd : c.normStep b with
    | none => exact ⟨0, Nat.zero_le _, rfl, (Nat.mul_one _).symm⟩
    | some d =>
      obtain ⟨k, hk, hsteps, hrange⟩ := ih (normStep_range hlh hd)
      refine ⟨k + 1, Nat.succ_le_succ hk, ?_, ?_⟩
      · rw [hsteps, (normStep_steps hd).1, Nat.add_assoc, Nat.add_comm 1]
      · rw [hrange, normStep_doubles hlh hd, Nat.pow_succ]; ring

/-- The interleaved normalisation of a range of W-bit values ends with R33's first two facts. -/
theorem norm_normalised {s : State} (hb : s.build.legal = true) (hlh : s.low ≤ s.high) (hf : s.high < s.build.full) :
    Normalised s.build ((coded s).norm s.build s.build.width).low ((coded s).norm s.build s.build.width).high := by
  have hrange := (norm_eq hb hlh hf s.pending).1
  have hspec := (normRange_spec hb hlh hf).1
  rw [← hrange] at hspec
  exact hspec

/-- What `normEnc` can do, against the interleaved normalisation: where its two loops end (R146). -/
theorem normEnc_norm {s : State} (hb : s.build.legal = true) (hroom : s.outN ≤ 7) (hlh : s.low ≤ s.high)
    (hf : s.high < s.build.full) (hp : s.pending ≤ s.build.pendingMax) : (normEnc s).Post
    (fun _ t => Codes s t ((coded s).norm s.build s.build.width) ∧
      ((coded s).norm s.build s.build.width).pending ≤ s.build.pendingMax)
    (fun k _ => (k = .sinkFail ∧ Blocked .fail s ((coded s).norm s.build s.build.width).bits.length) ∨
      (k = .pendingFull ∧ s.build.pendingMax < ((coded s).norm s.build s.build.width).pending))
    (fun _ _ => Blocked .silent s ((coded s).norm s.build s.build.width).bits.length) := by
  obtain ⟨hrange, hbits, hpending, -⟩ := norm_eq hb hlh hf s.pending
  rw [show (Coded.mk s.low s.high s.pending [] 0 0) = coded s from rfl] at hrange hbits hpending
  rw [hbits]
  refine (normEnc_post s hb hroom (hlh.trans_lt hf) hf hp).imp ?_ ?_ (fun _ _ k => k.2)
  · rintro - t ⟨hw, hn, hle, ht⟩
    rw [← hrange, Prod.mk.injEq] at hn
    rw [← hpending] at ht
    exact ⟨⟨hbits ▸ hw, hn.1, hn.2, ht⟩, ht ▸ hle⟩
  · rintro k t ⟨-, hk | ⟨hk, -, hlt⟩⟩
    · exact .inl hk
    · exact .inr ⟨hk, hpending ▸ hlt⟩

/-- Settles O49: the two loops end where the interleaved one does, by `normEnc_norm`; what that one does to the range is
shown on its own steps. -/
theorem normEnc_spec : Obligations.NormEnc := by
  intro s hb hlh hf hp hroom c htakes
  have hpost := normEnc_norm hb hroom hlh hf hp
  have hnorm := norm_normalised hb hlh hf
  obtain ⟨k, hk, hsteps, hdouble⟩ := norm_doubles s.build s.build.width (c := coded s) hlh
  have hck : c.steps = k := hsteps.trans (Nat.zero_add k)
  refine ⟨fun hfits => ?_, fun hover => ?_⟩
  · obtain ⟨⟨⟩, t, e, hcodes, -⟩ := hpost.exists_ok
      (by
        rintro - - (⟨-, hstop⟩ | ⟨-, hlt⟩)
        · exact htakes.not_blocked hstop nofun
        · exact hfits.not_gt hlt)
      (fun _ _ hstop => htakes.not_blocked hstop nofun)
    refine ⟨t, e, hcodes.wrote.only, hcodes.encodedTo, normStep_eq_none_iff.mpr hnorm, hck.trans_le hk, ?_, ?_⟩
    · rw [hcodes.low, hcodes.high, hck]; exact hdouble
    · rw [hcodes.low, hcodes.high]; exact hnorm
  · obtain ⟨cause, t, e, ⟨-, hstop⟩ | ⟨rfl, -⟩⟩ := hpost.exists_raised
      (fun _ _ ⟨_, hle⟩ => hover.not_ge hle) (fun _ _ hstop => htakes.not_blocked hstop nofun)
    · exact (htakes.not_blocked hstop nofun).elim
    · exact ⟨t, e⟩

/-! ## Decoding (R150, R152, R153) -/

/-- Settles O51: the value is (tot - 1) div rng at CODE = LOW, and (rng tot - 1) div rng at CODE = HIGH. -/
theorem target_spec : Obligations.Target := by
  intro s tot hlh rng v
  have hv : s.low ≤ s.code → targetValue s.low s.high s.code tot = v := fun h => targetValue_eq h hlh tot
  refine ⟨?_, fun ht h1 h2 => ⟨hv h1 ▸ target_lt h1 h2 ht, fun hlow hle => ?_, fun hhigh => ?_⟩⟩
  · rw [target]
    exact ite_congr (not_totalOk _ _) (fun _ => rfl) fun _ => ite_congr rfl (fun _ => rfl) fun hin =>
      by rw [hv (not_not.mp hin).1]
  · refine Nat.div_eq_of_lt ?_
    rw [hlow, Nat.sub_self, Nat.zero_add, Nat.one_mul]
    omega
  · have hdiv := Nat.mul_sub_div 0 rng tot (Nat.mul_pos (Nat.succ_pos _) ht)
    rw [Nat.zero_div] at hdiv
    simp only [v, hhigh]
    exact hdiv

/-- Settles O52: by `normDec_post`, the source giving the bits of the steps. -/
theorem normDec_spec : Obligations.NormDec := by
  intro s hb hin h1 h2 hf hgives
  obtain ⟨⟨⟩, t, e, hr, hd⟩ := (normDec_post hb hin hf h1 h2).exists_ok
    (fun _ _ ⟨hfail, hshort⟩ => hgives.not_short hfail.cause.2 hshort)
    (fun _ _ ⟨_, hstop, hshort⟩ => hgives.not_short hstop hshort)
  obtain ⟨bits, -, hread, -⟩ := hd.reads
  exact ⟨t, e, hread.only, hd.decodedTo, hr.codeLow, hr.codeHigh, hread.only.build ▸ hr.norm⟩

/-- Settles O53: the symbol is the one `find` answers for the target value, the only one whose interval holds it. -/
theorem decodeSymbol_spec : Obligations.DecodeSymbol := by
  intro s tab hb hn hf h1 h2 hin ht1 ht2
  have hr : DecReady s := ⟨⟨hb, hn, hf⟩, hin, h1, h2⟩
  obtain ⟨sym, -, hlo, hhi⟩ := tableFind_spec tab (target_lt h1 h2 ht1)
  have hsel : Selects s tab sym := ⟨hlo, hhi⟩
  rw [targetValue_eq h1 (h1.trans h2)] at hlo hhi
  refine ⟨sym, (tableLow_lt_high tab sym).mp (hlo.trans_lt hhi), hlo, hhi, fun hgives => ?_⟩
  have hnot : ∀ {a : SrcAnswer}, SourceStops a s →
      ¬ ∃ w, Selects s tab w ∧ ShortOf s ((coded s).code s.build (symbolInterval tab w)) := by
    rintro a hstop ⟨w, hw, hshort⟩
    rw [← hsel.unique hw] at hshort
    exact hgives.not_short hstop hshort
  obtain ⟨w, t, e, -, hrt, hd, hw⟩ := (decodeSymbol_post hr (totalOk_iff.mpr ⟨ht1, ht2⟩)).exists_ok
    (fun _ _ ⟨hfail, hshort⟩ => hnot hfail.cause.2 hshort) (fun _ _ ⟨_, hstop, hshort⟩ => hnot hstop hshort)
  obtain rfl := hsel.unique hw
  obtain ⟨bits, -, hread, -⟩ := hd.reads
  exact ⟨t, e, hread.only, hd.decodedTo, hrt.codeLow, hrt.codeHigh⟩

end Sys2Proof.Machine
end

section
/-! Commands issued one after another from an idle block, each completing (44_commands.md R200, R214). -/

namespace Sys2Proof.Machine

/-! ## The idle block -/

/-- The host has issued the command to an idle block. -/
def issued (i : Instr) (s : State) : State := { s with pendingCmd := some (encode i) }

theorem Idle.inv {s : State} (h : Idle s) : Inv s := h.1

theorem Idle.portWait {s : State} (h : Idle s) : s.portWait = none := by
  obtain ⟨hinv, hcmd, -⟩ := h
  by_contra hw
  exact hinv.session.waitBusy hw hcmd

theorem Idle.mayRun {s : State} (h : Idle s) (i : Instr) : MayRun (issued i s) := by
  have hw := h.portWait
  obtain ⟨k, -, hr⟩ := h
  refine ⟨⟨k.legal, ⟨k.fit.low, k.fit.high, k.fit.code, k.fit.pending, k.fit.outN, k.fit.inN, k.fit.orderLow,
    k.fit.orderHigh⟩, k.model.of_eq rfl rfl rfl rfl rfl,
    ⟨k.session.encode, k.session.decode, k.session.rawOrder, fun _ => nofun, fun e => ?_⟩⟩, nofun, hw⟩
  cases hr.symm.trans e

theorem HostOnly.idle {s t : State} (h : HostOnly s t) (k : Idle s) : Idle t := by
  obtain ⟨hinv, hcmd, hreset⟩ := k
  refine ⟨h.inv hinv, ?_, ?_⟩
  · unfold HostOnly at h; rw [h]; exact hcmd
  · unfold HostOnly at h; rw [h]; exact hreset

theorem withArgs_only (i : Interval) (s : State) : HostOnly s (withArgs i s) := rfl

/-- A command that completes leaves the block idle. -/
theorem Completes.idle {i : Instr} {s t : State} (h : Completes i s t) (k : Idle s) : Idle t := by
  obtain ⟨e, hw, -⟩ := h
  obtain ⟨u, hu, hrun⟩ := exec_run (k.mayRun i) i
  cases hu.symm.trans e
  obtain ⟨-, -, -, -, hsame, -⟩ := hrun.host
  obtain ⟨-, -, hreset⟩ := k
  exact ⟨hrun.inv, hrun.ended hw, hsame.trans hreset⟩

theorem Completes.build {i : Instr} {s t : State} (h : Completes i s t) : t.build = s.build := by
  obtain ⟨u, hu, -, -, -, hbuild, -⟩ := exec_same i (issued i s)
  cases hu.symm.trans h.1
  exact hbuild

theorem Idle.decReady {s : State} (h : Idle s) (hd : s.st = .dec) : DecReady s := by
  obtain ⟨hn, -, hlow, hhigh, -⟩ := h.inv.session.decode h.portWait hd
  exact ⟨⟨h.inv.legal, hn, h.inv.fit.high⟩, h.inv.fit.inN, hlow, hhigh⟩

/-! ## What completion says of a command's rule -/

/-- A command that neither waits nor ends in ERROR has completed its rule. -/
theorem finishCommand_completes {opc : BitVec 8} {st : SessionState} {r : Res Unit} {t : State}
    (e : finishCommand opc st r = .next t) (hw : t.portWait = none) (hst : t.st ≠ .error) :
    ∃ u, r = .ok () u ∧ t = complete u := by
  rcases finishCommand_cases e with hok | ⟨c, u, -, rfl⟩ | ⟨q, u, -, rfl⟩
  · exact hok
  · exact absurd rfl hst
  · cases hw

theorem dispatchSession_completes {opc : BitVec 8} {valid : Bool} {body : State → Res Unit} {s t : State}
    (e : dispatchSession opc valid body s = .next t) (hw : t.portWait = none) (hst : t.st ≠ .error) :
    valid = true ∧ ∃ u, body s = .ok () u ∧ t = complete u := by
  rcases dispatchSession_cases e with ⟨hs, rfl⟩ | ⟨-, -, rfl⟩ | ⟨-, hv, hf⟩
  · exact absurd hs hst
  · exact absurd rfl hst
  · exact ⟨hv, finishCommand_completes hf hw hst⟩

/-- A session command that is valid and whose rule completes has completed. -/
theorem dispatchSession_of_ok {opc : BitVec 8} {valid : Bool} {body : State → Res Unit} {s u : State}
    (hst : s.st ≠ .error) (hv : valid = true) (hu : body s = .ok () u) :
    dispatchSession opc valid body s = .next (complete u) := by
  rw [dispatchSession, if_neg hst, if_pos hv, hu, finishCommand]

/-! ## The encoder's numbers along a session -/

theorem EncodedTo.refl (s : State) : EncodedTo s s (coded s) :=
  ⟨rfl, rfl, rfl, by simp [coded], by simp [coded], List.prefix_refl _, by simp⟩

theorem EncodedTo.trans {s t u : State} {c d : Coded} (h : EncodedTo s t c) (k : EncodedTo t u d) :
    EncodedTo s u (c.after d) := by
  refine ⟨k.low, k.high, k.pending, ?_, ?_, h.sunk.trans k.sunk, ?_⟩
  · rw [k.bits, h.bits, List.append_assoc]; rfl
  · rw [k.bitsOut, h.bitsOut, BitVec.add_assoc, ← BitVec.ofNat_add, ← List.length_append]; rfl
  · have h1 := h.sunk.length_le
    have h2 := k.sunk.length_le
    rw [k.bytesOut, h.bytesOut, BitVec.add_assoc, ← BitVec.ofNat_add]
    congr 2
    omega

theorem EncodedTo.bare {s t : State} {c : Coded} (h : EncodedTo s t c) : c.bare = coded t :=
  bare_of _ _ _ c h.low.symm h.high.symm h.pending.symm

/-- The finish step's bits come after those written before. -/
theorem finish_bits (b : Build) (c : Coded) : (c.finish b).bits = c.bits ++ (c.bare.finish b).bits := by
  simp [Coded.finish, Coded.emit, Coded.bare]

/-- The range after a coding step depends on the range before alone. -/
theorem code_range {b : Build} {c d : Coded} (hl : d.low = c.low) (hh : d.high = c.high) (i : Interval) :
    (d.code b i).low = (c.code b i).low ∧ (d.code b i).high = (c.code b i).high := by
  have hframe : SameFrame (c.bare.code b i) (d.bare.code b i) :=
    run_frame b [i] (c := c.bare) (d := d.bare) ⟨hl, hh, rfl, rfl⟩
  rw [code_split b i c, code_split b i d]
  exact ⟨hframe.low, hframe.high⟩

/-- The coder at a session's start (R141). -/
def Coded.start (b : Build) : Coded := { low := 0, high := b.mask, pending := 0, bits := [], steps := 0, off := 0 }

theorem start_owes (b : Build) : Owes b (Coded.start b) := ⟨rfl, rfl⟩

theorem start_ready {b : Build} (hb : b.legal = true) : CodedReady b (Coded.start b) :=
  ⟨normalised_full hb, Nat.sub_lt (full_pos b) Nat.one_pos⟩

end Sys2Proof.Machine
end

section
/-! The round trip of the coder through the RAW commands (42_arith_coder.md R156). -/

namespace Sys2Proof.Machine

/-! ## RAW sessions of an idle block -/

/-- An idle block in an open RAW encode session. -/
structure RawEncoding (s : State) : Prop where
  idle : Idle s
  st : s.st = .enc
  raw : s.raw = true

/-- An idle block in an open RAW decode session whose source can always be read. -/
structure RawDecoding (s : State) : Prop where
  idle : Idle s
  st : s.st = .dec
  raw : s.raw = true
  readable : SourceReadable s

/-- The interval in ARG0 to ARG2 (R85). -/
def argInterval (s : State) : Interval := ⟨cumLow s, cumHigh s, rawTotal s⟩

theorem argInterval_withArgs {i : Interval} (h : i.fits) (s : State) : argInterval (withArgs i s) = i := by
  obtain ⟨hcl, hch, htot⟩ := h
  simp only [argInterval, withArgs, cumLow, cumHigh, rawTotal, BitVec.toNat_ofNat, Nat.mod_eq_of_lt hcl,
    Nat.mod_eq_of_lt hch, Nat.mod_eq_of_lt htot]

theorem RawDecoding.withArgs {s : State} (h : RawDecoding s) (i : Interval) : RawDecoding (withArgs i s) :=
  ⟨(withArgs_only i s).idle h.idle, h.st, h.raw, h.readable⟩

theorem SourceReadable.not_fail {s : State} (h : SourceReadable s) : ¬ SourceStops .fail s :=
  fun m => h.2 m.mem

theorem SourceReadable.not_silent {s : State} (h : SourceReadable s) : ¬ SourceStops .silent s :=
  fun m => h.1 m.mem

theorem SourceReadable.suffix {s t : State} (h : SourceReadable s) (hsuf : t.env.source <:+ s.env.source) :
    SourceReadable t :=
  ⟨fun m => h.1 (hsuf.mem m), fun m => h.2 (hsuf.mem m)⟩

theorem sourceReadable_of_bytes {s : State} {stream : List Byte} (h : s.env.source = stream.map .byte) :
    SourceReadable s := by
  unfold SourceReadable
  rw [h]
  simp

/-! ## RAW starts -/

theorem start_raw_encode {s : State} (hb : s.build.legal = true) :
    start .encode 0 0 true s = .ok () (opened .encode 0 true s) := by
  rw [start_eq hb, if_neg (by simp), if_neg (by simp), if_neg (by simp)]

theorem start_raw_decode {s : State} (hb : s.build.legal = true) :
    start .decode 0 0 true s = decInit (opened .decode 0 true s) := by
  rw [start_eq hb, if_neg (by simp), if_neg (by simp), if_neg (by simp)]

/-- A RAW ENC_START opens an encode session with the coder at its start and no bit buffered (R202). -/
theorem rawEncStart_completes {s t : State} (h : Idle s) (e : Completes (.encStart 0 0 true) s t) :
    RawEncoding t ∧ coded t = Coded.start s.build ∧ writtenBits t = s.env.sunk.flatMap byteBits := by
  have hidle := e.idle h
  have hrule := start_raw_encode (s := issued (.encStart 0 0 true) s) h.inv.legal
  have hexec : finishCommand 0x01#8 s.st (start .encode 0 0 true (issued (.encStart 0 0 true) s)) = .next t := e.1
  rw [hrule] at hexec
  cases hexec
  exact ⟨⟨hidle, rfl, rfl⟩, rfl, List.append_nil _⟩

/-- A RAW DEC_START opens a decode session that follows the coder at its start on the source's bits (R203, R151). -/
theorem rawDecStart_completes {s : State} (h : Idle s) (hsrc : SourceReadable s) :
    ∃ t, Completes (.decStart 0 0 true) s t ∧ RawDecoding t ∧
      Follows ((sourceBytes s.env.source).flatMap byteBits) t (Coded.start s.build) := by
  have hreadable : SourceReadable (opened .decode 0 true (issued (.decStart 0 0 true) s)) := hsrc
  obtain ⟨⟨⟩, u, hu, -, honly, hrest, -, hsuf, hcode, hlow, hhigh, -⟩ :=
    (decInit_post (s := opened .decode 0 true (issued (.decStart 0 0 true) s)) h.inv.legal rfl rfl rfl
      (Nat.zero_le _)).exists_ok
      (fun _ _ ⟨_, hstop, _⟩ => hreadable.not_fail hstop) (fun _ _ ⟨hstop, _⟩ => hreadable.not_silent hstop)
  have hbuild : u.build = s.build := honly.build
  unfold DecoderOnly at honly
  have hst : u.st = .dec := by rw [honly]; rfl
  have hraw : u.raw = true := by rw [honly]; rfl
  have hwait : u.portWait = none := by rw [honly]; exact h.portWait
  have hexec : Completes (.decStart 0 0 true) s (complete u) := by
    refine ⟨?_, hwait, by rw [complete_st, hst]; decide⟩
    have hrule := (start_raw_decode (s := issued (.decStart 0 0 true) s) h.inv.legal).trans hu
    exact congrArg (finishCommand 0x02#8 s.st) hrule
  refine ⟨complete u, hexec, ⟨hexec.idle h, hst, hraw, hreadable.suffix hsuf⟩, hlow, hhigh, ?_, ?_⟩
  · rw [complete_code, complete_build, hbuild]
    exact hcode
  · rw [complete_build, hbuild]
    exact hrest

/-! ## The encoder's side -/

/-- RAW_ENC that completes has taken an interval the coder accepts and made its coding step (R207). -/
theorem rawEnc_completes {i : Interval} {s t : State} (h : RawEncoding s) (hf : i.fits)
    (e : Completes .rawEnc (withArgs i s) t) :
    RawEncoding t ∧ i.ok s.build ∧ EncodedTo s t ((coded s).code s.build i) := by
  have hidle := (withArgs_only i s).idle h.idle
  have hidle' := e.idle hidle
  obtain ⟨hexec, hwait, hst⟩ := e
  obtain ⟨-, u, hu, rfl⟩ := dispatchSession_completes hexec hwait hst
  obtain ⟨hok, -, hw, -, hto, -⟩ := (rawEncBody_post ((hidle.mayRun .rawEnc).encodeOpen h.st)).of_ok hu
  have harg : argInterval (issued .rawEnc (withArgs i s)) = i := argInterval_withArgs hf s
  change (argInterval (issued .rawEnc (withArgs i s))).ok s.build at hok
  change EncodedTo _ u ((coded s).code s.build (argInterval (issued .rawEnc (withArgs i s)))) at hto
  rw [harg] at hok hto
  unfold RawEncWrites at hw
  refine ⟨⟨hidle', ?_, ?_⟩, hok, hto.low, hto.high, hto.pending, hto.bits, hto.bitsOut, hto.sunk, hto.bytesOut⟩
  · rw [complete_st, hw]; exact h.st
  · rw [complete_raw, hw]; exact h.raw

/-- RAW_ENC for each interval makes the coding steps in order. -/
theorem rawEncodes_run {l : List Interval} {s t : State} (h : RawEncoding s) (hf : ∀ i ∈ l, i.fits)
    (e : RawEncodes l s t) : RawEncoding t ∧ t.build = s.build ∧ (∀ i ∈ l, i.ok s.build) ∧
      EncodedTo s t ((coded s).run s.build l) := by
  induction l generalizing s with
  | nil => cases e; exact ⟨h, rfl, nofun, .refl _⟩
  | cons i l ih =>
    obtain ⟨u, hu, hl⟩ := e
    rw [List.forall_mem_cons] at hf
    obtain ⟨hopen, hi, hto⟩ := rawEnc_completes h hf.1 hu
    have hbuild : u.build = s.build := hu.build
    obtain ⟨hopen', hbuild', hok, hto'⟩ := ih hopen hf.2 hl
    rw [hbuild] at hbuild' hok hto'
    refine ⟨hopen', hbuild', List.forall_mem_cons.mpr ⟨hi, hok⟩, ?_⟩
    rw [run_cons, run_split, hto.bare]
    exact hto.trans hto'

/-- ENC_FINISH that completes a RAW session sends the buffered bits, the finish step's and zeros (R205). -/
theorem rawEncFinish_completes {s t : State} (h : RawEncoding s) (e : Completes .encFinish s t) : ∃ pad,
    t.env.sunk.flatMap byteBits = writtenBits s ++ ((coded s).finish s.build).bits ++ List.replicate pad false := by
  obtain ⟨hexec, hwait, hst⟩ := e
  obtain ⟨-, u, hu, rfl⟩ := dispatchSession_completes hexec hwait hst
  have hdone := (encFinishBody_post ((h.idle.mayRun .encFinish).encodeOpen h.st)).of_ok hu
  have hcoded : finishCoded (issued .encFinish s) = (coded s).finish s.build := by
    have hraw : (issued .encFinish s).raw = true := h.raw
    rw [finishCoded, finishSteps, if_pos hraw]
    rfl
  obtain ⟨pad, -, hstream⟩ := hdone.stream
  rw [hcoded] at hstream
  exact ⟨pad, hstream⟩

/-! ## The decoder's side -/

theorem rawTarget_toNat {s : State} (h : rawTarget s < rawTotal s) :
    (BitVec.ofNat 32 (rawTarget s)).toNat = rawTarget s := by
  rw [BitVec.toNat_ofNat, Nat.mod_eq_of_lt (h.trans s.arg2.isLt)]

theorem rawDecValid_issued {s : State} (h : RawDecoding s) (i : Instr) : rawDecValid (issued i s) = true := by
  have hst : (issued i s).st = .dec := h.st
  have hraw : (issued i s).raw = true := h.raw
  rw [rawDecValid, hst, hraw]
  rfl

theorem RawDecoding.st_ne {s : State} (h : RawDecoding s) : s.st ≠ .error := by
  rw [h.st]; decide

/-- RAW_DEC_TARGET completes on a total the coder accepts: RESULT is the target value (R208). -/
theorem rawDecTarget_completes {s : State} (h : RawDecoding s) (ht : totalOk s.build (rawTotal s) = true) : ∃ v,
    Completes .rawDecTarget s v ∧ RawDecoding v ∧ v.result.toNat = rawTarget s ∧
      v = { s with result := v.result, pendingCmd := none } := by
  obtain ⟨⟨⟩, u, hu, -, hlt, rfl⟩ :=
    (rawDecTargetBody_post ((h.idle.mayRun .rawDecTarget).decodeOpen h.st)).exists_ok
      (by rintro c t ⟨-, hbad, -⟩; cases ht.symm.trans hbad) (fun _ _ k => k)
  have hexec : Completes .rawDecTarget s (complete { issued .rawDecTarget s with
      result := BitVec.ofNat 32 (rawTarget s) }) :=
    ⟨dispatchSession_of_ok h.st_ne (rawDecValid_issued h _) hu, h.idle.portWait, h.st_ne⟩
  exact ⟨_, hexec, ⟨hexec.idle h.idle, h.st, h.raw, h.readable⟩, rawTarget_toNat hlt, rfl⟩

/-- RAW_DEC_APPLY completes on an interval the coder accepts that holds the target value (R209). -/
theorem rawDecApply_completes {s : State} (h : RawDecoding s) (hi : (argInterval s).ok s.build)
    (hin : TargetInside s) : ∃ t, Completes .rawDecApply s t ∧ RawDecoding t ∧
      DecodedTo s t ((coded s).code s.build (argInterval s)) := by
  have hread : SourceReadable (issued .rawDecApply s) := h.readable
  obtain ⟨⟨⟩, u, hu, -, -, -, hw, hsuf, -, hto, -⟩ :=
    (rawDecApplyBody_post ((h.idle.mayRun .rawDecApply).decodeOpen h.st)).exists_ok
      (by
        rintro c t (⟨-, -, hbad⟩ | ⟨-, -, -, hbad⟩ | ⟨-, -, -, hbad, -⟩ | ⟨-, -, -, -, -, hstop, -⟩)
        · cases hi.1.symm.trans hbad
        · exact hbad hin
        · exact hbad.not_ge hi.2.2
        · exact hread.not_fail hstop)
      (fun _ _ ⟨hstop, _⟩ => hread.not_silent hstop)
  unfold RawDecApplyWrites at hw
  have hst : u.st = .dec := by rw [hw]; exact h.st
  have hexec : Completes .rawDecApply s (complete u) :=
    ⟨dispatchSession_of_ok h.st_ne (rawDecValid_issued h _) hu, by rw [complete_portWait, hw]; exact h.idle.portWait,
      by rw [complete_st, hst]; decide⟩
  refine ⟨_, hexec, ⟨hexec.idle h.idle, hst, by rw [complete_raw, hw]; exact h.raw, hread.suffix hsuf⟩, ?_⟩
  exact ⟨hto.low, hto.high, hto.rest, hto.code, hto.bytesIn⟩

/-! ## In step -/

/-- An encoder and a decoder of one build, the decoder on the stream `B`, both at the coder `c`. -/
structure InStep (B : List Bool) (e d : State) (c : Coded) : Prop where
  enc : RawEncoding e
  dec : RawDecoding d
  build : d.build = e.build
  low : e.low = c.low
  high : e.high = c.high
  follows : Follows B d c

/-- Where the stream lies in the narrowed range, the decoder takes the interval that the encoder has taken, and both
are at the next coder. -/
theorem InStep.step {B : List Bool} {e d e' : State} {c : Coded} {i : Interval} (h : InStep B e d c) (hf : i.fits)
    (he : Completes .rawEnc (withArgs i e) e') (hh : Holds d.build B (c.narrow i)) : ∃ v d',
      Completes .rawDecTarget (withArgs i d) v ∧ i.cl ≤ v.result.toNat ∧ v.result.toNat < i.ch ∧
      Completes .rawDecApply v d' ∧ InStep B e' d' (c.code d.build i) := by
  obtain ⟨henc, hi, hto⟩ := rawEnc_completes h.enc hf he
  rw [← h.build] at hi hto
  obtain ⟨hcl, hch⟩ := h.follows.target (h.dec.idle.decReady h.dec.st) hi hh
  have harg := argInterval_withArgs hf d
  have htot : rawTotal (withArgs i d) = i.tot := congrArg Interval.tot harg
  have htarget : rawTarget (withArgs i d) = targetValue d.low d.high d.code i.tot := by rw [rawTarget, htot]; rfl
  obtain ⟨v, hv, hvdec, hresult, hvd⟩ := rawDecTarget_completes (h.dec.withArgs i) (htot ▸ hi.1)
  have hvarg : argInterval v = i := by rw [hvd]; exact harg
  have hvtarget : rawTarget v = targetValue d.low d.high d.code i.tot := by rw [hvd]; exact htarget
  have hvbuild : v.build = d.build := by rw [hvd]; rfl
  have hvcl : cumLow v = i.cl := congrArg Interval.cl hvarg
  have hvch : cumHigh v = i.ch := congrArg Interval.ch hvarg
  have hvfollows : Follows B v c := by
    rw [hvd]; exact ⟨h.follows.low, h.follows.high, h.follows.code, h.follows.rest⟩
  have hin : TargetInside v := by rw [TargetInside, hvtarget, hvcl, hvch]; exact ⟨hcl, hch⟩
  obtain ⟨d', hd', hddec, hdto⟩ := rawDecApply_completes hvdec (by rw [hvarg, hvbuild]; exact hi) hin
  rw [hvarg] at hdto
  have hdfollows := hvfollows.next (l := [i]) hd'.build hdto
  rw [hvbuild] at hdfollows
  obtain ⟨hlow, hhigh⟩ := code_range (b := d.build) (c := c) (d := coded e) h.low h.high i
  refine ⟨v, d', hv, ?_, ?_, hd', henc, hddec, ?_, hto.low.trans hlow, hto.high.trans hhigh, hdfollows⟩
  · rw [hresult, htarget]; exact hcl
  · rw [hresult, htarget]; exact hch
  · rw [hd'.build, hvbuild, h.build, he.build]; rfl

/-- A decoder whose stream lies in the encoder's last range takes every interval in step. -/
theorem InStep.decodes {B : List Bool} {l : List Interval} {e d e1 : State} {c : Coded} (h : InStep B e d c)
    (hc : CodedReady d.build c) (hf : ∀ i ∈ l, i.fits) (hok : ∀ i ∈ l, i.ok d.build) (he : RawEncodes l e e1)
    (hh : Holds d.build B (c.run d.build l)) : DecodesInStep l e d := by
  induction l generalizing e d c with
  | nil => trivial
  | cons i l ih =>
    obtain ⟨e', he', hl⟩ := he
    rw [List.forall_mem_cons] at hf hok
    have hb := h.dec.idle.inv.legal
    have hc' := code_ready hb hc hok.1
    have hnext : Holds d.build B (c.code d.build i) := holds_run hb l hc' hok.2 hh
    obtain ⟨v, d', hv, hcl, hch, hd', hstep⟩ := h.step hf.1 he' (holds_code hb hc hok.1 hnext).1
    have hbuild : d'.build = d.build := by rw [hstep.build, he'.build, h.build]; rfl
    refine ⟨e', v, d', he', hv, hcl, hch, hd', ?_, ?_, ih hstep ?_ hf.2 ?_ hl ?_⟩
    · rw [hstep.follows.low, hstep.low]
    · rw [hstep.follows.high, hstep.high]
    · rw [hbuild]; exact hc'
    · rw [hbuild]; exact hok.2
    · rw [hbuild]; exact hh

/-- Settles O54: the finished stream lies in the encoder's last range (R149), so the decoder takes every interval in
step with it. -/
theorem rawRoundTrip : Obligations.RawRoundTrip := by
  intro l s d e0 e1 e2 stream hs hd hbuild hfits hstart henc hfinish hsunk hsource
  have hb := hs.inv.legal
  obtain ⟨henc0, hcoded0, hwritten0⟩ := rawEncStart_completes hs hstart
  have hbuild0 : e0.build = s.build := hstart.build
  obtain ⟨henc1, hbuild1, hok, hto⟩ := rawEncodes_run henc0 hfits henc
  rw [hbuild0] at hbuild1 hok hto
  rw [hcoded0] at hto
  obtain ⟨pad, hstream⟩ := rawEncFinish_completes henc1 hfinish
  have hbits : stream.flatMap byteBits =
      (((Coded.start s.build).run s.build l).finish s.build).bits ++ List.replicate pad false := by
    rw [hsunk, List.flatMap_append, hto.bits, hwritten0, hbuild1, ← hto.bare, List.append_assoc,
      List.append_assoc] at hstream
    rw [finish_bits, List.append_assoc]
    exact List.append_cancel_left hstream
  have hholds := holds_finish hb (run_ready hb l (start_ready hb) hok) (owes_run hb l (start_owes s.build)) pad
  rw [← hbits] at hholds
  obtain ⟨d0, hd0, hdec0, hfollows⟩ := rawDecStart_completes hd (sourceReadable_of_bytes hsource)
  rw [hsource, sourceBytes_map, hbuild] at hfollows
  have hbuildd : d0.build = s.build := hd0.build.trans hbuild
  have hstep : InStep (stream.flatMap byteBits) e0 d0 (Coded.start s.build) :=
    ⟨henc0, hdec0, hbuildd.trans hbuild0.symm, congrArg Coded.low hcoded0, congrArg Coded.high hcoded0, hfollows⟩
  refine ⟨d0, hd0, hstep.decodes ?_ hfits ?_ henc ?_⟩
  · rw [hbuildd]; exact start_ready hb
  · rw [hbuildd]; exact hok
  · rw [hbuildd]; exact hholds

end Sys2Proof.Machine
end

section
/-! The PPM model's two operations after a coded literal: `update` and `pushHistory` (43_ppm_model.md R180, R184). -/

namespace Sys2Proof.Machine

/-! ## The update -/

theorem order_nonneg_of_descent {s : State} (h : 0 < descentOrders s) : 0 ≤ s.order := by
  by_contra ho
  rw [descentOrders, if_neg ho] at h
  exact absurd h (Nat.lt_irrefl 0)

/-- Without contexts to look at, the loop of `update` makes no round (R180). -/
theorem update_of_order_neg {s : State} (h : s.order < 0) (sym : Nat) : update sym s = .ok () s := by
  rw [update, descentOrders, if_neg h.not_ge, updateFrom]

/-- NODES after an update that completes: every missing context has been created (R180, R181). -/
theorem update_nodes {sym : Nat} (hsym : sym < 256) {s : State} (hb : s.build.legal = true) (h : ModelOk s) :
    (update sym s).Post (fun _ t => t.nodes = s.nodes + missingFrom s (descentOrders s) 0)
      (fun _ _ => True) (fun _ _ => False) :=
  (updateFrom_post hsym (descentOrders s) 0 hb h ((Nat.zero_add _).trans_le (descentOrders_le s))
    order_nonneg_of_descent nofun).imp (fun _ _ ⟨_, _, _, hn⟩ => hn) (fun _ _ _ => trivial) (fun _ _ hf => hf)

/-- Settles O55: `update` completes only with room and raises only without (`update_post`), so each case has one end. -/
theorem update_spec : Obligations.Update := by
  intro s sym hb hm hsym
  have hpost := (update_post hsym hb hm).and (update_nodes hsym hb hm)
  refine ⟨fun ho => update_of_order_neg (ho ▸ by decide) sym, fun hroom => ?_, fun hfull => ?_⟩
  · obtain ⟨⟨⟩, t, e, ⟨honly, hmodel, hstore, -⟩, hnodes⟩ := hpost.exists_ok
      (fun _ _ ⟨⟨_, _, _, hfull, _⟩, _⟩ => hfull hroom) (fun _ _ ⟨hf, _⟩ => hf)
    exact ⟨t, e, honly, hstore.learned, hnodes, hmodel⟩
  · obtain ⟨_, t, e, ⟨rfl, honly, -, -, hstopped⟩, -⟩ := hpost.exists_raised
      (fun _ _ ⟨⟨_, _, _, hroom⟩, _⟩ => hfull hroom) (fun _ _ ⟨hf, _⟩ => hf)
    exact ⟨t, e, honly, hstopped⟩

/-! ## History -/

theorem historyAfter_length_le {s : State} (h : (s.hist.length : Int) ≤ max s.order 0) (b : Byte) :
    ((historyAfter b s).length : Int) ≤ max s.order 0 := by
  rw [historyAfter]
  split
  case isTrue =>
    have := List.length_take_le s.order.toNat (b :: s.hist)
    omega
  case isFalse => exact h

/-- Settles O56: only H changes, and H becomes `historyAfter`. -/
theorem pushHistory_spec : Obligations.PushHistory := by
  intro s b h
  have hhist := pushHistory_hist_eq h b
  constructor
  · rw [pushHistory_only, hhist]
    rfl
  · rw [hhist]
    exact historyAfter_length_le h b

end Sys2Proof.Machine
end

section
/-! How a command that is valid in its STATE ends, read forwards from the ends of its rule (44_commands.md R200,
60_exceptions.md R244, 70_reset_and_hazards.md R277). -/

namespace Sys2Proof.Machine

theorem dispatchSession_of_valid {opc : BitVec 8} {valid : Bool} {body : State → Res Unit} {s : State}
    (hst : s.st ≠ .error) (hv : valid = true) : dispatchSession opc valid body s = finishCommand opc s.st (body s) := by
  rw [dispatchSession, if_neg hst, if_pos hv]

/-! ## One end, where the other two do not arise -/

section
variable {r : Res Unit} {P : Unit → State → Prop} {E : Cause → State → Prop} {W : PortRequest → State → Prop}

theorem Res.Post.completes (h : r.Post P E W) (he : ∀ c u, ¬ E c u) (hw : ∀ q u, ¬ W q u) (opc : BitVec 8)
    (st : SessionState) : ∃ u, finishCommand opc st r = .next (complete u) ∧ P () u := by
  obtain ⟨_, u, rfl, hu⟩ := h.exists_ok he hw
  exact ⟨u, rfl, hu⟩

theorem Res.Post.raises (h : r.Post P E W) (hp : ∀ u, ¬ P () u) (hw : ∀ q u, ¬ W q u) (opc : BitVec 8)
    (st : SessionState) : ∃ c u, finishCommand opc st r = .next (enterError opc c u) ∧ E c u := by
  obtain ⟨c, u, rfl, hu⟩ := h.exists_raised (fun _ => hp) hw
  exact ⟨c, u, rfl, hu⟩

theorem Res.Post.waits (h : r.Post P E W) (hp : ∀ u, ¬ P () u) (he : ∀ c u, ¬ E c u) (opc : BitVec 8)
    (st : SessionState) : ∃ q u, finishCommand opc st r =
      .next { u with portWait := some { request := q, startedIn := st } } ∧ W q u := by
  cases r with
  | ok a u => exact absurd h (hp u)
  | raised c u => exact absurd h (he c u)
  | waiting q u => exact ⟨q, u, rfl, h⟩

end

/-- Outside ERROR `raise` ends the session with the cause's pair (R242, R244). -/
theorem raised_enterError {u : State} (h : u.st ≠ .error) (opc : BitVec 8) (c : Cause) :
    Raised c.code c.sub opc (enterError opc c u) := by
  rw [enterError_eq h]
  exact ⟨rfl, rfl, rfl⟩

/-! ## The numbers do not depend on the completion -/

theorem EncodedTo.completed {s u : State} {c : Coded} (h : EncodedTo s u c) : EncodedTo s (complete u) c :=
  h.of_writer rfl rfl rfl rfl rfl rfl rfl rfl

theorem DecodedTo.completed {s u : State} {c : Coded} (h : DecodedTo s u c) : DecodedTo s (complete u) c :=
  h.of_reader rfl rfl rfl rfl rfl rfl rfl rfl

theorem EncodedTo.enterError {s u : State} {c : Coded} (h : EncodedTo s u c) (opc : BitVec 8) (cause : Cause) :
    EncodedTo s (enterError opc cause u) c :=
  h.of_writer rfl rfl rfl rfl rfl rfl rfl rfl

theorem DecodedTo.enterError {s u : State} {c : Coded} (h : DecodedTo s u c) (opc : BitVec 8) (cause : Cause) :
    DecodedTo s (enterError opc cause u) c :=
  h.of_reader rfl rfl rfl rfl rfl rfl rfl rfl

/-! ## Nor do the rows of R213 -/

theorem EncByteWrites.completed {s u : State} (h : EncByteWrites s u) :
    EncByteWrites { s with pendingCmd := none } (complete u) := congrArg complete h

theorem EncFinishWrites.completed {s u : State} (h : EncFinishWrites s u) :
    EncFinishWrites { s with pendingCmd := none } (complete u) := congrArg complete h

theorem DecSymbolWrites.completed {s u : State} (h : DecSymbolWrites s u) :
    DecSymbolWrites { s with pendingCmd := none } (complete u) := congrArg complete h

theorem RawEncWrites.completed {s u : State} (h : RawEncWrites s u) :
    RawEncWrites { s with pendingCmd := none } (complete u) := congrArg complete h

theorem RawDecApplyWrites.completed {s u : State} (h : RawDecApplyWrites s u) :
    RawDecApplyWrites { s with pendingCmd := none } (complete u) := congrArg complete h

/-! ## PENDING_CMD while a command waits -/

theorem EncodeWrites.pendingCmd {s u : State} (h : EncodeWrites s u) : u.pendingCmd = s.pendingCmd := by
  unfold EncodeWrites at h; rw [h]

theorem DecodeWrites.pendingCmd {s u : State} (h : DecodeWrites s u) : u.pendingCmd = s.pendingCmd := by
  unfold DecodeWrites at h; rw [h]

/-! ## The ports stop a command in one way -/

/-- A source stops a reader by one answer. -/
theorem SourceStops.unique {a b : SrcAnswer} {s : State} (h : SourceStops a s) (k : SourceStops b s) : a = b :=
  Option.some.inj (h.2.symm.trans k.2)

/-- A sink that answers everything stops no command by silence. -/
theorem SinkAnswers.not_silent {s : State} (h : SinkAnswers s) {n : Nat} : ¬ SinkStops .silent n s :=
  fun m => h m.mem

/-- Nor does a source that answers everything. -/
theorem SourceAnswers.not_silent {s : State} (h : SourceAnswers s) : ¬ SourceStops .silent s :=
  fun m => h m.mem

end Sys2Proof.Machine
end

section
/-! The RAW coder commands in an open RAW session (44_commands.md R207 to R210). -/

namespace Sys2Proof.Machine

/-! ## RAW_ENC -/

theorem exec_rawEnc {s : State} (he : s.st = .enc) (hr : s.raw = true) :
    exec .rawEnc s = finishCommand 0x06#8 .enc (rawEncBody s) := by
  rw [← he]
  exact dispatchSession_of_valid (by rw [he]; decide) (by rw [he, hr]; rfl)

theorem intervalOk_iff {b : Build} {cl ch tot : Nat} :
    IntervalOk b cl ch tot ↔ (1 ≤ tot ∧ tot ≤ b.quarter + 2) ∧ cl < ch ∧ ch ≤ tot :=
  and_congr totalOk_iff Iff.rfl

/-- An interval that `narrow` refuses stops RAW_ENC before it has written anything. -/
theorem rawEncBody_refused {s : State} (h : RangeReady s)
    (hi : ¬ IntervalOk s.build (cumLow s) (cumHigh s) (rawTotal s)) :
    rawEncBody s = .raised (if totalOk s.build (rawTotal s) then .badInterval else .badTotal) s := by
  obtain ⟨c, _, e, rfl, hc⟩ := (narrow_post h (cumLow s) (cumHigh s) (rawTotal s)).exists_raised
    (fun _ _ k => hi k.1) (fun _ _ k => k)
  rw [rawEncBody, encodeInterval, e]
  rcases hc with ⟨rfl, ht⟩ | ⟨rfl, ht, -⟩ <;> rw [ht] <;> rfl

/-- On an interval that `narrow` takes, RAW_ENC stops for the sink or for PENDING alone. -/
theorem rawEncBody_checked {s : State} (h : EncodeOpen s)
    (hi : IntervalOk s.build (cumLow s) (cumHigh s) (rawTotal s)) : (rawEncBody s).Post
    (fun _ t => RawEncWrites s t ∧ EncodedTo s t ((coded s).code s.build (argInterval s)) ∧ t.syms = s.syms + 1 ∧
      PendingFits s.build [argInterval s] (coded s) ∧ SinkTakes (filledBytes s [argInterval s]) s)
    (fun c t => RawEncWrites s t ∧ t.syms = s.syms ∧
      ((c = .sinkFail ∧ SinkStops .fail (filledBytes s [argInterval s]) s) ∨
        (c = .pendingFull ∧ ¬ PendingFits s.build [argInterval s] (coded s) ∧
          SinkTakes (filledBytes s [argInterval s]) s)))
    (fun _ t => RawEncWrites s t ∧ SinkStops .silent (filledBytes s [argInterval s]) s) := by
  refine (rawEncBody_post h).imp ?_ ?_ ?_
  · rintro _ t ⟨-, -, hw, -, hto, hsyms, hfits, htakes⟩
    exact ⟨hw, hto, hsyms, hfits, htakes⟩
  · rintro c t (⟨hbad, -⟩ | ⟨-, -, hw, hsyms, hcause⟩)
    · exact absurd hi hbad
    · exact ⟨hw, hsyms, hcause⟩
  · rintro q t ⟨hstop, -, hw⟩
    exact ⟨hw, hstop⟩

/-- Settles O30: a refused interval by `rawEncBody_refused`, and the coding step by the ends of `rawEncBody_checked`. -/
theorem rawEnc : Obligations.RawEnc := by
  intro s h he hr i
  have hopen := h.encodeOpen he
  have hst : s.st ≠ .error := by rw [he]; decide
  have hpost := rawEncBody_post hopen
  have hrefused := rawEncBody_refused hopen.coder.toRangeReady
  have raised : ∀ {u}, RawEncWrites s u → ∀ c, Raised c.code c.sub 0x06 (enterError 0x06#8 c u) := fun hw c =>
    raised_enterError (by rw [hw.encode.2]; exact hst) 0x06#8 c
  rw [exec_rawEnc he hr]
  refine ⟨fun h1 h2 h3 h4 => ?_, fun ht => ?_, fun h1 h2 hi => ?_, fun t e hsink => ?_⟩
  · have hchecked := rawEncBody_checked hopen (intervalOk_iff.mpr ⟨⟨h1, h2⟩, h3, h4⟩)
    refine ⟨fun htakes hfits => ?_, fun htakes hfull => ?_, fun hstop => ?_, fun hstop => ?_⟩
    · obtain ⟨u, e, hw, hto, hsyms, -⟩ := hchecked.completes
        (by
          rintro c u ⟨-, -, ⟨-, hfail⟩ | ⟨-, hfull, -⟩⟩
          · exact htakes.not_stops (by decide) hfail
          · exact hfull hfits)
        (fun q u ⟨_, hsilent⟩ => htakes.not_stops (by decide) hsilent) 0x06#8 .enc
      exact ⟨_, e, hw.completed, hto.completed, hsyms⟩
    · obtain ⟨c, u, e, hw, hsyms, ⟨-, hfail⟩ | ⟨rfl, -⟩⟩ := hchecked.raises
        (fun u ⟨_, _, _, hfits, _⟩ => hfull hfits)
        (fun q u ⟨_, hsilent⟩ => htakes.not_stops (by decide) hsilent) 0x06#8 .enc
      · exact absurd hfail (htakes.not_stops (by decide))
      · exact ⟨_, e, raised hw .pendingFull, hsyms⟩
    · obtain ⟨c, u, e, hw, hsyms, ⟨rfl, -⟩ | ⟨-, -, htakes⟩⟩ := hchecked.raises
        (fun u ⟨_, _, _, _, htakes⟩ => htakes.not_stops (by decide) hstop)
        (fun q u ⟨_, hsilent⟩ => nomatch hsilent.unique hstop (by decide) (by decide)) 0x06#8 .enc
      · exact ⟨_, e, raised hw .sinkFail, hsyms⟩
      · exact absurd hstop (htakes.not_stops (by decide))
    · obtain ⟨q, u, e, hw, -⟩ := hchecked.waits
        (fun u ⟨_, _, _, _, htakes⟩ => htakes.not_stops (by decide) hstop)
        (by
          rintro c u ⟨-, -, ⟨-, hfail⟩ | ⟨-, -, htakes⟩⟩
          · exact nomatch hfail.unique hstop (by decide) (by decide)
          · exact htakes.not_stops (by decide) hstop) 0x06#8 .enc
      exact ⟨_, e, nofun, hw.encode.1.pendingCmd⟩
  · have htotal : totalOk s.build (rawTotal s) = false := by rwa [← Bool.not_eq_true, totalOk_iff]
    rw [hrefused fun k => ht (intervalOk_iff.mp k).1, htotal]
    exact congrArg _ (enterError_eq hst 0x06#8 .badTotal)
  · have htotal : totalOk s.build (rawTotal s) = true := totalOk_iff.mpr ⟨h1, h2⟩
    rw [hrefused fun k => hi (intervalOk_iff.mp k).2, htotal]
    exact congrArg _ (enterError_eq hst 0x06#8 .badInterval)
  · rcases finishCommand_cases e with ⟨u, hu, rfl⟩ | ⟨c, u, hu, rfl⟩ | ⟨q, u, hu, rfl⟩
    · obtain ⟨-, -, hw, -, -, -, hfits, htakes⟩ := hpost.of_ok hu
      exact .inl ⟨hw.encode.2.trans he, hfits, htakes⟩
    · rcases hpost.of_raised hu with ⟨-, rfl, rfl⟩ | ⟨-, -, hw, -, ⟨rfl, hstop⟩ | ⟨rfl, hfull, -⟩⟩
      · split
        · exact .inr (.inr (.inl (raised_enterError hst 0x06#8 .badInterval)))
        · exact .inr (.inl (raised_enterError hst 0x06#8 .badTotal))
      · exact .inr (.inr (.inr (.inl ⟨raised hw .sinkFail, hstop⟩)))
      · exact .inr (.inr (.inr (.inr ⟨raised hw .pendingFull, hfull⟩)))
    · exact absurd (hpost.of_waiting hu).1 hsink.not_silent

/-! ## The RAW decode commands -/

section
variable {s : State} (hd : s.st = .dec) (hr : s.raw = true)
include hd hr

theorem rawDecValid_open : rawDecValid s = true := by
  rw [rawDecValid, hd, hr]; rfl

theorem exec_rawDecTarget : exec .rawDecTarget s = finishCommand 0x07#8 .dec (rawDecTargetBody s) := by
  rw [← hd]
  exact dispatchSession_of_valid (by rw [hd]; decide) (rawDecValid_open hd hr)

theorem exec_rawDecApply : exec .rawDecApply s = finishCommand 0x08#8 .dec (rawDecApplyBody s) := by
  rw [← hd]
  exact dispatchSession_of_valid (by rw [hd]; decide) (rawDecValid_open hd hr)

end

/-- `target` in an open session is checked for the total alone (R150, R34). -/
theorem target_eq {s : State} (h : DecReady s) (tot : Nat) : target tot s =
    if totalOk s.build tot = true then .ok (targetValue s.low s.high s.code tot) s else .raised .badTotal s := by
  rw [target, if_neg (not_not_intro ⟨h.codeLow, h.codeHigh⟩)]
  cases totalOk s.build tot <;> rfl

/-- Settles O31: the value is `rawTarget`, by `rawDecTargetBody_post`. -/
theorem rawDecTarget : Obligations.RawDecTarget := by
  intro s h hd hr
  have hopen := h.decodeOpen hd
  have hlh : s.low ≤ s.high := hopen.coder.codeLow.trans hopen.coder.codeHigh
  have hvalue : rawTarget s = ((s.code - s.low + 1) * s.arg2.toNat - 1) / (s.high - s.low + 1) :=
    targetValue_eq hopen.coder.codeLow hlh _
  rw [exec_rawDecTarget hd hr, ← hvalue]
  refine ⟨fun h1 h2 => ?_, fun ht => ?_⟩
  · have htotal : totalOk s.build (rawTotal s) = true := totalOk_iff.mpr ⟨h1, h2⟩
    obtain ⟨u, e, -, hlt, rfl⟩ := (rawDecTargetBody_post hopen).completes
      (by rintro c u ⟨-, hbad, -⟩; cases htotal.symm.trans hbad) (fun _ _ k => k) 0x07#8 .dec
    exact ⟨e, hlt⟩
  · have htotal : totalOk s.build (rawTotal s) ≠ true := fun k => ht (totalOk_iff.mp k)
    rw [rawDecTargetBody, target_eq hopen.coder, if_neg htotal]
    exact congrArg _ (enterError_eq (by rw [hd]; decide) 0x07#8 .badTotal)

/-- `decodeApply` in an open session: the checks of R154 in their order, then the step. -/
theorem decodeApply_eq {s : State} (h : DecReady s) (cl ch tot : Nat) : decodeApply cl ch tot s =
    if totalOk s.build tot = true then
      if cl ≤ targetValue s.low s.high s.code tot ∧ targetValue s.low s.high s.code tot < ch then
        (narrow cl ch tot s).andThen fun _ s => normDec s
      else .raised .targetOutside s
    else .raised .badTotal s := by
  rw [decodeApply, target_eq h]
  by_cases ht : totalOk s.build tot = true
  · rw [if_pos ht, if_pos ht, andThen_ok, ite_not]
  · rw [if_neg ht, if_neg ht, andThen_raised]

theorem narrow_badInterval {s : State} {cl ch tot : Nat} (ht : totalOk s.build tot = true)
    (hi : ¬ (cl < ch ∧ ch ≤ tot)) : narrow cl ch tot s = .raised .badInterval s := by
  rw [narrow, if_neg (by simp [ht]), if_pos hi]

/-- On an interval that `narrow` takes and that holds the target value, RAW_DEC_APPLY stops for the source alone. -/
theorem rawDecApplyBody_checked {s : State} (h : DecodeOpen s)
    (hi : IntervalOk s.build (cumLow s) (cumHigh s) (rawTotal s)) (hin : TargetInside s) : (rawDecApplyBody s).Post
    (fun _ t => DecodeOpen t ∧ RawDecApplyWrites s t ∧ DecodedTo s t ((coded s).code s.build (argInterval s)) ∧
      t.syms = s.syms + 1 ∧ SourceGives ((coded s).code s.build (argInterval s)).steps s)
    (fun c t => c = .sourceFail ∧ RawDecApplyWrites s t ∧ t.syms = s.syms ∧ SourceStops .fail s ∧
      ShortOf s ((coded s).code s.build (argInterval s)))
    (fun _ t => RawDecApplyWrites s t ∧ SourceStops .silent s ∧
      ShortOf s ((coded s).code s.build (argInterval s))) := by
  refine (rawDecApplyBody_post h).imp ?_ ?_ ?_
  · rintro _ t ⟨-, -, hopen, hw, -, hgives, hto, hsyms⟩
    exact ⟨hopen, hw, hto, hsyms, hgives⟩
  · rintro c t (⟨-, -, hbad⟩ | ⟨-, -, -, hbad⟩ | ⟨-, -, -, hbad, -⟩ | ⟨-, -, hw, hsyms, rfl, hstop, hshort⟩)
    · cases hi.1.symm.trans hbad
    · exact absurd hin hbad
    · exact absurd hi.2.2 hbad.not_ge
    · exact ⟨rfl, hw, hsyms, hstop, hshort⟩
  · rintro q t ⟨hstop, -, hw, hshort⟩
    exact ⟨hw, hstop, hshort⟩

/-- Settles O32: the refusals by `decodeApply_eq`, the step and the source's stops by `rawDecApplyBody_checked`. -/
theorem rawDecApply : Obligations.RawDecApply := by
  intro s h hd hr i v
  have hopen := h.decodeOpen hd
  have hst : s.st ≠ .error := by rw [hd]; decide
  have hvalue : rawTarget s = v :=
    targetValue_eq hopen.coder.codeLow (hopen.coder.codeLow.trans hopen.coder.codeHigh) _
  have hinside : TargetInside s ↔ i.cl ≤ v ∧ v < i.ch := by rw [TargetInside, hvalue]; rfl
  have checked : 1 ≤ i.tot → i.tot ≤ s.build.quarter + 2 → i.cl ≤ v → v < i.ch → i.ch ≤ i.tot → _ :=
    fun h1 h2 h3 h4 h5 => rawDecApplyBody_checked hopen (intervalOk_iff.mpr ⟨⟨h1, h2⟩, h3.trans_lt h4, h5⟩)
      (hinside.mpr ⟨h3, h4⟩)
  have hrule : rawDecApplyBody s = (decodeApply i.cl i.ch i.tot s).andThen fun _ s => .ok () (countSymbol s) := rfl
  have heq := decodeApply_eq hopen.coder i.cl i.ch i.tot
  rw [show targetValue s.low s.high s.code i.tot = v from hvalue] at heq
  have raised : ∀ {u}, RawDecApplyWrites s u → ∀ c, Raised c.code c.sub 0x08 (enterError 0x08#8 c u) := fun hw c =>
    raised_enterError (by rw [hw.decode.2]; exact hst) 0x08#8 c
  have refused : ∀ c, enterError 0x08#8 c s = raisedAt c.code c.sub 0x08 s := enterError_eq hst 0x08#8
  rw [exec_rawDecApply hd hr]
  refine ⟨fun h1 h2 h3 h4 h5 hgives => ?_, fun ht => ?_, fun h1 h2 hv => ?_, fun h1 h2 h3 h4 h5 => ?_,
    fun t e hsrc => ?_, fun h1 h2 h3 h4 h5 hshort => ⟨fun hfail => ?_, fun hsilent => ?_⟩⟩
  · obtain ⟨u, e, hopen', hw, hto, hsyms, -⟩ := (checked h1 h2 h3 h4 h5).completes
      (fun c u ⟨_, _, _, hstop, hshort⟩ => hgives.not_short hstop hshort)
      (fun q u ⟨_, hstop, hshort⟩ => hgives.not_short hstop hshort) 0x08#8 .dec
    exact ⟨_, e, hw.completed, hto.completed, hopen'.coder.codeLow, hopen'.coder.codeHigh, hsyms⟩
  · rw [hrule, heq, if_neg fun k => ht (totalOk_iff.mp k)]
    exact congrArg _ (refused .badTotal)
  · rw [hrule, heq, if_pos (totalOk_iff.mpr ⟨h1, h2⟩), if_neg hv]
    exact congrArg _ (refused .targetOutside)
  · have htotal : totalOk s.build i.tot = true := totalOk_iff.mpr ⟨h1, h2⟩
    rw [hrule, heq, if_pos htotal, if_pos ⟨h3, h4⟩, narrow_badInterval htotal fun k => h5.not_ge k.2]
    exact congrArg _ (refused .badInterval)
  · have hpost := rawDecApplyBody_post hopen
    rcases finishCommand_cases e with ⟨u, hu, rfl⟩ | ⟨c, u, hu, rfl⟩ | ⟨q, u, hu, rfl⟩
    · obtain ⟨-, -, -, hw, -⟩ := hpost.of_ok hu
      exact .inl (hw.decode.2.trans hd)
    · rcases hpost.of_raised hu with ⟨rfl, rfl, -⟩ | ⟨rfl, -, rfl, -⟩ | ⟨rfl, -, rfl, -⟩ |
        ⟨-, -, hw, -, rfl, hstop, hshort⟩
      · exact .inr (.inl ⟨1#4, by simp, refused .badTotal⟩)
      · exact .inr (.inl ⟨5#4, by simp, refused .targetOutside⟩)
      · exact .inr (.inl ⟨2#4, by simp, refused .badInterval⟩)
      · exact .inr (.inr ⟨raised hw .sourceFail, hstop, hshort⟩)
    · exact absurd (hpost.of_waiting hu).1 hsrc.not_silent
  · obtain ⟨c, u, e, rfl, hw, hsyms, -⟩ := (checked h1 h2 h3 h4 h5).raises
      (fun u ⟨_, _, _, _, hgives⟩ => hgives.not_short hfail hshort)
      (fun q u ⟨_, hsilent, _⟩ => nomatch hsilent.unique hfail) 0x08#8 .dec
    exact ⟨_, e, raised hw .sourceFail, hsyms⟩
  · obtain ⟨q, u, e, hw, -⟩ := (checked h1 h2 h3 h4 h5).waits
      (fun u ⟨_, _, _, _, hgives⟩ => hgives.not_short hsilent hshort)
      (fun c u ⟨_, _, _, hfail, _⟩ => nomatch hfail.unique hsilent) 0x08#8 .dec
    exact ⟨_, e, nofun, hw.decode.1.pendingCmd⟩

/-- Settles O33: the rule only sets STATE. -/
theorem rawDecEnd : Obligations.RawDecEnd := by
  intro s hd hr
  have hrule : rawDecEndBody s = .ok () { s with st := .done } := rfl
  exact dispatchSession_of_ok (by rw [hd]; decide) (rawDecValid_open hd hr) hrule

end Sys2Proof.Machine
end

section
/-! The session commands START and ABORT (44_commands.md R202, R203, R211): START's checks, the same for both
directions, and what a decode session then reads into CODE. -/

namespace Sys2Proof.Machine

/-! ## START's checks -/

/-- `raise` in ERROR only completes the command (R246). -/
theorem enterError_of_error {s : State} (h : s.st = .error) (opc : BitVec 8) (c : Cause) :
    enterError opc c s = complete s := by
  rw [enterError, recordError, if_pos h, ← h]
  rfl

/-- None of R202's three checks fails. -/
theorem StartAccepted.passes {b : Build} {order : Int} {alpha : Nat} {rawf : Bool}
    (h : StartAccepted b order alpha rawf) : ¬ (rawf = true ∧ ¬ (order = 0 ∧ alpha = 0)) ∧
      ¬ (rawf = false ∧ alpha ≠ alphabetSize) ∧ ¬ (rawf = false ∧ ¬ (-1 ≤ order ∧ order ≤ b.maxOrder)) := by
  unfold StartAccepted at h
  cases rawf with
  | true => exact ⟨fun k => k.2 h, nofun, nofun⟩
  | false => exact ⟨nofun, fun k => k.2 h.1, fun k => k.2 h.2⟩

section
variable {s : State} (hb : s.build.legal = true) (d : Direction) {order : Int} {alpha : Nat} {rawf : Bool}
include hb

theorem start_badAlphabet (hr : rawf = false) (ha : alpha ≠ 257) :
    start d order alpha rawf s = .raised .badAlphabet (clearSession s) := by
  rw [start_eq hb, if_neg (by simp [hr]), if_pos ⟨hr, ha⟩]

theorem start_badOrder (hr : rawf = false) (ha : alpha = 257) (ho : ¬ (-1 ≤ order ∧ order ≤ s.build.maxOrder)) :
    start d order alpha rawf s = .raised .badOrder (clearSession s) := by
  rw [start_eq hb, if_neg (by simp [hr]), if_neg (fun k => k.2 ha), if_pos ⟨hr, ho⟩]

/-- Where R202's checks pass, ENC_START opens the session. -/
theorem encStart_accepted (ha : StartAccepted s.build order alpha rawf) :
    start .encode order alpha rawf s = .ok () (opened .encode order rawf s) := by
  obtain ⟨hraw, halpha, horder⟩ := ha.passes
  rw [start_eq hb, if_neg hraw, if_neg halpha, if_neg horder]

/-- Where they pass, DEC_START opens the session and fills CODE. -/
theorem decStart_accepted (ha : StartAccepted s.build order alpha rawf) :
    start .decode order alpha rawf s = decInit (opened .decode order rawf s) := by
  obtain ⟨hraw, halpha, horder⟩ := ha.passes
  rw [start_eq hb, if_neg hraw, if_neg halpha, if_neg horder]

/-- The checks that fail end START with their errors, in their order (R202). -/
theorem start_refusals (opc : BitVec 8) :
    (rawf = true → ¬ (order = 0 ∧ alpha = 0) → s.st ≠ .error →
      finishCommand opc s.st (start d order alpha rawf s) = .next (raisedAt .illegalCommand 2 opc s)) ∧
    (rawf = true → ¬ (order = 0 ∧ alpha = 0) → s.st = .error →
      finishCommand opc s.st (start d order alpha rawf s) = .next { s with pendingCmd := none }) ∧
    (rawf = false → alpha ≠ 257 → finishCommand opc s.st (start d order alpha rawf s) =
      .next (raisedAt .configurationError 2 opc (clearSession s))) ∧
    (rawf = false → alpha = 257 → ¬ (-1 ≤ order ∧ order ≤ s.build.maxOrder) →
      finishCommand opc s.st (start d order alpha rawf s) =
        .next (raisedAt .configurationError 1 opc (clearSession s))) := by
  refine ⟨fun hr hz hst => ?_, fun hr hz hst => ?_, fun hr ha => ?_, fun hr ha ho => ?_⟩
  · rw [start_refused ⟨hr, hz⟩ d hb]
    exact congrArg _ (enterError_eq hst opc .reservedBit)
  · rw [start_refused ⟨hr, hz⟩ d hb]
    exact congrArg _ (enterError_of_error hst opc .reservedBit)
  · rw [start_badAlphabet hb d hr ha]
    rfl
  · rw [start_badOrder hb d hr ha ho]
    rfl

end

/-- Settles O25: `encStart_accepted`, `start_refusals`, and the decoder's refusal of IMM[23:18]. -/
theorem encStart : Obligations.EncStart := by
  intro s hb
  refine ⟨fun order alpha rawf => ⟨fun ha => ?_, start_refusals hb .encode 0x01#8⟩, fun w hopc himm hst => ?_⟩
  · exact congrArg (finishCommand 0x01#8 s.st) (encStart_accepted hb ha)
  · obtain ⟨-, hreserved, -⟩ := illegalWords s w hst
    have hset : reservedSet 1 (w.toNat % 2 ^ 24) := by
      rw [reservedSet, if_pos (.inl rfl)]
      left
      omega
    rw [hopc] at hreserved
    exact hreserved (by unfold definedOpc; decide) hset

/-! ## What a decode session reads into CODE -/

theorem length_flatMap_byteBits (l : List Byte) : (l.flatMap byteBits).length = 8 * l.length := by
  rw [List.length_flatMap, show (fun b : Byte => (byteBits b).length) = fun _ => 8 from rfl, List.map_const',
    List.sum_replicate, Nat.mul_comm]
  rfl

/-- A session that has just been opened has read nothing. -/
theorem unreadBits_opened (d : Direction) (order : Int) (rawf : Bool) (s : State) :
    unreadBits (opened d order rawf s) = (sourceBytes s.env.source).flatMap byteBits := rfl

theorem sourceStops_opened (d : Direction) (order : Int) (rawf : Bool) (s : State) (a : SrcAnswer) :
    SourceStops a (opened d order rawf s) ↔ stopAnswer s.env.source = some a :=
  and_iff_right rfl

/-- What a decode session's start may still write once it is opened (R203). -/
theorem DecoderOnly.opened_writes {order : Int} {rawf : Bool} {s u : State}
    (h : DecoderOnly (opened .decode order rawf s) u) (hl : u.low = 0) (hh : u.high = s.build.mask) :
    u = { opened .decode order rawf s with
      code := u.code, inBuf := u.inBuf, inN := u.inN, inEof := u.inEof, bytesIn := u.bytesIn
      env := { s.env with source := u.env.source } } := by
  unfold DecoderOnly at h
  rw [hl, hh] at h
  exact h

/-- Settles O26: the checks by `start_refusals`, and what follows them by the ends of `decInit_post`. -/
theorem decStart : Obligations.DecStart := by
  intro s hb order alpha rawf
  have hpost := decInit_post (s := opened .decode order rawf s) hb rfl rfl rfl (Nat.zero_le _)
  have hlen : (unreadBits (opened .decode order rawf s)).length = 8 * (sourceBytes s.env.source).length := by
    rw [unreadBits_opened, length_flatMap_byteBits]
  have hstops := sourceStops_opened .decode order rawf s
  have hexec : StartAccepted s.build order alpha rawf → exec (.decStart order alpha rawf) s =
      finishCommand 0x02#8 s.st (decInit (opened .decode order rawf s)) := fun ha =>
    congrArg (finishCommand 0x02#8 s.st) (decStart_accepted hb ha)
  refine ⟨fun ha hgives => ?_, fun ha hshort => ⟨fun hfail => ?_, fun hsilent => ?_⟩, fun t ha hloud e => ?_,
    start_refusals hb .decode 0x02#8⟩
  · have enough : ∀ {a}, SourceStops a (opened .decode order rawf s) →
        ¬ (unreadBits (opened .decode order rawf s)).length < s.build.width := by
      intro a m
      rw [hlen]
      exact (hgives a ((hstops a).mp m)).not_gt
    obtain ⟨u, e, -, honly, hrest, hbytes, -, hcode, hlow, hhigh, -⟩ := hpost.completes
      (fun c u ⟨_, hstop, _, _, _, hshort⟩ => enough hstop hshort)
      (fun q u ⟨hstop, _, _, _, hshort⟩ => enough hstop hshort) 0x02#8 s.st
    exact ⟨_, (hexec ha).trans e, congrArg complete (honly.opened_writes hlow hhigh), hcode, hrest,
      hbytes.trans (BitVec.zero_add _)⟩
  · obtain ⟨c, u, e, rfl, -, hstopped, hlow, hhigh, -⟩ := hpost.raises
      (fun u ⟨_, _, _, _, _, _, _, _, hgives⟩ => (hgives _ ((hstops .fail).mpr hfail)).not_gt (hlen ▸ hshort))
      (fun q u ⟨hstop, _⟩ => nomatch hstop.unique ((hstops .fail).mpr hfail)) 0x02#8 s.st
    have hw := hstopped.only.opened_writes hlow hhigh
    exact ⟨_, (hexec ha).trans e, raised_enterError (by rw [hw]; nofun) 0x02#8 .sourceFail⟩
  · obtain ⟨q, u, e, -, hstopped, hlow, hhigh, -⟩ := hpost.waits
      (fun u ⟨_, _, _, _, _, _, _, _, hgives⟩ => (hgives _ ((hstops .silent).mpr hsilent)).not_gt (hlen ▸ hshort))
      (fun c u ⟨_, hstop, _⟩ => nomatch hstop.unique ((hstops .silent).mpr hsilent)) 0x02#8 s.st
    have hw := hstopped.only.opened_writes hlow hhigh
    exact ⟨_, (hexec ha).trans e, nofun, by rw [hw]; rfl⟩
  · rw [hexec ha] at e
    rcases finishCommand_cases e with ⟨u, hu, rfl⟩ | ⟨c, u, hu, rfl⟩ | ⟨q, u, hu, rfl⟩
    · obtain ⟨-, honly, -, -, -, -, hlow, hhigh, -⟩ := hpost.of_ok hu
      have hw := honly.opened_writes hlow hhigh
      exact .inl (by rw [hw]; rfl)
    · obtain ⟨rfl, hstop, hstopped, hlow, hhigh, hshort⟩ := hpost.of_raised hu
      have hw := hstopped.only.opened_writes hlow hhigh
      refine .inr ⟨raised_enterError (by rw [hw]; nofun) 0x02#8 .sourceFail, (hstops .fail).mp hstop, hlen ▸ hshort,
        ?_, ?_, ?_, ?_⟩ <;> rw [hw] <;> rfl
    · exact absurd ((hstops .silent).mp (hpost.of_waiting hu).1) hloud

/-! ## ABORT -/

/-- Settles O34: ABORT is R43's clearing step, then completion. -/
theorem abort : Obligations.Abort := fun _ _ => rfl

end Sys2Proof.Machine
end

section
/-! The commands of an open PPM session (44_commands.md R204 to R206); ENC_FINISH ends a RAW encode session as well. -/

namespace Sys2Proof.Machine

theorem exec_encByte {s : State} (he : s.st = .enc) (hr : s.raw = false) (b : Byte) :
    exec (.encByte b) s = finishCommand 0x03#8 .enc (encByteBody b s) := by
  rw [← he]
  exact dispatchSession_of_valid (by rw [he]; decide) (by rw [he, hr]; rfl)

theorem exec_encFinish {s : State} (he : s.st = .enc) :
    exec .encFinish s = finishCommand 0x04#8 .enc (encFinishBody s) := by
  rw [← he]
  exact dispatchSession_of_valid (by rw [he]; decide) (by rw [he]; rfl)

theorem exec_decSymbol {s : State} (hd : s.st = .dec) (hr : s.raw = false) :
    exec .decSymbol s = finishCommand 0x05#8 .dec (decSymbolBody s) := by
  rw [← hd]
  exact dispatchSession_of_valid (by rw [hd]; decide) (by rw [hd, hr]; rfl)

/-! ## ENC_BYTE -/

/-- Settles O27, by the ends of `encByteBody_post`. -/
theorem encByte : Obligations.EncByte := by
  intro s b h he hr l
  have hst : s.st ≠ .error := by rw [he]; decide
  have hpost := encByteBody_post b (h.encodeOpen he)
  have raised : ∀ {u}, EncByteWrites s u → ∀ c, Raised c.code c.sub 0x03 (enterError 0x03#8 c u) := fun hw c =>
    raised_enterError (by rw [hw.encode.2]; exact hst) 0x03#8 c
  rw [exec_encByte he hr]
  refine ⟨fun htakes hfits hroom => ?_, fun htakes hfits hfull => ?_, fun htakes hfull => ?_, fun hstop => ?_,
    fun hstop => ?_, fun t e hsink => ?_⟩
  · obtain ⟨u, e, hdone⟩ := hpost.completes
      (by
        rintro c u ⟨⟨-, hfail, -⟩ | ⟨-, hfull, -⟩ | ⟨-, hfull, -⟩, -⟩
        · exact htakes.not_stops (by decide) hfail
        · exact hfull hfits
        · exact hfull hroom)
      (fun q u ⟨hsilent, _⟩ => htakes.not_stops (by decide) hsilent) 0x03#8 .enc
    exact ⟨_, e, hdone.writes.completed, hdone.coded.completed, hdone.store.learned, hdone.opened.model.nodes,
      hdone.hist.trans (pushHistory_hist_eq h.inv.model.history b), hdone.syms⟩
  · obtain ⟨c, u, e, hcause, -, hw, hsyms⟩ := hpost.raises (fun u hdone => hfull hdone.room)
      (fun q u ⟨hsilent, _⟩ => htakes.not_stops (by decide) hsilent) 0x03#8 .enc
    rcases hcause with ⟨-, hfail, -⟩ | ⟨-, hbad, -⟩ | ⟨rfl, -, -, -, hto, hhist, hstopped⟩
    · exact absurd hfail (htakes.not_stops (by decide))
    · exact absurd hfits hbad
    · exact ⟨_, e, raised hw .storeFull, hto.enterError _ _, hstopped, hsyms, hhist⟩
  · obtain ⟨c, u, e, hcause, -, hw, hsyms⟩ := hpost.raises (fun u hdone => hfull hdone.fits)
      (fun q u ⟨hsilent, _⟩ => htakes.not_stops (by decide) hsilent) 0x03#8 .enc
    rcases hcause with ⟨-, hfail, -⟩ | ⟨rfl, -, -, honly⟩ | ⟨-, -, hfits, -⟩
    · exact absurd hfail (htakes.not_stops (by decide))
    · obtain ⟨hstore, hnodes, -, hhist⟩ := honly.model
      exact ⟨_, e, raised hw .pendingFull, hstore, hnodes, hsyms, hhist⟩
    · exact absurd hfits hfull
  · obtain ⟨c, u, e, hcause, -, hw, hsyms⟩ := hpost.raises (fun u hdone => hdone.takes.not_stops (by decide) hstop)
      (fun q u ⟨hsilent, _⟩ => nomatch hsilent.unique hstop (by decide) (by decide)) 0x03#8 .enc
    rcases hcause with ⟨rfl, -, honly⟩ | ⟨-, -, htakes, -⟩ | ⟨-, -, -, htakes, -⟩
    · obtain ⟨hstore, hnodes, -, hhist⟩ := honly.model
      exact ⟨_, e, raised hw .sinkFail, hstore, hnodes, hsyms, hhist⟩
    · exact absurd hstop (htakes.not_stops (by decide))
    · exact absurd hstop (htakes.not_stops (by decide))
  · obtain ⟨q, u, e, -, -, hw⟩ := hpost.waits (fun u hdone => hdone.takes.not_stops (by decide) hstop)
      (by
        rintro c u ⟨⟨-, hfail, -⟩ | ⟨-, -, htakes, -⟩ | ⟨-, -, -, htakes, -⟩, -⟩
        · exact nomatch hfail.unique hstop (by decide) (by decide)
        · exact htakes.not_stops (by decide) hstop
        · exact htakes.not_stops (by decide) hstop) 0x03#8 .enc
    exact ⟨_, e, nofun, hw.encode.1.pendingCmd⟩
  · rcases finishCommand_cases e with ⟨u, hu, rfl⟩ | ⟨c, u, hu, rfl⟩ | ⟨q, u, hu, rfl⟩
    · have hdone := hpost.of_ok hu
      exact .inl ⟨hdone.writes.encode.2.trans he, hdone.fits, hdone.room, hdone.takes⟩
    · obtain ⟨hcause, hend, hw, hsyms⟩ := hpost.of_raised hu
      rcases hcause with ⟨rfl, hstop, honly⟩ | ⟨rfl, hfull, -, honly⟩ | ⟨rfl, hfull, hfits, -, hto, hhist, hstopped⟩
      · obtain ⟨hstore, hnodes, -, hhist⟩ := honly.model
        exact .inr ⟨hsyms, hhist, hend.moves.2, .inl ⟨raised hw .sinkFail, hstop, hstore, hnodes⟩⟩
      · obtain ⟨hstore, hnodes, -, hhist⟩ := honly.model
        exact .inr ⟨hsyms, hhist, hend.moves.2, .inr (.inl ⟨raised hw .pendingFull, hfull, hstore, hnodes⟩)⟩
      · exact .inr ⟨hsyms, hhist, hend.moves.2,
          .inr (.inr ⟨raised hw .storeFull, hfull, hfits, hto.enterError _ _, hstopped⟩)⟩
    · exact absurd (hpost.of_waiting hu).1 hsink.not_silent

/-! ## ENC_FINISH -/

/-- What stops ENC_FINISH at the sink rules out that the sink takes its bytes (R205). -/
theorem FinishStops.not_takes {a : SnkAnswer} {s : State} (h : FinishStops a s) (ha : a ≠ .accept) :
    (FinishFits s → ¬ SinkTakes (finishBytes s) s) ∧
      (¬ FinishFits s → ¬ SinkTakes (filledBytes s (finishSteps s)) s) :=
  ⟨fun hf k => k.not_stops ha (h.1 hf), fun hf k => k.not_stops ha (h.2 hf)⟩

theorem FinishStops.unique {a b : SnkAnswer} {s : State} (h : FinishStops a s) (k : FinishStops b s)
    (ha : a ≠ .accept) (hb : b ≠ .accept) : a = b := by
  by_cases hf : FinishFits s
  · exact (h.1 hf).unique (k.1 hf) ha hb
  · exact (h.2 hf).unique (k.2 hf) ha hb

/-- Settles O28, by the ends of `encFinishBody_post`. -/
theorem encFinish : Obligations.EncFinish := by
  intro s h he
  have hst : s.st ≠ .error := by rw [he]; decide
  have hpost := encFinishBody_post (h.encodeOpen he)
  have raised : ∀ {u}, u.st = s.st → ∀ c, Raised c.code c.sub 0x04 (enterError 0x04#8 c u) := fun hu c =>
    raised_enterError (by rw [hu]; exact hst) 0x04#8 c
  have not_done : ∀ {a}, FinishStops a s → a ≠ .accept → ∀ u, ¬ EncFinishDone s u := fun hstop ha u hdone =>
    (hstop.not_takes ha).1 hdone.fits hdone.takes
  rw [exec_encFinish he]
  refine ⟨fun htakes hfits => ?_, fun htakes hfull => ?_, fun hstop => ?_, fun hstop => ?_, fun t e hsink => ?_⟩
  · obtain ⟨u, e, hdone⟩ := hpost.completes
      (by
        rintro c u ⟨⟨-, hfail⟩ | ⟨-, hfull, -⟩, -⟩
        · exact (hfail.not_takes (by decide)).1 hfits htakes
        · exact hfull hfits)
      (fun q u ⟨hsilent, _⟩ => (hsilent.not_takes (by decide)).1 hfits htakes) 0x04#8 .enc
    exact ⟨_, e, hdone.writes.completed, hdone.st, hdone.outN, hdone.pending, hdone.low, hdone.high, hdone.syms,
      hdone.stream, hdone.bitsOut, hdone.sunk, hdone.bytesOut⟩
  · obtain ⟨c, u, e, hcause, -, -, hu⟩ := hpost.raises (fun u hdone => hfull hdone.fits)
      (fun q u ⟨hsilent, _⟩ => (hsilent.not_takes (by decide)).2 hfull htakes) 0x04#8 .enc
    rcases hcause with ⟨-, hfail⟩ | ⟨rfl, -⟩
    · exact absurd htakes ((hfail.not_takes (by decide)).2 hfull)
    · exact ⟨_, e, raised hu .pendingFull⟩
  · obtain ⟨c, u, e, hcause, -, -, hu⟩ := hpost.raises (not_done hstop (by decide))
      (fun q u ⟨hsilent, _⟩ => nomatch hsilent.unique hstop (by decide) (by decide)) 0x04#8 .enc
    rcases hcause with ⟨rfl, -⟩ | ⟨-, hfull, htakes⟩
    · exact ⟨_, e, raised hu .sinkFail⟩
    · exact absurd htakes ((hstop.not_takes (by decide)).2 hfull)
  · obtain ⟨q, u, e, -, -, hw, -⟩ := hpost.waits (not_done hstop (by decide))
      (by
        rintro c u ⟨⟨-, hfail⟩ | ⟨-, hfull, htakes⟩, -⟩
        · exact nomatch hfail.unique hstop (by decide) (by decide)
        · exact (hstop.not_takes (by decide)).2 hfull htakes) 0x04#8 .enc
    exact ⟨_, e, nofun, hw.encode.pendingCmd⟩
  · rcases finishCommand_cases e with ⟨u, hu, rfl⟩ | ⟨c, u, hu, rfl⟩ | ⟨q, u, hu, rfl⟩
    · have hdone := hpost.of_ok hu
      exact .inl ⟨hdone.st, hdone.fits, hdone.takes⟩
    · obtain ⟨hcause, -, -, hsame⟩ := hpost.of_raised hu
      rcases hcause with ⟨rfl, hstop⟩ | ⟨rfl, hfull, -⟩
      · exact .inr (.inl ⟨raised hsame .sinkFail, hstop⟩)
      · exact .inr (.inr ⟨raised hsame .pendingFull, hfull⟩)
    · exact absurd (hpost.of_waiting hu).1.mem hsink

/-! ## DEC_SYMBOL -/

/-- What R206 says of a symbol delivered at `t` after the coding steps `l`: it is learned, or it is 256 and ends the
session. -/
def Delivered (sym : Nat) (l : List Interval) (s t : State) : Prop :=
  DecSymbolWrites { s with pendingCmd := none } t ∧ DecodedTo s t ((coded s).run s.build l) ∧
    t.low ≤ t.code ∧ t.code ≤ t.high ∧ t.result = BitVec.ofNat 32 sym ∧ t.syms = s.syms + 1 ∧
    (sym ≠ 256 → t.st = .dec ∧ t.eof = s.eof ∧ StoreLearned sym s t ∧ t.nodes = t.store.length ∧
      t.hist = historyAfter (BitVec.ofNat 8 sym) s) ∧
    (sym = 256 → t.st = .done ∧ t.eof = true ∧ t.store = s.store ∧ t.nodes = s.nodes ∧ t.hist = s.hist)

/-- DEC_SYMBOL that completes has delivered a symbol by a path that CODE selects (R206). -/
theorem delivered_of_done {sym : Nat} {s u : State} (h : DecSymbolDone sym s u) (hm : ModelOk s)
    (hd : s.st = .dec) : ∃ l, DecodePath s sym (descentOrders s) l ∧ CodeWithin s ((coded s).run s.build l) ∧
      SourceGives ((coded s).run s.build l).steps s ∧ Delivered sym l s (complete u) := by
  obtain ⟨l, hpath, hto, hgives⟩ := h.coded
  have hlow := h.opened.coder.codeLow
  have hhigh := h.opened.coder.codeHigh
  refine ⟨l, hpath, hto.within hlow hhigh, hgives, h.writes.completed, hto.completed, hlow, hhigh, h.result, h.syms,
    fun hne => ?_, fun heq => h.eof heq⟩
  obtain ⟨hst, heof, hstore, hhist, -⟩ := h.literal hne
  exact ⟨hst.trans hd, heof, hstore.learned, h.opened.model.nodes, hhist.trans (pushHistory_hist_eq hm.history _)⟩

/-- The ends of DEC_SYMBOL, told by the one path that CODE selects (R206, R130). -/
theorem decSymbolBody_selected {s : State} (h : DecodeOpen s) (hd : s.st = .dec) {sym : Nat} (hsym : sym < 257)
    {l : List Interval} (hp : DecodePath s sym (descentOrders s) l) (hw : CodeWithin s ((coded s).run s.build l)) :
    (decSymbolBody s).Post
    (fun _ u => Delivered sym l s (complete u) ∧ (sym ≠ 256 → StoreRoom s) ∧
      SourceGives ((coded s).run s.build l).steps s)
    (fun c u => (u.st = s.st ∧ u.result = s.result ∧ u.syms = s.syms ∧ u.eof = s.eof ∧ u.hist = s.hist) ∧
      ((c = .sourceFail ∧ SourceStops .fail s ∧ ShortOf s ((coded s).run s.build l) ∧ u.store = s.store ∧
          u.nodes = s.nodes) ∨
        (c = .storeFull ∧ sym ≠ 256 ∧ ¬ StoreRoom s ∧ DecodedTo s u ((coded s).run s.build l) ∧
          UpdateStopped sym s u ∧ SourceGives ((coded s).run s.build l).steps s)))
    (fun _ u => u.pendingCmd = s.pendingCmd ∧ SourceStops .silent s ∧ ShortOf s ((coded s).run s.build l)) := by
  refine ((decSymbolBody_post h).and (decSymbolBody_short h hsym hp hw)).imp ?_ ?_ ?_
  · rintro _ u ⟨⟨sym', hdone⟩, -⟩
    obtain ⟨l', hp', hw', hgives, hdel⟩ := delivered_of_done hdone h.model hd
    obtain ⟨rfl, rfl⟩ := code_path_unique h hsym hdone.alphabet hp hp' hw hw'
    exact ⟨hdel, fun hne => (hdone.literal hne).2.2.2.2, hgives⟩
  · rintro c u ⟨⟨hcause, -, -, hresult, hsyms, heof, hst⟩, hshort⟩
    rcases hcause with ⟨rfl, hstop, honly⟩ | ⟨rfl, hfull, sym', hlt, l', hp', hw', hto, hhist, hstopped, hgives⟩
    · obtain ⟨hstore, hnodes, -, hhist⟩ := honly.model
      exact ⟨⟨hst, hresult, hsyms, heof, hhist⟩, .inl ⟨rfl, hstop, hshort rfl, hstore, hnodes⟩⟩
    · obtain ⟨rfl, rfl⟩ := code_path_unique h hsym (hlt.trans (by decide)) hp hp' hw hw'
      exact ⟨⟨hst, hresult, hsyms, heof, hhist⟩, .inr ⟨rfl, hlt.ne, hfull, hto, hstopped, hgives⟩⟩
  · rintro q u ⟨⟨hstop, -, honly⟩, hshort⟩
    exact ⟨honly.decSymbol.decode.pendingCmd, hstop, hshort⟩

/-- Settles O29: a path that CODE selects exists and is the only one, so the ends are those of
`decSymbolBody_selected`. -/
theorem decSymbol : Obligations.DecSymbol := by
  intro s h hd hr
  have hopen := h.decodeOpen hd
  have hst : s.st ≠ .error := by rw [hd]; decide
  have raised : ∀ {u}, u.st = s.st → ∀ c, Raised c.code c.sub 0x05 (enterError 0x05#8 c u) := fun hu c =>
    raised_enterError (by rw [hu]; exact hst) 0x05#8 c
  obtain ⟨sym₀, hsym₀, l₀, hp₀, hw₀⟩ := code_path_exists hopen
  have hselected := fun {sym} (hsym : sym < 257) {l} => decSymbolBody_selected hopen hd hsym (l := l)
  rw [exec_decSymbol hd hr]
  refine ⟨fun hread hroom => ?_, ⟨sym₀, hsym₀, l₀, hp₀, hw₀⟩, fun sym hsym l hp hw =>
    ⟨fun hgives hroom => ?_, fun hgives hne hfull => ?_, fun hshort => ⟨fun hfail => ?_, fun hsilent => ?_⟩⟩,
    fun t e hsrc => ?_⟩
  · obtain ⟨u, e, ⟨hwrites, hto, hlow, hhigh, hresult, hsyms, hliteral, heof⟩, -⟩ := (hselected hsym₀ hp₀ hw₀).completes
      (by
        rintro c u ⟨-, ⟨-, hstop, -⟩ | ⟨-, -, hfull, -⟩⟩
        · exact hread.not_fail hstop
        · exact hfull hroom)
      (fun q u ⟨_, hstop, _⟩ => hread.not_silent hstop) 0x05#8 .dec
    exact ⟨_, e, hwrites, sym₀, l₀, hsym₀, hp₀, hto, hlow, hhigh, hresult, hsyms, hliteral, heof⟩
  · obtain ⟨u, e, hdelivered, -⟩ := (hselected hsym hp hw).completes
      (by
        rintro c u ⟨-, ⟨-, hstop, hshort, -⟩ | ⟨-, hne, hfull, -⟩⟩
        · exact hgives.not_short hstop hshort
        · exact hfull (hroom.resolve_left hne))
      (fun q u ⟨_, hstop, hshort⟩ => hgives.not_short hstop hshort) 0x05#8 .dec
    exact ⟨_, e, hdelivered⟩
  · obtain ⟨c, u, e, ⟨hu, hresult, hsyms, heof, hhist⟩, hcause⟩ := (hselected hsym hp hw).raises
      (fun u ⟨_, hroom, _⟩ => hfull (hroom hne)) (fun q u ⟨_, hstop, hshort⟩ => hgives.not_short hstop hshort)
      0x05#8 .dec
    rcases hcause with ⟨-, hstop, hshort, -⟩ | ⟨rfl, -, -, hto, hstopped, -⟩
    · exact absurd hshort (hgives.not_short hstop)
    · exact ⟨_, e, raised hu .storeFull, hto.enterError _ _, hstopped, hresult, hsyms, heof, hhist⟩
  · obtain ⟨c, u, e, ⟨hu, hresult, hsyms, heof, hhist⟩, hcause⟩ := (hselected hsym hp hw).raises
      (fun u ⟨_, _, hgives⟩ => hgives.not_short hfail hshort) (fun q u ⟨_, hstop, _⟩ => nomatch hstop.unique hfail)
      0x05#8 .dec
    rcases hcause with ⟨rfl, -, -, hstore, hnodes⟩ | ⟨-, -, -, -, -, hgives⟩
    · exact ⟨_, e, raised hu .sourceFail, hresult, hsyms, heof, hhist, hstore, hnodes⟩
    · exact absurd hshort (hgives.not_short hfail)
  · obtain ⟨q, u, e, hcmd, -⟩ := (hselected hsym hp hw).waits
      (fun u ⟨_, _, hgives⟩ => hgives.not_short hsilent hshort)
      (by
        rintro c u ⟨-, ⟨-, hfail, -⟩ | ⟨-, -, -, -, -, hgives⟩⟩
        · exact nomatch hfail.unique hsilent
        · exact hgives.not_short hsilent hshort) 0x05#8 .dec
    exact ⟨_, e, nofun, hcmd⟩
  · have hpost := hselected hsym₀ hp₀ hw₀
    rcases finishCommand_cases e with ⟨u, hu, rfl⟩ | ⟨c, u, hu, rfl⟩ | ⟨q, u, hu, rfl⟩
    · obtain ⟨⟨-, -, -, -, -, -, hliteral, heof⟩, hroom, -⟩ := hpost.of_ok hu
      by_cases h256 : sym₀ = 256
      · exact .inr (.inl (heof h256).1)
      · exact .inl ⟨(hliteral h256).1, hroom h256⟩
    · obtain ⟨⟨hsame, hresult, hsyms, heof, hhist⟩, hcause⟩ := hpost.of_raised hu
      refine .inr (.inr ⟨hresult, hsyms, heof, hhist, ?_⟩)
      rcases hcause with ⟨rfl, hstop, -, hstore, hnodes⟩ | ⟨rfl, hne, hfull, hto, hstopped, -⟩
      · exact .inl ⟨raised hsame .sourceFail, hstop, hstore, hnodes⟩
      · exact .inr ⟨raised hsame .storeFull, hfull, sym₀, by omega, l₀, hp₀, hw₀, hto.enterError _ _, hstopped⟩
    · exact absurd (hpost.of_waiting hu).2.1 hsrc.not_silent

end Sys2Proof.Machine
end

section
/-! The acceptance procedure and the table of STATE transitions (44_commands.md R200, R212): the run of every word,
check by check. -/

namespace Sys2Proof.Machine

/-! ## What has run and waits on no port has completed (R200) -/

/-- BUSY = 0, unless the command waits on a port. -/
def Ended (t : State) : Prop := t.portWait = none → t.pendingCmd = none

theorem finishCommand_ended {opc : BitVec 8} {st : SessionState} {r : Res Unit} {t : State}
    (e : finishCommand opc st r = .next t) : Ended t := by
  rcases finishCommand_cases e with ⟨u, -, rfl⟩ | ⟨c, u, -, rfl⟩ | ⟨q, u, -, rfl⟩
  · exact fun _ => rfl
  · exact fun _ => rfl
  · exact nofun

theorem dispatchSession_ended {opc : BitVec 8} {valid : Bool} {body : State → Res Unit} {s t : State}
    (e : dispatchSession opc valid body s = .next t) : Ended t := by
  rcases dispatchSession_cases e with ⟨-, rfl⟩ | ⟨-, -, rfl⟩ | ⟨-, -, hf⟩
  · exact fun _ => rfl
  · exact fun _ => rfl
  · exact finishCommand_ended hf

theorem exec_ended {i : Instr} {s t : State} (e : exec i s = .next t) : Ended t := by
  cases i with
  | encStart _ _ _ | decStart _ _ _ => exact finishCommand_ended e
  | abort _ => cases e; exact fun _ => rfl
  | encByte _ | encFinish | decSymbol | rawEnc | rawDecTarget | rawDecApply | rawDecEnd =>
    exact dispatchSession_ended e

theorem runWord_ended {w : Word} {s t : State} (e : runWord w s = .next t) : Ended t :=
  runWord_rule (fun _ => exec_ended) (fun _ => rfl) (fun _ _ _ => rfl) e

/-! ## The dispatch of R200 -/

theorem rejectWord_of_error {s : State} (hst : s.st = .error) (r : Reject) : rejectWord r s = complete s := by
  rcases rejectWord_cases r s with h | ⟨opc, c, h⟩
  · exact h
  · exact h.trans (enterError_of_error hst opc c)

/-- In ERROR every word is ignored but START's and ABORT's (R200, R246). -/
theorem runWord_ignored {w : Word} {s : State} (hst : s.st = .error)
    (hopc : w.toNat / 2 ^ 24 ∉ [0x01, 0x02, 0x0F]) : runWord w s = .next (complete s) := by
  cases hd : decode w with
  | error r => rw [runWord_of_error hd, rejectWord_of_error hst]
  | ok i =>
    obtain ⟨j, hj, -, rfl⟩ := decode_eq_ok hd
    have hopcode : (opcode (j.withFieldsOf w)).toNat = w.toNat / 2 ^ 24 := by
      rw [opcode_withFieldsOf, hj, opcOf_toNat]
    have hdefined : definedOpc (w.toNat / 2 ^ 24) := by
      rw [← opcOf_toNat]; exact definedOpc_iff.mpr ⟨j, hj⟩
    have hsession : 0x03 ≤ w.toNat / 2 ^ 24 ∧ w.toNat / 2 ^ 24 ≤ 0x09 := by
      unfold definedOpc at hdefined
      simp only [List.mem_cons, List.not_mem_nil, or_false] at hopc
      omega
    rw [runWord_of_ok hd, exec_eq_dispatchSession (hopcode ▸ hsession), dispatchSession, if_pos hst]

/-- START's operands read off IMM (R81). -/
theorem startRule_eq (d : Direction) (w : Word) (s : State) : startRule d (w.toNat % 2 ^ 24) s =
    if w.toNat % 2 ^ 24 / 2 ^ 18 = 0 then start d (orderOf w) (alphaOf w) (rawfOf w) s
    else .raised .reservedBit s := by
  rw [startRule, ite_not, orderOf_eq, alphaOf_eq, rawfOf_eq, immOf_toNat]
  rfl

/-- A word of START runs by `startRule`: IMM[23:18] is refused by the decoder, in every STATE (R202). -/
theorem runWord_start {w : Word} {s : State} {i : Instr} {d : Direction} (hopc : w.toNat / 2 ^ 24 = (opcode i).toNat)
    (hbits : i.immBits = 18) (herror : runsInError (opcode i) = true)
    (hexec : exec (i.withFieldsOf w) s =
      finishCommand (opcode i) s.st (start d (orderOf w) (alphaOf w) (rawfOf w) s)) :
    runWord w s = finishCommand (opcode i) s.st (startRule d (w.toNat % 2 ^ 24) s) := by
  have hdec := decode_of_opcode (opcOf_eq_opcode hopc)
  rw [hbits, immOf_toNat] at hdec
  rw [startRule_eq]
  split at hdec
  case isTrue hz => rw [runWord_of_ok hdec, if_pos hz, hexec]
  case isFalse hz =>
    rw [runWord_of_error hdec, if_neg hz]
    simp [rejectWord, herror, finishCommand]

/-- R87's reserved bits for the opcodes 0x03 to 0x09. -/
theorem reservedSet_session {opc : Nat} (h : 0x03 ≤ opc ∧ opc ≤ 0x09) (imm : Nat) :
    reservedSet opc imm ↔ (opc = 0x03 ∧ imm / 2 ^ 8 ≠ 0) ∨ (0x04 ≤ opc ∧ imm ≠ 0) := by
  rw [reservedSet, if_neg (by omega)]
  split <;> omega

section
variable {opc imm : Nat} (h : 0x03 ≤ opc ∧ opc ≤ 0x09) {s : State} (hst : s.st ≠ .error)
include h hst

theorem dispatchRule_session : dispatchRule opc imm s =
    if opc = 0x03 ∧ imm / 2 ^ 8 ≠ 0 then .next (raisedAt .illegalCommand 2 (BitVec.ofNat 8 opc) s)
    else if 0x04 ≤ opc ∧ imm ≠ 0 then .next (raisedAt .illegalCommand 2 (BitVec.ofNat 8 opc) s)
    else if validIn opc s.st s.raw = false then .next (raisedAt .illegalCommand 3 (BitVec.ofNat 8 opc) s)
    else finishCommand (BitVec.ofNat 8 opc) s.st (ruleOf opc imm s) := by
  rw [dispatchRule, if_neg fun k => hst k.1, if_neg (by omega), if_neg (by omega), if_neg (by omega),
    if_neg (not_not_intro h)]

theorem dispatchRule_reserved (hr : reservedSet opc imm) :
    dispatchRule opc imm s = .next (raisedAt .illegalCommand 2 (BitVec.ofNat 8 opc) s) := by
  rw [dispatchRule_session h hst]
  rcases (reservedSet_session h imm).mp hr with hbyte | himm
  · rw [if_pos hbyte]
  · rw [if_pos himm, ite_self]

theorem dispatchRule_unreserved (hr : ¬ reservedSet opc imm) : dispatchRule opc imm s =
    if validIn opc s.st s.raw = false then .next (raisedAt .illegalCommand 3 (BitVec.ofNat 8 opc) s)
    else finishCommand (BitVec.ofNat 8 opc) s.st (ruleOf opc imm s) := by
  rw [reservedSet_session h, not_or] at hr
  rw [dispatchRule_session h hst, if_neg hr.1, if_neg hr.2]

end

/-- An unreserved word of the opcodes 0x03 to 0x09 runs under the acceptance checks, on its own OPC and IMM. -/
theorem runWord_session {w : Word} (h : 0x03 ≤ w.toNat / 2 ^ 24 ∧ w.toNat / 2 ^ 24 ≤ 0x09)
    (hr : ¬ reservedSet (w.toNat / 2 ^ 24) (w.toNat % 2 ^ 24)) (s : State) :
    runWord w s = dispatchSession (BitVec.ofNat 8 (w.toNat / 2 ^ 24)) (validIn (w.toNat / 2 ^ 24) s.st s.raw)
      (ruleOf (w.toNat / 2 ^ 24) (w.toNat % 2 ^ 24)) s := by
  rw [← opcOf_toNat] at h hr ⊢
  rw [← immOf_toNat] at hr ⊢
  obtain ⟨i, hi⟩ := definedOpc_iff.mp (.inl ⟨by omega, h.2⟩)
  rw [← hi, reservedSet_iff, not_or, not_not] at hr
  have hfields : opcode (i.withFieldsOf w) = opcOf w := (opcode_withFieldsOf w i).trans hi
  rw [runWord_of_ok (decode_of_unreserved hi.symm hr.1), exec_eq_dispatchSession (hfields ▸ h),
    immediate_withFieldsOf hr.1, hfields, BitVec.ofNat_toNat, BitVec.setWidth_eq]

/-- Outside ERROR a word that is neither START nor ABORT is dispatched as R200 writes it. -/
theorem runWord_dispatch {w : Word} {s : State} (hst : s.st ≠ .error)
    (hopc : w.toNat / 2 ^ 24 ∉ [0x01, 0x02, 0x0F]) :
    runWord w s = dispatchRule (w.toNat / 2 ^ 24) (w.toNat % 2 ^ 24) s := by
  simp only [List.mem_cons, List.not_mem_nil, or_false] at hopc
  obtain ⟨hundefined, hreserved, hwrong, -⟩ := illegalWords s w hst
  by_cases h : 0x03 ≤ w.toNat / 2 ^ 24 ∧ w.toNat / 2 ^ 24 ≤ 0x09
  · have hdefined : definedOpc (w.toNat / 2 ^ 24) := .inl ⟨by omega, h.2⟩
    by_cases hr : reservedSet (w.toNat / 2 ^ 24) (w.toNat % 2 ^ 24)
    · rw [hreserved hdefined hr, dispatchRule_reserved h hst hr]
    · rw [dispatchRule_unreserved h hst hr]
      split
      case isTrue hv => exact hwrong hdefined hr h.1 h.2 hv
      case isFalse hv =>
        rw [runWord_session h hr, dispatchSession_of_valid hst (by simpa using hv)]
  · rw [hundefined (by unfold definedOpc; omega), dispatchRule, if_neg fun k => hst k.1, if_neg (by omega),
      if_neg (by omega), if_neg (by omega), if_pos h]

/-- Settles O7: START and ABORT run in every STATE, the other words outside ERROR alone. -/
theorem commandAcceptance : Obligations.CommandAcceptance := by
  intro s w
  refine ⟨fun hb => ?_, fun hb => ?_, ?_, fun t e hwait => ?_⟩
  · exact (landAccess_busy hb _).trans (busyWrite_dropped (r := .cmd) (by decide) s)
  · exact landAccess_idle hb _
  · by_cases hopc : w.toNat / 2 ^ 24 ∈ [0x01, 0x02, 0x0F]
    · rw [dispatchRule, if_neg fun k => k.2 hopc]
      simp only [List.mem_cons, List.not_mem_nil, or_false] at hopc
      rcases hopc with h | h | h <;> rw [h]
      · exact runWord_start (i := .encStart 0 0 false) h rfl rfl rfl
      · exact runWord_start (i := .decStart 0 0 false) h rfl rfl rfl
      · rw [runWord_of_ok (decode_of_unreserved (i := .abort 0) (opcOf_eq_opcode h)
          (Nat.div_eq_of_lt (immOf w).isLt))]
        rfl
    · by_cases hst : s.st = .error
      · rw [runWord_ignored hst hopc, dispatchRule, if_pos ⟨hst, hopc⟩]
      · exact runWord_dispatch hst hopc
  · have hcmd := runWord_ended e hwait
    exact ⟨by rw [State.busy, hcmd]; rfl, hcmd⟩

end Sys2Proof.Machine
end

section
/-! The table of STATE transitions (44_commands.md R212). -/

namespace Sys2Proof.Machine

/-! ## The STATEs in which the rules end -/

/-- The STATEs in which the rule of an opcode 0x03 to 0x09 may complete: R212's cells for a valid command. -/
def completesIn : Nat → List SessionState
  | 0x03 => [.enc]
  | 0x04 => [.done]
  | 0x05 => [.dec, .done]
  | 0x06 => [.enc]
  | 0x07 => [.dec]
  | 0x08 => [.dec]
  | _ => [.done]

/-- R212's row for an opcode 0x03 to 0x09: ignored in ERROR, ILLEGAL_COMMAND 3 outside the STATEs of R86. -/
theorem transition_session {opc : Nat} (h : 0x03 ≤ opc ∧ opc ≤ 0x09) (st : SessionState) (raw : Bool) :
    transition st raw opc = if st = .error then .ignored
      else if validIn opc st raw = true then .goes (completesIn opc) else .illegal 3 := by
  obtain ⟨h1, h2⟩ := h
  cases st <;> cases raw <;> interval_cases opc <;> rfl

theorem transition_undefined {opc : Nat} (h : ¬ definedOpc opc) (st : SessionState) (raw : Bool) :
    transition st raw opc = if st = .error then .ignored else .illegal 1 := by
  unfold definedOpc at h
  rw [transition.eq_def]
  simp only
  rw [if_neg (by omega), if_neg (by omega), if_neg (by omega), if_neg (by omega)]

/-- STATE after a rule that is valid and completes (R212). -/
theorem ruleOf_completes {opc : Nat} (h : 0x03 ≤ opc ∧ opc ≤ 0x09) (imm : Nat) {s u : State} (hrun : MayRun s)
    (hv : validIn opc s.st s.raw = true) (hu : ruleOf opc imm s = .ok () u) : u.st ∈ completesIn opc := by
  have hopc : opc = 0x03 ∨ opc = 0x04 ∨ opc = 0x05 ∨ opc = 0x06 ∨ opc = 0x07 ∨ opc = 0x08 ∨ opc = 0x09 := by omega
  rcases hopc with rfl | rfl | rfl | rfl | rfl | rfl | rfl
  · have he : s.st = .enc := (of_decide_eq_true hv).1
    have hdone := (encByteBody_post _ (hrun.encodeOpen he)).of_ok hu
    exact List.mem_singleton.mpr (hdone.writes.encode.2.trans he)
  · have hdone := (encFinishBody_post (hrun.encodeOpen (of_decide_eq_true hv))).of_ok hu
    exact List.mem_singleton.mpr hdone.st
  · obtain ⟨-, sym, -, -, ⟨-, hst, -⟩ | ⟨-, hst, -⟩⟩ :=
      (decSymbolBody_delivers hrun (of_decide_eq_true hv).1).of_ok hu
    · exact hst ▸ List.mem_cons_self
    · exact hst ▸ List.mem_cons_of_mem _ List.mem_cons_self
  · have he : s.st = .enc := (of_decide_eq_true hv).1
    obtain ⟨-, -, hw, -⟩ := (rawEncBody_post (hrun.encodeOpen he)).of_ok hu
    exact List.mem_singleton.mpr (hw.encode.2.trans he)
  · have hd : s.st = .dec := (of_decide_eq_true hv).1
    obtain ⟨-, -, rfl⟩ := (rawDecTargetBody_post (hrun.decodeOpen hd)).of_ok hu
    exact List.mem_singleton.mpr hd
  · have hd : s.st = .dec := (of_decide_eq_true hv).1
    obtain ⟨-, -, -, hw, -⟩ := (rawDecApplyBody_post (hrun.decodeOpen hd)).of_ok hu
    exact List.mem_singleton.mpr (hw.decode.2.trans hd)
  · cases hu
    exact List.mem_singleton.mpr rfl

/-- STATE after a START that does not wait (R202, R203). -/
theorem start_completes {d : Direction} {order : Int} {alpha : Nat} {rawf : Bool} {opc : BitVec 8} {s t : State}
    (hb : s.build.legal = true) (e : finishCommand opc s.st (start d order alpha rawf s) = .next t)
    (hw : t.portWait = none) : t.st = openState d ∨ t.st = .error := by
  rcases start_cases hb e with ⟨-, -, rfl⟩ | ⟨c, -, rfl⟩ | ⟨rfl, rfl⟩ | ⟨rfl, hf⟩
  · exact .inr rfl
  · exact .inr rfl
  · exact .inl rfl
  · have hpost := decInit_post (s := opened .decode order rawf s) hb rfl rfl rfl (Nat.zero_le _)
    rcases finishCommand_cases hf with ⟨u, hu, rfl⟩ | ⟨c, u, -, rfl⟩ | ⟨q, u, -, rfl⟩
    · obtain ⟨-, honly, -, -, -, -, hlow, hhigh, -⟩ := hpost.of_ok hu
      have hopened := honly.opened_writes hlow hhigh
      exact .inl (by rw [hopened]; rfl)
    · exact .inr rfl
    · cases hw

/-! ## Words with a reserved bit -/

theorem definedOpc_of_reserved {opc imm : Nat} (h : reservedSet opc imm) : definedOpc opc := by
  unfold reservedSet at h
  unfold definedOpc
  split at h
  · omega
  · split at h <;> omega

/-- In ERROR a reserved bit is ignored, in START's words too (R212, R246). -/
theorem runWord_reserved_ignored {w : Word} {s : State} (hst : s.st = .error)
    (hr : reservedSet (w.toNat / 2 ^ 24) (w.toNat % 2 ^ 24)) : runWord w s = .next (complete s) := by
  have hdefined := definedOpc_of_reserved hr
  rw [← opcOf_toNat] at hr hdefined
  obtain ⟨i, hi⟩ := definedOpc_iff.mp hdefined
  rw [← immOf_toNat, ← hi, reservedSet_iff] at hr
  by_cases hz : (immOf w).toNat / 2 ^ i.immBits = 0
  · rw [runWord_of_ok (decode_of_unreserved hi.symm hz)]
    have hraw := hr.resolve_left (not_not_intro hz)
    have hstart : ∀ d order alpha rawf opc, (rawf && !startImmZero order alpha) = true →
        finishCommand opc s.st (start d order alpha rawf s) = .next (complete s) := by
      intro d order alpha rawf opc hrefused
      rw [start, if_pos hrefused]
      exact congrArg _ (enterError_of_error hst opc .reservedBit)
    cases i with
    | encStart _ _ _ | decStart _ _ _ => exact hstart _ _ _ _ _ hraw
    | _ => cases hraw
  · rw [runWord_of_error (decode_of_reserved hi.symm hz), rejectWord_of_error hst]

/-! ## R212, cell by cell -/

/-- What a cell of R212 says of a command that went from `s` to `t`. -/
def Fills (cell : Transition) (opc : Nat) (s t : State) : Prop :=
  match cell with
  | .goes l => t.st ∈ l ∨ t.st = .error
  | .illegal n => t = raisedAt .illegalCommand (BitVec.ofNat 4 n) (BitVec.ofNat 8 opc) s
  | .ignored => t = { s with pendingCmd := none }

section
variable {s t : State} {w : Word} (hrun : MayRun s) (e : runWord w s = .next t) (hwait : t.portWait = none)
include hrun e hwait

theorem start_fills {d : Direction} {opc : BitVec 8}
    (hstart : runWord w s = finishCommand opc s.st (startRule d (w.toNat % 2 ^ 24) s)) :
    Fills (.goes [openState d]) opc.toNat s t := by
  rw [hstart, startRule_eq] at e
  split at e
  · exact (start_completes hrun.inv.legal e hwait).imp List.mem_singleton.mpr id
  · cases e
    exact .inr rfl

theorem session_fills (h : 0x03 ≤ w.toNat / 2 ^ 24 ∧ w.toNat / 2 ^ 24 ≤ 0x09)
    (hr : ¬ reservedSet (w.toNat / 2 ^ 24) (w.toNat % 2 ^ 24)) :
    Fills (transition s.st s.raw (w.toNat / 2 ^ 24)) (w.toNat / 2 ^ 24) s t := by
  rw [transition_session h]
  rw [runWord_session h hr] at e
  rcases dispatchSession_cases e with ⟨hst, rfl⟩ | ⟨hst, hv, rfl⟩ | ⟨hst, hv, hf⟩
  · rw [if_pos hst]
    rfl
  · rw [if_neg hst, if_neg (by rw [hv]; decide)]
    rfl
  · rw [if_neg hst, if_pos hv]
    by_cases herr : t.st = .error
    · exact .inr herr
    · obtain ⟨u, hu, rfl⟩ := finishCommand_completes hf hwait herr
      have hst := ruleOf_completes h _ hrun hv hu
      exact .inl hst

theorem unreserved_fills (hr : ¬ reservedSet (w.toNat / 2 ^ 24) (w.toNat % 2 ^ 24)) :
    Fills (transition s.st s.raw (w.toNat / 2 ^ 24)) (w.toNat / 2 ^ 24) s t := by
  by_cases hsession : 0x03 ≤ w.toNat / 2 ^ 24 ∧ w.toNat / 2 ^ 24 ≤ 0x09
  · exact session_fills hrun e hwait hsession hr
  by_cases hdefined : definedOpc (w.toNat / 2 ^ 24)
  · have hcases : w.toNat / 2 ^ 24 = 0x01 ∨ w.toNat / 2 ^ 24 = 0x02 ∨ w.toNat / 2 ^ 24 = 0x0F := by
      unfold definedOpc at hdefined
      omega
    rcases hcases with h | h | h <;> rw [h]
    · exact start_fills hrun e hwait (runWord_start (i := .encStart 0 0 false) h rfl rfl rfl)
    · exact start_fills hrun e hwait (runWord_start (i := .decStart 0 0 false) h rfl rfl rfl)
    · rw [runWord_of_ok (decode_of_unreserved (i := .abort 0) (opcOf_eq_opcode h)
        (Nat.div_eq_of_lt (immOf w).isLt))] at e
      cases e
      exact .inl (List.mem_singleton.mpr rfl)
  · rw [transition_undefined hdefined]
    by_cases hst : s.st = .error
    · rw [runWord_ignored hst fun k => hdefined (by
        simp only [List.mem_cons, List.not_mem_nil, or_false] at k; unfold definedOpc; omega)] at e
      cases e
      rw [if_pos hst]
      rfl
    · rw [(illegalWords s w hst).1 hdefined] at e
      cases e
      rw [if_neg hst]
      rfl

/-- DEC_SYMBOL that completes ends the session where it delivers 256, and only there (R206). -/
theorem decSymbol_done_iff (hd : s.st = .dec) (hopc : w.toNat / 2 ^ 24 = 0x05) (hst : t.st ≠ .error) :
    t.st = .done ↔ t.result = 256#32 := by
  have hnot : s.st ≠ .error := by rw [hd]; decide
  have hr : ¬ reservedSet (w.toNat / 2 ^ 24) (w.toNat % 2 ^ 24) := by
    intro hr
    rw [(illegalWords s w hnot).2.1 (definedOpc_of_reserved hr) hr] at e
    cases e
    exact hst rfl
  rw [runWord_session (by omega) hr, hopc] at e
  obtain ⟨-, u, hu, rfl⟩ := dispatchSession_completes e hwait hst
  obtain ⟨-, sym, hsym, hresult, hend⟩ := (decSymbolBody_delivers hrun hd).of_ok hu
  rw [complete_st, complete_result, hresult]
  rcases hend with ⟨hne, hdec, -⟩ | ⟨rfl, hdone, -⟩
  · rw [hdec]
    refine ⟨nofun, fun k => absurd ?_ hne⟩
    have := congrArg BitVec.toNat k
    rwa [BitVec.toNat_ofNat, Nat.mod_eq_of_lt (by omega)] at this
  · exact ⟨fun _ => rfl, fun _ => hdone⟩

end

/-- Settles O23: an unreserved word by its cell, a reserved one by R87 and, in ERROR, by R246. -/
theorem stateTransitions : Obligations.StateTransitions := by
  intro s t w hrun e hwait opc imm
  refine ⟨fun hr => unreserved_fills hrun e hwait hr, fun hr hst => ?_, fun hr hst => ?_,
    fun hd _ hopc hst => decSymbol_done_iff hrun e hwait hd hopc hst⟩
  · cases e.symm.trans ((illegalWords s w hst).2.1 (definedOpc_of_reserved hr) hr)
    rfl
  · cases e.symm.trans (runWord_reserved_ignored hst hr)
    rfl

end Sys2Proof.Machine
end

section
/-! What each command may write and which errors it may raise (44_commands.md R213). -/

namespace Sys2Proof.Machine

/-! ## The rows of R213 -/

/-- A row of R213 as a relation between states: it lets a rule write nothing, never ERR, and what the end of a command
writes comes on top. -/
structure IsRow (W : State → State → Prop) : Prop where
  refl : ∀ s, W s s
  err : ∀ {s u}, W s u → u.err = s.err
  ended : ∀ {s u t}, W s u → t = endedAs u t → W (endedAs s t) t

/-- The pairs that ERR holds for these causes (R242). -/
def errPairs (l : List Cause) : List (ErrCode × BitVec 4) := l.map fun c => (c.code, c.sub)

/-- A rule writes what its row lets it, and raises errors of the list alone. -/
def StaysIn (W : State → State → Prop) (l : List Cause) (s : State) (r : Res Unit) : Prop :=
  r.Post (fun _ u => W s u) (fun c u => W s u ∧ c ∈ l) (fun _ u => W s u)

theorem enterError_err_cases (opc : BitVec 8) (c : Cause) (u : State) :
    (enterError opc c u).err = u.err ∨
      ((enterError opc c u).err.code, (enterError opc c u).err.sub) = (c.code, c.sub) := by
  rw [enterError_err, recordError]
  split
  · exact .inl rfl
  · exact .inr rfl

section
variable {W : State → State → Prop} {l : List Cause} {opc : BitVec 8} {valid : Bool} {body : State → Res Unit}
  {s t : State} (hb : valid = true → StaysIn W l s (body s)) (e : dispatchSession opc valid body s = .next t)
include hb e

/-- A session command writes its row and what the end of any command may write. -/
theorem IsRow.writes (hW : IsRow W) : W (endedAs s t) t :=
  dispatchSession_rule (Q := fun t => W (endedAs s t) t) (hW.ended (hW.refl s) rfl) (hW.ended (hW.refl s) rfl)
    (fun _ hv => Res.Post.imp (hb hv) (fun _ _ hw => hW.ended hw rfl) (fun _ _ hw => hW.ended hw.1 rfl)
      (fun _ _ hw => hW.ended hw rfl)) e

/-- An ERR that a session command changes holds ILLEGAL_COMMAND 3 or an error of its rule. -/
theorem IsRow.errors (hW : IsRow W) :
    t.err = s.err ∨ (t.err.code, t.err.sub) ∈ errPairs (.wrongState :: l) := by
  have listed : ∀ {c u}, W s u → c ∈ .wrongState :: l → (enterError opc c u).err = s.err ∨
      ((enterError opc c u).err.code, (enterError opc c u).err.sub) ∈ errPairs (.wrongState :: l) := by
    intro c u hw hc
    rcases enterError_err_cases opc c u with h | h
    · exact .inl (h.trans (hW.err hw))
    · exact .inr (h ▸ List.mem_map_of_mem hc)
  refine dispatchSession_rule (Q := fun t => t.err = s.err ∨ (t.err.code, t.err.sub) ∈ errPairs (.wrongState :: l))
    (.inl rfl) (listed (hW.refl s) List.mem_cons_self) (fun _ hv => Res.Post.imp (hb hv) ?_ ?_ ?_) e
  · intro _ u hw
    have herr := hW.err hw
    exact .inl herr
  · intro c u hw
    exact listed hw.1 (List.mem_cons_of_mem _ hw.2)
  · intro _ u hw
    have herr := hW.err hw
    exact .inl herr

/-- Where the row does not name STATE, only an error changes it. -/
theorem dispatchSession_st (hst : ∀ {u}, W s u → u.st = s.st) : t.st = s.st ∨ t.st = .error := by
  refine dispatchSession_rule (Q := fun t => t.st = s.st ∨ t.st = .error) (.inl rfl) (.inr rfl)
    (fun _ hv => Res.Post.imp (hb hv) ?_ (fun _ _ _ => .inr rfl) ?_) e
  · intro _ u hw
    have hsame := hst hw
    exact .inl hsame
  · intro _ u hw
    have hsame := hst hw
    exact .inl hsame

theorem IsRow.footprint (hW : IsRow W) : W (endedAs s t) t ∧
    (t.err = s.err ∨ (t.err.code, t.err.sub) ∈ errPairs (.wrongState :: l)) :=
  ⟨hW.writes hb e, hW.errors hb e⟩

theorem IsRow.footprint_st (hW : IsRow W) (hst : ∀ {u}, W s u → u.st = s.st) : W (endedAs s t) t ∧
    (t.st = s.st ∨ t.st = .error) ∧ (t.err = s.err ∨ (t.err.code, t.err.sub) ∈ errPairs (.wrongState :: l)) :=
  ⟨hW.writes hb e, dispatchSession_st hb e hst, hW.errors hb e⟩

end

theorem encByteWrites_isRow : IsRow EncByteWrites := by
  refine ⟨fun _ => rfl, fun h => ?_, fun h ht => ?_⟩
  · unfold EncByteWrites at h; rw [h]
  · unfold EncByteWrites at *; rw [ht, h]; rfl

theorem encFinishWrites_isRow : IsRow EncFinishWrites := by
  refine ⟨fun _ => rfl, fun h => ?_, fun h ht => ?_⟩
  · unfold EncFinishWrites at h; rw [h]
  · unfold EncFinishWrites at *; rw [ht, h]; rfl

theorem decSymbolWrites_isRow : IsRow DecSymbolWrites := by
  refine ⟨fun _ => rfl, fun h => ?_, fun h ht => ?_⟩
  · unfold DecSymbolWrites at h; rw [h]
  · unfold DecSymbolWrites at *; rw [ht, h]; rfl

theorem rawEncWrites_isRow : IsRow RawEncWrites := by
  refine ⟨fun _ => rfl, fun h => ?_, fun h ht => ?_⟩
  · unfold RawEncWrites at h; rw [h]
  · unfold RawEncWrites at *; rw [ht, h]; rfl

theorem rawDecApplyWrites_isRow : IsRow RawDecApplyWrites := by
  refine ⟨fun _ => rfl, fun h => ?_, fun h ht => ?_⟩
  · unfold RawDecApplyWrites at h; rw [h]
  · unfold RawDecApplyWrites at *; rw [ht, h]; rfl

/-- RAW_DEC_TARGET's row of R213: RESULT. -/
def RawDecTargetWrites (s t : State) : Prop := t = { s with result := t.result }

theorem rawDecTargetWrites_isRow : IsRow RawDecTargetWrites := by
  refine ⟨fun _ => rfl, fun h => ?_, fun h ht => ?_⟩
  · unfold RawDecTargetWrites at h; rw [h]
  · unfold RawDecTargetWrites at *; rw [ht, h]; rfl

/-- RAW_DEC_END's row of R213: STATE. -/
def RawDecEndWrites (s t : State) : Prop := t = { s with st := t.st }

theorem rawDecEndWrites_isRow : IsRow RawDecEndWrites := by
  refine ⟨fun _ => rfl, fun h => ?_, fun h ht => ?_⟩
  · unfold RawDecEndWrites at h; rw [h]
  · unfold RawDecEndWrites at *; rw [ht, h]; rfl

/-! ## Each rule stays in its row -/

section
variable {s : State} (h : MayRun s)
include h

theorem encByteBody_row (he : s.st = .enc) (b : Byte) :
    StaysIn EncByteWrites [.sinkFail, .storeFull, .pendingFull] s (encByteBody b s) := by
  refine (encByteBody_post b (h.encodeOpen he)).imp (fun _ _ k => k.writes) ?_ (fun _ _ ⟨_, _, hw⟩ => hw)
  rintro c u ⟨⟨rfl, -⟩ | ⟨rfl, -⟩ | ⟨rfl, -⟩, -, hw, -⟩ <;> exact ⟨hw, by decide⟩

theorem encFinishBody_row (he : s.st = .enc) :
    StaysIn EncFinishWrites [.sinkFail, .pendingFull] s (encFinishBody s) := by
  refine (encFinishBody_post (h.encodeOpen he)).imp (fun _ _ k => k.writes) ?_ (fun _ _ ⟨_, _, hw, _⟩ => hw)
  rintro c u ⟨⟨rfl, -⟩ | ⟨rfl, -⟩, -, hw, -⟩ <;> exact ⟨hw, by decide⟩

theorem decSymbolBody_row (hd : s.st = .dec) :
    StaysIn DecSymbolWrites [.sourceFail, .storeFull] s (decSymbolBody s) := by
  refine (decSymbolBody_post (h.decodeOpen hd)).imp (fun _ _ ⟨_, k⟩ => k.writes) ?_
    (fun _ _ ⟨_, _, ho⟩ => ho.decSymbol)
  rintro c u ⟨⟨rfl, -⟩ | ⟨rfl, -⟩, -, hw, -⟩ <;> exact ⟨hw, by decide⟩

theorem rawEncBody_row (he : s.st = .enc) :
    StaysIn RawEncWrites [.badTotal, .badInterval, .sinkFail, .pendingFull] s (rawEncBody s) := by
  refine (rawEncBody_post (h.encodeOpen he)).imp (fun _ _ ⟨_, _, hw, _⟩ => hw) ?_ (fun _ _ ⟨_, _, hw⟩ => hw)
  rintro c u (⟨-, rfl, rfl⟩ | ⟨-, -, hw, -, ⟨rfl, -⟩ | ⟨rfl, -⟩⟩)
  · exact ⟨rfl, by split <;> decide⟩
  · exact ⟨hw, by decide⟩
  · exact ⟨hw, by decide⟩

theorem rawDecTargetBody_row (hd : s.st = .dec) :
    StaysIn RawDecTargetWrites [.badTotal] s (rawDecTargetBody s) := by
  refine (rawDecTargetBody_post (h.decodeOpen hd)).imp ?_ ?_ (fun _ _ k => k.elim)
  · rintro _ u ⟨-, -, rfl⟩; exact rfl
  · rintro c u ⟨rfl, -, rfl⟩; exact ⟨rfl, by decide⟩

theorem rawDecApplyBody_row (hd : s.st = .dec) : StaysIn RawDecApplyWrites
    [.badTotal, .badInterval, .targetOutside, .sourceFail] s (rawDecApplyBody s) := by
  refine (rawDecApplyBody_post (h.decodeOpen hd)).imp (fun _ _ ⟨_, _, _, hw, _⟩ => hw) ?_ (fun _ _ ⟨_, _, hw, _⟩ => hw)
  rintro c u (⟨rfl, rfl, -⟩ | ⟨rfl, -, rfl, -⟩ | ⟨rfl, -, rfl, -⟩ | ⟨-, -, hw, -, rfl, -⟩)
  · exact ⟨rfl, by decide⟩
  · exact ⟨rfl, by decide⟩
  · exact ⟨rfl, by decide⟩
  · exact ⟨hw, by decide⟩

end

theorem rawDecEndBody_row (s : State) : StaysIn RawDecEndWrites [] s (rawDecEndBody s) := rfl

/-! ## START and ABORT -/

/-- START's errors (R202): those of its checks, and for a decode session the source's. -/
theorem start_errors {d : Direction} {order : Int} {alpha : Nat} {rawf : Bool} {opc : BitVec 8} {s t : State}
    (hb : s.build.legal = true) (e : finishCommand opc s.st (start d order alpha rawf s) = .next t) :
    t.err = s.err ∨ t.err = .clear ∨
      (t.err.code, t.err.sub) ∈ errPairs [.reservedBit, .badOrder, .badAlphabet] ∨
      (d = .decode ∧ (t.err.code, t.err.sub) = (Cause.sourceFail.code, Cause.sourceFail.sub)) := by
  rcases start_cases hb e with ⟨-, -, rfl⟩ | ⟨c, hc, rfl⟩ | ⟨-, rfl⟩ | ⟨rfl, hf⟩
  · rcases enterError_err_cases opc .reservedBit s with h | h
    · exact .inl h
    · exact .inr (.inr (.inl (h ▸ List.mem_cons_self)))
  · have hmem : c ∈ [Cause.reservedBit, .badOrder, .badAlphabet] := by rcases hc with rfl | rfl <;> decide
    exact .inr (.inr (.inl (List.mem_map_of_mem (f := fun c : Cause => (c.code, c.sub)) hmem)))
  · exact .inr (.inl rfl)
  · have hopen := opened_cleared .decode order rawf s
    have hpost := decInit_post (s := opened .decode order rawf s) hb rfl rfl rfl (Nat.zero_le _)
    rcases finishCommand_cases hf with ⟨u, hu, rfl⟩ | ⟨c, u, hu, rfl⟩ | ⟨q, u, hu, rfl⟩
    · obtain ⟨-, honly, -⟩ := hpost.of_ok hu
      have herr := (hopen.decoder honly).err
      exact .inr (.inl herr)
    · obtain ⟨rfl, -, hstopped, -⟩ := hpost.of_raised hu
      obtain ⟨-, herr, -⟩ := raised_enterError (hopen.decoder hstopped.only).st opc .sourceFail
      exact .inr (.inr (.inr ⟨rfl, by rw [herr]⟩))
    · obtain ⟨-, hstopped, -⟩ := hpost.of_waiting hu
      have herr := (hopen.decoder hstopped.only).err
      exact .inr (.inl herr)

/-- ENC_START leaves the whole outside world alone (R202). -/
theorem encStart_env {s : State} (hb : s.build.legal = true) (order : Int) (alpha : Nat) (rawf : Bool) :
    EnvThroughout (fun e => e = s.env) (start .encode order alpha rawf s) := by
  rw [start_eq hb]
  split
  · exact rfl
  · split
    · exact rfl
    · split <;> exact rfl

theorem exec_hostSide {i : Instr} {s t : State} (e : exec i s = .next t) : HostSideSame s t := by
  obtain ⟨u, hu, hsame⟩ := exec_same i s
  cases e.symm.trans hu
  exact hsame

/-- Settles O35, command by command: each rule stays in its row. -/
theorem footprints : Obligations.Footprints := by
  intro s t h
  have hb := h.inv.legal
  refine ⟨fun b e => ?_, fun e => ?_, fun e => ?_, fun e => ?_, fun e => ?_, fun e => ?_, fun e => ?_,
    fun o a r e => ?_, fun o a r e => ?_, fun imm e => ?_⟩
  · exact encByteWrites_isRow.footprint_st (fun hv => encByteBody_row h (st_of_valid hv) b) e fun hw => hw.encode.2
  · exact encFinishWrites_isRow.footprint (fun hv => encFinishBody_row h (of_decide_eq_true hv)) e
  · exact decSymbolWrites_isRow.footprint (fun hv => decSymbolBody_row h (st_of_valid hv)) e
  · exact rawEncWrites_isRow.footprint_st (fun hv => rawEncBody_row h (st_of_valid hv)) e fun hw => hw.encode.2
  · refine rawDecTargetWrites_isRow.footprint_st (fun hv => rawDecTargetBody_row h (st_of_valid hv)) e fun hw => ?_
    unfold RawDecTargetWrites at hw; rw [hw]
  · exact rawDecApplyWrites_isRow.footprint_st (fun hv => rawDecApplyBody_row h (st_of_valid hv)) e
      fun hw => hw.decode.2
  · obtain ⟨hwrites, herr⟩ := rawDecEndWrites_isRow.footprint (fun _ => rawDecEndBody_row s) e
    exact ⟨hwrites, herr.imp id List.mem_singleton.mp⟩
  · refine ⟨exec_hostSide e, finishCommand_env (Q := fun v => v = s.env) (encStart_env hb o a r) e, ?_⟩
    rcases start_errors hb e with herr | herr | herr | ⟨hd, -⟩
    · exact .inl herr
    · exact .inr (.inl herr)
    · exact .inr (.inr herr)
    · cases hd
  · obtain ⟨hsink, hsunk⟩ := finishCommand_env (start_sink hb .decode o a r) e
    refine ⟨exec_hostSide e, hsink, hsunk, ?_⟩
    have hlist : ∀ {p}, p ∈ errPairs [.reservedBit, .badOrder, .badAlphabet] ∨
        p = (Cause.sourceFail.code, Cause.sourceFail.sub) →
        p ∈ errPairs [.reservedBit, .badOrder, .badAlphabet, .sourceFail] := fun hp =>
      hp.elim (List.mem_append_left (errPairs [.sourceFail])) fun k =>
        List.mem_append_right (errPairs [.reservedBit, .badOrder, .badAlphabet]) (List.mem_singleton.mpr k)
    rcases start_errors hb e with herr | herr | herr | ⟨-, herr⟩
    · exact .inl herr
    · exact .inr (.inl herr)
    · exact .inr (.inr (hlist (.inl herr)))
    · exact .inr (.inr (hlist (.inr herr)))
  · refine ⟨exec_hostSide e, ?_⟩
    cases e
    exact ⟨rfl, rfl⟩

end Sys2Proof.Machine
end

section
/-! The round trip of a PPM session (44_commands.md R214): the decoder takes the encoder's coding steps, so it learns
what the encoder has learned. -/

namespace Sys2Proof.Machine

/-! ## PPM sessions of an idle block -/

/-- An idle block in an open PPM encode session. -/
structure PpmEncoding (s : State) : Prop where
  idle : Idle s
  st : s.st = .enc
  raw : s.raw = false

/-- An idle block in an open PPM decode session whose source can always be read. -/
structure PpmDecoding (s : State) : Prop where
  idle : Idle s
  st : s.st = .dec
  raw : s.raw = false
  readable : SourceReadable s

theorem PpmEncoding.st_ne {s : State} (h : PpmEncoding s) : s.st ≠ .error := by rw [h.st]; decide

theorem PpmDecoding.st_ne {s : State} (h : PpmDecoding s) : s.st ≠ .error := by rw [h.st]; decide

theorem PpmEncoding.issued_open {s : State} (h : PpmEncoding s) (i : Instr) : EncodeOpen (issued i s) :=
  (h.idle.mayRun i).encodeOpen h.st

theorem PpmDecoding.issued_open {s : State} (h : PpmDecoding s) (i : Instr) : DecodeOpen (issued i s) :=
  (h.idle.mayRun i).decodeOpen h.st

/-- The coding steps of a symbol take intervals the coder accepts. -/
theorem Idle.codingSteps_ok {s : State} (h : Idle s) {sym : Nat} (hs : sym < 257) :
    ∀ i ∈ codingSteps s sym, i.ok s.build :=
  descentSteps_ok h.inv.legal h.inv.model.tables hs _

/-! ## Issuing a command changes PENDING_CMD alone -/

theorem codingSteps_issued (i : Instr) (s : State) (sym : Nat) : codingSteps (issued i s) sym = codingSteps s sym :=
  codingSteps_congr (s := s) (t := issued i s) rfl rfl rfl sym

theorem storeRoom_issued (i : Instr) (s : State) : StoreRoom (issued i s) ↔ StoreRoom s :=
  storeRoom_congr rfl rfl rfl rfl rfl

theorem EncodedTo.of_issued {i : Instr} {s t : State} {c : Coded} (h : EncodedTo (issued i s) t c) : EncodedTo s t c :=
  ⟨h.low, h.high, h.pending, h.bits, h.bitsOut, h.sunk, h.bytesOut⟩

theorem DecodedTo.of_issued {i : Instr} {s t : State} {c : Coded} (h : DecodedTo (issued i s) t c) : DecodedTo s t c :=
  ⟨h.low, h.high, h.rest, h.code, h.bytesIn⟩

/-! ## The two sides' models -/

theorem byte_lt_alphabet (b : Byte) : b.toNat < 257 := b.isLt.trans (by decide)

/-- Both sides hold the same model: M, H and the store (R38, R40). -/
structure SameModel (s t : State) : Prop where
  build : t.build = s.build
  order : t.order = s.order
  hist : t.hist = s.hist
  store : t.store = s.store

/-- `t` is `s` after the model has counted a literal and pushed it on H (R180, R184). -/
structure LiteralLearned (b : Byte) (s t : State) : Prop where
  build : t.build = s.build
  order : t.order = s.order
  hist : t.hist = historyAfter b s
  store : StoreLearned b.toNat s t

theorem SameModel.codingSteps {s t : State} (h : SameModel s t) (sym : Nat) : codingSteps t sym = codingSteps s sym :=
  codingSteps_congr h.store h.hist h.order sym

theorem SameModel.storeRoom {s t : State} (h : SameModel s t) (hs : Idle s) (ht : Idle t) :
    StoreRoom t ↔ StoreRoom s :=
  storeRoom_congr h.build h.store (by rw [ht.inv.model.nodes, hs.inv.model.nodes, h.store]) h.order h.hist

/-- Models that are the same and learn the same literal stay the same: the store has one form (log 14). -/
theorem SameModel.learned {b : Byte} {s t s' t' : State} (h : SameModel s t) (ks : LiteralLearned b s s')
    (kt : LiteralLearned b t t') (hs : Idle s') (ht : Idle t') : SameModel s' t' := by
  refine ⟨kt.build.trans (h.build.trans ks.build.symm), kt.order.trans (h.order.trans ks.order.symm), ?_, ?_⟩
  · rw [kt.hist, ks.hist, historyAfter, historyAfter, h.order, h.hist]
  · refine store_ext ht.inv.model.sorted hs.inv.model.sorted fun key => ?_
    rw [kt.store key, ks.store key, h.order, h.hist, h.build, h.store]

/-! ## The encoder's side -/

/-- The encoder of an open session is at the coder `c`, whose bits follow `pre` at the sink. -/
structure EncoderAt (pre : List Bool) (s : State) (c : Coded) : Prop where
  session : PpmEncoding s
  coder : c.bare = coded s
  owes : Owes s.build c
  ready : CodedReady s.build c
  written : writtenBits s = pre ++ c.bits

/-- The coding steps of a session continue those before it. -/
theorem EncoderAt.run {pre : List Bool} {s t : State} {c : Coded} {sym : Nat} (h : EncoderAt pre s c)
    (hs : sym < 257) (ht : PpmEncoding t) (hb : t.build = s.build)
    (k : EncodedTo s t ((coded s).run s.build (codingSteps s sym))) :
    EncoderAt pre t (c.run s.build (codingSteps s sym)) := by
  have hlegal := h.session.idle.inv.legal
  have hsplit : c.run s.build (codingSteps s sym) = c.after ((coded s).run s.build (codingSteps s sym)) := by
    rw [run_split, h.coder]
  refine ⟨ht, ?_, ?_, ?_, ?_⟩
  · rw [hsplit]
    exact bare_of _ _ _ _ k.low.symm k.high.symm k.pending.symm
  · rw [hb]
    exact owes_run hlegal _ h.owes
  · rw [hb]
    exact run_ready hlegal _ h.ready (h.session.idle.codingSteps_ok hs)
  · rw [k.bits, h.written, hsplit, List.append_assoc]
    rfl

/-- ENC_BYTE that completes has made the byte's coding steps and learned it; the store had room (R204). -/
theorem EncoderAt.encByte {pre : List Bool} {s t : State} {c : Coded} {b : Byte} (h : EncoderAt pre s c)
    (e : Completes (.encByte b) s t) :
    EncoderAt pre t (c.run s.build (codingSteps s b.toNat)) ∧ LiteralLearned b s t ∧ StoreRoom s := by
  have hidle := e.idle h.session.idle
  have hopen := h.session.issued_open (.encByte b)
  have ⟨hexec, hwait, hst⟩ := e
  obtain ⟨-, u, hu, rfl⟩ := dispatchSession_completes hexec hwait hst
  have hdone := (encByteBody_post b hopen).of_ok hu
  have hw := hdone.writes
  unfold EncByteWrites at hw
  have hsession : PpmEncoding (complete u) :=
    ⟨hidle, by rw [complete_st, hw]; exact h.session.st, by rw [complete_raw, hw]; exact h.session.raw⟩
  have hto := hdone.coded
  rw [codingSteps_issued] at hto
  refine ⟨h.run (byte_lt_alphabet b) hsession e.build hto.of_issued.completed,
    ⟨e.build, ?_, ?_, hdone.store.learned⟩, (storeRoom_issued _ s).mp hdone.room⟩
  · rw [complete_order, hw]; rfl
  · exact hdone.hist.trans (pushHistory_hist_eq hopen.model.history b)

/-- ENC_FINISH that completes has sent a stream that lies in the range after EOF's coding steps (R205, R149). -/
theorem EncoderAt.encFinish {pre B : List Bool} {s t : State} {c : Coded} (h : EncoderAt pre s c)
    (e : Completes .encFinish s t) (hB : t.env.sunk.flatMap byteBits = pre ++ B) :
    Holds s.build B (c.run s.build (codingSteps s 256)) ∧ t.store = s.store ∧ t.hist = s.hist := by
  have hlegal := h.session.idle.inv.legal
  obtain ⟨hexec, hwait, hst⟩ := e
  obtain ⟨-, u, hu, rfl⟩ := dispatchSession_completes hexec hwait hst
  have hdone := (encFinishBody_post (h.session.issued_open .encFinish)).of_ok hu
  have hw := hdone.writes
  unfold EncFinishWrites at hw
  obtain ⟨pad, -, hstream⟩ := hdone.stream
  have hcoded : finishCoded (issued .encFinish s) = ((coded s).run s.build (codingSteps s 256)).finish s.build := by
    have hraw : ¬ (issued .encFinish s).raw = true := by rw [Bool.not_eq_true]; exact h.session.raw
    rw [finishCoded, finishSteps, if_neg hraw, codingSteps_issued]
    rfl
  have hbits : ((c.run s.build (codingSteps s 256)).finish s.build).bits =
      c.bits ++ (((coded s).run s.build (codingSteps s 256)).finish s.build).bits := by
    rw [run_split, h.coder]
    simp [Coded.finish, Coded.emit, Coded.after]
  have hBeq : B = ((c.run s.build (codingSteps s 256)).finish s.build).bits ++ List.replicate pad false := by
    refine List.append_cancel_left (as := pre) (hB.symm.trans (hstream.trans ?_))
    have hwritten : writtenBits (issued .encFinish s) = pre ++ c.bits := h.written
    rw [hcoded, hwritten, hbits]
    simp only [List.append_assoc]
  refine ⟨?_, ?_, ?_⟩
  · rw [hBeq]
    exact holds_finish hlegal (run_ready hlegal _ h.ready (h.session.idle.codingSteps_ok (by decide)))
      (owes_run hlegal _ h.owes) pad
  · rw [complete_store, hw]; rfl
  · rw [complete_hist, hw]; rfl

/-! ## The decoder's side -/

/-- Where the decoder follows, coding steps that keep the stream in the range are those that keep CODE inside. -/
theorem Follows.codeWithin {B : List Bool} {d : State} {c : Coded} (h : Follows B d c) {l : List Interval}
    (hh : Holds d.build B (c.run d.build l)) : CodeWithin d ((coded d).run d.build l) := by
  obtain ⟨r, hr⟩ : ∃ r, r = (coded d).run d.build l := ⟨_, rfl⟩
  have hframe : SameFrame (c.bare.run d.build l) r := hr ▸ run_frame d.build l ⟨h.low, h.high, rfl, rfl⟩
  have hsteps : (c.after (c.bare.run d.build l)).steps = c.steps + r.steps := by rw [hframe.steps]; rfl
  have hoff : (c.after (c.bare.run d.build l)).off = c.off * 2 ^ r.steps + r.off := by
    rw [hframe.off, hframe.steps]; rfl
  have hlow : (c.after (c.bare.run d.build l)).low = r.low := by rw [hframe.low]; rfl
  have hhigh : (c.after (c.bare.run d.build l)).high = r.high := by rw [hframe.high]; rfl
  rw [run_split, Holds, hsteps, hoff, hlow, hhigh, ← Nat.add_assoc d.build.width,
    padded_append (d.build.width + c.steps), bitsValue_append, ← h.rest,
    padded_length, ← h.code, Nat.add_mul] at hh
  rw [← hr, CodeWithin]
  omega

/-- DEC_SYMBOL completes on the symbol whose coding steps keep the stream in the range, a literal where the store has
room for it (R206). -/
theorem PpmDecoding.decSymbol {B : List Bool} {s : State} {c : Coded} {sym : Nat} (h : PpmDecoding s)
    (hf : Follows B s c) (hs : sym < 257) (hh : Holds s.build B (c.run s.build (codingSteps s sym)))
    (hroom : sym ≠ 256 → StoreRoom s) : ∃ t, Completes .decSymbol s t ∧ SourceReadable t ∧ t.result.toNat = sym ∧
      Follows B t (c.run s.build (codingSteps s sym)) ∧ Delivered sym (codingSteps s sym) (issued .decSymbol s) t := by
  have hopen := h.issued_open .decSymbol
  have hread : SourceReadable (issued .decSymbol s) := h.readable
  have hwithin : CodeWithin (issued .decSymbol s) ((coded s).run s.build (codingSteps s sym)) := hf.codeWithin hh
  have hpath := codingSteps_path (issued .decSymbol s) sym
  rw [codingSteps_issued] at hpath
  obtain ⟨⟨⟩, u, hu, hdel, -⟩ := (decSymbolBody_selected hopen h.st hs hpath hwithin).exists_ok
    (by
      rintro c u ⟨-, ⟨-, hstop, -⟩ | ⟨-, hne, hfull, -⟩⟩
      · exact hread.not_fail hstop
      · exact hfull ((storeRoom_issued _ s).mpr (hroom hne)))
    (fun q u ⟨_, hstop, _⟩ => hread.not_silent hstop)
  obtain ⟨_, hdone⟩ := (decSymbolBody_post hopen).of_ok hu
  have ⟨_, hto, _, _, hresult, _, hliteral, heof⟩ := hdel
  have hst : (complete u).st ≠ .error := by
    by_cases h256 : sym = 256
    · rw [(heof h256).1]; decide
    · rw [(hliteral h256).1]; decide
  have hwait : u.portWait = none := by
    have hwrites := hdone.writes
    unfold DecSymbolWrites at hwrites
    rw [hwrites]
    exact h.idle.portWait
  have hvalid : (decide (s.st = .dec) && !s.raw) = true := by rw [h.st, h.raw]; rfl
  have hexec : Completes .decSymbol s (complete u) := ⟨dispatchSession_of_ok h.st_ne hvalid hu, hwait, hst⟩
  refine ⟨complete u, hexec, hread.suffix hdone.moves, ?_, hf.next hexec.build hto.of_issued, hdel⟩
  rw [hresult, BitVec.toNat_ofNat]
  omega

/-! ## In step -/

/-- The decoder of an open session holds the encoder's model and is at its coder on the stream `B`. -/
structure DecoderAt (B : List Bool) (e d : State) (c : Coded) : Prop where
  session : PpmDecoding d
  model : SameModel e d
  follows : Follows B d c

/-- DEC_SYMBOL takes the byte's coding steps and learns what the encoder has learned. -/
theorem DecoderAt.literal {B : List Bool} {e d e' : State} {c : Coded} {b : Byte} (h : DecoderAt B e d c)
    (he : Idle e) (he' : Idle e') (hl : LiteralLearned b e e') (hroom : StoreRoom e)
    (hh : Holds e.build B (c.run e.build (codingSteps e b.toNat))) : ∃ d', Completes .decSymbol d d' ∧
      d'.result.toNat = b.toNat ∧ DecoderAt B e' d' (c.run e.build (codingSteps e b.toNat)) := by
  have hne : b.toNat ≠ 256 := b.isLt.ne
  rw [← h.model.build, ← h.model.codingSteps] at hh ⊢
  obtain ⟨d', hd, hread, hresult, hf, hdel⟩ := h.session.decSymbol h.follows (byte_lt_alphabet b) hh
    fun _ => (h.model.storeRoom he h.session.idle).mpr hroom
  obtain ⟨hw, -, -, -, -, -, hliteral, -⟩ := hdel
  obtain ⟨hst, -, hstore, -, hhist⟩ := hliteral hne
  rw [BitVec.ofNat_toNat, BitVec.setWidth_eq] at hhist
  unfold DecSymbolWrites at hw
  have hidle := hd.idle h.session.idle
  have hlearned : LiteralLearned b d d' := ⟨hd.build, by rw [hw]; rfl, hhist, hstore⟩
  exact ⟨d', hd, hresult, ⟨hidle, hst, by rw [hw]; exact h.session.raw, hread⟩,
    h.model.learned hl hlearned he' hidle, hf⟩

/-- DEC_SYMBOL on EOF's coding steps ends the session with the encoder's model. -/
theorem DecoderAt.eof {B : List Bool} {e d : State} {c : Coded} (h : DecoderAt B e d c)
    (hh : Holds e.build B (c.run e.build (codingSteps e 256))) : ∃ u, Completes .decSymbol d u ∧
      u.result.toNat = 256 ∧ u.eof = true ∧ u.st = .done ∧ u.store = e.store ∧ u.hist = e.hist := by
  rw [← h.model.build, ← h.model.codingSteps] at hh
  obtain ⟨u, hd, -, hresult, -, hdel⟩ := h.session.decSymbol h.follows (by decide) hh (absurd rfl)
  obtain ⟨-, -, -, -, -, -, -, heof⟩ := hdel
  obtain ⟨hst, hdone, hstore, -, hhist⟩ := heof rfl
  exact ⟨u, hd, hresult, hdone, hst, hstore.trans h.model.store, hhist.trans h.model.hist⟩

/-- Where the encoder goes on to send `B` after `pre`, the stream lies in its range, and a decoder in step with it gives
the bytes still to come and then EOF. -/
theorem EncoderAt.decompresses {pre B : List Bool} {bytes : List Byte} {e t : State} {c : Coded}
    (h : EncoderAt pre e c) (he : CompletesAll (bytes.map .encByte ++ [.encFinish]) e t)
    (hB : t.env.sunk.flatMap byteBits = pre ++ B) : Holds e.build B c ∧ ∀ d, DecoderAt B e d c →
      ∃ u, Decompresses (bytes.map BitVec.toNat ++ [256]) d u ∧
        u.eof = true ∧ u.st = .done ∧ u.store = t.store ∧ u.hist = t.hist := by
  have hidle := h.session.idle
  have hrun : ∀ {sym}, sym < 257 → Holds e.build B (c.run e.build (codingSteps e sym)) → Holds e.build B c :=
    fun hs => holds_run hidle.inv.legal _ h.ready (hidle.codingSteps_ok hs)
  induction bytes generalizing e c with
  | nil =>
    obtain ⟨t', hfinish, rfl⟩ := he
    obtain ⟨hh, hstore, hhist⟩ := h.encFinish hfinish hB
    refine ⟨hrun (by decide) hh, fun d hd => ?_⟩
    obtain ⟨u, hu, hresult, heof, hst, hus, huh⟩ := hd.eof hh
    exact ⟨u, ⟨u, hu, hresult, rfl⟩, heof, hst, hus.trans hstore.symm, huh.trans hhist.symm⟩
  | cons b bytes ih =>
    obtain ⟨e', hbyte, hrest⟩ := he
    obtain ⟨h', hl, hroom⟩ := h.encByte hbyte
    have hidle' := h'.session.idle
    obtain ⟨hh, hnext⟩ := ih h' hrest hidle'
      fun hs => holds_run hidle'.inv.legal _ h'.ready (hidle'.codingSteps_ok hs)
    rw [hbyte.build] at hh
    refine ⟨hrun (byte_lt_alphabet b) hh, fun d hd => ?_⟩
    obtain ⟨d', hd', hresult, hstep⟩ := hd.literal hidle hidle' hl hroom hh
    obtain ⟨u, hu, hend⟩ := hnext d' hstep
    exact ⟨u, ⟨d', hd', hresult, hu⟩, hend⟩

/-! ## The starts -/

/-- ENC_START completes only where its checks pass (R202). -/
theorem encStart_completes {order : Int} {s t : State} (h : Idle s) (e : Completes (.encStart order 257 false) s t) :
    StartAccepted s.build order 257 false ∧
      t = complete (opened .encode order false (issued (.encStart order 257 false) s)) := by
  have hlegal : (issued (.encStart order 257 false) s).build.legal = true := h.inv.legal
  obtain ⟨hexec, -, hst⟩ := e
  by_cases horder : -1 ≤ order ∧ order ≤ s.build.maxOrder
  · have ha : StartAccepted s.build order 257 false := ⟨rfl, horder⟩
    have hopened := congrArg (finishCommand 0x01#8 s.st)
      (encStart_accepted (s := issued (.encStart order 257 false) s) hlegal ha)
    exact ⟨ha, (Host.Outcome.next.inj (hopened.symm.trans hexec)).symm⟩
  · obtain ⟨-, -, -, hbad⟩ := start_refusals (s := issued (.encStart order 257 false) s) hlegal .encode
      (order := order) (alpha := 257) (rawf := false) 0x01#8
    cases (hbad rfl rfl horder).symm.trans hexec
    exact absurd rfl hst

theorem encStart_encoderAt {order : Int} {s t : State} (h : Idle s) (e : Completes (.encStart order 257 false) s t) :
    EncoderAt (s.env.sunk.flatMap byteBits) t (Coded.start s.build) := by
  obtain ⟨-, rfl⟩ := encStart_completes h e
  exact ⟨⟨e.idle h, rfl, rfl⟩, rfl, start_owes _, start_ready h.inv.legal, rfl⟩

/-- DEC_START completes on a readable source where ENC_START's checks pass, and follows the coder at its start on the
source's bits, with the model of an encoder that has just started (R203, R151). -/
theorem decStart_completes {order : Int} {s : State} (h : Idle s) (ha : StartAccepted s.build order 257 false)
    (hsrc : SourceReadable s) : ∃ t, Completes (.decStart order 257 false) s t ∧ PpmDecoding t ∧
      SameModel (opened .encode order false s) t ∧
      Follows ((sourceBytes s.env.source).flatMap byteBits) t (Coded.start s.build) := by
  have hreadable : SourceReadable (opened .decode order false (issued (.decStart order 257 false) s)) := hsrc
  obtain ⟨⟨⟩, u, hu, -, honly, hrest, -, hsuf, hcode, hlow, hhigh, -⟩ :=
    (decInit_post (s := opened .decode order false (issued (.decStart order 257 false) s)) h.inv.legal rfl rfl rfl
      (Nat.zero_le _)).exists_ok
      (fun _ _ ⟨_, hstop, _⟩ => hreadable.not_fail hstop) (fun _ _ ⟨hstop, _⟩ => hreadable.not_silent hstop)
  have hbuild : u.build = s.build := honly.build
  have hw := honly.opened_writes hlow hhigh
  have hst : u.st = .dec := by rw [hw]; rfl
  have hraw : u.raw = false := by rw [hw]; rfl
  have hwait : u.portWait = none := by rw [hw]; exact h.portWait
  have hexec : Completes (.decStart order 257 false) s (complete u) := by
    refine ⟨?_, hwait, by rw [complete_st, hst]; decide⟩
    have hrule := (decStart_accepted (s := issued (.decStart order 257 false) s) h.inv.legal ha).trans hu
    exact congrArg (finishCommand 0x02#8 s.st) hrule
  refine ⟨complete u, hexec, ⟨hexec.idle h, hst, hraw, hreadable.suffix hsuf⟩, ⟨hbuild, ?_, ?_, ?_⟩,
    hlow, hhigh, ?_, ?_⟩
  · rw [complete_order, hw]; rfl
  · rw [complete_hist, hw]; rfl
  · rw [complete_store, hw]; rfl
  · rw [complete_code, complete_build, hbuild]
    exact hcode
  · rw [complete_build, hbuild]
    exact hrest

/-- Settles O57: the stream lies in the range of every coder the encoder has been at (`EncoderAt.decompresses`), so the
decoder, which starts with the same model, takes the same coding steps and learns the same bytes. -/
theorem ppmRoundTrip : Obligations.PpmRoundTrip := by
  rintro order bytes stream s t d hs hd hbuild ⟨e, hstart, he⟩ hsunk hsource
  have henc := encStart_encoderAt hs hstart
  obtain ⟨haccepted, rfl⟩ := encStart_completes hs hstart
  obtain ⟨-, hdecompresses⟩ := henc.decompresses he (by rw [hsunk, List.flatMap_append])
  rw [← hbuild] at haccepted
  obtain ⟨d0, hd0, hsession, hmodel, hfollows⟩ := decStart_completes hd haccepted (sourceReadable_of_bytes hsource)
  rw [hsource, sourceBytes_map, hbuild] at hfollows
  obtain ⟨u, hu⟩ := hdecompresses d0 ⟨hsession,
    ⟨hmodel.build.trans hbuild, hmodel.order, hmodel.hist, hmodel.store⟩, hfollows⟩
  exact ⟨d0, u, hd0, hu⟩

end Sys2Proof.Machine
end

section
/-! Session errors (60_exceptions.md): their numbers, their causes in a PPM session, and STATE = ERROR. -/

namespace Sys2Proof.Machine

/-! ## What an error writes (R241 to R244) -/

/-- Settles O18: R244 is what `enterError` writes. -/
theorem errorEntry : Obligations.ErrorEntry := fun _ _ _ _ => rfl

/-- Settles O19: cause by cause, and the ERR word by `errWord_toNat`. -/
theorem errorCodes : Obligations.ErrorCodes := by
  refine ⟨by decide, fun c => ⟨c.code.bits.toNat, c.sub.toNat, ?_⟩, errWord_toNat⟩
  cases c <;> decide

/-! ## The errors of a PPM session (R249) -/

/-- A command that ends in ERROR, and whose rule does not itself go there, has raised one of its rule's causes. -/
theorem StaysIn.errPair {W : State → State → Prop} {l : List Cause} {opc : BitVec 8} {st : SessionState} {s t : State}
    {r : Res Unit} (hrow : StaysIn W l s r) (hopen : Throughout (fun u => u.st ≠ .error) r)
    (e : finishCommand opc st r = .next t) (ht : t.st = .error) : (t.err.code, t.err.sub) ∈ errPairs l := by
  refine finishCommand_rule (Q := fun t => t.st = .error → (t.err.code, t.err.sub) ∈ errPairs l)
    ((Res.Post.and hrow hopen).imp ?_ ?_ ?_) e ht
  · rintro _ u ⟨-, hu⟩ herror
    exact absurd herror hu
  · rintro c u ⟨⟨-, hc⟩, hu⟩ -
    obtain ⟨-, herr, -⟩ := raised_enterError hu opc c
    rw [herr]
    exact List.mem_map_of_mem hc
  · rintro _ u ⟨-, hu⟩ herror
    exact absurd herror hu

/-- Settles O24: the three rules raise the causes of their rows of R213 and do not end in ERROR otherwise. -/
theorem ppmErrors : Obligations.PpmErrors := by
  intro s t h hraw
  refine ⟨fun b he e ht => ?_, fun he e ht => ?_, fun hd e ht => ?_⟩
  · rw [exec_encByte he hraw] at e
    exact (encByteBody_row h he b).errPair ((encByteBody_untouched h he b).imp fun _ k => k.1.2) e ht
  · rw [exec_encFinish he] at e
    exact (encFinishBody_row h he).errPair ((encFinishBody_untouched h he).imp fun _ k => k.1.2) e ht
  · rw [exec_decSymbol hd hraw] at e
    have hopen := (decSymbolBody_delivers h hd).imp (fun _ _ k => k.1.2) (fun _ _ k => k.1.2) (fun _ _ k => k.1.2)
    exact (decSymbolBody_row h hd).errPair hopen e ht

/-! ## In ERROR (R246) -/

/-- Settles O21, by the words ignored in ERROR and what `raise` does there. -/
theorem errorKeepsFirst : Obligations.ErrorKeepsFirst := by
  intro s w hst opc imm
  exact ⟨runWord_ignored hst, fun _ => runWord_reserved_ignored hst, fun c opc => enterError_of_error hst opc c⟩

/-! ## Out of ERROR (R247) -/

theorem HostOnly.st {s t : State} (h : HostOnly s t) : t.st = s.st := by
  unfold HostOnly at h; rw [h]

theorem idleWrite_st (offset : BitVec 8) (bytes : Nat) (v : Word) (s : State) :
    (idleWrite offset bytes v s).st = s.st := by
  rcases idleWrite_cases offset bytes v s with h | h
  · rw [h]
  · exact h.st

/-- No access of the host changes STATE. -/
theorem landAccess_st (a : Access) (s : State) : (landAccess a s).st = s.st := by
  cases hb : s.busy with
  | true => rw [landAccess_busy hb]; exact (busyAccess_only _ a s).st
  | false =>
    rw [landAccess_idle hb]
    cases a with
    | read offset bytes => exact (idleRead_only offset bytes s).st
    | write offset bytes v => exact idleWrite_st offset bytes v s

/-- Of all that arrives only reset changes STATE. -/
theorem land_st {a : Arrival} (ha : a ≠ .assertReset) (s : State) : (land a s).st = s.st := by
  cases a with
  | access a l =>
    rw [land_access]
    split
    · rfl
    · exact landAccess_st a s
  | assertReset => exact absurd rfl ha
  | releaseReset | connectSource _ | connectSink _ => rfl

/-- STATE is `st`, and nothing of an earlier session is left in ERR, H and the counters that R247 names. -/
def FreshIn (st : SessionState) (t : State) : Prop :=
  t.st = st ∧ t.err = .clear ∧ t.hist = [] ∧ t.syms = 0 ∧ t.bitsOut = 0 ∧ t.bytesOut = 0

theorem opened_fresh (d : Direction) (order : Int) (rawf : Bool) (s : State) :
    FreshIn (openState d) (opened d order rawf s) := ⟨rfl, rfl, rfl, rfl, rfl, rfl⟩

theorem DecoderOnly.fresh {st : SessionState} {s t : State} (h : DecoderOnly s t) (k : FreshIn st s) :
    FreshIn st t := by
  unfold DecoderOnly at h; rw [h]; exact k

theorem HostOnly.fresh {st : SessionState} {s t : State} (h : HostOnly s t) (k : FreshIn st s) : FreshIn st t := by
  unfold HostOnly at h; rw [h]; exact k

/-- A START that does not end in ERROR opens a fresh session, also where it waits on the source (R202). -/
theorem start_fresh {d : Direction} {order : Int} {alpha : Nat} {rawf : Bool} {opc : BitVec 8} {s t : State}
    (hb : s.build.legal = true) (e : finishCommand opc s.st (start d order alpha rawf s) = .next t)
    (ht : t.st ≠ .error) : FreshIn (openState d) t := by
  rcases start_cases hb e with ⟨-, -, rfl⟩ | ⟨c, -, rfl⟩ | ⟨rfl, rfl⟩ | ⟨rfl, hf⟩
  · exact absurd rfl ht
  · exact absurd rfl ht
  · exact opened_fresh .encode order rawf s
  · have hpost := decInit_post (s := opened .decode order rawf s) hb rfl rfl rfl (Nat.zero_le _)
    have hopen := opened_fresh .decode order rawf s
    rcases finishCommand_cases hf with ⟨u, hu, rfl⟩ | ⟨c, u, -, rfl⟩ | ⟨q, u, hu, rfl⟩
    · obtain ⟨-, honly, -⟩ := hpost.of_ok hu
      exact honly.fresh hopen
    · exact absurd rfl ht
    · obtain ⟨-, hstopped, -⟩ := hpost.of_waiting hu
      exact hstopped.only.fresh hopen

/-- So does a word of START, whose reserved bits are refused (R202, R81). -/
theorem startRule_fresh {d : Direction} {imm : Nat} {opc : BitVec 8} {s t : State} (hb : s.build.legal = true)
    (e : finishCommand opc s.st (startRule d imm s) = .next t) (ht : t.st ≠ .error) : FreshIn (openState d) t := by
  unfold startRule at e
  split at e
  · cases e
    exact absurd rfl ht
  · exact start_fresh hb e ht

/-- The words that leave ERROR, each with the STATE it leads to (R246, R247). -/
theorem runWord_leaves_error {w : Word} {s t : State} (hb : s.build.legal = true) (hst : s.st = .error)
    (e : runWord w s = .next t) (ht : t.st ≠ .error) : ∃ st, FreshIn st t ∧
      ((w.toNat / 2 ^ 24 = 0x0F ∧ st = .idle) ∨ (w.toNat / 2 ^ 24 = 0x01 ∧ st = .enc) ∨
        (w.toNat / 2 ^ 24 = 0x02 ∧ st = .dec)) := by
  obtain ⟨-, -, hdispatch, -⟩ := commandAcceptance s w
  by_cases hopc : w.toNat / 2 ^ 24 ∈ [0x01, 0x02, 0x0F]
  · rw [hdispatch, dispatchRule, if_neg fun k => k.2 hopc] at e
    simp only [List.mem_cons, List.not_mem_nil, or_false] at hopc
    rcases hopc with h | h | h <;> rw [h] at e
    · exact ⟨.enc, startRule_fresh hb e ht, .inr (.inl ⟨h, rfl⟩)⟩
    · exact ⟨.dec, startRule_fresh hb e ht, .inr (.inr ⟨h, rfl⟩)⟩
    · cases e
      exact ⟨.idle, ⟨rfl, rfl, rfl, rfl, rfl, rfl⟩, .inl ⟨h, rfl⟩⟩
  · rw [runWord_ignored hst hopc] at e
    cases e
    exact absurd hst ht

/-- Settles O22: what arrives leaves ERROR by reset alone, and a command in flight by `runWord_leaves_error`. -/
theorem waysOutOfError : Obligations.WaysOutOfError := by
  intro s t h hst e ht
  rcases step_cases e with ⟨a, rest, harr, rfl⟩ | ⟨-, rfl⟩ | ⟨w, u, hw, -, hu, hlate⟩
  · by_cases ha : a = .assertReset
    · subst ha
      exact ⟨rfl, rfl, rfl, rfl, rfl, .inl ⟨rest, harr, rfl⟩⟩
    · exact absurd ((land_st ha (dropArrivals rest s)).trans hst) ht
  · exact absurd hst ht
  · obtain ⟨st, hfresh, hway⟩ := runWord_leaves_error h.legal hst hu (hlate.st ▸ ht)
    obtain ⟨rfl, herr, hhist, hsyms, hbits, hbytes⟩ := hlate.fresh hfresh
    exact ⟨herr, hhist, hsyms, hbits, hbytes, .inr ⟨w, hw, hway⟩⟩

end Sys2Proof.Machine
end

section
/-! Where the ports answer, every word completes, with bounded work (70_reset_and_hazards.md R276, R281). -/

namespace Sys2Proof.Machine

/-! ## Rules that wait on no port -/

/-- The rule does not end at a port that never answers. -/
def NoWait (r : Res Unit) : Prop := r.Post (fun _ _ => True) (fun _ _ => True) (fun _ _ => False)

theorem Res.Post.noWait {r : Res Unit} {P : Unit → State → Prop} {E : Cause → State → Prop}
    {W : PortRequest → State → Prop} (h : r.Post P E W) (hw : ∀ q u, ¬ W q u) : NoWait r :=
  h.imp (fun _ _ _ => trivial) (fun _ _ _ => trivial) hw

section
variable {s : State} (h : MayRun s)
include h

theorem encByteBody_noWait (hsink : SinkAnswers s) (he : s.st = .enc) (b : Byte) : NoWait (encByteBody b s) :=
  (encByteBody_post b (h.encodeOpen he)).noWait fun _ _ ⟨hstop, _⟩ => hsink.not_silent hstop

/-- ENC_FINISH sends one number of bytes or the other, as PENDING fits or not; the sink is silent at none. -/
theorem encFinishBody_noWait (hsink : SinkAnswers s) (he : s.st = .enc) : NoWait (encFinishBody s) := by
  refine (encFinishBody_post (h.encodeOpen he)).noWait ?_
  rintro _ u ⟨⟨hfits, hfull⟩, -⟩
  by_cases hf : FinishFits s
  · exact hsink.not_silent (hfits hf)
  · exact hsink.not_silent (hfull hf)

theorem rawEncBody_noWait (hsink : SinkAnswers s) (he : s.st = .enc) : NoWait (rawEncBody s) :=
  (rawEncBody_post (h.encodeOpen he)).noWait fun _ _ ⟨hstop, _⟩ => hsink.not_silent hstop

theorem decSymbolBody_noWait (hsrc : SourceAnswers s) (he : s.st = .dec) : NoWait (decSymbolBody s) :=
  (decSymbolBody_post (h.decodeOpen he)).noWait fun _ _ ⟨hstop, _⟩ => hsrc.not_silent hstop

theorem rawDecTargetBody_noWait (he : s.st = .dec) : NoWait (rawDecTargetBody s) :=
  (rawDecTargetBody_post (h.decodeOpen he)).noWait fun _ _ hf => hf

theorem rawDecApplyBody_noWait (hsrc : SourceAnswers s) (he : s.st = .dec) : NoWait (rawDecApplyBody s) :=
  (rawDecApplyBody_post (h.decodeOpen he)).noWait fun _ _ ⟨hstop, _⟩ => hsrc.not_silent hstop

end

theorem rawDecEndBody_noWait (s : State) : NoWait (rawDecEndBody s) := trivial

/-- START waits only in decInit, on the source (R203). -/
theorem start_noWait {s : State} (hb : s.build.legal = true) (hsrc : SourceAnswers s) (d : Direction) (order : Int)
    (alpha : Nat) (rawf : Bool) : NoWait (start d order alpha rawf s) := by
  rw [start_eq hb]
  split
  · trivial
  split
  · trivial
  split
  · trivial
  cases d with
  | encode => trivial
  | decode =>
    have hopen : SourceAnswers (opened .decode order rawf s) := hsrc
    exact (decInit_post (s := opened .decode order rawf s) hb rfl rfl rfl (Nat.zero_le _)).noWait
      fun _ _ ⟨hstop, _⟩ => hopen.not_silent hstop

/-! ## Commands that leave no transaction outstanding -/

section
variable {s t : State} (h : MayRun s)
include h

theorem finishCommand_portWait {opc : BitVec 8} {st : SessionState} {r : Res Unit} (hk : BodyOk s r) (hr : NoWait r)
    (e : finishCommand opc st r = .next t) : t.portWait = none := by
  rcases finishCommand_cases e with ⟨u, hu, rfl⟩ | ⟨c, u, hu, rfl⟩ | ⟨q, u, hu, -⟩
  · exact (hk.of_ok hu).1.wait.trans h.wait
  · exact (hk.of_raised hu).wait.trans h.wait
  · exact (hr.of_waiting hu).elim

theorem dispatchSession_portWait {opc : BitVec 8} {valid : Bool} {body : State → Res Unit}
    (hb : valid = true → BodyOk s (body s) ∧ NoWait (body s)) (e : dispatchSession opc valid body s = .next t) :
    t.portWait = none := by
  rcases dispatchSession_cases e with ⟨-, rfl⟩ | ⟨-, -, rfl⟩ | ⟨-, hv, hf⟩
  · exact h.wait
  · exact h.wait
  · exact finishCommand_portWait h (hb hv).1 (hb hv).2 hf

variable (hsink : SinkAnswers s) (hsrc : SourceAnswers s)
include hsink hsrc

/-- Each command's rule is in order and waits on no port, START's in every STATE, the others where they are valid. -/
theorem exec_portWait {i : Instr} (e : exec i s = .next t) : t.portWait = none := by
  have hstart : ∀ d o a r, NoWait (start d o a r s) := start_noWait h.inv.legal hsrc
  cases i with
  | encStart o a r => exact finishCommand_portWait h (start_ok h .encode o a r) (hstart .encode o a r) e
  | decStart o a r => exact finishCommand_portWait h (start_ok h .decode o a r) (hstart .decode o a r) e
  | encByte b =>
    refine dispatchSession_portWait h (fun hv => ?_) e
    exact ⟨encByteBody_ok h b (st_of_valid hv), encByteBody_noWait h hsink (st_of_valid hv) b⟩
  | encFinish =>
    refine dispatchSession_portWait h (fun hv => ?_) e
    exact ⟨encFinishBody_ok h (of_decide_eq_true hv), encFinishBody_noWait h hsink (of_decide_eq_true hv)⟩
  | decSymbol =>
    refine dispatchSession_portWait h (fun hv => ?_) e
    exact ⟨decSymbolBody_ok h (st_of_valid hv), decSymbolBody_noWait h hsrc (st_of_valid hv)⟩
  | rawEnc =>
    refine dispatchSession_portWait h (fun hv => ?_) e
    exact ⟨rawEncBody_ok h (st_of_valid hv), rawEncBody_noWait h hsink (st_of_valid hv)⟩
  | rawDecTarget =>
    refine dispatchSession_portWait h (fun hv => ?_) e
    exact ⟨rawDecTargetBody_ok h (st_of_valid hv), rawDecTargetBody_noWait h (st_of_valid hv)⟩
  | rawDecApply =>
    refine dispatchSession_portWait h (fun hv => ?_) e
    exact ⟨rawDecApplyBody_ok h (st_of_valid hv), rawDecApplyBody_noWait h hsrc (st_of_valid hv)⟩
  | rawDecEnd => exact dispatchSession_portWait h (fun _ => ⟨rawDecEndBody_ok h, rawDecEndBody_noWait s⟩) e
  | abort imm => cases e; exact h.wait

theorem runWord_portWait {w : Word} (e : runWord w s = .next t) : t.portWait = none :=
  runWord_rule (Q := fun t => t.portWait = none) (fun _ => exec_portWait h hsink hsrc) h.wait (fun _ _ => h.wait) e

end

/-- In any state at all the run of any word is a next state. -/
theorem runWord_next (w : Word) (s : State) : ∃ t, runWord w s = .next t := by
  cases hd : decode w with
  | ok i =>
    obtain ⟨t, ht, -⟩ := exec_same i s
    exact ⟨t, (runWord_of_ok hd s).trans ht⟩
  | error r => exact ⟨_, runWord_of_error hd s⟩

/-! ## Bounded work -/

/-- A decoder makes at most one coding step at each order of its descent, and one at order -1. -/
theorem DecodePath.length_le {s : State} {sym n : Nat} {l : List Interval} (h : DecodePath s sym n l) :
    l.length ≤ n + 1 := by
  induction n generalizing l with
  | zero =>
    have hl : l = [symbolInterval uniformTable sym] := h
    rw [hl, List.length_singleton]
  | succ n ih =>
    unfold DecodePath at h
    split at h
    · exact Nat.le_succ_of_le (ih h)
    · rcases h with ⟨-, -, rfl⟩ | ⟨rest, rfl, hrest⟩
      · exact Nat.succ_le_succ (Nat.zero_le _)
      · exact Nat.succ_le_succ (ih hrest)

theorem missingFrom_le (s : State) (n k : Nat) : missingFrom s n k ≤ n := by
  induction n generalizing k with
  | zero => exact Nat.le_refl 0
  | succ n ih =>
    have hrest := ih (k + 1)
    unfold missingFrom
    split <;> omega

theorem DecodePath.length_le_hist {s : State} {sym : Nat} {l : List Interval}
    (h : DecodePath s sym (descentOrders s) l) : l.length ≤ s.hist.length + 2 :=
  h.length_le.trans (Nat.succ_le_succ (descentOrders_le s))

/-- Settles O16: no rule waits where the ports answer, and the encoder's coding steps are a decoder's path. -/
theorem commandsComplete : Obligations.CommandsComplete := by
  refine ⟨fun s h hsink hsrc w => ?_, fun s sym => ⟨?_, ?_⟩, fun s sym l => DecodePath.length_le_hist⟩
  · obtain ⟨t, ht⟩ := runWord_next w s
    have hwait : t.portWait = none := runWord_portWait h hsink hsrc ht
    exact ⟨t, ht, by rw [State.busy, runWord_ended ht hwait]; rfl, hwait⟩
  · exact DecodePath.length_le_hist (codingSteps_path s sym)
  · exact (missingFrom_le s _ 0).trans (descentOrders_le s)

end Sys2Proof.Machine
end

section
/-! What no step changes, what reset leaves, a port that never answers (70_reset_and_hazards.md R270, R272, R277). -/

namespace Sys2Proof.Machine

/-! ## The build (R272) -/

theorem HostOnly.build {s t : State} (h : HostOnly s t) : t.build = s.build := by
  unfold HostOnly at h; rw [h]

theorem landAccess_build (a : Access) (s : State) : (landAccess a s).build = s.build := by
  cases hb : s.busy with
  | true => rw [landAccess_busy hb]; exact (busyAccess_only _ a s).build
  | false =>
    rw [landAccess_idle hb]
    cases a with
    | read offset bytes => exact (idleRead_only offset bytes s).build
    | write offset bytes v =>
      change (idleWrite offset bytes v s).build = s.build
      rcases idleWrite_cases offset bytes v s with h | h
      · rw [h]
      · exact h.build

/-- Nothing that arrives changes the build, reset included. -/
theorem land_build (a : Arrival) (s : State) : (land a s).build = s.build := by
  cases a with
  | access a l =>
    rw [land_access]
    split
    · rfl
    · exact landAccess_build a s
  | assertReset | releaseReset | connectSource _ | connectSink _ => rfl

theorem step_build {s t : State} (e : step s = .next t) : t.build = s.build := by
  rcases step_cases e with ⟨a, rest, -, rfl⟩ | ⟨-, rfl⟩ | ⟨w, u, -, -, hu, hlate⟩
  · exact land_build a (dropArrivals rest s)
  · rfl
  · obtain ⟨-, -, -, hbuild, -⟩ := runWord_same hu
    exact hlate.build.trans hbuild

/-- The registers that show constants of the build. -/
def buildRegs : List Reg := [.id, .param0, .param1, .param2]

/-- They read the same, busy or not (R61, R65). -/
theorem landAccess_read_buildReg {r : Reg} (hr : r ∈ buildRegs) (s : State) :
    landAccess (.read (regOffset r) 4) s = logRead (regValue r s) s := by
  cases hb : s.busy with
  | false => exact landAccess_idle_read hb (regAt_regOffset r)
  | true =>
    rw [landAccess_busy_read hb]
    unfold busyRead
    rw [reached_eq_some.mpr ⟨rfl, rfl⟩]
    fin_cases hr <;> rfl

/-- Settles O13: the build by `step_build`, the four registers by `landAccess_read_buildReg`. -/
theorem buildConstants : Obligations.BuildConstants := by
  refine ⟨fun s t => step_build, fun s => ⟨rfl, ?_, ?_, ?_, ?_⟩⟩
  · exact landAccess_read_buildReg (r := .id) (by decide) s
  · exact landAccess_read_buildReg (r := .param0) (by decide) s
  · exact landAccess_read_buildReg (r := .param1) (by decide) s
  · exact landAccess_read_buildReg (r := .param2) (by decide) s

/-! ## Reset (R270) -/

theorem land_access_inReset {s : State} (h : s.inReset = true) (a : Access) (l : Landing) :
    land (.access a l) s = s := by
  rw [land_access, if_pos h]

theorem coreMove_idle {s : State} (h : s.pendingCmd = none) : coreMove s = .next s := by
  unfold coreMove; rw [h]

/-- Settles O14: reset lands at once in every state, and its values are those of `State.resetOf`. -/
theorem resetLeaves : Obligations.ResetLeaves :=
  ⟨fun _ _ h => step_lands h rfl, fun _ a l h => land_access_inReset h a l,
    fun s => ⟨rfl, coreMove_idle (assertReset_pendingCmd s)⟩, fun _ => rfl⟩

/-! ## A port that never answers (R277) -/

theorem snkWrite_of_silent {s : State} {rest : List SnkAnswer} (h : s.env.sink = .silent :: rest) (b : Byte) :
    snkWrite b s = .waiting (.snkWrite b) s := by
  simp [snkWrite, h]

theorem srcRead_of_silent {s : State} {rest : List SrcAnswer} (h : s.env.source = .silent :: rest) :
    srcRead s = .waiting .srcRead s := by
  simp [srcRead, h]

theorem HostOnly.inFlight {s t : State} (h : HostOnly s t) :
    t.pendingCmd = s.pendingCmd ∧ t.portWait = s.portWait := by
  unfold HostOnly at h; rw [h]; exact ⟨rfl, rfl⟩

theorem busy_of_pendingCmd {s : State} {w : Word} (h : s.pendingCmd = some w) : s.busy = true := by
  rw [State.busy, h]; rfl

/-- Of all that arrives while BUSY = 1 only reset touches the command in flight and its transaction. -/
theorem land_inFlight {s : State} {a : Arrival} (hb : s.busy = true) (ha : a ≠ .assertReset) :
    (land a s).pendingCmd = s.pendingCmd ∧ (land a s).portWait = s.portWait := by
  cases a with
  | access a l =>
    rw [land_access]
    split
    · exact ⟨rfl, rfl⟩
    · rw [landAccess_busy hb]; exact (busyAccess_only _ a s).inFlight
  | assertReset => exact absurd rfl ha
  | releaseReset | connectSource _ | connectSink _ => exact ⟨rfl, rfl⟩

theorem coreMove_stuck {s : State} {w : Word} {p : PortWait} (hw : s.pendingCmd = some w) (hp : s.portWait = some p) :
    coreMove s = .fault .portSilent := by
  unfold coreMove; rw [hw, hp]

theorem step_coreMove {s : State} (h : nextArrival s = none) : step s = coreMove s := by
  unfold step; rw [h]

/-- Settles O15: the wait at either port, and what does and does not end it. -/
theorem silentPort : Obligations.SilentPort := by
  refine ⟨fun _ _ b h => snkWrite_of_silent h b, fun _ _ => srcRead_of_silent, fun _ _ _ _ => rfl, ?_⟩
  intro s w p hw hp
  have hb := busy_of_pendingCmd hw
  have hstuck := coreMove_stuck hw hp
  refine ⟨hstuck, hb, fun hn => (step_coreMove hn).trans hstuck, fun v => ?_, fun a ha => ?_, rfl, rfl⟩
  · exact (droppedWhileBusy s 0x04#8 v (by decide)).1 hb
  · obtain ⟨hcmd, hwait⟩ := land_inFlight hb ha
    exact ⟨hcmd.trans hw, hwait.trans hp⟩

end Sys2Proof.Machine
end
